-- ==== Sys2Proof/Word.lean ====
section
/-! DEFINITION. The byte, and the numbers of blocks, pages, slots, lanes and transmit buffers (R20, R101). -/

namespace Sys2Proof

/-- One byte, as the port, the bus and the flash array carry it. -/
abbrev Byte := BitVec 8
/-- A block of the flash array, 0 to 255 (R20). -/
abbrev BlockId := Fin 256
/-- A page of a block, 0 to 31 (R20). -/
abbrev PageNo := Fin 32
/-- A slot of a page, 0 to 7 (R20). -/
abbrev SlotNo := Fin 8
/-- A lane of the array, 0 to 3 (R20). -/
abbrev Lane := Fin 4
/-- One of the two transmit buffers (R101). -/
abbrev BufferNo := Fin 2

end Sys2Proof
end

