-- ==== Sys2Proof/Syntax.lean ====
section
/-! DEFINITION. What the commands of spec/opcode_table.json carry, and the commands themselves: Instr, one constructor
for each row. Cells of the array are named fields, as the spec gives them (1.2, 2.2). -/

namespace Sys2Proof

/-- The key of a record: (origin, seq) (R1). -/
structure Key where
  origin : Nat
  seq : Nat
deriving DecidableEq, Repr

/-- A record: its key, class, stamp and payload (1.1). -/
structure Record where
  key : Key
  cls : Nat
  stamp : BitVec 32
  payload : List Byte
deriving DecidableEq, Repr

/-- A slot of the array: (block, page, slot) (R20). -/
structure Loc where
  block : BlockId
  page : PageNo
  slot : SlotNo
deriving DecidableEq, Repr

/-- The data cells of one slot: erased, or the fields a pass writes (R3), whatever they now read as. -/
inductive SlotData where
  | erased
  | cells (origin : Byte) (seq : BitVec 24) (cls len : Byte) (stamp : BitVec 32) (payload : List Byte)
      (check : BitVec 32)
deriving DecidableEq, Repr

/-- The cells of one slot tag (R21). -/
inductive TagCells where
  | erased
  | cells (origin : Byte) (seq : BitVec 24) (check : BitVec 16)
deriving DecidableEq, Repr

/-- The cells of a block header (R22). -/
inductive HeaderCells where
  | erased
  | cells (chain : BitVec 32) (writer : Byte) (floor : BitVec 32) (check : BitVec 16)
deriving DecidableEq, Repr

/-- The cells of a retire mark (R23). -/
inductive MarkCells where
  | erased
  | cells (block : Byte) (check : BitVec 16)
deriving DecidableEq, Repr

/-- One page: 8 slots and the fields of its spare area. The header and the factory mark have a meaning on page 0 and
the retire mark on page 31 (2.2); `factory` is true when the factory mark is not erased. -/
structure PageCells where
  slots : Vector SlotData 8
  tags : Vector TagCells 8
  header : HeaderCells
  mark : MarkCells
  factory : Bool
deriving DecidableEq, Repr

/-- What became of cells that an interrupted or failed operation was to change: untouched, as the operation would have
left them, or anything else (R32, R39 to R41); cells that a program moved are not erased (R20). -/
inductive Landed (α : Type) where
  | untouched
  | whole
  | partly (cells : α)
deriving DecidableEq, Repr

/-- What became of one slot and its tag. -/
structure SlotFate where
  data : Landed SlotData := .untouched
  tag : Landed TagCells := .untouched
deriving DecidableEq, Repr

/-- What became of the cells of one lane's pass: its slots in slot order (missing ones untouched) and its header. -/
structure PassFate where
  slots : List SlotFate := []
  header : Landed HeaderCells := .untouched
deriving DecidableEq, Repr

/-- What became of one block under an erase: page by page from page 0 (missing ones untouched). -/
abbrev EraseFate := Landed (List PageCells)

/-- The result of one lane of a PROGRAM (R31, R32). A lane that reports no failure of its own, `pass`, still ends FAIL where
its pass met cells that are not erased (R73); `met` is what it then leaves (R32; log 37), and has no use otherwise. -/
inductive PassResult where
  | pass (met : PassFate := ⟨[], .untouched⟩)
  | fail (fate : PassFate)
  | aborted (fate : PassFate)
deriving DecidableEq, Repr

/-- The result of one lane of an ERASE (R33). -/
inductive EraseResult where
  | pass
  | fail (fate : EraseFate)
  | aborted (fate : EraseFate)
deriving DecidableEq, Repr

/-- The result of a RETIRE MARK (R36). -/
inductive MarkResult where
  | pass
  | fail (fate : Landed MarkCells)
  | aborted (fate : Landed MarkCells)
deriving DecidableEq, Repr

/-- What an interruption of the operation in flight leaves (R39 to R42): by lane for a program and an erase. Only the
part that fits the operation is used, and none when nothing is in flight. -/
structure Interruption where
  passes : Vector PassFate 4 := Vector.replicate 4 ⟨[], .untouched⟩
  erases : Vector EraseFate 4 := Vector.replicate 4 .untouched
  mark : Landed MarkCells := .untouched
deriving DecidableEq, Repr

/-- Cells of the page a read senses that have changed of themselves since they were written, and what they now hold (R21,
R32, R74; log 2): none where nothing has changed. The factory mark survives everything (R23). -/
structure PageChange where
  slots : Vector (Option SlotData) 8 := Vector.replicate 8 none
  tags : Vector (Option TagCells) 8 := Vector.replicate 8 none
  header : Option HeaderCells := none
  mark : Option MarkCells := none
deriving DecidableEq, Repr

/-- The sender states a ROLL may carry (R94). -/
inductive RollState where
  | joining
  | active
  | leaving
deriving DecidableEq, Repr

/-- The body of a bus frame (R94). -/
inductive FrameBody where
  | receipt (keys : List Key)
  | request (origin first span : Nat)
  | repairRecord (record : Record)
  | record (record : Record)
  | roll (state : RollState) (k timingClass topSeq : Nat)
deriving DecidableEq, Repr

/-- A bus frame: its sender's ID and its body. -/
structure Frame where
  sender : Nat
  body : FrameBody
deriving DecidableEq, Repr

/-- The two framing faults (R88). -/
inductive FramingFault where
  | stopDominant
  | startRecessive
deriving DecidableEq, Repr

/-- What a receiver has read when its reading of a frame ends: all its bytes, or the bytes before a framing fault. -/
inductive Reception where
  | complete (bytes : List Byte)
  | faulted (bytes : List Byte) (fault : FramingFault)
deriving DecidableEq, Repr

/-- The commands: one constructor for each row of spec/opcode_table.json. A taken request carries the message bytes
collected after its code byte (R172); a frame heard carries its sender and fields; a completion carries the result. -/
inductive Instr where
  | powerOnReset (left : Interruption)
  | nresetAssert (left : Interruption)
  | nresetRelease
  | protAssert (left : Interruption)
  | protRelease
  | put
  | get
  | event
  | peek
  | voidTransaction (kind : Byte)
  | unknownRequest (message : List Byte)
  | configure (fields : List Byte)
  | join (fields : List Byte)
  | leave (fields : List Byte)
  | restart (fields : List Byte) (left : Interruption)
  | submit (fields : List Byte)
  | takeOutcome (fields : List Byte)
  | readRecord (fields : List Byte)
  | findNext (fields : List Byte)
  | status (fields : List Byte)
  | roster (fields : List Byte)
  | originRow (fields : List Byte)
  | frameRejected (read : Reception)
  | receiptReceived (sender : Nat) (keys : List Key)
  | requestReceived (sender origin first span : Nat)
  | recordReceived (sender : Nat) (record : Record)
  | repairRecordReceived (sender : Nat) (record : Record)
  | rollReceived (sender : Nat) (state : RollState) (k timingClass topSeq : Nat)
  | gapEnd
  | offerPoint
  | arbitrationLost
  | transmitFailure (idle : Nat)
  | silencedExpiry
  | receiptTransmitted
  | requestTransmitted
  | repairRecordTransmitted
  | recordTransmitted
  | rollTransmitted
  | holderWindowExpiry (seq : Nat)
  | rollTimerExpiry
  | repairTimerExpiry
  | answerDue (key : Key)
  | silenceDeadlineExpiry (peer : Nat)
  | programComplete (results : Vector PassResult 4)
  | eraseComplete (results : Vector EraseResult 4)
  | transmitReadComplete (changed : PageChange)
  | hostReadComplete (changed : PageChange)
  | evacuationReadComplete (changed : PageChange)
  | retireMarkComplete (result : MarkResult)
  | scanReadComplete (changed : PageChange)
  | frameStartHeard
  | powerLoss (left : Interruption)
deriving DecidableEq, Repr

end Sys2Proof
end

