-- ==== Sys2Proof/Decode.lean ====
section
/-! DEFINITION. The command a word spells: no row of spec/opcode_table.json gives bits, so no word spells one. -/

namespace Sys2Proof

/-- The command spelled by `nbits` bits of `w`: none, for no row gives bits. -/
def decodeTableWord (_nbits _w : Nat) : Option Instr := none

end Sys2Proof
end

