-- ==== Sys2Proof/Config.lean ====
section
/-! DEFINITION. What the 3208 fixes (capacities, limits, timer values) and the one free value the spec leaves open. -/

namespace Sys2Proof.Config

/-- LOCAL and BUS entries the intake queue holds together (R6). -/
def sharedPlaces : Nat := 20
/-- EVACUATION entries the intake queue holds (R6). -/
def evacuationPlaces : Nat := 4
/-- Passes a page accepts between erases (R25). -/
def passesPerPage : Nat := 4
/-- Slots of a page (R20). -/
def slotsPerPage : Nat := 8
/-- A lane wants reclamation below this many FREE, ERASING and DIRTY blocks (R60). -/
def lowWater : Nat := 2
/-- Tracker entries (R124). -/
def trackerPlaces : Nat := 16
/-- RECORD frames sent for one entry (R131). -/
def maxAttempts : Nat := 4
/-- Keys of the Receipt List (R142). -/
def receiptPlaces : Nat := 32
/-- Keys carried by one RECEIPT frame (R94, R99). -/
def receiptKeys : Nat := 6
/-- Keys of the send-once list (R101). -/
def sendOncePlaces : Nat := 16
/-- Entries of the answer list (R164). -/
def answerPlaces : Nat := 8
/-- Ranges of a gap list (R153). -/
def gapPlaces : Nat := 4
/-- Failed judgements at which a range is abandoned (R163). -/
def maxJudgements : Nat := 3
/-- Seqs named by one REQUEST (R161). -/
def requestSpan : Nat := 8
/-- Events of the event list (R180). -/
def eventPlaces : Nat := 32
/-- Transmit failures in a run that silence the station (R92). -/
def silenceRun : Nat := 16
/-- Where the failure, rejected and lost counts stop (R87, R153). -/
def countStop : Nat := 65535
/-- Recessive bit times that end a gap (R89). -/
def gapBits : Nat := 12
/-- The greatest seq (R127). -/
def maxSeq : Nat := 16777215
/-- The greatest chain number (R44). -/
def maxChain : Nat := 4294967295
/-- The greatest payload of a record (1.1). -/
def maxPayload : Nat := 240

/-- Holder window, in microseconds at timing class 0 (R110). -/
def holderWindow : Nat := 25000
/-- Roll period, also the JOINING listening time and the SILENCED time (R110). -/
def rollPeriod : Nat := 100000
/-- Repair interval (R110). -/
def repairInterval : Nat := 20000
/-- Answer backoff step for each station ID (R110). -/
def answerStep : Nat := 500
/-- Roster silence timeout, 4 roll periods (R110). -/
def silenceTimeout : Nat := 400000

/-- FREE VALUE (log 7). R45 says that next_chain rises by 1 and R44 gives it the values 0 to 4,294,967,295;
what it becomes after the greatest is not stated. One value for each draw; nothing constrains it. -/
opaque chainAfterMax : Nat → BitVec 32

end Sys2Proof.Config
end

