-- ==== Sys2Proof/Machine/State.lean ====
section
/-! DEFINITION. State: everything the spec gives the station, block by block as 2.1 lists them, plain data; the reset
state; Fault and Refusal. -/

namespace Sys2Proof.Machine

/-- Station states (R107). -/
inductive StationState where
  | mounting
  | idle
  | ready
  | joining
  | active
  | leaving
  | halted
deriving DecidableEq, Repr

/-- Lane conditions (R46). -/
inductive LaneCondition where
  | openAvailable
  | needsBlock
  | full
  | dead
deriving DecidableEq, Repr

/-- Causes of BLOCK_RETIRED (R69). -/
inductive RetireCause where
  | program
  | erase
deriving DecidableEq, Repr

/-- Reasons of PEER_DOWN (R119, R121). -/
inductive DownReason where
  | left
  | silent
deriving DecidableEq, Repr

/-- The counts a mount reports (R71, R80). -/
structure ScanCounts where
  bad : Nat := 0
  free : Nat := 0
  chained : Nat := 0
  dirty : Nat := 0
  retired : Nat := 0
  torn : Nat := 0
  duplicates : Nat := 0
deriving DecidableEq, Repr

/-- The events of the event list (R180). -/
inductive Event where
  | mounted (entered : StationState) (keys : Nat) (counts : ScanCounts)
  | haltedByMount (keys : Nat) (counts : ScanCounts)
  | halted (leftState : StationState)
  | outcome (seq : Nat) (secured : Bool) (holders : Nat)
  | joined
  | left
  | peerUp (peer : Nat) (fromDiscordant : Bool)
  | peerDown (peer : Nat) (reason : DownReason)
  | peerDiscord (peer k timingClass : Nat)
  | gapAbandoned (origin first last : Nat)
  | blockRetired (block : BlockId) (lane : Lane) (cause : RetireCause)
  | laneFull (lane : Lane)
  | laneResumed (lane : Lane) (condition : LaneCondition)
  | recordDamaged (key : Key) (loc : Loc)
  | busSilenced
  | busResumed
  | protOn
  | protOff
deriving DecidableEq, Repr

/-- A roll as the roster records it (R118). -/
structure LastRoll where
  state : RollState
  k : Nat
  timingClass : Nat
  topSeq : Nat
deriving DecidableEq, Repr

/-- A row of the roster (R118): the deadline and the last roll are present outside ABSENT only. -/
inductive RosterRow where
  | absent
  | present (deadline : Nat) (last : Option LastRoll)
  | discordant (deadline : Nat) (last : Option LastRoll)
deriving DecidableEq, Repr

/-- The configuration CONFIGURE stores (R107, R109). -/
structure Configuration where
  stationId : Nat
  k : Nat
  timingClass : Nat
  busRate : Nat
  firstSeq : Option Nat
deriving DecidableEq, Repr

/-- The Station Controller (R107); timers hold their expiry time. -/
structure Controller where
  state : StationState
  config : Option Configuration
  rollTimer : Option Nat
  rollDue : Option RollState
  roster : Vector RosterRow 30
deriving DecidableEq, Repr

/-- The tracked part of an origin row (R153). -/
structure TrackedRow where
  horizon : Nat
  topSeen : Nat
  gaps : List (Nat × Nat)
  attempts : Nat
deriving DecidableEq, Repr

/-- An origin row (R153). -/
structure OriginRow where
  tracked : Option TrackedRow := none
  lost : Nat := 0
deriving DecidableEq, Repr

/-- The refusals, in the order of their codes (11.3.2). -/
inductive RefusalName where
  | badState
  | badParam
  | noSpace
  | tooLong
  | protectedArray
  | seqExhausted
  | trackerFull
  | stagingFull
  | nothing
  | notReady
  | malformed
deriving DecidableEq, Repr

/-- The fields of a STATUS response (R178); `lanes` is empty while MOUNTING. -/
structure StatusFields where
  state : StationState
  config : Option Configuration
  nextSeq : Option Nat
  localEntries : Nat
  busEntries : Nat
  evacuationEntries : Nat
  liveEntries : Nat
  doneEntries : Nat
  lanes : List (Nat × LaneCondition)
  retired : Nat
  protect : Bool
  silenced : Bool
  rejectedTotal : Nat
  failureTotal : Nat
deriving DecidableEq, Repr

/-- The responses (10.2.2). -/
inductive Response where
  | done
  | accepted (seq : Nat)
  | outcome (seq : Nat) (secured : Bool) (holders : List Nat) (attempts : Nat) (damaged : Bool)
  | found (pending : Bool) (record : Record)
  | absent
  | damaged (key : Key)
  | next (seq : Nat) (pending : Bool)
  | none
  | status (fields : StatusFields)
  | roster (rows : List (Nat × RosterRow))
  | originRow (origin : Nat) (row : OriginRow)
  | refusal (name : RefusalName)
deriving DecidableEq, Repr

/-- A slot read placed for a transmit buffer: class 1 (R28). -/
structure TransmitRead where
  buffer : BufferNo
  key : Key
  loc : Loc
deriving DecidableEq, Repr

/-- A slot read of class 2 (host) or class 5 (evacuation): the slot and the key expected in it (R28). -/
structure SlotRead where
  key : Key
  loc : Loc
deriving DecidableEq, Repr

/-- The header fields a header pass writes (R22, R53). -/
structure HeaderInfo where
  chain : Nat
  writer : Nat
  floor : Nat
deriving DecidableEq, Repr

/-- One lane of a class-3 request (R55): the records fill consecutive slots from `first`; `header` is present exactly
when the pass is the block's header pass. -/
structure PassLane where
  block : BlockId
  page : PageNo
  first : SlotNo
  records : List Record
  header : Option HeaderInfo
deriving DecidableEq, Repr

/-- An operation of the array (R27): its kind, its targets and, by its kind, its requester. -/
inductive Operation where
  | scanRead (block : BlockId) (page : PageNo)
  | transmitRead (read : TransmitRead)
  | hostRead (read : SlotRead)
  | evacuationRead (read : SlotRead)
  | program (lanes : List PassLane)
  | erase (blocks : List BlockId)
  | retireMark (block : BlockId)
deriving DecidableEq, Repr

/-- The Array Sequencer (R27, R28). Class 4 is kept in its two parts. -/
structure Sequencer where
  inFlight : Option Operation
  transmitReads : List TransmitRead
  hostReads : List SlotRead
  programs : List (List PassLane)
  dirtyErases : List BlockId
  reclaimErases : List BlockId
  evacuationReads : List SlotRead
  retireMarks : List BlockId
  exclusive : Bool
  protect : Bool
deriving DecidableEq, Repr

/-- The write position of an OPEN block (R44). -/
structure WritePosition where
  page : PageNo
  slots : Fin 8
  passes : Fin 4
deriving DecidableEq, Repr

/-- A row of the block table (R44): each state with the fields R44 gives it. `header` is present from the opening of
the block until its header pass ends. -/
inductive BlockRow where
  | bad
  | free
  | opened (chain : Nat) (header : Option HeaderInfo) (position : WritePosition)
  | sealed (chain : Nat)
  | erasing
  | dirty
  | retiring (chain : Nat)
  | retired
deriving DecidableEq, Repr

/-- Two rows stand in one state of R44, whatever else they hold. -/
def BlockRow.sameState : BlockRow → BlockRow → Bool
  | .bad, .bad => true
  | .free, .free => true
  | .opened _ _ _, .opened _ _ _ => true
  | .sealed _, .sealed _ => true
  | .erasing, .erasing => true
  | .dirty, .dirty => true
  | .retiring _, .retiring _ => true
  | .retired, .retired => true
  | _, _ => false

/-- What a lane row holds beyond what the block table gives (R44, log 24). `freeThen` is the lane's FREE count at the moment its
reclaim candidate was chosen: R61 asks whether an erase has raised the count in the meantime (log 35). It is the model's own
field and has no use without a candidate. -/
structure LaneRow where
  engaged : Bool
  candidate : Option BlockId
  freeThen : Nat
deriving DecidableEq, Repr

/-- The evacuator (R66). -/
structure Evacuator where
  current : Option BlockId
  reads : List SlotRead
  retiring : List BlockId
deriving DecidableEq, Repr

/-- The Journal Map less the record index (R44). -/
structure JournalMap where
  blocks : Vector BlockRow 256
  lanes : Vector LaneRow 4
  nextChain : Nat
  rotation : Lane
  evacuator : Evacuator
deriving DecidableEq, Repr

/-- Where an intake entry's record comes from, with the fields of that source (R5). -/
inductive Source where
  | localHost
  | bus (owed : Bool)
  | evacuation (former : Loc)
deriving DecidableEq, Repr

/-- State of an intake entry; IN_PASS carries its assignment, whose lane is its block's (R5, R20). -/
inductive EntryState where
  | waiting
  | inPass (slot : Loc)
deriving DecidableEq, Repr

/-- An intake entry (R5). -/
structure IntakeEntry where
  record : Record
  source : Source
  state : EntryState
deriving DecidableEq, Repr

/-- Conditions of a slot tag in a scan report (R21, R35). -/
inductive TagCondition where
  | erased
  | good (origin seq : Nat)
  | torn
deriving DecidableEq, Repr

/-- One slot of a scan report (R35). -/
structure SlotReport where
  tag : TagCondition
  dataErased : Bool
deriving DecidableEq, Repr

/-- A scan report (R35): the slots, the fields of the block header and whether it is valid as R22 gives, whether the
factory mark is not erased, the fields of the retire mark and whether it is valid. -/
structure PageReport where
  slots : List SlotReport
  header : HeaderCells
  headerValid : Bool
  factory : Bool
  mark : MarkCells
  markValid : Bool
deriving DecidableEq, Repr

/-- Classes of a block in the CLASSIFY phase (R73). -/
inductive BlockClass where
  | bad
  | retired
  | free
  | chained
  | dirty
deriving DecidableEq, Repr

/-- Classes of a page in the PAGES phase (R75). -/
inductive PageClass where
  | blank
  | full
  | torn
  | partly
deriving DecidableEq, Repr

/-- A block finding (R71): page 31 is not read of a BAD block. -/
structure BlockFinding where
  block : BlockId
  cls : BlockClass
  header : Option HeaderInfo
  page0 : PageReport
  page31 : Option PageReport
deriving DecidableEq, Repr

/-- A candidate location (R71): the best so far with its block's chain number, and how many were found. -/
structure Candidate where
  chain : Nat
  loc : Loc
  count : Nat
deriving DecidableEq, Repr

/-- Phases of the mount (R71). -/
inductive MountPhase where
  | classify
  | pages
  | ended
deriving DecidableEq, Repr

/-- The Mount Scanner (R71). `queue` holds the chained blocks still to begin, in chain order: with `block` and `page`,
the read now placed, it is the cursor. `page0` is the page 0 report of a block whose page 31 is being read. -/
structure Scanner where
  phase : MountPhase
  block : BlockId
  page : PageNo
  page0 : Option PageReport
  queue : List BlockFinding
  findings : List BlockFinding
  pages : List (BlockId × List PageClass)
  candidates : List (Key × Candidate)
  floors : Vector (Option Nat) 30
  counts : ScanCounts
deriving DecidableEq, Repr

/-- Line states (R87). -/
inductive LineState where
  | off
  | seeking
  | gap
  | quiet
  | receiving
  | sending
deriving DecidableEq, Repr

/-- The block a frame in flight was built from (R99). -/
inductive FrameOwner where
  | receiptList
  | repairSlot
  | buffer (which : BufferNo)
  | controller
deriving DecidableEq, Repr

/-- The frame in flight with its owner (R87). -/
structure FrameInFlight where
  frame : Frame
  owner : FrameOwner
deriving DecidableEq, Repr

/-- The Line Unit (R87); `silenced` holds the expiry time while SILENCED stands. -/
structure LineUnit where
  state : LineState
  idle : Nat
  inFlight : Option FrameInFlight
  failureRun : Nat
  failureTotal : Nat
  rejectedTotal : Nat
  silenced : Option Nat
deriving DecidableEq, Repr

/-- The owner of a transmit buffer (R101). -/
inductive BufferOwner where
  | tracker (key : Key)
  | answer (key : Key)
  | sendOnce (key : Key)
deriving DecidableEq, Repr

/-- A transmit buffer (R101). `claimed` is false once the owner's claim has ended while the read was outstanding or the
frame on the line (R105). -/
inductive Buffer where
  | empty
  | reading (owner : BufferOwner) (claimed : Bool)
  | loaded (owner : BufferOwner) (record : Record) (claimed : Bool)
deriving DecidableEq, Repr

/-- The Transmit Assembly (R101). -/
structure TransmitAssembly where
  buffers : Vector Buffer 2
  sendOnce : List Key
deriving DecidableEq, Repr

/-- States of a tracker entry (R124); the window deadline is present in AWAITING only. -/
inductive TrackerState where
  | staged
  | queued
  | loaded
  | awaiting (deadline : Nat)
  | secured
  | short
deriving DecidableEq, Repr

/-- A tracker entry (R124): a done entry is frozen and is itself the outcome (R135). Holders stand in ascending order. -/
structure TrackerEntry where
  key : Key
  state : TrackerState
  holders : List Nat
  attempts : Nat
  damaged : Bool
deriving DecidableEq, Repr

/-- The Replication Tracker (R124). -/
structure Tracker where
  nextSeq : Option Nat
  entries : List TrackerEntry
deriving DecidableEq, Repr

/-- A repair request (R160). -/
structure RepairRequest where
  origin : Nat
  first : Nat
  span : Nat
deriving DecidableEq, Repr

/-- The repair slot's state with its request and progress flag (R160). -/
inductive RepairSlot where
  | empty
  | due (request : RepairRequest) (progress : Bool)
  | sent (request : RepairRequest) (progress : Bool)
deriving DecidableEq, Repr

/-- An answer-list entry (R164); `due` is the model's own: the due time has come (log 4). -/
structure AnswerEntry where
  key : Key
  dueAt : Nat
  due : Bool
  loaded : Bool
deriving DecidableEq, Repr

/-- The Gap Tracker (R153, R160, R164). -/
structure GapTracker where
  rows : Vector OriginRow 30
  slot : RepairSlot
  turn : Nat
  timer : Option Nat
  answers : List AnswerEntry
deriving DecidableEq, Repr

/-- Port states (R170). WORKING is `collecting` while the accepted PUT collects its message and `reading` while a
READ_RECORD waits for its class-2 read. -/
inductive PortState where
  | idle
  | collecting
  | reading (read : SlotRead)
  | answered (response : Response)
deriving DecidableEq, Repr

/-- The Local Port (R170). `miso` is what the transaction last begun gives after its kind byte; Port.misoAt adds the idle
fill around it (R185). -/
structure Port where
  state : PortState
  events : List Event
  overflow : Bool
  miso : List Byte
deriving DecidableEq, Repr

/-- The state of the station. -/
structure State where
  /-- The model's clock, in microseconds (log 3). -/
  now : Nat
  /-- The supply is in range and a power-on reset has taken effect since it last was not (R188). -/
  power : Bool
  /-- nRESET is held low (R188). -/
  nresetLow : Bool
  /-- The array, page address 32 x block + page to page; a page not listed is erased (Memory.wf). -/
  flash : List (Nat × PageCells)
  sequencer : Sequencer
  map : JournalMap
  /-- The record index, sorted by key (R48). -/
  index : List (Key × Loc)
  intake : List IntakeEntry
  scanner : Scanner
  line : LineUnit
  transmit : TransmitAssembly
  controller : Controller
  tracker : Tracker
  receipts : List Key
  gap : GapTracker
  port : Port
  /-- Free values drawn so far (log 7). -/
  freeDraws : Nat
  /-- The commands that wait, first in, first out. -/
  pending : List Instr
deriving DecidableEq, Repr

/-- Why the station stops with a fault. The spec describes no event that stops the station, so no meaning raises one;
the constructor keeps the type inhabited. -/
inductive Fault where
  /-- Raised by no command. Safe. -/
  | neverRaised
deriving DecidableEq, Repr

/-- Why a command has no outcome. -/
inductive Refusal where
  /-- Raised by an arm of exec whose command has no meaning yet. Safe: nothing follows from it. -/
  | notModelled (mnemonic : String)
deriving DecidableEq, Repr

/-- What a command answers. -/
abbrev Outcome := Host.Outcome State Fault Refusal

/-- The Array Sequencer after a reset: the Mount Scanner is the exclusive holder and its first read is placed
(R27, R71). -/
def Sequencer.reset (protect : Bool) : Sequencer where
  inFlight := some (.scanRead 0 0)
  transmitReads := []
  hostReads := []
  programs := []
  dirtyErases := []
  reclaimErases := []
  evacuationReads := []
  retireMarks := []
  exclusive := true
  protect := protect

/-- The Journal Map after a reset: discarded (R44), held as free rows that nothing reads before the mount ends
(log 6). -/
def JournalMap.reset : JournalMap where
  blocks := Vector.replicate 256 .free
  lanes := Vector.replicate 4 ⟨false, none, 0⟩
  nextChain := 0
  rotation := 3
  evacuator := ⟨none, [], []⟩

/-- The Mount Scanner at the start of a mount (R71). -/
def Scanner.reset : Scanner where
  phase := .classify
  block := 0
  page := 0
  page0 := none
  queue := []
  findings := []
  pages := []
  candidates := []
  floors := Vector.replicate 30 none
  counts := {}

/-- The Line Unit after a reset (R87). -/
def LineUnit.reset : LineUnit := ⟨.off, 0, none, 0, 0, 0, none⟩

/-- The Station Controller after a reset, with the configuration the reset keeps, if any (R107). -/
def Controller.reset (keep : Option Configuration) : Controller where
  state := .mounting
  config := keep
  rollTimer := none
  rollDue := none
  roster := Vector.replicate 30 .absent

/-- The Gap Tracker after a reset (R160, R164); its rows are rebuilt by the mount (R79). -/
def GapTracker.reset : GapTracker := ⟨Vector.replicate 30 ⟨none, 0⟩, .empty, 30, none, []⟩

/-- The Local Port after a reset (R170). -/
def Port.reset : Port := ⟨.idle, [], false, []⟩

/-- The station right after a power-on reset has taken effect (R27, R44, R71, R87, R101, R107, R124, R142, R160, R170),
its array blank and PROT not asserted (log 5). -/
def State.reset : State where
  now := 0
  power := true
  nresetLow := false
  flash := []
  sequencer := Sequencer.reset false
  map := JournalMap.reset
  index := []
  intake := []
  scanner := Scanner.reset
  line := LineUnit.reset
  transmit := ⟨Vector.replicate 2 .empty, []⟩
  controller := Controller.reset none
  tracker := ⟨none, []⟩
  receipts := []
  gap := GapTracker.reset
  port := Port.reset
  freeDraws := 0
  pending := []

end Sys2Proof.Machine
end

