-- ==== Sys2Proof/Machine/Flags.lean ====
section
/-! DEFINITION. The checks: byte order, the two CRCs, the slot, tag, header and mark checks, and what a read of cells
reports (R3, R4, R21 to R23, R35, R95). -/

namespace Sys2Proof.Machine

/-- `n` bytes of a number, most significant first (chapter 11). -/
def beBytes : Nat → Nat → List Byte
  | 0, _ => []
  | n + 1, v => BitVec.ofNat 8 (v / 256 ^ n) :: beBytes n v

/-- The number whose bytes these are, most significant first. -/
def beNat (bytes : List Byte) : Nat := bytes.foldl (fun acc b => acc * 256 + b.toNat) 0

/-- One bit into a CRC register, most significant bit first, nothing reflected (R95; log 8 for the flash checks). -/
def crcBit {w : Nat} (poly : BitVec w) (reg : BitVec w) (bit : Bool) : BitVec w :=
  if reg.msb != bit then (reg <<< 1) ^^^ poly else reg <<< 1

/-- One byte into a CRC register. -/
def crcByte {w : Nat} (poly : BitVec w) (reg : BitVec w) (b : Byte) : BitVec w :=
  [b.getLsbD 7, b.getLsbD 6, b.getLsbD 5, b.getLsbD 4, b.getLsbD 3, b.getLsbD 2, b.getLsbD 1, b.getLsbD 0].foldl
    (crcBit poly) reg

/-- CRC-16 with polynomial 0x1021 and initial value 0xFFFF (R4, R95). -/
def crc16 (bytes : List Byte) : BitVec 16 := bytes.foldl (crcByte 0x1021#16) 0xFFFF#16

/-- CRC-32 with polynomial 0x04C11DB7 and initial value 0xFFFFFFFF (R4). -/
def crc32 (bytes : List Byte) : BitVec 32 := bytes.foldl (crcByte 0x04C11DB7#32) 0xFFFFFFFF#32

/-- The slot check: over origin, seq, class, payload length, stamp and payload in that order (R4). -/
def slotCheck (origin : Byte) (seq : BitVec 24) (cls len : Byte) (stamp : BitVec 32) (payload : List Byte) : BitVec 32 :=
  crc32 (origin :: beBytes 3 seq.toNat ++ cls :: len :: beBytes 4 stamp.toNat ++ payload)

/-- The tag check: over origin and seq (R4). -/
def tagCheck (origin : Byte) (seq : BitVec 24) : BitVec 16 := crc16 (origin :: beBytes 3 seq.toNat)

/-- The header check: over chain number, writer station ID and seq floor, in that order (R22). -/
def headerCheck (chain : BitVec 32) (writer : Byte) (floor : BitVec 32) : BitVec 16 :=
  crc16 (beBytes 4 chain.toNat ++ writer :: beBytes 4 floor.toNat)

/-- The mark check: over the block number (R23). -/
def markCheck (block : Byte) : BitVec 16 := crc16 [block]

/-- The data cells a pass writes for a record (R3). -/
def slotOf (r : Record) : SlotData :=
  let origin := BitVec.ofNat 8 r.key.origin
  let seq := BitVec.ofNat 24 r.key.seq
  let cls := BitVec.ofNat 8 r.cls
  let len := BitVec.ofNat 8 r.payload.length
  .cells origin seq cls len r.stamp r.payload (slotCheck origin seq cls len r.stamp r.payload)

/-- The tag a pass writes for a record (R3). -/
def tagOf (k : Key) : TagCells :=
  let origin := BitVec.ofNat 8 k.origin
  let seq := BitVec.ofNat 24 k.seq
  .cells origin seq (tagCheck origin seq)

/-- The header a header pass writes (R22). -/
def headerOf (h : HeaderInfo) : HeaderCells :=
  let chain := BitVec.ofNat 32 h.chain
  let writer := BitVec.ofNat 8 h.writer
  let floor := BitVec.ofNat 32 h.floor
  .cells chain writer floor (headerCheck chain writer floor)

/-- The retire mark of a block (R23). -/
def markOf (b : BlockId) : MarkCells :=
  let block := BitVec.ofNat 8 b.val
  .cells block (markCheck block)

/-- A slot read (R4, R34): the record when the result is GOOD, none when it is DAMAGED. DESIGN CHOICE, safe (log 32): cells
whose payload bytes are not as many as their length field says read DAMAGED, which R4 does not name. -/
def readSlot (d : SlotData) (expected : Key) : Option Record :=
  match d with
  | .erased => none
  | .cells origin seq cls len stamp payload check =>
    if check = slotCheck origin seq cls len stamp payload ∧ 1 ≤ len.toNat ∧ len.toNat ≤ Config.maxPayload
        ∧ payload.length = len.toNat ∧ origin.toNat = expected.origin ∧ seq.toNat = expected.seq then
      some ⟨expected, cls.toNat, stamp, payload⟩
    else none

/-- The condition of a tag (R21). -/
def readTag : TagCells → TagCondition
  | .erased => .erased
  | .cells origin seq check => if check = tagCheck origin seq then .good origin.toNat seq.toNat else .torn

/-- Whether a header is valid as R22 gives. -/
def headerValid : HeaderCells → Bool
  | .erased => false
  | .cells chain writer floor check => check == headerCheck chain writer floor

/-- A slot reads GOOD for the key its own fields give (R4). -/
def slotFits (d : SlotData) : Bool :=
  match d with
  | .erased => false
  | .cells origin seq _ _ _ _ _ => (readSlot d ⟨origin.toNat, seq.toNat⟩).isSome

/-- A tag is good (R21). -/
def tagFits (t : TagCells) : Bool :=
  match readTag t with
  | .good _ _ => true
  | _ => false

/-- The fields of a header's cells (R22). -/
def headerFields : HeaderCells → Option HeaderInfo
  | .erased => none
  | .cells chain writer floor _ => some ⟨chain.toNat, writer.toNat, floor.toNat⟩

/-- Whether a retire mark on block `b` is valid (R23). -/
def markValid (b : BlockId) : MarkCells → Bool
  | .erased => false
  | .cells block check => block.toNat == b.val && check == markCheck block

/-- The check of a retire mark fits, so it is valid on one block (R23). -/
def markFits : MarkCells → Bool
  | .erased => false
  | .cells block check => check == markCheck block

/-- What cells that have changed of themselves may hold: an erase alone makes them erased (R20). DESIGN CHOICE, unsafe
(log 2): their check does not fit, so that a change is one the check shows. -/
def alters {α : Type} [DecidableEq α] (erased : α) (fits : α → Bool) (cells : α) : Bool := cells ≠ erased && !fits cells

/-- The scan report of a page of block `b` (R35). -/
def scanReport (b : BlockId) (p : PageCells) : PageReport where
  slots := (p.tags.toList.zip p.slots.toList).map fun ts => ⟨readTag ts.1, ts.2 == .erased⟩
  header := p.header
  headerValid := headerValid p.header
  factory := p.factory
  mark := p.mark
  markValid := markValid b p.mark

end Sys2Proof.Machine
end

