-- ==== Sys2Proof/Machine/Operands.lean ====
section
/-! DEFINITION. Layouts: bus frames built and judged (R94 to R96, R184), request messages taken (R186), response and
event messages built (R187), and the bytes a transaction drives (R185). -/

namespace Sys2Proof.Machine

/-! ### Bus frames -/

/-- Kind codes (R94). -/
def frameKind : FrameBody → Nat
  | .receipt _ => 1
  | .request _ _ _ => 2
  | .repairRecord _ => 3
  | .record _ => 4
  | .roll _ _ _ _ => 5

/-- The station-state code a ROLL carries (R184). -/
def rollCode : RollState → Nat
  | .joining => 3
  | .active => 4
  | .leaving => 5

/-- The fields of a record in a RECORD body (11.1). -/
def recordBytes (r : Record) : List Byte :=
  BitVec.ofNat 8 r.key.origin :: beBytes 3 r.key.seq ++ BitVec.ofNat 8 r.cls :: beBytes 4 r.stamp.toNat ++ r.payload

/-- The body bytes of a frame (11.1). -/
def bodyBytes : FrameBody → List Byte
  | .receipt keys =>
    BitVec.ofNat 8 keys.length :: keys.flatMap fun k => BitVec.ofNat 8 k.origin :: beBytes 3 k.seq
  | .request origin first span => BitVec.ofNat 8 origin :: beBytes 3 first ++ [BitVec.ofNat 8 span]
  | .repairRecord r => recordBytes r
  | .record r => recordBytes r
  | .roll st k tc top =>
    [BitVec.ofNat 8 (rollCode st), BitVec.ofNat 8 k, BitVec.ofNat 8 tc] ++ beBytes 3 top

/-- The bytes of a frame before its CRC: arbitration byte, length byte, body (R88, R90). -/
def frameFront (f : Frame) : List Byte :=
  BitVec.ofNat 8 (frameKind f.body * 32 + f.sender) :: BitVec.ofNat 8 (bodyBytes f.body).length :: bodyBytes f.body

/-- The bytes of a frame as it is sent (R88, R95, 11.1). -/
def frameBytes (f : Frame) : List Byte := frameFront f ++ beBytes 2 (crc16 (frameFront f)).toNat

/-- The levels of the journal bus, and of TXD: low is dominant, high recessive (R88, 11.4). -/
inductive Level where
  | dominant
  | recessive
deriving DecidableEq, Repr

/-- The level a data bit is sent at (R88). -/
def bitLevel (bit : Bool) : Level := if bit then .recessive else .dominant

/-- The 10 bit times of a byte: start bit, data bits from the most significant, stop bit (R88). -/
def byteLevels (b : Byte) : List Level :=
  .dominant :: [7, 6, 5, 4, 3, 2, 1, 0].map (fun i => bitLevel (b.getLsbD i)) ++ [.recessive]

/-- The levels of a frame, bit time by bit time (R88). -/
def frameLevels (f : Frame) : List Level := (frameBytes f).flatMap byteLevels

/-- A key as a frame may carry it (R94). -/
def keyInRange (k : Key) : Bool := 1 ≤ k.origin && k.origin ≤ 30 && 1 ≤ k.seq && k.seq ≤ Config.maxSeq

/-- A record as a RECORD frame may carry it (R94). -/
def recordInRange (r : Record) : Bool :=
  keyInRange r.key && r.cls ≤ 3 && 1 ≤ r.payload.length && r.payload.length ≤ Config.maxPayload

/-- The fields of a body lie in their ranges, for a frame of this sender (R94, R96 test 6). -/
def bodyInRange (sender : Nat) : FrameBody → Bool
  | .receipt keys => 1 ≤ keys.length && keys.length ≤ Config.receiptKeys && keys.all keyInRange
  | .request origin first span =>
    1 ≤ origin && origin ≤ 30 && 1 ≤ first && first ≤ Config.maxSeq && 1 ≤ span && span ≤ Config.requestSpan
      && first + span - 1 ≤ Config.maxSeq
  | .repairRecord r => recordInRange r
  | .record r => recordInRange r && r.key.origin == sender
  | .roll _ k tc top => 1 ≤ k && k ≤ 8 && tc ≤ 3 && top ≤ Config.maxSeq

/-- A frame that passes every test of R96. -/
def frameInRange (f : Frame) : Bool := 1 ≤ f.sender && f.sender ≤ 30 && bodyInRange f.sender f.body

/-- Why a frame is rejected, in the order of R96. -/
inductive Rejection where
  | framing
  | crc
  | kind
  | sender
  | length
  | field
deriving DecidableEq, Repr

/-- What a receiver finds of a frame (R96). -/
inductive Judgement where
  | rejected (why : Rejection)
  | valid (frame : Frame)
deriving DecidableEq, Repr

/-- The body lengths a kind allows (R94). -/
def lengthAllowed (kind n : Nat) : Bool :=
  match kind with
  | 1 => 5 ≤ n && n ≤ 25
  | 2 => n == 5
  | 3 => 10 ≤ n && n ≤ 249
  | 4 => 10 ≤ n && n ≤ 249
  | 5 => n == 6
  | _ => false

/-- Keys of a RECEIPT body, 4 bytes each (11.1). -/
def parseKeys : List Byte → Option (List Key)
  | [] => some []
  | o :: a :: b :: c :: rest => (parseKeys rest).map (⟨o.toNat, beNat [a, b, c]⟩ :: ·)
  | _ => none

/-- The record of a RECORD body (11.1). -/
def parseRecord : List Byte → Option Record
  | o :: a :: b :: c :: cls :: s1 :: s2 :: s3 :: s4 :: payload =>
    some ⟨⟨o.toNat, beNat [a, b, c]⟩, cls.toNat, BitVec.ofNat 32 (beNat [s1, s2, s3, s4]), payload⟩
  | _ => none

/-- The body of a frame of this kind (11.1); none where a count disagrees with the length or a code names nothing. -/
def parseBody (kind : Nat) (body : List Byte) : Option FrameBody :=
  match kind, body with
  | 1, count :: rest =>
    (parseKeys rest).bind fun keys => if keys.length = count.toNat then some (.receipt keys) else none
  | 2, [o, a, b, c, span] => some (.request o.toNat (beNat [a, b, c]) span.toNat)
  | 3, body => (parseRecord body).map .repairRecord
  | 4, body => (parseRecord body).map .record
  | 5, [st, k, tc, a, b, c] =>
    let fields := fun s => some (FrameBody.roll s k.toNat tc.toNat (beNat [a, b, c]))
    if st = 3 then fields .joining else if st = 4 then fields .active else if st = 5 then fields .leaving else none
  | _, _ => none

/-- Judging a frame whose reading ended with these bytes (R96): the first test that applies. Bytes that do not reach
the end that the length byte gives are those of a frame cut short: a framing fault ended its reading (R88). -/
def judge (bytes : List Byte) : Judgement :=
  match bytes with
  | arb :: len :: rest =>
    if rest.length ≠ len.toNat + 2 then .rejected .framing
    else
      let body := rest.take len.toNat
      let kind := arb.toNat / 32
      let sender := arb.toNat % 32
      if beNat (rest.drop len.toNat) ≠ (crc16 (arb :: len :: body)).toNat then .rejected .crc
      else if kind = 0 ∨ 6 ≤ kind then .rejected .kind
      else if sender = 0 ∨ sender = 31 then .rejected .sender
      else if lengthAllowed kind len.toNat = false then .rejected .length
      else
        match parseBody kind body with
        | none => .rejected .field
        | some b => if bodyInRange sender b then .valid ⟨sender, b⟩ else .rejected .field
  | _ => .rejected .framing

/-- Recessive bits at the end of a byte on the line: its trailing ones and the stop bit (R88). -/
def trailingIdle (b : Byte) : Nat :=
  1 + ((List.range 8).takeWhile fun i => b.getLsbD i).length

/-- The idle count at the end of a frame with these bytes: the bit times since its last dominant bit (R88, R89). -/
def endIdle (bytes : List Byte) : Nat :=
  match bytes.getLast? with
  | some b => trailingIdle b
  | none => 0

/-- The idle count when the reading of a frame ends (R88): a stop bit read dominant leaves 0; a start bit read
recessive adds one bit time to the idle end of the byte before it. -/
def receptionIdle : Reception → Nat
  | .complete bytes => endIdle bytes
  | .faulted _ .stopDominant => 0
  | .faulted bytes .startRecessive => endIdle bytes + 1

/-! ### Request messages -/

/-- The codes of the request table (11.3.1). -/
def requestCodes : List Byte := [0x10, 0x11, 0x12, 0x13, 0x20, 0x21, 0x30, 0x31, 0x40, 0x41, 0x42]

/-- The fields of a CONFIGURE message after its code (11.3.1, R186): the length decides whether a first seq is given. -/
def parseConfigure : List Byte → Option Configuration
  | [id, k, tc, rate] => some ⟨id.toNat, k.toNat, tc.toNat, rate.toNat, none⟩
  | [id, k, tc, rate, a, b, c] => some ⟨id.toNat, k.toNat, tc.toNat, rate.toNat, some (beNat [a, b, c])⟩
  | _ => none

/-- What a SUBMIT message carries (11.3.1). -/
structure Submission where
  cls : Nat
  stamp : BitVec 32
  payload : List Byte
deriving DecidableEq, Repr

/-- The fields of a SUBMIT message after its code (R186): class byte 0 to 3, payload 0 to 255 bytes. -/
def parseSubmit : List Byte → Option Submission
  | cls :: s1 :: s2 :: s3 :: s4 :: payload =>
    if cls.toNat ≤ 3 ∧ payload.length ≤ 255 then
      some ⟨cls.toNat, BitVec.ofNat 32 (beNat [s1, s2, s3, s4]), payload⟩
    else none
  | _ => none

/-- The fields of READ_RECORD and FIND_NEXT after the code: an origin and a 3-byte seq (11.3.1). -/
def parseKey : List Byte → Option Key
  | [o, a, b, c] => some ⟨o.toNat, beNat [a, b, c]⟩
  | _ => none

/-- The field of ORIGIN_ROW after the code (11.3.1). -/
def parseOrigin : List Byte → Option Nat
  | [o] => some o.toNat
  | _ => none

/-- A request with no field after its code (11.3.1). -/
def parseNothing : List Byte → Option Unit
  | [] => some ()
  | _ => none

/-- The ranges CONFIGURE's handler checks (R109). -/
def configurationInRange (c : Configuration) : Bool :=
  1 ≤ c.stationId && c.stationId ≤ 30 && 1 ≤ c.k && c.k ≤ 8 && c.timingClass ≤ 3 && c.busRate ≤ 2
    && match c.firstSeq with
      | none => true
      | some q => 1 ≤ q && q ≤ Config.maxSeq

/-! ### Codes shared by several layouts (chapter 11) -/

/-- Station states. -/
def stateCode : StationState → Byte
  | .mounting => 0
  | .idle => 1
  | .ready => 2
  | .joining => 3
  | .active => 4
  | .leaving => 5
  | .halted => 6

/-- Lane conditions. -/
def conditionCode : LaneCondition → Byte
  | .openAvailable => 0
  | .needsBlock => 1
  | .full => 2
  | .dead => 3

/-- Outcomes: SECURED 0, SHORT 1. -/
def outcomeCode (secured : Bool) : Byte := if secured then 0 else 1

/-- PEER_DOWN reasons. -/
def reasonCode : DownReason → Byte
  | .left => 0
  | .silent => 1

/-- BLOCK_RETIRED causes. -/
def causeCode : RetireCause → Byte
  | .program => 0
  | .erase => 1

/-- A flag byte, 0 or 1. -/
def flagByte (b : Bool) : Byte := if b then 1 else 0

/-- Refusal codes 0xC0 to 0xCA (11.3.2). -/
def refusalCode : RefusalName → Byte
  | .badState => 0xC0
  | .badParam => 0xC1
  | .noSpace => 0xC2
  | .tooLong => 0xC3
  | .protectedArray => 0xC4
  | .seqExhausted => 0xC5
  | .trackerFull => 0xC6
  | .stagingFull => 0xC7
  | .nothing => 0xC8
  | .notReady => 0xC9
  | .malformed => 0xCA

/-- One byte of a small number. -/
def byte (n : Nat) : Byte := BitVec.ofNat 8 n

/-! ### Response messages -/

/-- The flags byte of STATUS (11.3.2). DESIGN CHOICE, unsafe (log 36): bits 6 and 7, which the table does not name, are 0. -/
def statusFlags (f : StatusFields) : Byte :=
  byte ((if f.config.isSome then 1 else 0) + (if (f.config.bind (·.firstSeq)).isSome then 2 else 0)
    + (if f.nextSeq.isSome then 4 else 0) + (if f.lanes.isEmpty then 0 else 8) + (if f.protect then 16 else 0)
    + (if f.silenced then 32 else 0))

/-- The configuration bytes of STATUS, offsets 2 to 8; 0 where absent. -/
def configBytes : Option Configuration → List Byte
  | none => List.replicate 7 0
  | some c => [byte c.stationId, byte c.k, byte c.timingClass, byte c.busRate] ++ beBytes 3 (c.firstSeq.getD 0)

/-- The lane bytes of STATUS, offsets 18 to 25; 0 while absent. -/
def laneBytes : List (Nat × LaneCondition) → List Byte
  | [] => List.replicate 8 0
  | lanes => lanes.flatMap fun l => [byte l.1, conditionCode l.2]

/-- The STATUS fields at their offsets (11.3.2). -/
def statusBytes (f : StatusFields) : List Byte :=
  [stateCode f.state, statusFlags f] ++ configBytes f.config ++ beBytes 4 (f.nextSeq.getD 0)
    ++ [byte f.localEntries, byte f.busEntries, byte f.evacuationEntries, byte f.liveEntries, byte f.doneEntries]
    ++ laneBytes f.lanes ++ beBytes 2 f.retired ++ beBytes 2 f.rejectedTotal ++ beBytes 2 f.failureTotal

/-- The last four fields of a ROSTER row; 0 when no roll is recorded (11.3.2). -/
def lastRollBytes : Option LastRoll → List Byte
  | none => List.replicate 6 0
  | some l => [byte (rollCode l.state), byte l.k, byte l.timingClass] ++ beBytes 3 l.topSeq

/-- A ROSTER row (11.3.2). -/
def rosterRowBytes : Nat × RosterRow → List Byte
  | (id, .absent) => byte id :: 0 :: lastRollBytes none
  | (id, .present _ last) => byte id :: 1 :: lastRollBytes last
  | (id, .discordant _ last) => byte id :: 2 :: lastRollBytes last

/-- The row fields of ORIGIN_ROW after the origin (11.3.2). -/
def originRowBytes (row : OriginRow) : List Byte :=
  match row.tracked with
  | none => 0 :: beBytes 2 row.lost
  | some t => 1 :: beBytes 2 row.lost ++ beBytes 3 t.horizon ++ beBytes 3 t.topSeen ++ byte t.gaps.length
      :: t.gaps.flatMap (fun g => beBytes 3 g.1 ++ beBytes 3 g.2) ++ [byte t.attempts]

/-- The flags byte of FOUND and NEXT, bit 0 PENDING (11.3.2). DESIGN CHOICE, unsafe (log 36): bits 1 to 7, which the table does
not name, are 0. -/
def pendingFlags (pending : Bool) : Byte := flagByte pending

/-- Code and field bytes of a response (11.3.2). The unnamed bits of the flags bytes are the model's (log 36). -/
def responseFields : Response → Byte × List Byte
  | .done => (0x80, [])
  | .accepted seq => (0x81, beBytes 3 seq)
  | .outcome seq secured holders attempts damaged =>
    (0x82, beBytes 3 seq ++ [outcomeCode secured, byte holders.length] ++ holders.map byte
      ++ [byte attempts, flagByte damaged])
  | .found pending r =>
    (0x83, pendingFlags pending :: byte r.key.origin :: beBytes 3 r.key.seq ++ byte r.cls :: beBytes 4 r.stamp.toNat
      ++ byte r.payload.length :: r.payload)
  | .absent => (0x84, [])
  | .damaged k => (0x85, byte k.origin :: beBytes 3 k.seq)
  | .next seq pending => (0x86, beBytes 3 seq ++ [pendingFlags pending])
  | .none => (0x87, [])
  | .status f => (0x88, statusBytes f)
  | .roster rows => (0x89, byte rows.length :: rows.flatMap rosterRowBytes)
  | .originRow origin row => (0x8A, byte origin :: originRowBytes row)
  | .refusal name => (refusalCode name, [])

/-- A message with its kind code and length byte (R185). -/
def message (m : Byte × List Byte) : List Byte := m.1 :: byte m.2.length :: m.2

/-- A response message (R187). -/
def responseBytes (r : Response) : List Byte := message (responseFields r)

/-! ### Event messages -/

/-- The 18 count bytes of MOUNTED (11.3.3). -/
def countBytes (keys : Nat) (c : ScanCounts) : List Byte :=
  beBytes 3 keys ++ beBytes 2 c.bad ++ beBytes 2 c.free ++ beBytes 2 c.chained ++ beBytes 2 c.dirty
    ++ beBytes 2 c.retired ++ beBytes 2 c.torn ++ beBytes 3 c.duplicates

/-- Code and field bytes of an event (11.3.3). -/
def eventFields : Event → Byte × List Byte
  | .mounted entered keys counts => (0x01, stateCode entered :: countBytes keys counts)
  | .haltedByMount keys counts => (0x02, stateCode .mounting :: countBytes keys counts)
  | .halted leftState => (0x02, [stateCode leftState])
  | .outcome seq secured holders => (0x03, beBytes 3 seq ++ [outcomeCode secured, byte holders])
  | .joined => (0x04, [])
  | .left => (0x05, [])
  | .peerUp peer fromDiscordant => (0x06, [byte peer, if fromDiscordant then 2 else 0])
  | .peerDown peer reason => (0x07, [byte peer, reasonCode reason])
  | .peerDiscord peer k tc => (0x08, [byte peer, byte k, byte tc])
  | .gapAbandoned origin first last => (0x09, byte origin :: beBytes 3 first ++ beBytes 3 last)
  | .blockRetired block lane cause => (0x0A, [byte block.val, byte lane.val, causeCode cause])
  | .laneFull lane => (0x0B, [byte lane.val])
  | .laneResumed lane condition => (0x0C, [byte lane.val, conditionCode condition])
  | .recordDamaged k loc =>
    (0x0D, byte k.origin :: beBytes 3 k.seq ++ [byte loc.block.val, byte loc.page.val, byte loc.slot.val])
  | .busSilenced => (0x0E, [])
  | .busResumed => (0x0F, [])
  | .protOn => (0x10, [])
  | .protOff => (0x11, [])

/-- An event message (R187). -/
def eventBytes (e : Event) : List Byte := message (eventFields e)

/-! ### What a transaction drives after its kind byte (R185) -/

/-- The kind bytes of the four transactions (R185). -/
def transactionKinds : List Byte := [0x01, 0x02, 0x03, 0x04]

/-- The idle fill (R185). -/
def idleFill : Byte := 0xFF

/-- What the port drives on MISO in byte `n` of the transaction last begun, its kind byte being byte 0: the idle fill
during the kind byte and after the end of what the transaction gives (R171, R185). -/
def Port.misoAt (p : Port) : Nat → Byte
  | 0 => idleFill
  | n + 1 => (p.miso[n]?).getD idleFill

/-- PUT: PUT_ACCEPTED or BUSY. -/
def putBytes (accepted : Bool) : List Byte := if accepted then [0x0A] else [0x0B]

/-- GET: the response, or NO_RESPONSE. -/
def getBytes : Option Response → List Byte
  | none => [0x00]
  | some r => 0x01 :: responseBytes r

/-- EVENT: the overflow marker, then the event or NO_EVENT. -/
def takeEventBytes (overflow : Bool) : Option Event → List Byte
  | none => [flagByte overflow, 0x00]
  | some e => flagByte overflow :: eventBytes e

/-- Codes of the port states. -/
def portStateCode : PortState → Byte
  | .idle => 0
  | .collecting => 1
  | .reading _ => 1
  | .answered _ => 2

/-- PEEK: the port state, the event count and the overflow marker. -/
def peekBytes (p : Port) : List Byte := [portStateCode p.state, byte p.events.length, flagByte p.overflow]

end Sys2Proof.Machine
end

