-- ==== Sys2Proof/Machine/Ops.lean ====
section
/-! DEFINITION. Named operations over the station's maps, tables, lists and port that the families of commands share. -/

namespace Sys2Proof.Machine

/-! ### Sorted maps -/

/-- The value a map holds at a key. -/
def mapGet {κ α : Type} [DecidableEq κ] : List (κ × α) → κ → Option α
  | [], _ => none
  | e :: rest, k => if k = e.1 then some e.2 else mapGet rest k

/-- A map with a key set, kept in rising order of keys. -/
def mapPut {κ α : Type} [DecidableEq κ] (lt : κ → κ → Bool) : List (κ × α) → κ → α → List (κ × α)
  | [], k, v => [(k, v)]
  | e :: rest, k, v =>
    if lt k e.1 then (k, v) :: e :: rest else if k = e.1 then (k, v) :: rest else e :: mapPut lt rest k v

/-- A map with a key taken out. -/
def mapDrop {κ α : Type} [DecidableEq κ] (m : List (κ × α)) (k : κ) : List (κ × α) := m.filter fun e => e.1 ≠ k

/-- The order of the record index: by origin, then seq (R48). -/
def keyLt (a b : Key) : Bool := a.origin < b.origin || (a.origin == b.origin && a.seq < b.seq)

/-- The order of page addresses. -/
def addressLt (a b : Nat) : Bool := a < b

/-- The keys of a map stand in strictly rising order, so no key stands twice. -/
def mapSorted {κ α : Type} (lt : κ → κ → Bool) : List (κ × α) → Bool
  | [] => true
  | e :: rest => rest.all (fun e' => lt e.1 e'.1) && mapSorted lt rest

/-! ### The flash array -/

/-- A page in the erased state (R20). -/
def blankPage : PageCells := ⟨Vector.replicate 8 .erased, Vector.replicate 8 .erased, .erased, .erased, false⟩

/-- The address of a page. -/
def pageAddress (b : BlockId) (p : PageNo) : Nat := 32 * b.val + p.val

/-- The page at an address: erased where none is listed. -/
def readPage (flash : List (Nat × PageCells)) (a : Nat) : PageCells := (mapGet flash a).getD blankPage

/-- The array with the page at an address changed, in its canonical form. -/
def writePage (flash : List (Nat × PageCells)) (a : Nat) (c : PageCells) : List (Nat × PageCells) :=
  if c = blankPage then mapDrop flash a else mapPut addressLt flash a c

/-- The canonical form: page addresses of the array, strictly rising, and no page listed that is erased. -/
def Memory.wf (flash : List (Nat × PageCells)) : Bool :=
  mapSorted addressLt flash && flash.all fun e => decide (e.1 < 8192) && e.2 != blankPage

/-- The data cells of a slot. -/
def slotData (flash : List (Nat × PageCells)) (l : Loc) : SlotData :=
  (readPage flash (pageAddress l.block l.page)).slots.get l.slot

/-- What cells hold after a program or a retire mark that should have left `target` there. Programming moves cells away from
`erased` and never back to it (R20), so a fate that says erased has moved nothing. -/
def landOn {α : Type} [DecidableEq α] (erased before target : α) : Landed α → α
  | .untouched => before
  | .whole => target
  | .partly cells => if cells = erased then before else cells

/-- What cells hold when some have changed of themselves since they were written. Erased cells stay erased: programming alone
moves them (R20). A change that `alters` does not admit is none. -/
def changeTo {α : Type} [DecidableEq α] (erased : α) (fits : α → Bool) (before : α) (now : Option α) : α :=
  match now with
  | none => before
  | some cells => if before ≠ erased ∧ alters erased fits cells = true then cells else before

/-- A page after some of its cells have changed of themselves (R21, R32, R74). -/
def changedPage (c : PageCells) (w : PageChange) : PageCells :=
  { c with
    slots := Vector.zipWith (changeTo .erased slotFits) c.slots w.slots
    tags := Vector.zipWith (changeTo .erased tagFits) c.tags w.tags
    header := changeTo .erased headerValid c.header w.header
    mark := changeTo .erased markFits c.mark w.mark }

/-- The array after cells of the page at an address have changed of themselves; an array none of whose cells changed is
as it was. -/
def changedFlash (flash : List (Nat × PageCells)) (a : Nat) (w : PageChange) : List (Nat × PageCells) :=
  if changedPage (readPage flash a) w = readPage flash a then flash else writePage flash a (changedPage (readPage flash a) w)

/-- Cells of a page have changed of themselves before the read that is completed sensed it (R21, R32, R74). DESIGN CHOICE,
unsafe (log 2): the command that ends a read says which; the read itself changes nothing (R34, R35), and its result is that of
the array with these cells. -/
def State.cellsChange (s : State) (b : BlockId) (p : PageNo) (w : PageChange) : State :=
  { s with flash := changedFlash s.flash (pageAddress b p) w }

/-- What became of the n-th slot of a pass: everything landed when the lane passed. -/
def slotFate (fate : Option PassFate) (n : Nat) : SlotFate :=
  match fate with
  | none => ⟨.whole, .whole⟩
  | some f => f.slots.getD n ⟨.untouched, .untouched⟩

/-- The slot n places after a first slot; a pass never reaches beyond slot 7 (R24). -/
def slotAfter (first : SlotNo) (n : Nat) : SlotNo := ⟨(first.val + n) % 8, Nat.mod_lt _ (by decide)⟩

/-- One record of a pass in its page: slot and tag together (R3, R24). -/
def programSlot (first : SlotNo) (fate : Option PassFate) (c : PageCells) (rn : Record × Nat) : PageCells :=
  let i := slotAfter first rn.2
  { c with
    slots := c.slots.set i.val (landOn .erased (c.slots.get i) (slotOf rn.1) (slotFate fate rn.2).data) i.isLt
    tags := c.tags.set i.val (landOn .erased (c.tags.get i) (tagOf rn.1.key) (slotFate fate rn.2).tag) i.isLt }

/-- The header field of a page under a pass: written by the header pass alone (R22). -/
def programHeader (p : PassLane) (fate : Option PassFate) (c : PageCells) : PageCells :=
  match p.header with
  | none => c
  | some h =>
    match fate with
    | none => { c with header := headerOf h }
    | some f => { c with header := landOn .erased c.header (headerOf h) f.header }

/-- The page of one lane's pass after it: `fate` is none when the lane passed (R24, R31, R32, R39). -/
def programPage (p : PassLane) (fate : Option PassFate) (c : PageCells) : PageCells :=
  programHeader p fate (p.records.zipIdx.foldl (programSlot p.first fate) c)

/-- Every cell a pass addresses is erased: its slots and their tags and, for a header pass, the header (R20, R24, R73). -/
def passBlank (flash : List (Nat × PageCells)) (p : PassLane) : Bool :=
  let c := readPage flash (pageAddress p.block p.page)
  ((List.range p.records.length).all fun n =>
    c.slots.get (slotAfter p.first n) == .erased && c.tags.get (slotAfter p.first n) == .erased) &&
  (p.header.isNone || c.header == .erased)

/-- The array after one lane's pass. -/
def programFlash (flash : List (Nat × PageCells)) (p : PassLane) (fate : Option PassFate) : List (Nat × PageCells) :=
  let a := pageAddress p.block p.page
  writePage flash a (programPage p fate (readPage flash a))

/-- A page of a block under an erase; the factory mark survives (R23, R33). -/
def erasePage (fate : EraseFate) (p : PageNo) (c : PageCells) : PageCells :=
  match fate with
  | .untouched => c
  | .whole => { blankPage with factory := c.factory }
  | .partly pages =>
    match pages[p.val]? with
    | none => c
    | some left => { left with factory := c.factory }

/-- The array after an erase of a block (R33, R41). -/
def eraseFlash (flash : List (Nat × PageCells)) (b : BlockId) (fate : EraseFate) : List (Nat × PageCells) :=
  (List.finRange 32).foldl
    (fun f p => writePage f (pageAddress b p) (erasePage fate p (readPage f (pageAddress b p)))) flash

/-- The array after a RETIRE MARK on a block (R36). -/
def markFlash (flash : List (Nat × PageCells)) (b : BlockId) (fate : Landed MarkCells) : List (Nat × PageCells) :=
  let a := pageAddress b 31
  let c := readPage flash a
  writePage flash a { c with mark := landOn .erased c.mark (markOf b) fate }

/-! ### Lines and time -/

/-- The station is held: nRESET is low, or the supply has left its range (R188). -/
def State.held (s : State) : Bool := s.nresetLow || !s.power

/-- ATTN (R182, R188). -/
def State.attn (s : State) : Bool :=
  !s.held && ((match s.port.state with
    | .answered _ => true
    | _ => false) || !s.port.events.isEmpty)

/-- DIR: asserted while the station drives a frame (R87). -/
def State.dir (s : State) : Bool := !s.held && s.line.state == .sending

/-- TXD in bit time `n` of the frame that is driven, counted from its start bit; recessive while none is (R87, R88, R91,
R106, R188). -/
def State.txd (s : State) (n : Nat) : Level :=
  match s.dir, s.line.inFlight with
  | true, some f => ((frameLevels f.frame)[n]?).getD .recessive
  | _, _ => .recessive

/-- Time has reached an expiry (log 3). -/
def State.reach (s : State) (t : Nat) : State := { s with now := max s.now t }

/-- A protocol time at the scale of the configured timing class (R110). -/
def State.scaled (s : State) (t : Nat) : Nat :=
  match s.controller.config with
  | none => t
  | some c => t * 2 ^ c.timingClass

/-- The own ID; 0 while no configuration is stored, when no rule reads it (log 29). -/
def State.ownId (s : State) : Nat :=
  match s.controller.config with
  | none => 0
  | some c => c.stationId

/-- K of the configuration; 1 while none is stored, when no rule reads it (log 29). -/
def State.replication (s : State) : Nat :=
  match s.controller.config with
  | none => 1
  | some c => c.k

/-- JOINING, ACTIVE or LEAVING: the states in which the station takes part in the protocol (R16, R108). -/
def State.onBus (s : State) : Bool :=
  s.controller.state == .joining || s.controller.state == .active || s.controller.state == .leaving

/-! ### The port -/

/-- Posting an event (R180). -/
def State.post (s : State) (e : Event) : State :=
  if s.port.events.length < Config.eventPlaces then
    { s with port := { s.port with events := s.port.events ++ [e] } }
  else { s with port := { s.port with overflow := true } }

/-- The handling of a request ends with its response (R173). -/
def State.respond (s : State) (r : Response) : State := { s with port := { s.port with state := .answered r } }

/-! ### Tables by station ID -/

/-- The row of a station ID 1 to 30. -/
def stationGet {α : Type} (t : Vector α 30) (id : Nat) (d : α) : α :=
  if h : 1 ≤ id ∧ id ≤ 30 then t.get ⟨id - 1, by omega⟩ else d

/-- The table with the row of a station ID changed. -/
def stationSet {α : Type} (t : Vector α 30) (id : Nat) (a : α) : Vector α 30 :=
  if h : 1 ≤ id ∧ id ≤ 30 then t.set (id - 1) a (by omega) else t

/-- The roster row of a peer (R118). -/
def State.rosterRow (s : State) (id : Nat) : RosterRow := stationGet s.controller.roster id .absent

/-- The roster with a peer's row changed. -/
def State.setRosterRow (s : State) (id : Nat) (r : RosterRow) : State :=
  { s with controller := { s.controller with roster := stationSet s.controller.roster id r } }

/-- At least one roster row is PRESENT (R122). -/
def State.somePresent (s : State) : Bool :=
  s.controller.roster.toList.any fun r => match r with
    | .present _ _ => true
    | _ => false

/-- The origin row of a station ID (R153). -/
def State.originRow (s : State) (id : Nat) : OriginRow := stationGet s.gap.rows id ⟨none, 0⟩

/-- The origin table with a row changed. -/
def State.setOriginRow (s : State) (id : Nat) (r : OriginRow) : State :=
  { s with gap := { s.gap with rows := stationSet s.gap.rows id r } }

/-! ### The record index and the block table -/

/-- The slot the record index holds for a key: a key with one is held (R2, R48). -/
def State.locate (s : State) (k : Key) : Option Loc := mapGet s.index k

/-- A key is inserted or repointed (R49). -/
def State.indexPut (s : State) (k : Key) (l : Loc) : State := { s with index := mapPut keyLt s.index k l }

/-- A key is removed (R49). -/
def State.indexDrop (s : State) (k : Key) : State := { s with index := mapDrop s.index k }

/-- A key is staged: it stands in the intake queue (R2). -/
def State.staged (s : State) (k : Key) : Bool := s.intake.any fun e => e.record.key == k

/-- The highest seq indexed for an origin; 0 when none is. -/
def highestSeq (index : List (Key × Loc)) (origin : Nat) : Nat :=
  index.foldl (fun m e => if e.1.origin = origin then max m e.1.seq else m) 0

/-- The lane of a block (R20). -/
def laneOf (b : BlockId) : Lane := ⟨b.val % 4, Nat.mod_lt _ (by decide)⟩

/-- The blocks of a lane in ascending order (R20). -/
def laneBlocks (l : Lane) : List BlockId := (List.finRange 64).map fun i => ⟨4 * i.val + l.val, by omega⟩

/-- A row of the block table. -/
def State.block (s : State) (b : BlockId) : BlockRow := s.map.blocks.get b

/-- The block table with a row changed. -/
def State.setBlock (s : State) (b : BlockId) (r : BlockRow) : State :=
  { s with map := { s.map with blocks := s.map.blocks.set b.val r b.isLt } }

/-- A lane row. -/
def State.lane (s : State) (l : Lane) : LaneRow := s.map.lanes.get l

/-- The lane table with a row changed. -/
def State.setLane (s : State) (l : Lane) (r : LaneRow) : State :=
  { s with map := { s.map with lanes := s.map.lanes.set l.val r l.isLt } }

/-- The live count of a block: the index entries that point into it (R48). -/
def State.liveCount (s : State) (b : BlockId) : Nat := (s.index.filter fun e => e.2.block == b).length

/-- An OPEN block as the builder uses it. -/
structure OpenBlock where
  block : BlockId
  chain : Nat
  header : Option HeaderInfo
  position : WritePosition
deriving DecidableEq, Repr

/-- A block seen as OPEN. -/
def State.asOpen (s : State) (b : BlockId) : Option OpenBlock :=
  match s.block b with
  | .opened chain header position => some ⟨b, chain, header, position⟩
  | _ => none

/-- The lane's OPEN block (R44). -/
def State.openBlock (s : State) (l : Lane) : Option OpenBlock := (laneBlocks l).findSome? s.asOpen

/-- The lane's free pool, in ascending block number (R44). -/
def State.freePool (s : State) (l : Lane) : List BlockId := (laneBlocks l).filter fun b => s.block b == .free

/-- Blocks of a lane awaiting erase (R60). -/
def State.awaitingErase (s : State) (l : Lane) : Nat :=
  ((laneBlocks l).filter fun b => s.block b == .erasing || s.block b == .dirty).length

/-- A row that keeps a lane without OPEN and FREE blocks FULL rather than DEAD (R46). -/
def BlockRow.keepsFull : BlockRow → Bool
  | .sealed _ => true
  | .erasing => true
  | .dirty => true
  | _ => false

/-- The condition of a lane (R46): the first line that applies. -/
def State.condition (s : State) (l : Lane) : LaneCondition :=
  if (s.openBlock l).isSome then .openAvailable
  else if !(s.freePool l).isEmpty then .needsBlock
  else if (laneBlocks l).any (fun b => (s.block b).keepsFull) then .full
  else .dead

/-- Every lane is DEAD (R47). -/
def State.allDead (s : State) : Bool := (List.finRange 4).all fun l => s.condition l == .dead

/-- The chain number of a block in the chain; 0 for others, which no rule reads. -/
def BlockRow.chainNumber : BlockRow → Nat
  | .opened chain _ _ => chain
  | .sealed chain => chain
  | .retiring chain => chain
  | _ => 0

/-- The lane's lowest-numbered SEALED block in chain order (R60). -/
def State.oldestSealed (s : State) (l : Lane) : Option BlockId :=
  (laneBlocks l).foldl (fun best b =>
    match s.block b with
    | .sealed chain =>
      match best with
      | none => some b
      | some o => if chain < (s.block o).chainNumber then some b else some o
    | _ => best) none

/-! ### The evacuator's blocks -/

/-- When there is no current block, the lowest-numbered of the retiring list becomes current (R66, R69). -/
def State.evacuatorNext (s : State) : State :=
  match s.map.evacuator.current, s.map.evacuator.retiring with
  | none, b :: rest =>
    { s with map := { s.map with evacuator := { s.map.evacuator with current := some b, retiring := rest } } }
  | _, _ => s

/-- A block takes its place in the retiring list, by chain number (R66). -/
def State.insertRetiring (s : State) (b : BlockId) : List BlockId → List BlockId
  | [] => [b]
  | o :: rest =>
    if (s.block b).chainNumber < (s.block o).chainNumber then b :: o :: rest else o :: s.insertRetiring b rest

/-- A block that has become RETIRING joins the evacuator (R57, R66). -/
def State.joinEvacuator (s : State) (b : BlockId) : State :=
  State.evacuatorNext
    { s with map := { s.map with evacuator := { s.map.evacuator with
        retiring := s.insertRetiring b s.map.evacuator.retiring } } }

/-- A block that has become RETIRED leaves the evacuator (R69). -/
def State.leaveEvacuator (s : State) (b : BlockId) : State :=
  State.evacuatorNext
    { s with map := { s.map with evacuator := { s.map.evacuator with
        current := if s.map.evacuator.current = some b then none else s.map.evacuator.current
        retiring := s.map.evacuator.retiring.filter fun o => o ≠ b } } }

/-- A block becomes RETIRED (R69): its mark is requested and BLOCK_RETIRED is posted. -/
def State.retire (s : State) (b : BlockId) (cause : RetireCause) : State :=
  let s := s.setBlock b .retired
  let s := { s with sequencer := { s.sequencer with retireMarks := s.sequencer.retireMarks ++ [b] } }
  let s := s.post (.blockRetired b (laneOf b) cause)
  s.leaveEvacuator b

/-- A removal or repoint that leaves a RETIRING block without index entries makes it RETIRED (R49, R69). -/
def State.retireIfEmptied (s : State) (b : BlockId) : State :=
  match s.block b with
  | .retiring _ => if s.liveCount b = 0 then s.retire b .program else s
  | _ => s

/-! ### Transmit buffers and their owners -/

/-- A buffer. -/
def State.buffer (s : State) (i : BufferNo) : Buffer := s.transmit.buffers.get i

/-- The buffers with one changed. -/
def State.setBuffer (s : State) (i : BufferNo) (b : Buffer) : State :=
  { s with transmit := { s.transmit with buffers := s.transmit.buffers.set i.val b i.isLt } }

/-- The frame of buffer `i` is the frame in flight (R101). -/
def State.onLine (s : State) (i : BufferNo) : Bool :=
  match s.line.inFlight with
  | some f => f.owner == .buffer i
  | none => false

/-- What the end of an owner's claim does to a buffer (R105): a read goes on, a frame on the line goes on, any other
LOADED buffer is released. -/
def Buffer.endClaim (b : Buffer) (owner : BufferOwner) (onLine : Bool) : Buffer :=
  match b with
  | .empty => .empty
  | .reading o claimed => if o = owner then .reading o false else .reading o claimed
  | .loaded o r claimed =>
    if o = owner then (if onLine then .loaded o r false else .empty) else .loaded o r claimed

/-- An owner's claims end (R105, R133). -/
def State.endClaims (s : State) (owner : BufferOwner) : State :=
  let s := s.setBuffer 0 ((s.buffer 0).endClaim owner (s.onLine 0))
  s.setBuffer 1 ((s.buffer 1).endClaim owner (s.onLine 1))

/-! ### The tracker -/

/-- SECURED and SHORT (R124). -/
def TrackerState.isDone : TrackerState → Bool
  | .secured => true
  | .short => true
  | _ => false

/-- QUEUED, LOADED and AWAITING (R124). -/
def TrackerState.isLive : TrackerState → Bool
  | .queued => true
  | .loaded => true
  | .awaiting _ => true
  | _ => false

/-- The tracker entry of a key (R124). -/
def State.entry (s : State) (k : Key) : Option TrackerEntry := s.tracker.entries.find? fun e => e.key == k

/-- The tracker with the entry of a key changed. -/
def State.updateEntry (s : State) (k : Key) (f : TrackerEntry → TrackerEntry) : State :=
  { s with tracker := { s.tracker with entries := s.tracker.entries.map fun e => if e.key = k then f e else e } }

/-- A holder set with one more station ID, in ascending order and without duplicates (R132, R137). -/
def insertHolder (id : Nat) : List Nat → List Nat
  | [] => [id]
  | h :: rest => if id < h then id :: h :: rest else if id = h then h :: rest else h :: insertHolder id rest

/-- An entry becomes done (R135): its state and damaged flag are fixed, OUTCOME is posted and its claims end (R133). -/
def State.finish (s : State) (e : TrackerEntry) (secured damaged : Bool) : State :=
  let s := s.updateEntry e.key fun e =>
    { e with state := if secured then .secured else .short, damaged := e.damaged || damaged }
  let s := s.post (.outcome e.key.seq secured e.holders.length)
  s.endClaims (.tracker e.key)

/-- The entry of a key becomes SHORT with its damaged flag set, if it is live (R129, R134). -/
def State.shortDamaged (s : State) (k : Key) : State :=
  match s.entry k with
  | some e => if e.state.isLive then s.finish e false true else s
  | none => s

/-! ### The answer list, the Receipt List and the send-once list -/

/-- The answer-list entry of a key (R164). -/
def State.answer (s : State) (k : Key) : Option AnswerEntry := s.gap.answers.find? fun a => a.key == k

/-- An answer-list entry is removed and its claims end (R167, R168). -/
def State.removeAnswer (s : State) (k : Key) : State :=
  match s.answer k with
  | none => s
  | some _ =>
    let s := { s with gap := { s.gap with answers := s.gap.answers.filter fun a => a.key ≠ k } }
    s.endClaims (.answer k)

/-- A key is offered to the Receipt List (R143). -/
def State.offerReceipt (s : State) (k : Key) : State :=
  if s.receipts.contains k ∨ Config.receiptPlaces ≤ s.receipts.length then s
  else { s with receipts := s.receipts ++ [k] }

/-- A key leaves the Receipt List, if it stands there (R147). -/
def State.dropReceipt (s : State) (k : Key) : State := { s with receipts := s.receipts.filter fun r => r ≠ k }

/-- A key is handed over to be sent once (R101). -/
def State.handSendOnce (s : State) (k : Key) : State :=
  if s.transmit.sendOnce.contains k ∨ Config.sendOncePlaces ≤ s.transmit.sendOnce.length then s
  else { s with transmit := { s.transmit with sendOnce := s.transmit.sendOnce ++ [k] } }

/-- A key leaves the send-once list (R101). -/
def State.dropSendOnce (s : State) (k : Key) : State :=
  { s with transmit := { s.transmit with sendOnce := s.transmit.sendOnce.filter fun o => o ≠ k } }

/-! ### Damaged reads -/

/-- A slot read that ended DAMAGED (R50): when the index still locates the key at the slot read, the key is removed
from the index and the Receipt List, RECORD_DAMAGED is posted, and the tracker (R134) and the answer list (R168) are
told. -/
def State.damagedRead (s : State) (k : Key) (l : Loc) : State :=
  if s.locate k = some l then
    let s := (s.indexDrop k).retireIfEmptied l.block
    let s := s.dropReceipt k
    let s := s.post (.recordDamaged k l)
    let s := s.shortDamaged k
    s.removeAnswer k
  else s

/-! ### The intake queue -/

/-- LOCAL and BUS entries, IN_PASS ones included (R6). -/
def State.sharedEntries (s : State) : Nat :=
  (s.intake.filter fun e => match e.source with
    | .evacuation _ => false
    | _ => true).length

/-- LOCAL entries (R18). -/
def State.localEntries (s : State) : Nat := (s.intake.filter fun e => e.source == .localHost).length

/-- BUS entries (R18). -/
def State.busEntries (s : State) : Nat :=
  (s.intake.filter fun e => match e.source with
    | .bus _ => true
    | _ => false).length

/-- EVACUATION entries (R18). -/
def State.evacuationEntries (s : State) : Nat :=
  (s.intake.filter fun e => match e.source with
    | .evacuation _ => true
    | _ => false).length

/-- An entry is made as the newest, WAITING (R7 to R10). -/
def State.stage (s : State) (r : Record) (src : Source) : State :=
  { s with intake := s.intake ++ [⟨r, src, .waiting⟩] }

/-- The entry is being programmed to a block. -/
def IntakeEntry.inPassOn (e : IntakeEntry) (b : BlockId) : Bool :=
  match e.state with
  | .waiting => false
  | .inPass l => l.block == b

/-! ### The origin table -/

/-- A free chain number after the greatest one (log 7), or the next. -/
def State.chainAfter (s : State) (chain : Nat) : Nat × Nat :=
  if chain < Config.maxChain then (chain + 1, s.freeDraws)
  else ((Config.chainAfterMax s.freeDraws).toNat, s.freeDraws + 1)

/-- Horizon of a row from its gap list (R154). -/
def TrackedRow.withHorizon (t : TrackedRow) : TrackedRow :=
  { t with horizon := match t.gaps with
      | [] => t.topSeen
      | g :: _ => g.1 - 1 }

/-- A row with the range it abandoned, if it abandoned one. -/
structure RowChange where
  row : OriginRow
  abandoned : Option (Nat × Nat) := none
deriving DecidableEq, Repr

/-- The lowest range is abandoned (R159). -/
def abandonLowest (t : TrackedRow) (lost : Nat) : RowChange :=
  match t.gaps with
  | [] => ⟨⟨some t.withHorizon, lost⟩, none⟩
  | g :: rest =>
    ⟨⟨some (TrackedRow.withHorizon { t with gaps := rest, attempts := 0 }),
      min Config.countStop (lost + (g.2 - g.1 + 1))⟩, some g⟩

/-- A row after a change of its gap list: a fifth range abandons the lowest (R154). -/
def closeRow (t : TrackedRow) (lost : Nat) : RowChange :=
  if Config.gapPlaces < t.gaps.length then abandonLowest t lost else ⟨⟨some t.withHorizon, lost⟩, none⟩

/-- A range is added: joined to the highest range where it follows it, appended otherwise (R154). -/
def addRange (gaps : List (Nat × Nat)) (first last : Nat) : List (Nat × Nat) :=
  match gaps.getLast? with
  | some g => if g.2 + 1 = first then gaps.dropLast ++ [(g.1, last)] else gaps ++ [(first, last)]
  | none => [(first, last)]

/-- A range without one of its seqs (R156). -/
def splitRange (q : Nat) (g : Nat × Nat) : List (Nat × Nat) :=
  if g.1 ≤ q ∧ q ≤ g.2 then
    (if g.1 < q then [(g.1, q - 1)] else []) ++ (if q < g.2 then [(q + 1, g.2)] else [])
  else [g]

/-- An arrival (R156). -/
def arrive (t : TrackedRow) (lost q : Nat) : RowChange :=
  if t.topSeen + 1 < q then
    closeRow { t with gaps := addRange t.gaps (t.topSeen + 1) (q - 1), topSeen := q } lost
  else if q = t.topSeen + 1 then closeRow { t with topSeen := q } lost
  else if t.gaps.any (fun g => decide (g.1 ≤ q ∧ q ≤ g.2)) then
    closeRow { t with
      gaps := t.gaps.flatMap (splitRange q)
      attempts := if t.gaps.head? = some (q, q) then 0 else t.attempts } lost
  else ⟨⟨some t, lost⟩, none⟩

/-- A range of seqs above top_seen becomes known and is missing: a missed arrival (R157) or a ROLL (R158). -/
def extendTo (t : TrackedRow) (lost top : Nat) : RowChange :=
  if t.topSeen < top then closeRow { t with gaps := addRange t.gaps (t.topSeen + 1) top, topSeen := top } lost
  else ⟨⟨some t, lost⟩, none⟩

/-- A row takes a change; an abandoned range is reported (R159). -/
def State.applyRow (s : State) (origin : Nat) (c : RowChange) : State :=
  let s := s.setOriginRow origin c.row
  match c.abandoned with
  | none => s
  | some g => s.post (.gapAbandoned origin g.1 g.2)

/-! ### Reset -/

/-- The flash cells that an interruption of the operation in flight leaves (R39 to R42). -/
def interruptedFlash (s : State) (w : Interruption) : List (Nat × PageCells) :=
  match s.sequencer.inFlight with
  | some (.program lanes) =>
    lanes.foldl (fun f p => programFlash f p (some (w.passes.get (laneOf p.block)))) s.flash
  | some (.erase blocks) => blocks.foldl (fun f b => eraseFlash f b (w.erases.get (laneOf b))) s.flash
  | some (.retireMark b) => markFlash s.flash b w.mark
  | _ => s.flash

/-- The intake queue after a reset in progress has aborted the operation in flight: the entries of a pass return to
WAITING in their places (R13). -/
def interruptedIntake (s : State) : List IntakeEntry :=
  match s.sequencer.inFlight with
  | some (.program lanes) =>
    s.intake.map fun e => if lanes.any fun p => e.inPassOn p.block then { e with state := .waiting } else e
  | _ => s.intake

/-- The operation in flight ends without a completion (R13, R42). -/
def State.interrupt (s : State) (w : Interruption) : State :=
  { s with
    flash := interruptedFlash s w
    intake := interruptedIntake s
    sequencer := { s.sequencer with inFlight := none } }

/-- A reset takes effect: everything but the array, the lines and the model's own fields is set to its reset value,
the configuration to what the reset keeps (R19, R27, R42, R44, R66, R71, R85, R87, R101, R107, R117, R140, R142, R160,
R164, R170). -/
def State.afterReset (s : State) (keep : Option Configuration) : State :=
  { State.reset with
    now := s.now
    power := s.power
    nresetLow := s.nresetLow
    flash := s.flash
    sequencer := Sequencer.reset s.sequencer.protect
    controller := Controller.reset keep
    freeDraws := s.freeDraws
    pending := s.pending }

/-- The start of a reset condition (R188): the operation in flight ends, the station stops driving the line and the
current transaction is voided. -/
def State.beginHold (s : State) (w : Interruption) : State :=
  let s := s.interrupt w
  { s with
    line := { s.line with state := .off, inFlight := none }
    port := { s.port with miso := [] } }

/-- A command's effect in a station that is not held; while it is held no command but those of its lines has any
(R188, log 17). -/
def State.awake (s : State) (f : State → State) : Outcome := if s.held then .next s else .next (f s)

end Sys2Proof.Machine
end

