-- ==== Sys2Proof/Machine/Background.lean ====
section
/-! DEFINITION. The station's own workers, which act within the event of a command: evacuator, Transmit Assembly,
reclaimer, program builder, Array Sequencer, drain test (R29, R30, R51 to R55, R60 to R62, R67, R102, R103, R114). -/

namespace Sys2Proof.Machine

/-! ### The evacuator's reads (R67) -/

/-- Position of a slot in a block, page first. -/
def locBefore (a b : Loc) : Bool := a.page < b.page || (a.page == b.page && a.slot < b.slot)

/-- The first index entry of a block, in ascending page and slot order, whose key is neither staged nor the subject of
an outstanding read (R67). -/
def State.nextEvacuation (s : State) (b : BlockId) : Option SlotRead :=
  s.index.foldl (fun best e =>
    if e.2.block = b && !s.staged e.1 && !(s.map.evacuator.reads.any fun r => r.key == e.1) then
      match best with
      | none => some ⟨e.1, e.2⟩
      | some r => if locBefore e.2 r.loc then some ⟨e.1, e.2⟩ else some r
    else best) none

/-- A class-5 read is placed (R67). -/
def State.placeEvacuationRead (s : State) (r : SlotRead) : State :=
  { s with
    map := { s.map with evacuator := { s.map.evacuator with reads := s.map.evacuator.reads ++ [r] } }
    sequencer := { s.sequencer with evacuationReads := s.sequencer.evacuationReads ++ [r] } }

/-- The evacuator places reads while the conditions of R67 hold; `n` bounds how many. -/
def State.evacuate : Nat → State → State
  | 0, s => s
  | n + 1, s =>
    match s.map.evacuator.current with
    | none => s
    | some b =>
      if s.evacuationEntries + s.map.evacuator.reads.length < Config.evacuationPlaces then
        match s.nextEvacuation b with
        | none => s
        | some r => State.evacuate n (s.placeEvacuationRead r)
      else s

/-! ### The Transmit Assembly's work (R102, R103) -/

/-- The owner a buffer is held by, while the owner's claim stands (log 14). -/
def Buffer.heldBy : Buffer → Option BufferOwner
  | .empty => none
  | .reading o claimed => if claimed then some o else none
  | .loaded o _ claimed => if claimed then some o else none

/-- An owner has a buffer. -/
def State.hasBuffer (s : State) (o : BufferOwner) : Bool :=
  (s.buffer 0).heldBy == some o || (s.buffer 1).heldBy == some o

/-- The key of an owner (R101). -/
def BufferOwner.key : BufferOwner → Key
  | .tracker k => k
  | .answer k => k
  | .sendOnce k => k

/-- The element with the least measure, the first of equal ones. -/
def leastBy {α : Type} (f : α → Nat) (l : List α) : Option α :=
  l.foldl (fun best a =>
    match best with
    | none => some a
    | some b => if f a < f b then some a else some b) none

/-- Origin work, lowest seq first (R102). -/
def State.originWork (s : State) : Option BufferOwner :=
  leastBy (fun o => o.key.seq)
    (((s.tracker.entries.filter fun e => e.state == .queued).map (fun e => BufferOwner.tracker e.key)
      ++ s.transmit.sendOnce.map BufferOwner.sendOnce).filter fun o => !s.hasBuffer o)

/-- Answer work, earliest due time first, among equal due times in list order (R102). -/
def State.answerWork (s : State) : Option BufferOwner :=
  (leastBy (fun a : AnswerEntry => a.dueAt)
    (s.gap.answers.filter fun a => a.due && !a.loaded && !s.hasBuffer (.answer a.key))).map fun a => .answer a.key

/-- A buffer is held by an answer owner (R102). -/
def Buffer.heldByAnswer (b : Buffer) : Bool :=
  match b.heldBy with
  | some (.answer _) => true
  | _ => false

/-- The owner that an EMPTY buffer goes to, when the other buffer is `other` (R102). -/
def State.chooseOwner (s : State) (other : Buffer) : Option BufferOwner :=
  match s.answerWork, s.originWork with
  | none, o => o
  | some a, none => some a
  | some a, some o => if other.heldByAnswer then some o else some a

/-- The owner's key is not indexed when a buffer is given: the owner is told (R103). -/
def State.ownerAbsent (s : State) : BufferOwner → State
  | .tracker k => s.shortDamaged k
  | .answer k => s.removeAnswer k
  | .sendOnce k => s.dropSendOnce k

/-- A buffer is given to an owner (R103). -/
def State.giveBuffer (s : State) (i : BufferNo) (o : BufferOwner) : State :=
  match s.locate o.key with
  | none => s.ownerAbsent o
  | some l =>
    let s := s.setBuffer i (.reading o true)
    { s with sequencer := { s.sequencer with transmitReads := s.sequencer.transmitReads ++ [⟨i, o.key, l⟩] } }

/-- The EMPTY buffer that is given next, with the owner it goes to (R102). DESIGN CHOICE, safe (log 34): of two EMPTY buffers,
buffer 0. -/
def State.nextGift (s : State) : Option (BufferNo × BufferOwner) :=
  if s.buffer 0 = .empty then (s.chooseOwner (s.buffer 1)).map fun o => (0, o)
  else if s.buffer 1 = .empty then (s.chooseOwner (s.buffer 0)).map fun o => (1, o)
  else none

/-- The Transmit Assembly gives EMPTY buffers while work waits (R102); `n` bounds how many owners it serves. -/
def State.giveBuffers : Nat → State → State
  | 0, s => s
  | n + 1, s =>
    match s.nextGift with
    | none => s
    | some g => State.giveBuffers n (s.giveBuffer g.1 g.2)

/-- Every owner there can be is served within this many gifts: each gift fills a buffer or removes an owner. -/
def State.giftBound (s : State) : Nat :=
  2 + s.tracker.entries.length + s.transmit.sendOnce.length + s.gap.answers.length

/-! ### Pins and the reclaimer (R60 to R62) -/

/-- The pins (R61): each live tracker entry and each answer entry with the index location of its key. -/
def State.pins (s : State) : List (BufferOwner × Loc) :=
  ((s.tracker.entries.filter fun e => e.state.isLive).map (fun e => BufferOwner.tracker e.key)
    ++ s.gap.answers.map fun a => BufferOwner.answer a.key).filterMap fun o => (s.locate o.key).map fun l => (o, l)

/-- A block is pinned (R61). -/
def State.pinned (s : State) (b : BlockId) : Bool := s.pins.any fun p => p.2.block == b

/-- A tracker entry has left QUEUED, LOADED and AWAITING for SECURED or SHORT (R61, R133, R134). -/
def entryDone (before after : State) : Bool :=
  before.tracker.entries.any fun e =>
    e.state.isLive && after.tracker.entries.any fun e' => e'.key == e.key && e'.state.isDone

/-- An answer-list entry has been removed (R61, R166 to R168). -/
def answerGone (before after : State) : Bool := before.gap.answers.any fun a => (after.answer a.key).isNone

/-- A key has been removed from the index or repointed (R49, R61), whatever names it. -/
def keyMoved (before after : State) : Bool := before.index.any fun e => after.locate e.1 != before.locate e.1

/-- Between two states of one event a pin was released: one of the three events of R61. DEDUCED, unsafe (log 13): the two
states are compared once, when all else that the event does before the reclaimer's tests is done. -/
def pinReleased (before after : State) : Bool :=
  entryDone before after || answerGone before after || keyMoved before after

/-- The lane is below its low-water mark (R60). -/
def State.low (s : State) (l : Lane) : Bool := (s.freePool l).length + s.awaitingErase l < Config.lowWater

/-- A candidate is purged (R62). -/
def State.purge (s : State) (l : Lane) (b : BlockId) : State :=
  let gone := (s.index.filter fun e => e.2.block == b).map fun e => e.1
  let s := { s with
    index := s.index.filter fun e => e.2.block != b
    receipts := s.receipts.filter fun k => !gone.contains k }
  let s := s.setBlock b .erasing
  let s := s.setLane l { s.lane l with candidate := none }
  { s with sequencer := { s.sequencer with reclaimErases := s.sequencer.reclaimErases ++ [b] } }

/-- While the lane wants reclamation, its lowest-numbered SEALED block becomes the candidate and is tested (R60, R61);
`n` bounds how many are purged. -/
def State.reclaimNew : Nat → State → Lane → State
  | 0, s, _ => s
  | n + 1, s, l =>
    if s.low l && (s.lane l).candidate.isNone then
      match s.oldestSealed l with
      | none => s
      | some b =>
        if s.pinned b then s.setLane l { s.lane l with candidate := some b, freeThen := (s.freePool l).length }
        else State.reclaimNew n (s.purge l b) l
    else s

/-- The lane whose candidate waits no longer wants reclamation (R61, R65): an erase completion has raised its FREE count since
the candidate was chosen, or the sum of R60 has reached the mark. DEDUCED, unsafe (log 35): the count is compared with that of
the moment of choice. -/
def State.eased (s : State) (l : Lane) : Bool := !s.low l || (s.lane l).freeThen < (s.freePool l).length

/-- A lane's waiting candidate is tested again after a pin release (R61, R65). -/
def State.retest (s : State) (l : Lane) : State :=
  match (s.lane l).candidate with
  | none => s
  | some b =>
    if s.eased l then s.setLane l { s.lane l with candidate := none }
    else if s.pinned b then s
    else s.purge l b

/-- The reclaimer tests the lane (R60): a pin was released, a mount has ended, or a block of the lane has changed state between
`before` and `s`. The fourth kind of event, a purge, is within the test itself. DESIGN CHOICE, unsafe (log 38): R59 step 4 and
R63 test the conditions at every completion of a program and of an erase; here such a completion tests only the lanes R60
names. -/
def reclaimTests (released : Bool) (before s : State) (l : Lane) : Bool :=
  released || before.controller.state == .mounting ||
    (laneBlocks l).any fun b => !(before.block b).sameState (s.block b)

/-- The candidate of the lane is dropped at this release (R61). -/
def State.drops (s : State) (released : Bool) (l : Lane) : Bool := released && (s.lane l).candidate.isSome && s.eased l

/-- The reclaimer tests one lane, if it is to be tested. A lane whose candidate is dropped does not want reclamation, and is
given no other in the same test (R65; log 35). -/
def reclaimLane (released : Bool) (before s : State) (l : Lane) : State :=
  if s.drops released l then s.retest l
  else if reclaimTests released before s l then
    State.reclaimNew Config.lowWater (if released then s.retest l else s) l
  else s

/-- One round of the reclaimer's tests (R60, R61). DESIGN CHOICE, unsafe (log 33): in ascending lane order, each lane done before
the next, so the reclaim requests of one event are placed in that order. -/
def State.reclaimRound (s : State) (released : Bool) (before : State) : State :=
  (List.finRange 4).foldl (reclaimLane released before) s

/-- The reclaimer tests its lanes after what has changed from `before` to `s` (R60, R61). A purge that removes a key from the
index releases a pin (R49, R61): when the round was not made at a release, a round at a release follows, in every lane. DEDUCED,
unsafe (log 13): a round at a release leaves nothing that a purge of its own would have tested again. -/
def State.reclaim (s : State) (released : Bool) (before : State) : State :=
  let t := s.reclaimRound released before
  if !released && keyMoved s t then t.reclaimRound true before else t

/-! ### The program builder (R51 to R55) -/

/-- The lane can take a pass now (R51). -/
def State.canTake (s : State) (l : Lane) : Bool :=
  !(s.lane l).engaged && (s.condition l == .openAvailable || s.condition l == .needsBlock)

/-- The lead lane: the first able lane after the rotation pointer (R52). -/
def State.leadLane (s : State) : Option Lane :=
  [s.map.rotation + 1, s.map.rotation + 2, s.map.rotation + 3, s.map.rotation].find? s.canTake

/-- The lead lane without an OPEN block opens the lowest-numbered block of its free pool (R53). -/
def State.openIfNeeded (s : State) (l : Lane) : State :=
  match s.openBlock l with
  | some _ => s
  | none =>
    match s.freePool l with
    | [] => s
    | b :: _ =>
      let chain := s.map.nextChain
      let after := s.chainAfter chain
      let s := s.setBlock b (.opened chain (some ⟨chain, s.ownId, s.tracker.nextSeq.getD 0⟩) ⟨0, 0, 0⟩)
      { s with map := { s.map with nextChain := after.1 }, freeDraws := after.2 }

/-- Free slots at a write position (R54). -/
def WritePosition.free (p : WritePosition) : Nat := Config.slotsPerPage - p.slots.val

/-- One lane of a pass with the entries assigned to it (R54, R55). -/
def formLane (o : OpenBlock) (entries : List IntakeEntry) : PassLane where
  block := o.block
  page := o.position.page
  first := o.position.slots
  records := entries.map fun e => e.record
  header := if o.position.page = 0 ∧ o.position.passes = 0 then o.header else none

/-- The lanes that join a gang, with the WAITING entries that are left (R54). -/
def State.joinLanes (s : State) (page : PageNo) : List Lane → List IntakeEntry → List PassLane
  | [], _ => []
  | l :: rest, waiting =>
    match waiting, s.openBlock l with
    | [], _ => []
    | _, none => s.joinLanes page rest waiting
    | _, some o =>
      if !(s.lane l).engaged && o.position.page == page then
        formLane o (waiting.take o.position.free) :: s.joinLanes page rest (waiting.drop o.position.free)
      else s.joinLanes page rest waiting

/-- The slots a lane of a pass assigns to its keys (R11). -/
def PassLane.assignments (p : PassLane) : List (Key × Loc) :=
  p.records.zipIdx.map fun rn => (rn.1.key, ⟨p.block, p.page, slotAfter p.first rn.2⟩)

/-- An entry takes its assignment (R11). -/
def assign (slots : List (Key × Loc)) (e : IntakeEntry) : IntakeEntry :=
  match e.state, mapGet slots e.record.key with
  | .waiting, some l => { e with state := .inPass l }
  | _, _ => e

/-- A pass is placed (R55). -/
def State.placePass (s : State) (lead : Lane) (lanes : List PassLane) : State :=
  let s := { s with
    intake := s.intake.map (assign (lanes.flatMap PassLane.assignments))
    sequencer := { s.sequencer with programs := s.sequencer.programs ++ [lanes] }
    map := { s.map with rotation := lead } }
  lanes.foldl (fun s p => s.setLane (laneOf p.block) { s.lane (laneOf p.block) with engaged := true }) s

/-- The WAITING entries in queue order (R7). -/
def State.waiting (s : State) : List IntakeEntry := s.intake.filter fun e => e.state == .waiting

/-- The builder forms one pass when the three conditions of R51 hold. -/
def State.formPass (s : State) : State :=
  if s.waiting.isEmpty || !s.sequencer.programs.isEmpty then s
  else
    match s.leadLane with
    | none => s
    | some lead =>
      let s := s.openIfNeeded lead
      match s.openBlock lead with
      | none => s
      | some o =>
        s.placePass lead
          (formLane o (s.waiting.take o.position.free)
            :: s.joinLanes o.position.page [lead + 1, lead + 2, lead + 3] (s.waiting.drop o.position.free))

/-- The builder acts, and the reclaimer tests the lanes in which it has changed a block (R53, R60). -/
def State.formAndReclaim (s : State) : State := s.formPass.reclaim false s

/-! ### The Array Sequencer (R29, R30) -/

/-- The class-4 list: DIRTY requests ahead of reclaim requests (R28). -/
def Sequencer.erases (q : Sequencer) : List BlockId := q.dirtyErases ++ q.reclaimErases

/-- The blocks of a ganged erase led by a block (R30): for each other lane in ascending order, the first waiting
request of that lane. -/
def eraseGang (lead : BlockId) (waiting : List BlockId) : List BlockId :=
  lead :: ((List.finRange 4).filter fun l => l ≠ laneOf lead).filterMap fun l => waiting.find? fun b => laneOf b == l

/-- The request that starts on a free array, with the sequencer after it has left its list (R29, R30). -/
def Sequencer.start (q : Sequencer) : Sequencer :=
  match q.transmitReads, q.hostReads with
  | r :: rest, _ => { q with inFlight := some (.transmitRead r), transmitReads := rest }
  | [], r :: rest => { q with inFlight := some (.hostRead r), hostReads := rest }
  | [], [] =>
    match q.protect, q.programs, q.erases, q.evacuationReads, q.retireMarks with
    | false, p :: rest, _, _, _ => { q with inFlight := some (.program p), programs := rest }
    | false, [], b :: _, _, _ =>
      let gang := eraseGang b q.erases
      { q with
        inFlight := some (.erase gang)
        dirtyErases := q.dirtyErases.filter fun o => !gang.contains o
        reclaimErases := q.reclaimErases.filter fun o => !gang.contains o }
    | _, _, _, r :: rest, _ => { q with inFlight := some (.evacuationRead r), evacuationReads := rest }
    | false, [], [], [], b :: rest => { q with inFlight := some (.retireMark b), retireMarks := rest }
    | _, _, _, _, _ => q

/-- The array is free (R29). -/
def Sequencer.isFree (q : Sequencer) : Bool := q.inFlight.isNone && !q.exclusive

/-- On a free array the first eligible request starts (R29). -/
def State.startNext (s : State) : State :=
  if s.sequencer.isFree then { s with sequencer := s.sequencer.start } else s

/-! ### The drain (R114) -/

/-- The three conditions of R114. -/
def State.drained (s : State) : Bool :=
  s.tracker.entries.all (fun e => e.state.isDone) && s.localEntries == 0 && s.transmit.sendOnce.isEmpty

/-- A LEAVING station found drained (R114). -/
def State.drainTest (s : State) : State :=
  if s.controller.state = .leaving ∧ s.drained = true then
    { s with controller := { s.controller with rollDue := some .leaving, rollTimer := none } }
  else s

/-! ### All of them, at the end of an event -/

/-- The workers act once the command's own effects on `before` have given `s` (log 12). The sequencer starts what the
event placed, and a program request taken out of class 3 lets the builder form the next pass (R51). DEDUCED, unsafe (log 31): a
request of class 3, 4 or 6 that waits at a completion starts in the completion's event (R29), so a PROT asserted after it
aborts that operation (R43). -/
def State.workers (before s : State) : State :=
  let s := State.evacuate Config.evacuationPlaces s
  let s := State.giveBuffers s.giftBound s
  let s := s.reclaim (pinReleased before s) before
  let s := s.formAndReclaim
  let s := s.startNext
  let s := s.formAndReclaim
  s.drainTest

/-- The workers do not run while the station is MOUNTING (R44, R71) or held (R188). -/
def State.settle (before s : State) : State :=
  if s.held || s.controller.state == .mounting then s else State.workers before s

end Sys2Proof.Machine
end

