-- ==== Sys2Proof/Machine/Mount.lean ====
section
/-! DEFINITION. Mounting: what the scanner makes of a scan report, the map and the origin rows it rebuilds, the next
sequence number, and the end of the mount (R71 to R82). -/

namespace Sys2Proof.Machine

/-! ### Slots, pages, headers and blocks -/

/-- What the scanner makes of one slot (R74). -/
inductive SlotFinding where
  | empty
  | location (key : Key)
  | torn
deriving DecidableEq, Repr

/-- The condition of a slot from its tag and data (R74). -/
def slotFinding (r : SlotReport) : SlotFinding :=
  match r.tag with
  | .erased => if r.dataErased then .empty else .torn
  | .good origin seq => if !r.dataErased && keyInRange ⟨origin, seq⟩ then .location ⟨origin, seq⟩ else .torn
  | .torn => .torn

/-- A page is blank in a report, the retire mark left out of account (R72). -/
def PageReport.blank (r : PageReport) (page : PageNo) : Bool :=
  r.slots.all (fun t => t.tag == .erased && t.dataErased) && (page != 0 || r.header == .erased)

/-- The header the scanner takes as valid: its writer lies in 1 to 30 as well (R72). -/
def PageReport.validHeader (r : PageReport) : Option HeaderInfo :=
  match r.headerValid, headerFields r.header with
  | true, some h => if 1 ≤ h.writer ∧ h.writer ≤ 30 then some h else none
  | _, _ => none

/-- The class of a block from its page 0 and page 31 (R73): the first test that holds. -/
def blockClass (page0 page31 : PageReport) : BlockClass :=
  if page0.factory then .bad
  else if page31.markValid then .retired
  else if page0.blank 0 && page31.blank 31 && page31.mark == .erased then .free
  else if page0.validHeader.isSome then .chained
  else .dirty

/-- The class of a page of a chained block (R75). -/
def pageClass (page : PageNo) (r : PageReport) : PageClass :=
  let slots := r.slots.map slotFinding
  if slots.any (· == .torn) then .torn
  else if slots.all (· != .empty) then .full
  else if slots.all (· == .empty) && page != 0 then .blank
  else .partly

/-! ### The scanner's collections -/

/-- One more block of a class (R71). -/
def ScanCounts.addBlock (c : ScanCounts) : BlockClass → ScanCounts
  | .bad => { c with bad := c.bad + 1 }
  | .free => { c with free := c.free + 1 }
  | .chained => { c with chained := c.chained + 1 }
  | .dirty => { c with dirty := c.dirty + 1 }
  | .retired => { c with retired := c.retired + 1 }

/-- The floor summary with the floor of a valid header (R73). -/
def addFloor (floors : Vector (Option Nat) 30) (h : HeaderInfo) : Vector (Option Nat) 30 :=
  match stationGet floors h.writer none with
  | some f => if f < h.floor then stationSet floors h.writer (some h.floor) else floors
  | none => stationSet floors h.writer (some h.floor)

/-- A block has been classified (R73). -/
def Scanner.addBlock (sc : Scanner) (b : BlockId) (cls : BlockClass) (page0 : PageReport) (page31 : Option PageReport) :
    Scanner :=
  { sc with
    page0 := none
    findings := sc.findings ++ [⟨b, cls, page0.validHeader, page0, page31⟩]
    floors := match page0.validHeader with
      | some h => addFloor sc.floors h
      | none => sc.floors
    counts := sc.counts.addBlock cls }

/-- Position in chain order (R76): chain number, then page, then slot. -/
def positionBefore (c : Candidate) (chain : Nat) (l : Loc) : Bool :=
  c.chain < chain || (c.chain == chain && locBefore c.loc l)

/-- A location is offered to the candidates (R74, R76). -/
def Scanner.offer (sc : Scanner) (k : Key) (chain : Nat) (l : Loc) : Scanner :=
  match mapGet sc.candidates k with
  | none => { sc with candidates := mapPut keyLt sc.candidates k ⟨chain, l, 1⟩ }
  | some c =>
    let best : Candidate := if positionBefore c chain l then ⟨chain, l, c.count + 1⟩ else { c with count := c.count + 1 }
    { sc with
      candidates := mapPut keyLt sc.candidates k best
      counts := if c.count = 1 then { sc.counts with duplicates := sc.counts.duplicates + 1 } else sc.counts }

/-- One slot of a page of a chained block (R74). -/
def Scanner.addSlot (b : BlockId) (chain : Nat) (page : PageNo) (sc : Scanner) (rn : SlotReport × Nat) : Scanner :=
  match slotFinding rn.1 with
  | .location k => sc.offer k chain ⟨b, page, slotAfter 0 rn.2⟩
  | _ => sc

/-- The class of one more page joins the page findings of its block. -/
def addPageClass (pages : List (BlockId × List PageClass)) (b : BlockId) (c : PageClass) :
    List (BlockId × List PageClass) :=
  match mapGet pages b with
  | none => pages ++ [(b, [c])]
  | some _ => pages.map fun e => if e.1 = b then (b, e.2 ++ [c]) else e

/-- A page of a chained block has been read (R74, R75). -/
def Scanner.addPage (sc : Scanner) (b : BlockId) (chain : Nat) (page : PageNo) (r : PageReport) : Scanner :=
  let sc := r.slots.zipIdx.foldl (Scanner.addSlot b chain page) sc
  let cls := pageClass page r
  { sc with
    pages := addPageClass sc.pages b cls
    counts := if cls = .torn then { sc.counts with torn := sc.counts.torn + 1 } else sc.counts }

/-- Chain number of a finding. -/
def BlockFinding.chain (f : BlockFinding) : Nat :=
  match f.header with
  | some h => h.chain
  | none => 0

/-- A chained block takes its place in ascending chain number (R74; equal numbers by block, log 22). -/
def insertByChain (f : BlockFinding) : List BlockFinding → List BlockFinding
  | [] => [f]
  | g :: rest => if f.chain < g.chain then f :: g :: rest else g :: insertByChain f rest

/-- The chained blocks in ascending chain number (R74). -/
def chainedInOrder (findings : List BlockFinding) : List BlockFinding :=
  (findings.filter fun f => f.cls == .chained).foldl (fun q f => insertByChain f q) []

/-! ### The rebuilt map (R76 to R79) -/

/-- The first blank page of a chained block from the classes of its pages in order (R75). -/
def firstBlank (classes : List PageClass) : Option PageNo :=
  let n := (classes.reverse.takeWhile (· == .blank)).length
  if n = 0 then none else some ⟨(32 - n) % 32, Nat.mod_lt _ (by decide)⟩

/-- The first blank page of a block found. -/
def Scanner.blankPage (sc : Scanner) (b : BlockId) : Option PageNo := firstBlank ((mapGet sc.pages b).getD [])

/-- The chained block that becomes OPEN in a lane (R77). -/
def Scanner.openOf (sc : Scanner) (l : Lane) : Option BlockFinding :=
  sc.findings.foldl (fun best f =>
    if f.cls == .chained && laneOf f.block == l && (sc.blankPage f.block).isSome then
      match best with
      | none => some f
      | some o => if o.chain < f.chain then some f else some o
    else best) none

/-- The row of a block after the mount (R73, R77). -/
def Scanner.rowOf (sc : Scanner) (f : BlockFinding) : BlockRow :=
  match f.cls with
  | .bad => .bad
  | .retired => .retired
  | .free => .free
  | .dirty => .dirty
  | .chained =>
    if (sc.openOf (laneOf f.block)).map (fun o => o.block) = some f.block then
      match sc.blankPage f.block with
      | some p => .opened f.chain none ⟨p, 0, 0⟩
      | none => .sealed f.chain
    else .sealed f.chain

/-- The rebuilt block table (R77). -/
def Scanner.blocks (sc : Scanner) : Vector BlockRow 256 :=
  sc.findings.foldl (fun rows f => rows.set f.block.val (sc.rowOf f) f.block.isLt) JournalMap.reset.blocks

/-- The highest chain number in any valid header found (R78). -/
def Scanner.highestChain (sc : Scanner) : Option Nat :=
  sc.findings.foldl (fun m f =>
    match f.header, m with
    | none, m => m
    | some h, none => some h.chain
    | some h, some n => some (max n h.chain)) none

/-- The rebuilt record index (R76). -/
def Scanner.index (sc : Scanner) : List (Key × Loc) := sc.candidates.map fun e => (e.1, e.2.loc)

/-- The rebuilt row of an origin (R79). -/
def rebuiltRow (index : List (Key × Loc)) (id : Nat) : OriginRow :=
  if index.any fun e => e.1.origin == id then
    ⟨some ⟨highestSeq index id, highestSeq index id, [], 0⟩, 0⟩
  else ⟨none, 0⟩

/-- The rebuilt origin table (R79). -/
def rebuiltRows (index : List (Key × Loc)) : Vector OriginRow 30 :=
  (List.range 30).foldl (fun rows i => stationSet rows (i + 1) (rebuiltRow index (i + 1))) GapTracker.reset.rows

/-- next_seq as R82 computes it: the largest of the three values. -/
def State.computeNextSeq (s : State) (c : Configuration) : Nat :=
  max (c.firstSeq.getD 1)
    (max (highestSeq s.index c.stationId + 1) ((stationGet s.scanner.floors c.stationId none).getD 0))

/-! ### The end of the mount (R80, R81) -/

/-- Steps 1 and 2 of R80: the map and the origin table are taken. -/
def State.takeMap (s : State) : State :=
  let after := match s.scanner.highestChain with
    | none => (0, s.freeDraws)
    | some chain => s.chainAfter chain
  { s with
    map := { JournalMap.reset with blocks := s.scanner.blocks, nextChain := after.1 }
    freeDraws := after.2
    index := s.scanner.index
    gap := { s.gap with rows := rebuiltRows s.scanner.index } }

/-- Step 3 of R80: next_seq after a RESTART that kept a configuration. -/
def State.takeNextSeq (s : State) : State :=
  match s.controller.config with
  | none => s
  | some c => { s with tracker := { s.tracker with nextSeq := some (s.computeNextSeq c) } }

/-- Steps 4 and 5 of R80: the array is released and the DIRTY requests are placed. The first of them starts once the
placings of the event are done (R29, log 21). -/
def State.releaseArray (s : State) : State :=
  { s with
    scanner := { Scanner.reset with phase := .ended, floors := s.scanner.floors }
    sequencer := { s.sequencer with
      inFlight := none
      exclusive := false
      dirtyErases := (List.finRange 256).filter fun b => s.block b == .dirty } }

/-- Step 6 of R80, and R81: the state the mount ends in, the line (R87) and the event. -/
def State.enterMounted (s : State) (counts : ScanCounts) : State :=
  let entered := if s.controller.config.isSome then StationState.ready else .idle
  let line := if s.controller.config.isSome then { s.line with state := LineState.seeking, idle := 0 } else s.line
  if s.allDead then
    State.post { s with controller := { s.controller with state := .halted }, line := line }
      (.haltedByMount s.index.length counts)
  else
    State.post { s with controller := { s.controller with state := entered }, line := line }
      (.mounted entered s.index.length counts)

/-- The mount ends in one event (R80); the workers then act (step 7). -/
def State.endMount (s : State) : State :=
  let counts := s.scanner.counts
  State.settle s (((s.takeMap.takeNextSeq).releaseArray).enterMounted counts)

/-! ### One scan read (R72, R74) -/

/-- The scanner's next read is placed: the cursor and the operation in flight. -/
def State.placeScan (s : State) (sc : Scanner) (b : BlockId) (p : PageNo) : State :=
  { s with
    scanner := { sc with block := b, page := p }
    sequencer := { s.sequencer with inFlight := some (.scanRead b p) } }

/-- The next chained block begins, or the mount ends (R74). Page 0 has been read in the CLASSIFY phase. -/
def State.nextChained (s : State) (sc : Scanner) : State :=
  match sc.queue with
  | [] => State.endMount { s with scanner := sc }
  | f :: rest => s.placeScan ({ sc with queue := rest }.addPage f.block f.chain 0 f.page0) f.block 1

/-- A block has been classified: on to the next, or to the PAGES phase (R72). -/
def State.nextBlock (s : State) (sc : Scanner) (b : BlockId) : State :=
  if h : b.val + 1 < 256 then s.placeScan sc ⟨b.val + 1, h⟩ 0
  else s.nextChained { sc with phase := .pages, queue := chainedInOrder sc.findings }

/-- A report in the CLASSIFY phase (R72, R73). -/
def State.classifyRead (s : State) (b : BlockId) (r : PageReport) : State :=
  match s.scanner.page0 with
  | none =>
    if r.factory then s.nextBlock (s.scanner.addBlock b .bad r none) b
    else s.placeScan { s.scanner with page0 := some r } b 31
  | some page0 => s.nextBlock (s.scanner.addBlock b (blockClass page0 r) page0 (some r)) b

/-- A report in the PAGES phase (R74): after page 30, page 31 is taken from the CLASSIFY phase. -/
def State.pageRead (s : State) (b : BlockId) (p : PageNo) (r : PageReport) : State :=
  match s.scanner.findings.find? fun f => f.block == b with
  | none => s
  | some f =>
    let sc := s.scanner.addPage b f.chain p r
    if p.val < 30 then s.placeScan sc b (p + 1)
    else
      match f.page31 with
      | none => s.nextChained sc
      | some last => s.nextChained (sc.addPage b f.chain 31 last)

/-- The report of a scan read: what the array holds in the page (R35). -/
def State.scanResult (s : State) (b : BlockId) (p : PageNo) : PageReport :=
  scanReport b (readPage s.flash (pageAddress b p))

/-- The completion of a scan read of a page (R35, R71). -/
def State.scanned (s : State) (b : BlockId) (p : PageNo) : State :=
  match s.scanner.phase with
  | .classify => s.classifyRead b (s.scanResult b p)
  | .pages => s.pageRead b p (s.scanResult b p)
  | .ended => s

end Sys2Proof.Machine
end

