-- ==== Sys2Proof/Machine/Completion.lean ====
section
/-! DEFINITION. What a completion does: a lane of a pass, a block of an erase, the lane events, the halt, and the entries
handed on (R12 to R14, R47, R56 to R59, R63, R73, R116, R128, R138, R143). -/

namespace Sys2Proof.Machine

/-- No operation is in flight (R29). -/
def State.freeArray (s : State) : State := { s with sequencer := { s.sequencer with inFlight := none } }

/-! ### One lane of a pass -/

/-- The index takes the key of an entry whose lane passed (R12, R14): an evacuated key that is no longer indexed leaves
the index unchanged. -/
def State.indexEntry (s : State) (e : IntakeEntry) : State :=
  match e.state with
  | .waiting => s
  | .inPass l =>
    match e.source with
    | .evacuation _ =>
      match s.locate e.record.key with
      | none => s
      | some former => (s.indexPut e.record.key l).retireIfEmptied former.block
    | _ => s.indexPut e.record.key l

/-- The lane's entries return to WAITING (R13). -/
def State.returnEntries (s : State) (b : BlockId) : State :=
  { s with intake := s.intake.map fun e => if e.inPassOn b then { e with state := .waiting } else e }

/-- The lane's entries are indexed in queue order and leave the queue (R12). -/
def State.completeEntries (s : State) (b : BlockId) : State :=
  let s := (s.intake.filter fun e => e.inPassOn b).foldl State.indexEntry s
  { s with intake := s.intake.filter fun e => !e.inPassOn b }

/-- The row of an OPEN block whose page is closed (R26, R56): the next page, or SEALED after page 31. -/
def closePage (chain : Nat) (header : Option HeaderInfo) (page : PageNo) : BlockRow :=
  if page.val < 31 then .opened chain header ⟨page + 1, 0, 0⟩ else .sealed chain

/-- The row of an OPEN block after a pass of `n` slots that completed PASS (R56). -/
def advanceRow (chain : Nat) (position : WritePosition) (n : Nat) : BlockRow :=
  if h : position.slots.val + n < 8 ∧ position.passes.val + 1 < 4 then
    .opened chain none ⟨position.page, ⟨position.slots.val + n, h.1⟩, ⟨position.passes.val + 1, h.2⟩⟩
  else closePage chain none position.page

/-- A lane whose result is PASS (R12, R56). -/
def State.lanePass (s : State) (p : PassLane) : State :=
  let s := s.completeEntries p.block
  match s.block p.block with
  | .opened chain _ position => s.setBlock p.block (advanceRow chain position p.records.length)
  | _ => s

/-- A lane whose result is FAIL (R13, R57). -/
def State.laneFail (s : State) (p : PassLane) : State :=
  let s := s.returnEntries p.block
  match s.block p.block with
  | .opened chain _ _ =>
    if s.liveCount p.block = 0 then s.retire p.block .program
    else (s.setBlock p.block (.retiring chain)).joinEvacuator p.block
  | _ => s

/-- A lane whose result is ABORTED (R13, R39, R40, R58): an aborted header pass closes every page of its block. -/
def State.laneAbort (s : State) (p : PassLane) : State :=
  let s := s.returnEntries p.block
  match s.block p.block with
  | .opened chain header _ =>
    s.setBlock p.block (if p.header.isSome then .sealed chain else closePage chain header p.page)
  | _ => s

/-- The cells one lane of a pass leaves (R31, R32, R39). -/
def State.programCells (s : State) (p : PassLane) (fate : Option PassFate) : State :=
  { s with flash := programFlash s.flash p fate }

/-- What a lane ends with, from what its circuits report: a pass that met cells which are not erased ends FAIL (R32, R57, R73).
What it leaves there is an operand (log 37). -/
def passOutcome (flash : List (Nat × PageCells)) (results : Lane → PassResult) (p : PassLane) : PassResult :=
  match results (laneOf p.block) with
  | .pass met => if passBlank flash p then .pass met else .fail met
  | .fail fate => .fail fate
  | .aborted fate => .aborted fate

/-- The lane ended PASS. -/
def hasPassed : PassResult → Bool
  | .pass _ => true
  | _ => false

/-- One lane of a program completion. -/
def State.laneResult (outcome : PassLane → PassResult) (s : State) (p : PassLane) : State :=
  match outcome p with
  | .pass _ => (s.programCells p none).lanePass p
  | .fail fate => (s.programCells p (some fate)).laneFail p
  | .aborted fate => (s.programCells p (some fate)).laneAbort p

/-! ### Lane events and the halt -/

/-- The lane event a change of condition calls for (R47). -/
def laneEvent (before after : State) (l : Lane) : Option Event :=
  if before.condition l ≠ .full ∧ after.condition l = .full then some (.laneFull l)
  else if before.condition l = .full ∧ after.condition l ≠ .full then some (.laneResumed l (after.condition l))
  else none

/-- Posting the event, if there is one. -/
def State.postIf (s : State) : Option Event → State
  | none => s
  | some e => s.post e

/-- The lane events of a completion, in ascending lane order (R59, R63). -/
def State.postLaneEvents (before s : State) : State :=
  (List.finRange 4).foldl (fun t l => t.postIf (laneEvent before s l)) s

/-- Every buffer of these owners loses its owner's claim (R105). -/
def State.endAllClaims (s : State) (owners : List BufferOwner) : State := owners.foldl State.endClaims s

/-- The answer list is emptied, and the buffers its entries hold are released (R115, R116). -/
def State.emptyAnswers (s : State) : State :=
  let owners := s.gap.answers.map fun a => BufferOwner.answer a.key
  State.endAllClaims { s with gap := { s.gap with answers := [] } } owners

/-- The repair slot is emptied and its timer stops (R160). -/
def State.emptySlot (s : State) : State := { s with gap := { s.gap with slot := .empty, timer := none } }

/-- The send-once list is emptied, and the buffers its keys hold are released (R116). -/
def State.emptySendOnce (s : State) : State :=
  let owners := s.transmit.sendOnce.map BufferOwner.sendOnce
  State.endAllClaims { s with transmit := { s.transmit with sendOnce := [] } } owners

/-- A tracker entry that is not done becomes SHORT, its damaged flag unchanged (R138). -/
def State.shortOnHalt (s : State) (e : TrackerEntry) : State :=
  if e.state.isDone then s else s.finish e false false

/-- The station becomes HALTED (R116, R138): HALTED precedes the OUTCOME events. -/
def State.halt (s : State) : State :=
  let leftState := s.controller.state
  let s := { s with
    controller := { s.controller with
      state := .halted
      rollDue := if s.onBus then some .leaving else none
      rollTimer := none }
    receipts := [] }
  let s := s.emptyAnswers.emptySlot.emptySendOnce
  let s := s.post (.halted leftState)
  s.tracker.entries.foldl State.shortOnHalt s

/-- The halt when a change has left every lane DEAD (R47). -/
def State.haltIfDead (s : State) : State :=
  if s.allDead && s.controller.state != .halted && s.controller.state != .mounting then s.halt else s

/-! ### Entries handed on (R12, R59) -/

/-- A LOCAL record is handed to the tracker (R128). -/
def State.handLocal (s : State) (k : Key) : State :=
  match s.entry k with
  | none => s
  | some e =>
    if e.state = .staged then
      let held := insertHolder s.ownId e.holders
      if s.replication ≤ 1 then
        let s := s.updateEntry k fun e => { e with holders := held }
        (s.finish { e with holders := held } true false).handSendOnce k
      else s.updateEntry k fun e => { e with holders := held, state := .queued }
    else s

/-- A completed entry is handed on (R12): an EVACUATION record to the evacuator, which looks at the queue itself. -/
def State.handOn (s : State) (e : IntakeEntry) : State :=
  match e.source with
  | .localHost => s.handLocal e.record.key
  | .bus owed => if owed && s.onBus then s.offerReceipt e.record.key else s
  | .evacuation _ => s

/-! ### The completions -/

/-- The lanes of a pass in ascending lane order (log 9). -/
def passesInOrder (lanes : List PassLane) : List PassLane :=
  (List.finRange 4).filterMap fun l => lanes.find? fun p => laneOf p.block == l

/-- The blocks of a gang in ascending lane order (log 9). -/
def blocksInOrder (blocks : List BlockId) : List BlockId :=
  (List.finRange 4).filterMap fun l => blocks.find? fun b => laneOf b == l

/-- The entry's lane passed. -/
def entryPassed (lanes : List PassLane) (outcome : PassLane → PassResult) (e : IntakeEntry) : Bool :=
  lanes.any fun p => e.inPassOn p.block && hasPassed (outcome p)

/-- The lanes of a completed pass are no longer engaged (R59). -/
def State.disengage (s : State) (lanes : List PassLane) : State :=
  lanes.foldl (fun s p => s.setLane (laneOf p.block) { s.lane (laneOf p.block) with engaged := false }) s

/-- A program completion, but for the workers (R31, R59). -/
def State.programCompletion (s : State) (lanes : List PassLane) (results : Lane → PassResult) : State :=
  let outcome := passOutcome s.flash results
  let handed := s.intake.filter (entryPassed (passesInOrder lanes) outcome)
  let after := ((passesInOrder lanes).foldl (State.laneResult outcome) s.freeArray).disengage lanes
  let after := (State.postLaneEvents s after).haltIfDead
  handed.foldl State.handOn after

/-- The cells an erase leaves in one block (R33, R41). -/
def State.eraseCells (s : State) (b : BlockId) (fate : EraseFate) : State := { s with flash := eraseFlash s.flash b fate }

/-- A DIRTY block with its fresh request (R41, R63, R64). -/
def State.dirtyAgain (s : State) (b : BlockId) : State :=
  let s := s.setBlock b .dirty
  { s with sequencer := { s.sequencer with dirtyErases := s.sequencer.dirtyErases ++ [b] } }

/-- One block of an erase completion (R63). -/
def State.blockErased (results : Lane → EraseResult) (s : State) (b : BlockId) : State :=
  match results (laneOf b) with
  | .pass => (s.eraseCells b .whole).setBlock b .free
  | .fail fate => (s.eraseCells b fate).retire b .erase
  | .aborted fate => (s.eraseCells b fate).dirtyAgain b

/-- An erase completion, but for the workers (R63). -/
def State.eraseCompletion (s : State) (blocks : List BlockId) (results : Lane → EraseResult) : State :=
  let after := (blocksInOrder blocks).foldl (State.blockErased results) s.freeArray
  (State.postLaneEvents s after).haltIfDead

/-- A retire mark completion (R36, R69): the table is unchanged. -/
def State.markCompletion (s : State) (b : BlockId) (fate : Landed MarkCells) : State :=
  { s.freeArray with flash := markFlash s.flash b fate }

/-- The operation in flight is aborted, its completion carrying ABORTED for every lane (R37). A read goes on. -/
def State.abortInFlight (s : State) (w : Interruption) : State :=
  match s.sequencer.inFlight with
  | some (.program lanes) => s.programCompletion lanes fun l => .aborted (w.passes.get l)
  | some (.erase blocks) => s.eraseCompletion blocks fun l => .aborted (w.erases.get l)
  | some (.retireMark b) => s.markCompletion b w.mark
  | _ => s

/-- An operation that the assertion of PROT aborts is in flight (R37). -/
def State.abortable (s : State) : Bool :=
  match s.sequencer.inFlight with
  | some (.program _) => true
  | some (.erase _) => true
  | some (.retireMark _) => true
  | _ => false

end Sys2Proof.Machine
end

