-- ==== Sys2Proof/Machine/ArrayCommands.lean ====
section
/-! DEFINITION. Completions of the array's operations (R31 to R36, R50, R63, R68, R69, R72, R104, R176). A read
is made against the array, after what the command says has changed in the cells of its page (log 2). -/

namespace Sys2Proof.Machine

/-- PROGRAM_COMPLETE (R31, R59). -/
def execProgramComplete (results : Vector PassResult 4) (s : State) : Outcome :=
  s.awake fun s =>
    match s.sequencer.inFlight with
    | some (.program lanes) => State.settle s (s.programCompletion lanes fun l => results.get l)
    | _ => s

/-- ERASE_COMPLETE (R63). -/
def execEraseComplete (results : Vector EraseResult 4) (s : State) : Outcome :=
  s.awake fun s =>
    match s.sequencer.inFlight with
    | some (.erase blocks) => State.settle s (s.eraseCompletion blocks fun l => results.get l)
    | _ => s

/-- The result of a slot read (R34): what the array holds in the slot, judged against the key expected. -/
def State.readResult (s : State) (k : Key) (l : Loc) : Option Record := readSlot (slotData s.flash l) k

/-- The station as a slot read finds it: cells of the page it senses may have changed (log 2), and the array is free (R34). -/
def State.slotSensed (s : State) (l : Loc) (changed : PageChange) : State := (s.cellsChange l.block l.page changed).freeArray

/-- An owner is told that its read was GOOD (R104): a QUEUED tracker entry becomes LOADED (R129). -/
def State.ownerLoaded (s : State) : BufferOwner → State
  | .tracker k => s.updateEntry k fun e => if e.state = .queued then { e with state := .loaded } else e
  | .answer k =>
    { s with gap := { s.gap with answers := s.gap.answers.map fun a => if a.key = k then { a with loaded := true } else a } }
  | .sendOnce _ => s

/-- A class-1 read has ended with this result (R104). -/
def State.transmitRead (s : State) (r : TransmitRead) (result : Option Record) : State :=
  match result, (s.buffer r.buffer).heldBy with
  | some record, some o => (s.setBuffer r.buffer (.loaded o record true)).ownerLoaded o
  | some _, none => s.setBuffer r.buffer .empty
  | none, none => (s.damagedRead r.key r.loc).setBuffer r.buffer .empty
  | none, some o => ((s.damagedRead r.key r.loc).setBuffer r.buffer .empty).ownerAbsent o

/-- TRANSMIT_READ_COMPLETE (R104). -/
def execTransmitReadComplete (changed : PageChange) (s : State) : Outcome :=
  s.awake fun s =>
    match s.sequencer.inFlight with
    | some (.transmitRead r) =>
      let t := s.slotSensed r.loc changed
      State.settle s (t.transmitRead r (t.readResult r.key r.loc))
    | _ => s

/-- The port answers when its class-2 read ends (R176). -/
def State.hostRead (s : State) (r : SlotRead) (result : Option Record) : State :=
  match result with
  | some record => s.respond (.found false record)
  | none => (s.damagedRead r.key r.loc).respond (.damaged r.key)

/-- HOST_READ_COMPLETE (R176, R50). -/
def execHostReadComplete (changed : PageChange) (s : State) : Outcome :=
  s.awake fun s =>
    match s.sequencer.inFlight with
    | some (.hostRead r) =>
      let t := s.slotSensed r.loc changed
      State.settle s (t.hostRead r (t.readResult r.key r.loc))
    | _ => s

/-- The read leaves the evacuator's outstanding reads (R68). -/
def State.evacuationReadDone (s : State) (r : SlotRead) : State :=
  { s with map := { s.map with evacuator := { s.map.evacuator with reads := s.map.evacuator.reads.erase r } } }

/-- A key read for evacuation may be staged (R6, R68). -/
def State.stagesEvacuation (s : State) (r : SlotRead) : Bool :=
  s.locate r.key == some r.loc && !s.staged r.key && s.evacuationEntries < Config.evacuationPlaces

/-- A class-5 read has ended with this result (R68, R10). -/
def State.evacuationRead (s : State) (r : SlotRead) (result : Option Record) : State :=
  match result with
  | some record => if s.stagesEvacuation r then s.stage record (.evacuation r.loc) else s
  | none => s.damagedRead r.key r.loc

/-- EVACUATION_READ_COMPLETE (R68). -/
def execEvacuationReadComplete (changed : PageChange) (s : State) : Outcome :=
  s.awake fun s =>
    match s.sequencer.inFlight with
    | some (.evacuationRead r) =>
      let t := s.slotSensed r.loc changed
      State.settle s ((t.evacuationReadDone r).evacuationRead r (t.readResult r.key r.loc))
    | _ => s

/-- What a result leaves in the retire mark field (R36). -/
def markFate : MarkResult → Landed MarkCells
  | .pass => .whole
  | .fail fate => fate
  | .aborted fate => fate

/-- RETIRE_MARK_COMPLETE (R36, R69): the table is unchanged. -/
def execRetireMarkComplete (result : MarkResult) (s : State) : Outcome :=
  s.awake fun s =>
    match s.sequencer.inFlight with
    | some (.retireMark b) => State.settle s (s.markCompletion b (markFate result))
    | _ => s

/-- SCAN_READ_COMPLETE (R72, R74, R80). -/
def execScanReadComplete (changed : PageChange) (s : State) : Outcome :=
  s.awake fun s =>
    match s.sequencer.inFlight with
    | some (.scanRead b p) => (s.cellsChange b p changed).scanned b p
    | _ => s

end Sys2Proof.Machine
end

