-- ==== Sys2Proof/Machine/FramesReceived.lean ====
section
/-! DEFINITION. Frames heard: judging, the roster, receipts counted, requests answered, records classified, rolls (R16,
R88, R93, R96, R119, R120, R132, R133, R155 to R158, R165, R167). -/

namespace Sys2Proof.Machine

/-! ### The end of a frame heard -/

/-- Reception, judging, counting and delivery go on in every line state but OFF and SEEKING (R96; log 15). -/
def LineState.reads : LineState → Bool
  | .off => false
  | .seeking => false
  | _ => true

/-- The line state and the idle count after a frame. -/
def State.lineAfter (s : State) (state : LineState) (idle : Nat) : State :=
  { s with line := { s.line with state := state, idle := idle } }

/-- A frame is rejected and counted (R96). -/
def State.countRejected (s : State) : State :=
  { s with line := { s.line with rejectedTotal := min Config.countStop (s.line.rejectedTotal + 1) } }

/-- The line when the reading of a frame ends, in this line state and with this idle count (R88). A station that drives a frame
of its own drives it to its end whatever it hears (R100, R133; log 15). -/
def LineUnit.afterReading (line : LineUnit) (state : LineState) (idle : Nat) : LineUnit :=
  if line.state = .sending then line else { line with state := state, idle := idle }

/-- The reading of a frame has ended. -/
def State.readingEnded (s : State) (state : LineState) (idle : Nat) : State :=
  { s with line := s.line.afterReading state idle }

/-- A frame read to its last stop bit has ended (R88). -/
def State.frameEnded (s : State) (bytes : List Byte) : State := s.readingEnded .gap (endIdle bytes)

/-- A whole frame is heard (R96): `deliver` acts when it is valid and not under the own ID (R93); a frame that no
station may send is counted as rejected (log 20). -/
def State.hear (s : State) (f : Frame) (deliver : State → State) : State :=
  if s.line.state.reads then
    if frameInRange f then
      if f.sender = s.ownId then s.frameEnded (frameBytes f) else deliver (s.frameEnded (frameBytes f))
    else (s.frameEnded (frameBytes f)).countRejected
  else s

/-- FRAME_REJECTED (R88, R96): a framing fault leaves SEEKING, any other rejection GAP, but for a station that is driving. -/
def execFrameRejected (read : Reception) (s : State) : Outcome :=
  s.awake fun s =>
    if s.line.state.reads then
      match read with
      | .faulted _ _ => (s.readingEnded .seeking (receptionIdle read)).countRejected
      | .complete bytes =>
        match judge bytes with
        | .valid _ => s
        | .rejected .framing => (s.readingEnded .seeking (receptionIdle read)).countRejected
        | .rejected _ => (s.frameEnded bytes).countRejected
    else s

/-! ### The roster (R119, R120) -/

/-- The silence deadline a frame sets (R119). -/
def State.silenceDeadline (s : State) : Nat := s.now + s.scaled Config.silenceTimeout

/-- A frame from a peer refreshes its row (R119); `leaving` for a ROLL(LEAVING). -/
def State.peerHeard (s : State) (id : Nat) (leaving : Bool) : State :=
  match s.rosterRow id, leaving with
  | .absent, true => s
  | .absent, false => (s.setRosterRow id (.present s.silenceDeadline none)).post (.peerUp id false)
  | _, true => (s.setRosterRow id .absent).post (.peerDown id .left)
  | .present _ last, false => s.setRosterRow id (.present s.silenceDeadline last)
  | .discordant _ last, false => s.setRosterRow id (.discordant s.silenceDeadline last)

/-- A peer's K and timing class equal the own ones (R120). -/
def State.agrees (s : State) (k timingClass : Nat) : Bool :=
  match s.controller.config with
  | none => true
  | some c => c.k == k && c.timingClass == timingClass

/-- The contents of a ROLL carrying JOINING or ACTIVE (R120). -/
def State.rollHeard (s : State) (id : Nat) (roll : LastRoll) : State :=
  match s.rosterRow id, s.agrees roll.k roll.timingClass with
  | .absent, _ => s
  | .present d _, true => s.setRosterRow id (.present d (some roll))
  | .present d _, false =>
    (s.setRosterRow id (.discordant d (some roll))).post (.peerDiscord id roll.k roll.timingClass)
  | .discordant d _, true => (s.setRosterRow id (.present d (some roll))).post (.peerUp id true)
  | .discordant d _, false => s.setRosterRow id (.discordant d (some roll))

/-! ### RECEIPT (R132, R133) -/

/-- The sender's row is DISCORDANT. -/
def State.discordant (s : State) (id : Nat) : Bool :=
  match s.rosterRow id with
  | .discordant _ _ => true
  | _ => false

/-- One key of a RECEIPT is counted (R132), and the entry is SECURED when its holder set reaches K (R133). -/
def countReceipt (sender : Nat) (s : State) (k : Key) : State :=
  match s.entry k with
  | none => s
  | some e =>
    if k.origin = s.ownId ∧ e.state.isLive = true then
      let held := insertHolder sender e.holders
      let s := s.updateEntry k fun e => { e with holders := held }
      if s.replication ≤ held.length then s.finish { e with holders := held } true false else s
    else s

/-- A RECEIPT reaches the tracker (R132, R122). -/
def State.countReceipts (s : State) (sender : Nat) (keys : List Key) : State :=
  if s.discordant sender then s else keys.foldl (countReceipt sender) s

/-- RECEIPT_RECEIVED (R132). -/
def execReceiptReceived (sender : Nat) (keys : List Key) (s : State) : Outcome :=
  s.awake fun s => s.hear ⟨sender, .receipt keys⟩ fun t =>
    State.settle s ((t.peerHeard sender false).countReceipts sender keys)

/-! ### REQUEST (R165) -/

/-- One seq of a REQUEST. -/
def answerSeq (origin due : Nat) (s : State) (seq : Nat) : State :=
  let key : Key := ⟨origin, seq⟩
  if (s.locate key).isSome && (s.answer key).isNone && s.gap.answers.length < Config.answerPlaces then
    { s with gap := { s.gap with answers := s.gap.answers ++ [⟨key, due, false, false⟩] } }
  else s

/-- The due time of the answers to a REQUEST that ends now (R165). -/
def State.answerTime (s : State) : Nat := s.now + s.ownId * s.scaled Config.answerStep

/-- A REQUEST reaches the Gap Tracker (R165). -/
def State.takeRequest (s : State) (origin first span : Nat) : State :=
  if s.onBus then ((List.range span).map fun i => first + i).foldl (answerSeq origin s.answerTime) s else s

/-- REQUEST_RECEIVED (R165). -/
def execRequestReceived (sender origin first span : Nat) (s : State) : Outcome :=
  s.awake fun s => s.hear ⟨sender, .request origin first span⟩ fun t =>
    (t.peerHeard sender false).takeRequest origin first span

/-! ### RECORD (R16, R155 to R157, R163, R167) -/

/-- The frame of the answer entry of a key is on the line (R164). -/
def State.transmitting (s : State) (k : Key) : Bool :=
  (s.onLine 0 && (s.buffer 0).heldBy == some (.answer k)) || (s.onLine 1 && (s.buffer 1).heldBy == some (.answer k))

/-- Suppression (R167). -/
def State.suppress (s : State) (k : Key) : State := if s.transmitting k then s else s.removeAnswer k

/-- The row of an origin, adopted from seq `s` when it is not tracked (R155). -/
def OriginRow.adoptedBelow (row : OriginRow) (seq : Nat) : TrackedRow :=
  match row.tracked with
  | some t => t
  | none => ⟨seq - 1, seq - 1, [], 0⟩

/-- The seq of an arrival lies in a request (R163). -/
def RepairRequest.names (r : RepairRequest) (k : Key) : Bool :=
  r.origin == k.origin && r.first ≤ k.seq && k.seq < r.first + r.span

/-- An arrival marks the slot's request (R163). -/
def RepairSlot.mark (slot : RepairSlot) (k : Key) : RepairSlot :=
  match slot with
  | .empty => .empty
  | .due r progress => .due r (progress || r.names k)
  | .sent r progress => .sent r (progress || r.names k)

/-- An arrival (R156, R163). -/
def State.arrival (s : State) (k : Key) : State :=
  let row := s.originRow k.origin
  let s := s.applyRow k.origin (arrive (row.adoptedBelow k.seq) row.lost k.seq)
  { s with gap := { s.gap with slot := s.gap.slot.mark k } }

/-- A missed arrival (R157). -/
def State.missedArrival (s : State) (k : Key) : State :=
  let row := s.originRow k.origin
  s.applyRow k.origin (extendTo (row.adoptedBelow k.seq) row.lost k.seq)

/-- A seq at or below the horizon of its tracked row (R16, case 3). -/
def State.stale (s : State) (k : Key) : Bool :=
  match (s.originRow k.origin).tracked with
  | some t => k.seq ≤ t.horizon
  | none => false

/-- The cases of R16. -/
inductive RecordCase where
  | notClassified
  | held
  | staged
  | stale
  | noRoom
  | admitted
deriving DecidableEq, Repr

/-- The case a RECORD frame meets (R16): the first that applies. -/
def State.recordCase (s : State) (k : Key) : RecordCase :=
  if !s.onBus || k.origin == s.ownId then .notClassified
  else if (s.locate k).isSome then .held
  else if s.staged k then .staged
  else if s.stale k then .stale
  else if Config.sharedPlaces ≤ s.sharedEntries ∨ s.sequencer.protect = true then .noRoom
  else .admitted

/-- A BUS entry of a key owes a receipt (R15). -/
def oweReceipt (k : Key) (e : IntakeEntry) : IntakeEntry :=
  match e.source with
  | .bus _ => if e.record.key = k then { e with source := .bus true } else e
  | _ => e

/-- A RECORD frame is classified and has its result (R16); `repair` is its repair flag. -/
def State.classify (s : State) (r : Record) (repair : Bool) : State :=
  match s.recordCase r.key with
  | .notClassified => s
  | .held => if repair then s else s.offerReceipt r.key
  | .staged => if repair then s else { s with intake := s.intake.map (oweReceipt r.key) }
  | .stale => s
  | .noRoom => s.missedArrival r.key
  | .admitted => (s.stage r (.bus true)).arrival r.key

/-- RECORD_RECEIVED (R16, R144). -/
def execRecordReceived (sender : Nat) (record : Record) (s : State) : Outcome :=
  s.awake fun s => s.hear ⟨sender, .record record⟩ fun t =>
    State.settle s (((t.peerHeard sender false).suppress record.key).classify record false)

/-- REPAIR_RECORD_RECEIVED (R16). -/
def execRepairRecordReceived (sender : Nat) (record : Record) (s : State) : Outcome :=
  s.awake fun s => s.hear ⟨sender, .repairRecord record⟩ fun t =>
    State.settle s (((t.peerHeard sender false).suppress record.key).classify record true)

/-! ### ROLL (R120, R155, R158) -/

/-- The top seq of a ROLL reaches the Gap Tracker (R158, R155). -/
def State.takeTop (s : State) (id top : Nat) : State :=
  if s.onBus then
    let row := s.originRow id
    match row.tracked with
    | none => s.setOriginRow id ⟨some ⟨top, top, [], 0⟩, row.lost⟩
    | some t => s.applyRow id (extendTo t row.lost top)
  else s

/-- ROLL_RECEIVED (R119, R120, R158): the roster first, then the Gap Tracker (log 30). -/
def execRollReceived (sender : Nat) (state : RollState) (k timingClass topSeq : Nat) (s : State) : Outcome :=
  s.awake fun s => s.hear ⟨sender, .roll state k timingClass topSeq⟩ fun t =>
    let t := t.peerHeard sender (state == .leaving)
    let t := if state = .leaving then t else t.rollHeard sender ⟨state, k, timingClass, topSeq⟩
    t.takeTop sender topSeq

end Sys2Proof.Machine
end

