-- ==== Sys2Proof/Machine/LineCommands.lean ====
section
/-! DEFINITION. The line: starts of frames, gaps, offer points, lost and failed frames, SILENCED (R89 to R92, R98, R99,
R105, R108). -/

namespace Sys2Proof.Machine

/-- FRAME_START_HEARD (R89): a dominant bit sets the idle count to 0; in GAP and QUIET it starts a frame. -/
def execFrameStartHeard (s : State) : Outcome :=
  s.awake fun s =>
    match s.line.state with
    | .off => s
    | .gap => s.lineAfter .receiving 0
    | .quiet => s.lineAfter .receiving 0
    | other => s.lineAfter other 0

/-- GAP_END (R89). -/
def execGapEnd (s : State) : Outcome :=
  s.awake fun s =>
    match s.line.state with
    | .seeking => s.lineAfter .quiet Config.gapBits
    | .gap => s.lineAfter .quiet Config.gapBits
    | _ => s

/-! ### The Frame Scheduler (R98, R99, R108) -/

/-- A frame of the own station. -/
def State.ownFrame (s : State) (body : FrameBody) (owner : FrameOwner) : FrameInFlight := ⟨⟨s.ownId, body⟩, owner⟩

/-- What a LOADED buffer holds for an owner whose claim stands. -/
def State.loadedFor (s : State) (i : BufferNo) : Option (BufferOwner × Record) :=
  match s.buffer i with
  | .loaded o r true => some (o, r)
  | _ => none

/-- Order 1 (R99, R149): the oldest keys of the Receipt List, at most 6. -/
def State.receiptReady (s : State) : Option FrameInFlight :=
  if s.onBus && !s.receipts.isEmpty then
    some (s.ownFrame (.receipt (s.receipts.take Config.receiptKeys)) .receiptList)
  else none

/-- Order 2 (R162). -/
def State.requestReady (s : State) : Option FrameInFlight :=
  match s.gap.slot with
  | .due r _ =>
    if s.onBus && s.somePresent then some (s.ownFrame (.request r.origin r.first r.span) .repairSlot) else none
  | _ => none

/-- The buffer LOADED for an answer entry. -/
def State.answerBuffer (s : State) (k : Key) : Option (BufferNo × Record) :=
  ([0, 1] : List BufferNo).findSome? fun i =>
    match s.loadedFor i with
    | some (o, r) => if o = .answer k then some (i, r) else none
    | none => none

/-- Order 3 (R98): the earlier due time, then the earlier in the list. -/
def State.repairReady (s : State) : Option FrameInFlight :=
  if s.onBus then
    (leastBy (fun c : Nat × BufferNo × Record => c.1)
      (s.gap.answers.filterMap fun a => (s.answerBuffer a.key).map fun br => (a.dueAt, br))).map
      fun c => s.ownFrame (.repairRecord c.2.2) (.buffer c.2.1)
  else none

/-- An owner of origin work. -/
def BufferOwner.isOrigin : BufferOwner → Bool
  | .answer _ => false
  | _ => true

/-- Order 4 (R98, R108): the lower seq; not allowed in JOINING. -/
def State.recordReady (s : State) : Option FrameInFlight :=
  if s.controller.state = .active ∨ s.controller.state = .leaving then
    (leastBy (fun c : BufferNo × Record => c.2.key.seq)
      (([0, 1] : List BufferNo).filterMap fun i =>
        match s.loadedFor i with
        | some (o, r) => if o.isOrigin then some (i, r) else none
        | none => none)).map
      fun c => s.ownFrame (.record c.2) (.buffer c.1)
  else none

/-- Order 5 (R99, R108): in HALTED only a ROLL carrying LEAVING. -/
def State.rollReady (s : State) : Option FrameInFlight :=
  match s.controller.rollDue, s.controller.config with
  | some st, some c =>
    if s.onBus || (s.controller.state == .halted && st == .leaving) then
      some (s.ownFrame (.roll st c.k c.timingClass (highestSeq s.index s.ownId)) .controller)
    else none
  | _, _ => none

/-- The frame given at an offer point (R98): none while SILENCED stands. -/
def State.offered (s : State) : Option FrameInFlight :=
  if s.line.silenced.isSome then none
  else s.receiptReady.or (s.requestReady.or (s.repairReady.or (s.recordReady.or s.rollReady)))

/-- OFFER_POINT (R89, R98). -/
def execOfferPoint (s : State) : Outcome :=
  s.awake fun s =>
    if s.line.state = .quiet then
      match s.offered with
      | none => s
      | some f => { s with line := { s.line with state := .sending, idle := 0, inFlight := some f } }
    else s

/-! ### Frames lost and failed -/

/-- The buffer that has no claimant left once its frame leaves the line (R105). -/
def State.orphan (s : State) : Option BufferNo :=
  match s.line.inFlight with
  | some ⟨_, .buffer i⟩ =>
    match s.buffer i with
    | .loaded _ _ false => some i
    | _ => none
  | _ => none

/-- The frame in flight leaves the line without an owner effect (R90, R91, R105). -/
def State.dropFrame (before s : State) : State :=
  let t := { s with line := { s.line with inFlight := none } }
  match before.orphan with
  | some i => State.settle before (t.setBuffer i .empty)
  | none => t

/-- ARBITRATION_LOST (R90). -/
def execArbitrationLost (s : State) : Outcome :=
  s.awake fun s => if s.line.state = .sending then State.dropFrame s (s.lineAfter .receiving 0) else s

/-- A transmit failure is counted (R91), and the 16th in a run silences the station (R92). -/
def State.countFailure (s : State) : State :=
  let run := min Config.silenceRun (s.line.failureRun + 1)
  let s := { s with line := { s.line with
    failureRun := run
    failureTotal := min Config.countStop (s.line.failureTotal + 1) } }
  if run = Config.silenceRun then
    State.post { s with line := { s.line with silenced := some (s.now + s.scaled Config.rollPeriod) } } .busSilenced
  else s

/-- TRANSMIT_FAILURE (R91): `idle` is the count at the mismatch, from the last dominant bit on the line. DESIGN CHOICE, unsafe
(log 39): where the count has reached 12 already (a start bit driven in QUIET and read recessive), the line is SEEKING all the
same, until the next GAP_END command. -/
def execTransmitFailure (idle : Nat) (s : State) : Outcome :=
  s.awake fun s =>
    if s.line.state = .sending then
      State.dropFrame s (s.lineAfter .seeking (min Config.gapBits idle)).countFailure
    else s

/-- SILENCED_EXPIRY (R92). -/
def execSilencedExpiry (s : State) : Outcome :=
  s.awake fun s =>
    match s.line.silenced with
    | none => s
    | some t =>
      State.post { s.reach t with line := { s.line with silenced := none, failureRun := 0 } } .busResumed

end Sys2Proof.Machine
end

