-- ==== Sys2Proof/Machine/PortCommands.lean ====
section
/-! DEFINITION. The transactions of the local port, each at its kind byte (R171, R172, R174, R181, R185). -/

namespace Sys2Proof.Machine

/-- What the port drives after the kind byte of the transaction last begun (R185). -/
def State.drive (s : State) (bytes : List Byte) : State := { s with port := { s.port with miso := bytes } }

/-- The port state changed. -/
def State.setPort (s : State) (p : PortState) : State := { s with port := { s.port with state := p } }

/-- The command of a transaction by its kind byte (R185): a byte that names none makes it void (R171). -/
def transactionOf (kind : Byte) : Instr :=
  if kind = 0x01 then .put
  else if kind = 0x02 then .get
  else if kind = 0x03 then .event
  else if kind = 0x04 then .peek
  else .voidTransaction kind

/-- PUT (R172). -/
def execPut (s : State) : Outcome :=
  s.awake fun s =>
    match s.port.state with
    | .idle => (s.setPort .collecting).drive (putBytes true)
    | _ => s.drive (putBytes false)

/-- GET (R174). -/
def execGet (s : State) : Outcome :=
  s.awake fun s =>
    match s.port.state with
    | .answered r => (s.setPort .idle).drive (getBytes (some r))
    | _ => s.drive (getBytes none)

/-- EVENT (R181). -/
def execEvent (s : State) : Outcome :=
  s.awake fun s =>
    let s := s.drive (takeEventBytes s.port.overflow s.port.events.head?)
    { s with port := { s.port with events := s.port.events.tail, overflow := false } }

/-- PEEK (R171): nothing changes but what the port drives. -/
def execPeek (s : State) : Outcome := s.awake fun s => s.drive (peekBytes s.port)

/-- VOID_TRANSACTION (R171, R185): the idle fill alone. A byte that names a transaction does not void one (log 1). -/
def execVoidTransaction (kind : Byte) (s : State) : Outcome :=
  s.awake fun s => if transactionKinds.contains kind then s else s.drive []

end Sys2Proof.Machine
end

