-- ==== Sys2Proof/Machine/Requests.lean ====
section
/-! DEFINITION. The requests, taken when select is deasserted (R172, R173): MALFORMED, then NOT_READY, then the block
that handles each. -/

namespace Sys2Proof.Machine

/-- The command of the request that an accepted PUT has collected, by its code (11.3.1, R187); `left` is what a RESTART
leaves of the operation it interrupts. -/
def requestOf (left : Interruption) : List Byte → Instr
  | [] => .unknownRequest []
  | code :: fields =>
    if code = 0x10 then .configure fields
    else if code = 0x11 then .join fields
    else if code = 0x12 then .leave fields
    else if code = 0x13 then .restart fields left
    else if code = 0x20 then .submit fields
    else if code = 0x21 then .takeOutcome fields
    else if code = 0x30 then .readRecord fields
    else if code = 0x31 then .findNext fields
    else if code = 0x40 then .status fields
    else if code = 0x41 then .roster fields
    else if code = 0x42 then .originRow fields
    else .unknownRequest (code :: fields)

/-- A refusal (R173). -/
def State.refuse (s : State) (name : RefusalName) : State := s.respond (.refusal name)

/-- An accepted request is taken (R173): `parsed` is none when the message does not fit its kind. -/
def State.taken {α : Type} (s : State) (parsed : Option α) (handle : State → α → State) : State :=
  if s.port.state = .collecting then
    match parsed with
    | none => s.refuse .malformed
    | some fields => if s.controller.state = .mounting then s.refuse .notReady else handle s fields
  else s

/-- UNKNOWN_REQUEST (R173): a message whose code names no request, the empty message included (log 28). -/
def execUnknownRequest (message : List Byte) (s : State) : Outcome :=
  s.awake fun s =>
    if s.port.state = .collecting then
      match message with
      | [] => s.refuse .malformed
      | code :: _ => if requestCodes.contains code then s else s.refuse .malformed
    else s

/-! ### Station state -/

/-- CONFIGURE accepted (R109). -/
def State.configured (s : State) (c : Configuration) : State :=
  State.respond
    { s with
      controller := { s.controller with config := some c, state := .ready }
      tracker := { s.tracker with nextSeq := some (s.computeNextSeq c) }
      line := { s.line with state := .seeking, idle := 0 } }
    .done

/-- CONFIGURE (R109). -/
def execConfigure (fields : List Byte) (s : State) : Outcome :=
  s.awake fun s => s.taken (parseConfigure fields) fun s c =>
    if s.controller.state ≠ .idle then s.refuse .badState
    else if configurationInRange c then s.configured c
    else s.refuse .badParam

/-- JOIN accepted (R111, R160). -/
def State.joinBus (s : State) : State :=
  State.respond
    { s with
      controller := { s.controller with
        state := .joining, rollTimer := some (s.now + s.scaled Config.rollPeriod), rollDue := none }
      gap := { s.gap with timer := some (s.now + s.scaled Config.repairInterval) } }
    .done

/-- JOIN (R111). -/
def execJoin (fields : List Byte) (s : State) : Outcome :=
  s.awake fun s => s.taken (parseNothing fields) fun s _ =>
    if s.controller.state = .ready then s.joinBus else s.refuse .badState

/-- LEAVE (R114): the drain is tested at once. -/
def execLeave (fields : List Byte) (s : State) : Outcome :=
  s.awake fun s => s.taken (parseNothing fields) fun s _ =>
    if s.controller.state = .active then
      (State.drainTest { s with controller := { s.controller with state := .leaving } }).respond .done
    else s.refuse .badState

/-- RESTART (R117, R175): no response; a reset that keeps the configuration. -/
def execRestart (fields : List Byte) (left : Interruption) (s : State) : Outcome :=
  s.awake fun s => s.taken (parseNothing fields) fun s _ => (s.interrupt left).afterReset s.controller.config

/-! ### Submission and outcomes -/

/-- The seq the next record takes (R126). -/
def State.seqToAssign (s : State) : Nat := s.tracker.nextSeq.getD 1

/-- The first condition of R125 that fails. -/
def State.submitRefusal (s : State) (r : Submission) : Option RefusalName :=
  if s.controller.state = .halted then some .noSpace
  else if s.controller.state ≠ .active then some .badState
  else if r.payload.length < 1 ∨ Config.maxPayload < r.payload.length then some .tooLong
  else if s.sequencer.protect then some .protectedArray
  else if (List.finRange 4).all (fun l => s.condition l == .full || s.condition l == .dead) then some .noSpace
  else if Config.maxSeq < s.seqToAssign then some .seqExhausted
  else if Config.trackerPlaces ≤ s.tracker.entries.length then some .trackerFull
  else if Config.sharedPlaces ≤ s.sharedEntries then some .stagingFull
  else none

/-- SUBMIT accepted (R126, R8), before the workers act. -/
def State.accept (s : State) (r : Submission) : State :=
  let q := s.seqToAssign
  let key : Key := ⟨s.ownId, q⟩
  let s := s.setOriginRow s.ownId ⟨some ⟨q, q, [], 0⟩, (s.originRow s.ownId).lost⟩
  let s := s.stage ⟨key, r.cls, r.stamp, r.payload⟩ .localHost
  State.respond
    { s with tracker := { s.tracker with
        nextSeq := some (q + 1)
        entries := s.tracker.entries ++ [⟨key, .staged, [], 0, false⟩] } }
    (.accepted q)

/-- SUBMIT (R125, R126). -/
def execSubmit (fields : List Byte) (s : State) : Outcome :=
  s.awake fun s => s.taken (parseSubmit fields) fun s r =>
    match s.submitRefusal r with
    | some name => s.refuse name
    | none => State.settle s (s.accept r)

/-- The outcome of a done entry, as TAKE_OUTCOME reports it (R137). -/
def outcomeOf (e : TrackerEntry) : Response :=
  .outcome e.key.seq (e.state == .secured) e.holders e.attempts e.damaged

/-- TAKE_OUTCOME (R137). -/
def execTakeOutcome (fields : List Byte) (s : State) : Outcome :=
  s.awake fun s => s.taken (parseNothing fields) fun s _ =>
    match s.tracker.entries.find? fun e => e.state.isDone with
    | none => s.refuse .nothing
    | some e =>
      State.respond
        { s with tracker := { s.tracker with entries := s.tracker.entries.eraseP fun e => e.state.isDone } }
        (outcomeOf e)

/-! ### Reading records -/

/-- The staged copy of a record (R18). -/
def State.stagedRecord (s : State) (k : Key) : Option Record :=
  (s.intake.find? fun e => e.record.key == k).map fun e => e.record

/-- A class-2 read is placed, and the port stays WORKING (R176). -/
def State.placeHostRead (s : State) (r : SlotRead) : State :=
  State.startNext
    { s with
      port := { s.port with state := .reading r }
      sequencer := { s.sequencer with hostReads := s.sequencer.hostReads ++ [r] } }

/-- READ_RECORD (R176). -/
def execReadRecord (fields : List Byte) (s : State) : Outcome :=
  s.awake fun s => s.taken (parseKey fields) fun s k =>
    if keyInRange k then
      match s.stagedRecord k, s.locate k with
      | some r, _ => s.respond (.found true r)
      | none, some l => s.placeHostRead ⟨k, l⟩
      | none, none => s.respond .absent
    else s.refuse .badParam

/-- The keys that are held or staged (R177). -/
def State.knownKeys (s : State) : List Key := s.index.map (fun e => e.1) ++ s.intake.map fun e => e.record.key

/-- The smallest held or staged seq of an origin above one (R177). -/
def State.nextKnown (s : State) (origin after : Nat) : Option Key :=
  leastBy (fun k : Key => k.seq) (s.knownKeys.filter fun k => k.origin == origin && after < k.seq)

/-- FIND_NEXT (R177). -/
def execFindNext (fields : List Byte) (s : State) : Outcome :=
  s.awake fun s => s.taken (parseKey fields) fun s k =>
    if 1 ≤ k.origin ∧ k.origin ≤ 30 ∧ k.seq ≤ Config.maxSeq then
      match s.nextKnown k.origin k.seq with
      | some found => s.respond (.next found.seq (s.staged found))
      | none => s.respond .none
    else s.refuse .badParam

/-! ### Reading the station's state -/

/-- The number of RETIRED blocks (R69). -/
def State.retiredCount (s : State) : Nat := (s.map.blocks.toList.filter fun r => r == .retired).length

/-- The STATUS fields (R178, R84). -/
def State.statusFields (s : State) : StatusFields :=
  if s.controller.state = .mounting then
    ⟨.mounting, s.controller.config, none, 0, 0, 0, 0, 0, [], 0, s.sequencer.protect, false, 0, 0⟩
  else
    { state := s.controller.state
      config := s.controller.config
      nextSeq := s.tracker.nextSeq
      localEntries := s.localEntries
      busEntries := s.busEntries
      evacuationEntries := s.evacuationEntries
      liveEntries := (s.tracker.entries.filter fun e => !e.state.isDone).length
      doneEntries := (s.tracker.entries.filter fun e => e.state.isDone).length
      lanes := (List.finRange 4).map fun l => ((s.freePool l).length, s.condition l)
      retired := s.retiredCount
      protect := s.sequencer.protect
      silenced := s.line.silenced.isSome
      rejectedTotal := s.line.rejectedTotal
      failureTotal := s.line.failureTotal }

/-- STATUS (R178, R84): taken while MOUNTING as well. -/
def execStatus (fields : List Byte) (s : State) : Outcome :=
  s.awake fun s =>
    if s.port.state = .collecting then
      match parseNothing fields with
      | none => s.refuse .malformed
      | some _ => s.respond (.status s.statusFields)
    else s

/-- The rows a ROSTER response carries (R179). -/
def State.rosterRows (s : State) : List (Nat × RosterRow) :=
  match s.controller.config with
  | none => []
  | some c => (((List.range 30).map fun i => i + 1).filter fun id => id != c.stationId).map fun id => (id, s.rosterRow id)

/-- ROSTER (R179). -/
def execRoster (fields : List Byte) (s : State) : Outcome :=
  s.awake fun s => s.taken (parseNothing fields) fun s _ => s.respond (.roster s.rosterRows)

/-- ORIGIN_ROW (R179). -/
def execOriginRow (fields : List Byte) (s : State) : Outcome :=
  s.awake fun s => s.taken (parseOrigin fields) fun s origin =>
    if 1 ≤ origin ∧ origin ≤ 30 then s.respond (.originRow origin (s.originRow origin)) else s.refuse .badParam

end Sys2Proof.Machine
end

