-- ==== Sys2Proof/Machine/ResetLines.lean ====
section
/-! DEFINITION. The supply, nRESET and PROT commands (R27, R37, R38, R42, R85, R117, R188). -/

namespace Sys2Proof.Machine

/-- POWER_ON_RESET (R188, R42, R71): while nRESET is low the mount waits for its release (log 18). -/
def execPowerOnReset (left : Interruption) (s : State) : Outcome :=
  let t := State.afterReset { s.interrupt left with power := true } none
  .next (if s.nresetLow then t.freeArray else t)

/-- NRESET_ASSERT (R188): the operation in flight ends, driving stops, and the condition is held. -/
def execNresetAssert (left : Interruption) (s : State) : Outcome :=
  .next (if s.nresetLow then s else { s.beginHold left with nresetLow := true })

/-- NRESET_RELEASE (R188, R71): the pin reset takes effect. -/
def execNresetRelease (s : State) : Outcome :=
  .next (if s.nresetLow then
      (if s.power then State.afterReset { s with nresetLow := false } none else { s with nresetLow := false })
    else s)

/-- The protect level (R27). -/
def State.setProtect (s : State) (level : Bool) : State :=
  { s with sequencer := { s.sequencer with protect := level } }

/-- PROT_ASSERT (R37): the level, the abort with its completion, PROT_ON (log 11). An operation that the completion before it
let start is in flight and is aborted (R43; DEDUCED, unsafe, log 31). -/
def execProtAssert (left : Interruption) (s : State) : Outcome :=
  .next (if s.sequencer.protect then s
    else if s.abortable then State.settle s (((s.setProtect true).abortInFlight left).post .protOn)
    else (s.setProtect true).post .protOn)

/-- PROT_RELEASE (R38). -/
def execProtRelease (s : State) : Outcome :=
  .next (if s.sequencer.protect then State.settle s ((s.setProtect false).post .protOff) else s)

/-- POWER_LOSS (R188): as a low level on nRESET, until a power-on reset takes effect. -/
def execPowerLoss (left : Interruption) (s : State) : Outcome :=
  .next (if s.power then { s.beginHold left with power := false } else s)

end Sys2Proof.Machine
end

