-- ==== Sys2Proof/Machine/SentFrames.lean ====
section
/-! DEFINITION. Frames sent to their last stop bit, and what each does to its owner (R100, R112, R113, R115, R130, R146,
R162, R166). -/

namespace Sys2Proof.Machine

/-- The frame the station is driving. -/
def State.driven (s : State) : Option FrameInFlight := if s.line.state = .sending then s.line.inFlight else none

/-- A frame has been transmitted (R88, R100): GAP, the failure run at 0, no frame in flight. -/
def State.sent (s : State) (f : Frame) : State :=
  { s with line := { s.line with
      state := .gap, idle := endIdle (frameBytes f), inFlight := none, failureRun := 0 } }

/-- RECEIPT_TRANSMITTED (R146). -/
def execReceiptTransmitted (s : State) : Outcome :=
  s.awake fun s =>
    match s.driven with
    | some ⟨⟨sender, .receipt keys⟩, _⟩ =>
      { s.sent ⟨sender, .receipt keys⟩ with receipts := s.receipts.filter fun k => !keys.contains k }
    | _ => s

/-- The repair slot is told that a REQUEST was transmitted (R162, R169). -/
def RepairSlot.transmitted (slot : RepairSlot) (r : RepairRequest) : RepairSlot :=
  match slot with
  | .due q progress => if q = r then .sent q progress else .due q progress
  | other => other

/-- REQUEST_TRANSMITTED (R162). -/
def execRequestTransmitted (s : State) : Outcome :=
  s.awake fun s =>
    match s.driven with
    | some ⟨⟨sender, .request origin first span⟩, _⟩ =>
      { s.sent ⟨sender, .request origin first span⟩ with
        gap := { s.gap with slot := s.gap.slot.transmitted ⟨origin, first, span⟩ } }
    | _ => s

/-- The owner of a buffer is told that its RECORD was transmitted (R100, R130, R166). -/
def State.ownerSent (s : State) : BufferOwner → State
  | .answer k => s.removeAnswer k
  | .sendOnce k => s.dropSendOnce k
  | .tracker k =>
    s.updateEntry k fun e =>
      if e.state = .loaded then
        { e with attempts := e.attempts + 1, state := .awaiting (s.now + s.scaled Config.holderWindow) }
      else e

/-- The buffer of a transmitted RECORD becomes EMPTY, and its owner is told if its claim stands (R100, R105). -/
def State.bufferSent (s : State) (i : BufferNo) : State :=
  match (s.buffer i).heldBy with
  | some o => (s.setBuffer i .empty).ownerSent o
  | none => s.setBuffer i .empty

/-- REPAIR_RECORD_TRANSMITTED (R166). -/
def execRepairRecordTransmitted (s : State) : Outcome :=
  s.awake fun s =>
    match s.driven with
    | some ⟨⟨sender, .repairRecord r⟩, .buffer i⟩ =>
      State.settle s ((s.sent ⟨sender, .repairRecord r⟩).bufferSent i)
    | _ => s

/-- RECORD_TRANSMITTED (R130, R101). -/
def execRecordTransmitted (s : State) : Outcome :=
  s.awake fun s =>
    match s.driven with
    | some ⟨⟨sender, .record r⟩, .buffer i⟩ => State.settle s ((s.sent ⟨sender, .record r⟩).bufferSent i)
    | _ => s

/-- The roll due and the roll timer changed. -/
def State.setRoll (s : State) (due : Option RollState) (timer : Option Nat) : State :=
  { s with controller := { s.controller with rollDue := due, rollTimer := timer } }

/-- The roll timer restarted for one roll period (R112, R113). -/
def State.nextRoll (s : State) : State := s.setRoll none (some (s.now + s.scaled Config.rollPeriod))

/-- A BUS entry owes no receipt (R15). -/
def oweNothing (e : IntakeEntry) : IntakeEntry :=
  match e.source with
  | .bus _ => { e with source := .bus false }
  | _ => e

/-- The station leaves the bus (R115, R148, R160), before the workers act. -/
def State.leaveBus (s : State) : State :=
  let s := { s with
    controller := { s.controller with state := .ready, rollDue := none, rollTimer := none }
    receipts := []
    intake := s.intake.map oweNothing }
  s.emptyAnswers.emptySlot.post .left

/-- What the Station Controller does when a ROLL has been transmitted (R112, R113, R115). -/
def State.rollSent (s : State) (carried : RollState) : State :=
  match s.controller.state, carried with
  | .joining, .joining =>
    State.post (State.nextRoll { s with controller := { s.controller with state := .active } }) .joined
  | .active, .active => s.nextRoll
  | .leaving, .active => if s.controller.rollDue = some .active then s.nextRoll else s
  | .leaving, .leaving => State.settle s s.leaveBus
  | .halted, .leaving => s.setRoll none none
  | _, _ => s

/-- ROLL_TRANSMITTED (R113). -/
def execRollTransmitted (s : State) : Outcome :=
  s.awake fun s =>
    match s.driven with
    | some ⟨⟨sender, .roll st k tc top⟩, _⟩ => (s.sent ⟨sender, .roll st k tc top⟩).rollSent st
    | _ => s

end Sys2Proof.Machine
end

