-- ==== Sys2Proof/Machine/Timers.lean ====
section
/-! DEFINITION. The protocol timers (R110, R111, R113, R121, R131, R159, R161, R163, R166). A command of an expiry brings
the clock to that expiry (log 3). -/

namespace Sys2Proof.Machine

/-- HOLDER_WINDOW_EXPIRY (R131), of the own record with this seq. -/
def execHolderWindowExpiry (seq : Nat) (s : State) : Outcome :=
  s.awake fun s =>
    match s.entry ⟨s.ownId, seq⟩ with
    | none => s
    | some e =>
      match e.state with
      | .awaiting deadline =>
        let t := s.reach deadline
        State.settle s
          (if e.attempts < Config.maxAttempts then t.updateEntry e.key fun e => { e with state := .queued }
          else t.finish e false false)
      | _ => s

/-- The ROLL that becomes due when the roll timer expires (R111, R113). -/
def State.rollOnExpiry (s : State) : Option RollState :=
  if s.controller.state = .joining then some .joining
  else if s.controller.rollDue = some .leaving then some .leaving
  else some .active

/-- ROLL_TIMER_EXPIRY (R111, R113). -/
def execRollTimerExpiry (s : State) : Outcome :=
  s.awake fun s =>
    match s.controller.rollTimer with
    | none => s
    | some t =>
      if s.onBus then
        { s.reach t with controller := { s.controller with rollTimer := none, rollDue := s.rollOnExpiry } }
      else s

/-! ### The repair slot (R161, R163) -/

/-- The judgement of a SENT request against its row (R163). -/
def judgeRow (row : OriginRow) (first : Nat) (progress : Bool) : RowChange :=
  match row.tracked with
  | none => ⟨row, none⟩
  | some t =>
    if progress then ⟨⟨some { t with attempts := 0 }, row.lost⟩, none⟩
    else
      match t.gaps with
      | [] => ⟨row, none⟩
      | g :: _ =>
        if g.1 ≤ first ∧ first ≤ g.2 then
          if t.attempts + 1 < Config.maxJudgements then ⟨⟨some { t with attempts := t.attempts + 1 }, row.lost⟩, none⟩
          else abandonLowest t row.lost
        else ⟨row, none⟩

/-- The slot settles its request and becomes EMPTY (R161). -/
def State.settleRequest (s : State) : State :=
  match s.gap.slot with
  | .sent r progress =>
    State.applyRow { s with gap := { s.gap with slot := .empty } } r.origin (judgeRow (s.originRow r.origin) r.first progress)
  | _ => { s with gap := { s.gap with slot := .empty } }

/-- The station IDs after a turn pointer, the ID after 30 being 1 (R161). -/
def idsAfter (turn : Nat) : List Nat := (List.range 30).map fun i => (turn + i) % 30 + 1

/-- The lowest range of a tracked row. -/
def OriginRow.lowestRange (row : OriginRow) : Option (Nat × Nat) := row.tracked.bind fun t => t.gaps.head?

/-- The request for the lowest range of an origin (R161). -/
def requestFor (origin : Nat) (g : Nat × Nat) : RepairRequest := ⟨origin, g.1, min Config.requestSpan (g.2 - g.1 + 1)⟩

/-- The request the slot chooses (R161). -/
def State.nextRequest (s : State) : Option RepairRequest :=
  if s.somePresent then
    (idsAfter s.gap.turn).findSome? fun id => (s.originRow id).lowestRange.map (requestFor id)
  else none

/-- The slot chooses a request (R161). -/
def State.chooseRequest (s : State) : State :=
  match s.nextRequest with
  | none => s
  | some r => { s with gap := { s.gap with slot := .due r false, turn := r.origin } }

/-- REPAIR_TIMER_EXPIRY (R161): the next expiry comes one repair interval later, whatever the slot does (R160). -/
def execRepairTimerExpiry (s : State) : Outcome :=
  s.awake fun s =>
    match s.gap.timer with
    | none => s
    | some t =>
      let u := (s.reach t).settleRequest.chooseRequest
      { u with gap := { u.gap with timer := some (t + s.scaled Config.repairInterval) } }

/-! ### Answers and the roster -/

/-- Answers whose due time has come (R164). -/
def markDue (time : Nat) (a : AnswerEntry) : AnswerEntry := if a.dueAt ≤ time then { a with due := true } else a

/-- ANSWER_DUE (R166): every entry with a due time no later comes due with it. -/
def execAnswerDue (key : Key) (s : State) : Outcome :=
  s.awake fun s =>
    match s.answer key with
    | none => s
    | some a =>
      let t := s.reach a.dueAt
      State.settle s { t with gap := { t.gap with answers := t.gap.answers.map (markDue a.dueAt) } }

/-- The silence deadline of a roster row (R118). -/
def RosterRow.deadline : RosterRow → Option Nat
  | .absent => none
  | .present d _ => some d
  | .discordant d _ => some d

/-- SILENCE_DEADLINE_EXPIRY (R121). -/
def execSilenceDeadlineExpiry (peer : Nat) (s : State) : Outcome :=
  s.awake fun s =>
    match (s.rosterRow peer).deadline with
    | none => s
    | some d => ((s.reach d).setRosterRow peer .absent).post (.peerDown peer .silent)

end Sys2Proof.Machine
end

