-- ==== Sys2Proof/Machine/Dispatch.lean ====
section
/-! DEFINITION. What each command does: one arm for each row of spec/opcode_table.json. -/

namespace Sys2Proof.Machine

/-- The command's effect on everything but the queue. -/
def exec (i : Instr) (s : State) : Host.Outcome State Fault Refusal :=
  match i with
  | .powerOnReset left => Sys2Proof.Machine.execPowerOnReset left s
  | .nresetAssert left => Sys2Proof.Machine.execNresetAssert left s
  | .nresetRelease => Sys2Proof.Machine.execNresetRelease s
  | .protAssert left => Sys2Proof.Machine.execProtAssert left s
  | .protRelease => Sys2Proof.Machine.execProtRelease s
  | .put => Sys2Proof.Machine.execPut s
  | .get => Sys2Proof.Machine.execGet s
  | .event => Sys2Proof.Machine.execEvent s
  | .peek => Sys2Proof.Machine.execPeek s
  | .voidTransaction kind => Sys2Proof.Machine.execVoidTransaction kind s
  | .unknownRequest message => Sys2Proof.Machine.execUnknownRequest message s
  | .configure fields => Sys2Proof.Machine.execConfigure fields s
  | .join fields => Sys2Proof.Machine.execJoin fields s
  | .leave fields => Sys2Proof.Machine.execLeave fields s
  | .restart fields left => Sys2Proof.Machine.execRestart fields left s
  | .submit fields => Sys2Proof.Machine.execSubmit fields s
  | .takeOutcome fields => Sys2Proof.Machine.execTakeOutcome fields s
  | .readRecord fields => Sys2Proof.Machine.execReadRecord fields s
  | .findNext fields => Sys2Proof.Machine.execFindNext fields s
  | .status fields => Sys2Proof.Machine.execStatus fields s
  | .roster fields => Sys2Proof.Machine.execRoster fields s
  | .originRow fields => Sys2Proof.Machine.execOriginRow fields s
  | .frameRejected read => Sys2Proof.Machine.execFrameRejected read s
  | .receiptReceived sender keys => Sys2Proof.Machine.execReceiptReceived sender keys s
  | .requestReceived sender origin first span => Sys2Proof.Machine.execRequestReceived sender origin first span s
  | .recordReceived sender record => Sys2Proof.Machine.execRecordReceived sender record s
  | .repairRecordReceived sender record => Sys2Proof.Machine.execRepairRecordReceived sender record s
  | .rollReceived sender st k timingClass topSeq => Sys2Proof.Machine.execRollReceived sender st k timingClass topSeq s
  | .gapEnd => Sys2Proof.Machine.execGapEnd s
  | .offerPoint => Sys2Proof.Machine.execOfferPoint s
  | .arbitrationLost => Sys2Proof.Machine.execArbitrationLost s
  | .transmitFailure idle => Sys2Proof.Machine.execTransmitFailure idle s
  | .silencedExpiry => Sys2Proof.Machine.execSilencedExpiry s
  | .receiptTransmitted => Sys2Proof.Machine.execReceiptTransmitted s
  | .requestTransmitted => Sys2Proof.Machine.execRequestTransmitted s
  | .repairRecordTransmitted => Sys2Proof.Machine.execRepairRecordTransmitted s
  | .recordTransmitted => Sys2Proof.Machine.execRecordTransmitted s
  | .rollTransmitted => Sys2Proof.Machine.execRollTransmitted s
  | .holderWindowExpiry seq => Sys2Proof.Machine.execHolderWindowExpiry seq s
  | .rollTimerExpiry => Sys2Proof.Machine.execRollTimerExpiry s
  | .repairTimerExpiry => Sys2Proof.Machine.execRepairTimerExpiry s
  | .answerDue key => Sys2Proof.Machine.execAnswerDue key s
  | .silenceDeadlineExpiry peer => Sys2Proof.Machine.execSilenceDeadlineExpiry peer s
  | .programComplete results => Sys2Proof.Machine.execProgramComplete results s
  | .eraseComplete results => Sys2Proof.Machine.execEraseComplete results s
  | .transmitReadComplete changed => Sys2Proof.Machine.execTransmitReadComplete changed s
  | .hostReadComplete changed => Sys2Proof.Machine.execHostReadComplete changed s
  | .evacuationReadComplete changed => Sys2Proof.Machine.execEvacuationReadComplete changed s
  | .retireMarkComplete result => Sys2Proof.Machine.execRetireMarkComplete result s
  | .scanReadComplete changed => Sys2Proof.Machine.execScanReadComplete changed s
  | .frameStartHeard => Sys2Proof.Machine.execFrameStartHeard s
  | .powerLoss left => Sys2Proof.Machine.execPowerLoss left s

end Sys2Proof.Machine
end

