-- ==== Sys2Proof/WellFormed.lean ====
section
/-! DEFINITION. The commands that an event of the spec can be: operands within the ranges the spec gives them. -/

namespace Sys2Proof

/-- Cells that a program or a retire mark moved are not erased (R20). -/
def Landed.moved {α : Type} [DecidableEq α] (erased : α) : Landed α → Bool
  | .partly cells => cells ≠ erased
  | _ => true

/-- A pass addresses at most 8 slots (R24), and erases no cell (R20). -/
def PassFate.wellFormed (f : PassFate) : Bool :=
  f.slots.length ≤ 8 && (f.slots.all fun c => c.data.moved .erased && c.tag.moved .erased) && f.header.moved .erased

/-- A block has 32 pages (R20). -/
def eraseFateWellFormed : EraseFate → Bool
  | .partly pages => pages.length ≤ 32
  | _ => true

/-- What an interruption leaves, within the geometry, with no cell erased but by an erase (R20, R24). -/
def Interruption.wellFormed (w : Interruption) : Bool :=
  w.passes.toList.all PassFate.wellFormed && w.erases.toList.all eraseFateWellFormed && w.mark.moved .erased

/-- The result of one lane of a PROGRAM. -/
def PassResult.wellFormed : PassResult → Bool
  | .pass met => met.wellFormed
  | .fail fate => fate.wellFormed
  | .aborted fate => fate.wellFormed

/-- The result of one lane of an ERASE. -/
def EraseResult.wellFormed : EraseResult → Bool
  | .pass => true
  | .fail fate => eraseFateWellFormed fate
  | .aborted fate => eraseFateWellFormed fate

/-- The result of a RETIRE MARK. -/
def MarkResult.wellFormed : MarkResult → Bool
  | .pass => true
  | .fail fate => fate.moved .erased
  | .aborted fate => fate.moved .erased

/-- Cells that have changed are not erased (R20), and their check does not fit (log 2). -/
def PageChange.wellFormed (w : PageChange) : Bool :=
  w.slots.toList.all (Option.all (Machine.alters .erased Machine.slotFits)) &&
  w.tags.toList.all (Option.all (Machine.alters .erased Machine.tagFits)) &&
  w.header.all (Machine.alters .erased Machine.headerValid) && w.mark.all (Machine.alters .erased Machine.markFits)

/-- A reading that ends in a rejection (R88, R96): a framing fault, or a whole frame that fails a later test. -/
def Reception.wellFormed : Reception → Bool
  | .faulted _ _ => true
  | .complete bytes =>
    match Machine.judge bytes with
    | .valid _ => false
    | .rejected why => why != .framing

/-- A command is well formed when an event of the spec can be it. -/
def Instr.wellFormed : Instr → Bool
  | .powerOnReset left => left.wellFormed
  | .nresetAssert left => left.wellFormed
  | .protAssert left => left.wellFormed
  | .powerLoss left => left.wellFormed
  | .restart _ left => left.wellFormed
  | .voidTransaction kind => !Machine.transactionKinds.contains kind
  | .unknownRequest message =>
    match message with
    | [] => true
    | code :: _ => !Machine.requestCodes.contains code
  | .frameRejected read => read.wellFormed
  | .receiptReceived sender keys => Machine.frameInRange ⟨sender, .receipt keys⟩
  | .requestReceived sender origin first span => Machine.frameInRange ⟨sender, .request origin first span⟩
  | .recordReceived sender record => Machine.frameInRange ⟨sender, .record record⟩
  | .repairRecordReceived sender record => Machine.frameInRange ⟨sender, .repairRecord record⟩
  | .rollReceived sender state k timingClass topSeq =>
    Machine.frameInRange ⟨sender, .roll state k timingClass topSeq⟩
  | .holderWindowExpiry seq => 1 ≤ seq && seq ≤ Config.maxSeq
  | .answerDue key => Machine.keyInRange key
  | .silenceDeadlineExpiry peer => 1 ≤ peer && peer ≤ 30
  | .programComplete results => results.toList.all PassResult.wellFormed
  | .eraseComplete results => results.toList.all EraseResult.wellFormed
  | .retireMarkComplete result => result.wellFormed
  | .transmitReadComplete changed => changed.wellFormed
  | .hostReadComplete changed => changed.wellFormed
  | .evacuationReadComplete changed => changed.wellFormed
  | .scanReadComplete changed => changed.wellFormed
  | .nresetRelease => true
  | .protRelease => true
  | .put => true
  | .get => true
  | .event => true
  | .peek => true
  | .configure _ => true
  | .join _ => true
  | .leave _ => true
  | .submit _ => true
  | .takeOutcome _ => true
  | .readRecord _ => true
  | .findNext _ => true
  | .status _ => true
  | .roster _ => true
  | .originRow _ => true
  | .gapEnd => true
  | .offerPoint => true
  | .arbitrationLost => true
  | .transmitFailure _ => true
  | .silencedExpiry => true
  | .receiptTransmitted => true
  | .requestTransmitted => true
  | .repairRecordTransmitted => true
  | .recordTransmitted => true
  | .rollTransmitted => true
  | .rollTimerExpiry => true
  | .repairTimerExpiry => true
  | .frameStartHeard => true

end Sys2Proof
end

