-- ==== Sys2Proof/Safety.lean ====
section
/-! DEFINITION. Safety: what an outcome must be, the laws of the spec that every state of a run keeps, and the terms the
statements use. -/

namespace Sys2Proof.Machine

/-- A command is safe in a state when it answers a next state: no command of the spec ends in a fault or a refusal. -/
def Safe (i : Instr) (s : State) : Prop := ∃ t, exec i s = .next t

/-- The array stands in its canonical form. -/
def MemoryLaw (s : State) : Prop := Memory.wf s.flash = true

/-- The request in flight is a class-2 read (R28). -/
def Sequencer.readsForHost (q : Sequencer) : Bool :=
  match q.inFlight with
  | some (.hostRead _) => true
  | _ => false

/-- A READ_RECORD waits for its class-2 read (R176). -/
def PortState.waits : PortState → Bool
  | .reading _ => true
  | _ => false

/-- The capacities of R6, R28, R66, R101, R124, R142, R164 and R180, and the lists without duplicates of R101, R142 and
R164. -/
structure CapacityLaw (s : State) : Prop where
  events : s.port.events.length ≤ 32
  shared : s.sharedEntries ≤ 20
  evacuation : s.evacuationEntries ≤ 4
  tracker : s.tracker.entries.length ≤ 16
  receipts : s.receipts.length ≤ 32
  receiptsOnce : s.receipts.Nodup
  sendOnce : s.transmit.sendOnce.length ≤ 16
  sendOnceOnce : s.transmit.sendOnce.Nodup
  answers : s.gap.answers.length ≤ 8
  answersOnce : (s.gap.answers.map AnswerEntry.key).Nodup
  reads : s.map.evacuator.reads.length ≤ 4
  programs : s.sequencer.programs.length ≤ 1
  hostReads : s.sequencer.hostReads.length + s.sequencer.readsForHost.toNat ≤ s.port.state.waits.toNat

/-- The law of the intake queue (R6): no key appears in it twice, and the key of a LOCAL or BUS entry is not indexed. Its
other parts keep these two: the own seqs in the queue and in the index lie below next_seq (R82, R126), and a station that
is MOUNTING or IDLE has staged nothing, evacuates nothing and programs nothing (R16, R19, R80). -/
structure IntakeLaw (s : State) : Prop where
  keysOnce : (s.intake.map fun e => e.record.key).Nodup
  unindexed : ∀ e ∈ s.intake, (∀ former, e.source ≠ .evacuation former) → s.locate e.record.key = none
  configured : s.controller.config = none →
    s.controller.state = .mounting ∨ s.controller.state = .idle ∨ s.controller.state = .halted
  ownBelow : ∀ c, s.controller.config = some c → s.controller.state ≠ .mounting → ∃ q, s.tracker.nextSeq = some q ∧
    (∀ e ∈ s.intake, e.record.key.origin = c.stationId → e.record.key.seq < q) ∧
    ∀ k l, (k, l) ∈ s.index → k.origin = c.stationId → k.seq < q
  unused : s.controller.state = .mounting ∨ s.controller.state = .idle →
    s.intake = [] ∧ s.map.evacuator = ⟨none, [], []⟩ ∧ s.sequencer.programs = [] ∧ s.sequencer.evacuationReads = [] ∧
    (∀ lanes, s.sequencer.inFlight ≠ some (.program lanes)) ∧ ∀ r, s.sequencer.inFlight ≠ some (.evacuationRead r)

/-- Ranges in ascending order, disjoint, each above a bound (R153). -/
def gapsAbove : Nat → List (Nat × Nat) → Prop
  | _, [] => True
  | low, g :: rest => low < g.1 ∧ g.1 ≤ g.2 ∧ gapsAbove g.2 rest

/-- The law of a tracked row (R153, R154): at most 4 disjoint ascending ranges within horizon + 1 to top_seen, the
horizon as R154 gives it, fewer than 3 failed judgements. -/
structure TrackedRow.Law (t : TrackedRow) : Prop where
  horizonLe : t.horizon ≤ t.topSeen
  ascending : gapsAbove t.horizon t.gaps
  within : ∀ g ∈ t.gaps, g.2 ≤ t.topSeen
  capacity : t.gaps.length ≤ 4
  horizonIs : t.horizon = match t.gaps with
    | [] => t.topSeen
    | g :: _ => g.1 - 1
  attempts : t.attempts < 3

/-- The law of an origin row (R153). -/
structure OriginRow.Law (row : OriginRow) : Prop where
  lost : row.lost ≤ 65535
  tracked : ∀ t, row.tracked = some t → t.Law

/-- Every origin row keeps its law (R153). -/
def OriginLaw (s : State) : Prop := ∀ id, (s.originRow id).Law

/-- Every key in the Receipt List has an entry in the record index (R142), and the list is empty while MOUNTING. -/
def ReceiptLaw (s : State) : Prop := ∀ k ∈ s.receipts, (s.locate k).isSome ∧ s.controller.state ≠ .mounting

/-- The law of a tracker entry under a next_seq and a K (R124, R131): holders in ascending order, at least K of them
exactly when it is SECURED, no more than 4 attempts, and fewer while it may still be sent. -/
structure TrackerEntry.Law (nextSeq : Option Nat) (ownId k : Nat) (e : TrackerEntry) : Prop where
  origin : e.key.origin = ownId
  below : ∃ q, nextSeq = some q ∧ e.key.seq < q
  ascending : e.holders.Pairwise (· < ·)
  secured : e.state = .secured ↔ k ≤ e.holders.length
  staged : e.state = .staged → e.holders = []
  attempts : e.attempts ≤ 4
  unsent : e.state = .staged ∨ e.state = .queued ∨ e.state = .loaded → e.attempts < 4

/-- The law of the tracker (R124, R126, R127, R138): every entry keeps its law, the seqs rise in submission order, and
there is no entry before a station is READY. -/
structure TrackerLaw (s : State) : Prop where
  target : 1 ≤ s.replication
  entries : ∀ e ∈ s.tracker.entries, e.Law s.tracker.nextSeq s.ownId s.replication
  rising : (s.tracker.entries.map fun e => e.key.seq).Pairwise (· < ·)
  started : s.controller.state = .mounting ∨ s.controller.state = .idle → s.tracker.entries = []

/-- At most one location for any key (R48): the index, and the candidates it is rebuilt from, hold no key twice. -/
structure IndexLaw (s : State) : Prop where
  index : mapSorted keyLt s.index = true
  candidates : mapSorted keyLt s.scanner.candidates = true

/-- The lanes of the passes in flight and placed (R27, R55). -/
def Sequencer.passLanes (q : Sequencer) : List PassLane :=
  (match q.inFlight with
    | some (.program lanes) => lanes
    | _ => []) ++ q.programs.flatten

/-- Every cell the pass addresses is erased: its slots and their tags and, for a header pass, the header (R24, R73). -/
abbrev Blank (s : State) (p : PassLane) : Prop :=
  (∀ n, n < p.records.length →
    (readPage s.flash (pageAddress p.block p.page)).slots.get (slotAfter p.first n) = .erased ∧
    (readPage s.flash (pageAddress p.block p.page)).tags.get (slotAfter p.first n) = .erased) ∧
  (p.header.isSome = true → (readPage s.flash (pageAddress p.block p.page)).header = .erased)

/-- What a lane of a program completion ends with: a pass that met cells which are not erased ends FAIL (R73). -/
def laneEnds (s : State) (results : Vector PassResult 4) (p : PassLane) : PassResult :=
  match results.get (laneOf p.block) with
  | .pass met => if Blank s p then .pass met else .fail met
  | other => other

/-- The blocks of the erases in flight and placed (R27, R64). -/
def Sequencer.erasing (q : Sequencer) : List BlockId :=
  (match q.inFlight with
    | some (.erase blocks) => blocks
    | _ => []) ++ q.erases

/-- The block is OPEN (R44). -/
def State.isOpen (s : State) (b : BlockId) : Prop := ∃ chain header position, s.block b = .opened chain header position

/-- The block is SEALED (R44). -/
def State.isSealed (s : State) (b : BlockId) : Prop := ∃ chain, s.block b = .sealed chain

/-- The block is RETIRING (R44). -/
def State.isRetiring (s : State) (b : BlockId) : Prop := ∃ chain, s.block b = .retiring chain

/-- What the scanner has found (R71, R72, R74): the blocks in ascending order, those before the read in flight while it
classifies; while it reads pages, every block still to read and every candidate's block is a chained one. -/
structure ScannerLaw (s : State) : Prop where
  ascending : (s.scanner.findings.map BlockFinding.block).Pairwise (· < ·)
  classify : s.scanner.phase = .classify → s.scanner.candidates = [] ∧
    ∀ b p, s.sequencer.inFlight = some (.scanRead b p) → ∀ f ∈ s.scanner.findings, f.block < b
  queued : s.scanner.phase = .pages → ∀ f ∈ s.scanner.queue, f ∈ s.scanner.findings ∧ f.cls = .chained
  located : s.scanner.phase = .pages → ∀ k c, (k, c) ∈ s.scanner.candidates →
    ∃ f ∈ s.scanner.findings, f.block = c.loc.block ∧ f.cls = .chained
  read : s.scanner.phase = .pages → ∀ b p, s.sequencer.inFlight = some (.scanRead b p) →
    ∃ f ∈ s.scanner.findings, f.block = b ∧ f.cls = .chained

/-- The law of the block table: every location of the index lies in a block that is OPEN, SEALED or RETIRING (R48), and each
lane has at most one OPEN block (R44). Its other parts keep these two: a pass runs on OPEN blocks of engaged lanes, one pass
a lane (R44, R51), an erase on ERASING or DIRTY blocks, requested once each (R62 to R64), a candidate is a SEALED block of
its lane (R44, R60), nothing is placed while MOUNTING (R44), and the scanner keeps ScannerLaw. -/
structure BlockLaw (s : State) : Prop where
  located : ∀ k l, (k, l) ∈ s.index → s.isOpen l.block ∨ s.isSealed l.block ∨ s.isRetiring l.block
  oneOpen : ∀ b b', laneOf b = laneOf b' → s.isOpen b → s.isOpen b' → b = b'
  passesOnce : (s.sequencer.passLanes.map fun p => laneOf p.block).Nodup
  passes : ∀ p ∈ s.sequencer.passLanes, (s.lane (laneOf p.block)).engaged = true ∧ s.isOpen p.block
  erasesOnce : s.sequencer.erasing.Nodup
  erases : ∀ b ∈ s.sequencer.erasing, s.block b = .erasing ∨ s.block b = .dirty
  candidates : ∀ l b, (s.lane l).candidate = some b → laneOf b = l ∧ s.isSealed b
  unplaced : s.controller.state = .mounting → s.sequencer.programs = [] ∧ s.sequencer.reclaimErases = []
  scanner : ScannerLaw s

/-- The modes stay legal: the scanner holds the array exactly while MOUNTING (R27, R71), the line is followed only with a
configuration and outside MOUNTING (R97), a frame is in flight exactly while SENDING (R87), SILENCED stands exactly
while the failure run is 16 and keeps the station from driving (R92), the totals stop at 65,535 (R87), a station whose
every lane is DEAD has halted (R47, R81, R116), and a LEAVING station found drained has its last roll due (R114). -/
structure ModeLaw (s : State) : Prop where
  exclusive : s.sequencer.exclusive = true ↔ s.controller.state = .mounting
  scanning : ∀ b p, s.sequencer.inFlight = some (.scanRead b p) → s.sequencer.exclusive = true
  unconfigured : s.controller.state = .idle → s.controller.config = none
  following : s.line.state ≠ .off → s.controller.config.isSome ∧ s.controller.state ≠ .mounting
  sending : s.line.state = .sending ↔ s.line.inFlight.isSome
  failureRun : s.line.failureRun ≤ 16
  silenced : s.line.silenced.isSome ↔ s.line.failureRun = 16
  quietWhenSilenced : s.line.silenced.isSome → s.line.state ≠ .sending
  failureTotal : s.line.failureTotal ≤ 65535
  rejectedTotal : s.line.rejectedTotal ≤ 65535
  halted : s.allDead = true → s.controller.state = .mounting ∨ s.controller.state = .halted
  drained : s.controller.state = .leaving → s.drained = true → s.controller.rollDue = some .leaving

/-- What the station's own workers leave as it is when they act within an event (R29, R51, R60, R67, R102, R114): they
write no flash, drive no line, take no request and change no roster or origin row; the record index, the Receipt List,
the answer list and the send-once list only lose entries, the intake queue and the tracker lose none, and events are
only added. -/
structure WorkersKeep (s t : State) : Prop where
  now : t.now = s.now
  power : t.power = s.power
  nresetLow : t.nresetLow = s.nresetLow
  flash : t.flash = s.flash
  scanner : t.scanner = s.scanner
  line : t.line = s.line
  pending : t.pending = s.pending
  exclusive : t.sequencer.exclusive = s.sequencer.exclusive
  protect : t.sequencer.protect = s.sequencer.protect
  state : t.controller.state = s.controller.state
  config : t.controller.config = s.controller.config
  roster : t.controller.roster = s.controller.roster
  rows : t.gap.rows = s.gap.rows
  slot : t.gap.slot = s.gap.slot
  turn : t.gap.turn = s.gap.turn
  timer : t.gap.timer = s.gap.timer
  portState : t.port.state = s.port.state
  miso : t.port.miso = s.port.miso
  nextSeq : t.tracker.nextSeq = s.tracker.nextSeq
  entryKeys : t.tracker.entries.map TrackerEntry.key = s.tracker.entries.map TrackerEntry.key
  records : t.intake.map IntakeEntry.record = s.intake.map IntakeEntry.record
  sources : t.intake.map IntakeEntry.source = s.intake.map IntakeEntry.source
  index : t.index.Sublist s.index
  receipts : t.receipts.Sublist s.receipts
  answers : t.gap.answers.Sublist s.gap.answers
  sendOnce : t.transmit.sendOnce.Sublist s.transmit.sendOnce
  events : ∃ more, t.port.events = s.port.events ++ more

/-! ### Words for statements -/

/-- A seq lies in one of these ranges. -/
def missing (gaps : List (Nat × Nat)) (x : Nat) : Prop := ∃ g ∈ gaps, g.1 ≤ x ∧ x ≤ g.2

/-- The events of one state continue those of another. -/
def EventsFollow (t s : State) : Prop := ∃ more, t.port.events = s.port.events ++ more

/-- The array is free for its next operation. -/
def Sequencer.freed (q : Sequencer) : Sequencer := { q with inFlight := none }

/-- A transmit buffer after the claims of these owners have ended (R105): a buffer being read, or whose frame is on the
line, holds on without a claim; any other LOADED one becomes EMPTY. -/
def Buffer.released (b : Buffer) (gone : BufferOwner → Bool) (onLine : Bool) : Buffer :=
  match b with
  | .empty => .empty
  | .reading o claimed => .reading o (claimed && !gone o)
  | .loaded o r claimed => if gone o then (if onLine then .loaded o r false else .empty) else .loaded o r claimed

/-- The transmit buffers of one state are those of another after the claims of these owners have ended (R105). -/
def Released (u s : State) (gone : BufferOwner → Bool) : Prop :=
  ∀ i, u.buffer i = (s.buffer i).released gone (s.onLine i)

/-- The lane events that the changes of condition between two states call for (R47), in ascending lane order (the model's,
log 26). -/
def laneEvents (s u : State) : List Event :=
  ([0, 1, 2, 3] : List Lane).filterMap fun l =>
    if s.condition l ≠ .full ∧ u.condition l = .full then some (.laneFull l)
    else if s.condition l = .full ∧ u.condition l ≠ .full then some (.laneResumed l (u.condition l))
    else none

/-- The frame in flight belongs to a buffer whose claim has ended (R105). -/
def Orphaned (s : State) (f : FrameInFlight) (i : BufferNo) : Prop :=
  f.owner = .buffer i ∧ ∃ o r, s.buffer i = .loaded o r false

/-- The command answers the state the workers make of `u`, its own effect on `before`; the workers keep what WorkersKeep
names. -/
def EndsIn (o : Outcome) (before u : State) : Prop :=
  o = .next (State.settle before u) ∧ WorkersKeep u (State.settle before u)

/-- An accepted PUT has collected its message in a station that is not held (R172, R188). -/
def Taking (s : State) : Prop := s.held = false ∧ s.port.state = .collecting

/-- The station of an accepted SUBMIT (R125): the conditions in their order. -/
structure Submitting (s : State) (n q : Nat) (c : Configuration) : Prop where
  taking : Taking s
  config : s.controller.config = some c
  active : s.controller.state = .active
  payload : 1 ≤ n ∧ n ≤ 240
  unprotected : s.sequencer.protect = false
  lane : ∃ l, s.condition l = .openAvailable ∨ s.condition l = .needsBlock
  nextSeq : s.tracker.nextSeq = some q
  range : q ≤ 16777215
  tracker : s.tracker.entries.length < 16
  room : s.sharedEntries < 20

/-- A frame of another station is judged and delivered: in every line state but OFF and SEEKING (R96, log 15). -/
def Reading (s : State) : Prop := s.held = false ∧ s.line.state ≠ .off ∧ s.line.state ≠ .seeking

/-- The station drives this frame (R87). -/
def Driving (s : State) (f : FrameInFlight) : Prop :=
  s.held = false ∧ s.line.state = .sending ∧ s.line.inFlight = some f

/-- The station is not held, and this operation is in flight (R27). -/
def Running (s : State) (o : Operation) : Prop := s.held = false ∧ s.sequencer.inFlight = some o

/-- The command ends the read in flight, which senses this page, and says what has changed in its cells (R34, R35; log 2). -/
def Senses (s : State) (c : Instr) (b : BlockId) (p : PageNo) (changed : PageChange) : Prop :=
  (∃ r : TransmitRead, Running s (.transmitRead r) ∧ r.loc.block = b ∧ r.loc.page = p ∧ c = .transmitReadComplete changed) ∨
  (∃ r : SlotRead, Running s (.hostRead r) ∧ r.loc.block = b ∧ r.loc.page = p ∧ c = .hostReadComplete changed) ∨
  (∃ r : SlotRead, Running s (.evacuationRead r) ∧ r.loc.block = b ∧ r.loc.page = p ∧ c = .evacuationReadComplete changed) ∨
  (Running s (.scanRead b p) ∧ c = .scanReadComplete changed)

/-- What cells may hold when they are said to have changed of themselves (R20; log 2): cells that are not erased take what is
said, if that is not erased and no read finds it sound (`spoilt`); all others stay as they were. -/
def ChangesTo {α : Type} (erased : α) (spoilt : α → Prop) (before : α) (said : Option α) (after : α) : Prop :=
  (∀ cells, said = some cells → before ≠ erased → cells ≠ erased → spoilt cells → after = cells) ∧
  (¬ (∃ cells, said = some cells ∧ before ≠ erased ∧ cells ≠ erased ∧ spoilt cells) → after = before)

/-- The command of hearing a frame. -/
def heard (f : Frame) : Instr :=
  match f.body with
  | .receipt keys => .receiptReceived f.sender keys
  | .request origin first span => .requestReceived f.sender origin first span
  | .repairRecord r => .repairRecordReceived f.sender r
  | .record r => .recordReceived f.sender r
  | .roll st k timingClass topSeq => .rollReceived f.sender st k timingClass topSeq

/-- The scan read of this page, reported so, is the last of the mount, and leaves the scanner as `sc` (R72, R74, R80): the
classification of block 255 when no block is chained, or page 30 of the last chained block. -/
def ScanEndsWith (s : State) (b : BlockId) (p : PageNo) (report : PageReport) (sc : Scanner) : Prop :=
  (s.scanner.phase = .classify ∧ b = 255 ∧ (∀ f ∈ sc.findings, f.cls ≠ .chained) ∧
    ((s.scanner.page0 = none ∧ report.factory = true ∧
        sc = { s.scanner.addBlock b .bad report none with phase := .pages, queue := [] }) ∨
      ∃ page0, s.scanner.page0 = some page0 ∧
        sc = { s.scanner.addBlock b (blockClass page0 report) page0 (some report) with phase := .pages, queue := [] })) ∨
  (s.scanner.phase = .pages ∧ p = 30 ∧ s.scanner.queue = [] ∧ ∃ f last,
    (s.scanner.findings.find? fun f => f.block == b) = some f ∧ f.page31 = some last ∧
    sc = (s.scanner.addPage b f.chain p report).addPage b f.chain 31 last)

/-- The codes of the shared table at the head of chapter 11 (R184, R187), and numbers in bytes, the most significant first. -/
def CodesAndNumbers : Prop :=
  [.mounting, .idle, .ready, .joining, .active, .leaving, .halted].map stateCode = [0, 1, 2, 3, 4, 5, 6] ∧
  [.openAvailable, .needsBlock, .full, .dead].map conditionCode = [0, 1, 2, 3] ∧
  [true, false].map outcomeCode = [0, 1] ∧ [.left, .silent].map reasonCode = [0, 1] ∧
  [.program, .erase].map causeCode = [0, 1] ∧ [.joining, .active, .leaving].map rollCode = [3, 4, 5] ∧
  [false, true].map flagByte = [0, 1] ∧
  ∀ n, byte n = BitVec.ofNat 8 n ∧ beBytes 2 n = [byte (n / 256), byte n] ∧
    beBytes 3 n = [byte (n / 65536), byte (n / 256), byte n] ∧
    beBytes 4 n = [byte (n / 16777216), byte (n / 65536), byte (n / 256), byte n]

/-- A record as a RECORD frame may carry it (R94), written out. -/
def RecordAdmitted (r : Record) : Prop :=
  1 ≤ r.key.origin ∧ r.key.origin ≤ 30 ∧ 1 ≤ r.key.seq ∧ r.key.seq ≤ 16777215 ∧ r.cls ≤ 3 ∧
  1 ≤ r.payload.length ∧ r.payload.length ≤ 240

/-- A frame whose sender and fields lie in the ranges of R94, written out. -/
def FrameAdmitted (f : Frame) : Prop :=
  1 ≤ f.sender ∧ f.sender ≤ 30 ∧
  match f.body with
  | .receipt keys => 1 ≤ keys.length ∧ keys.length ≤ 6 ∧
    ∀ k ∈ keys, 1 ≤ k.origin ∧ k.origin ≤ 30 ∧ 1 ≤ k.seq ∧ k.seq ≤ 16777215
  | .request origin first span =>
    1 ≤ origin ∧ origin ≤ 30 ∧ 1 ≤ first ∧ 1 ≤ span ∧ span ≤ 8 ∧ first + span - 1 ≤ 16777215
  | .repairRecord r => RecordAdmitted r
  | .record r => RecordAdmitted r ∧ r.key.origin = f.sender
  | .roll _ k timingClass topSeq => 1 ≤ k ∧ k ≤ 8 ∧ timingClass ≤ 3 ∧ topSeq ≤ 16777215

/-- The body lengths of R94 for a kind code 1 to 5. -/
def LengthAdmitted (kind n : Nat) : Prop :=
  (kind = 1 → 5 ≤ n ∧ n ≤ 25) ∧ (kind = 2 → n = 5) ∧ (kind = 3 ∨ kind = 4 → 10 ≤ n ∧ n ≤ 249) ∧ (kind = 5 → n = 6)

/-- The fields a header may carry (R22). -/
def HeaderAdmitted (h : HeaderInfo) : Prop :=
  h.chain ≤ 4294967295 ∧ 1 ≤ h.writer ∧ h.writer ≤ 30 ∧ 1 ≤ h.floor ∧ h.floor ≤ 16777216

/-- The line after a frame heard or sent to its last stop bit (R88). -/
def afterFrame (line : LineUnit) (f : Frame) : LineUnit := { line with state := .gap, idle := endIdle (frameBytes f) }

/-- The line after a frame heard: a station that drives a frame of its own drives on (R100, R133; log 15). -/
def afterHeard (line : LineUnit) (f : Frame) : LineUnit :=
  if line.state = .sending then line else afterFrame line f

/-- The frame on the line is that of the answer entry of this key (R167). -/
def State.drivesAnswer (s : State) (k : Key) : Prop :=
  ∃ f i, s.line.inFlight = some ⟨f, .buffer i⟩ ∧ (s.buffer i).heldBy = some (.answer k)

/-- The commands that act while a reset condition is held (R188, log 17, log 19). -/
def actsWhileHeld : Instr → Bool
  | .powerOnReset _ => true
  | .nresetAssert _ => true
  | .nresetRelease => true
  | .protAssert _ => true
  | .protRelease => true
  | .powerLoss _ => true
  | _ => false

end Sys2Proof.Machine
end

