-- ==== Sys2Proof/Certificates/Slice0/Obligations.lean ====
section
/-! DEFINITION. The statements for the provers, in the order of spec/'s chapters after the step itself. -/

open Sys2Proof Sys2Proof.Machine

/-! ### The step -/

/-- A step takes the command at the front of the queue and answers exec of it on the state with the queue's rest. -/
def Obligations.StepRunsTheFrontCommand : Prop :=
  ∀ (c : Instr) (rest : List Instr) (s : State),
    step { s with pending := c :: rest } = exec c { s with pending := rest }

/-- No command ends in a fault or a refusal, in any state. -/
def Obligations.EveryCommandAnswersANextState : Prop := ∀ (c : Instr) (s : State), Safe c s

/-! ### Resets, protection -/

/-- The three resets: everything but the array, the lines and the model's clock, draws and queue is at its reset value,
the array is as an interrupted operation left it, and the first scan read is in flight, unless nRESET is still low. -/
def Obligations.ResetsTakeEffect : Prop :=
  (∀ (left : Interruption) (s : State), s.nresetLow = false →
    exec (.powerOnReset left) s = .next { State.reset with
      now := s.now, power := true, flash := interruptedFlash s left
      sequencer := Sequencer.reset s.sequencer.protect, freeDraws := s.freeDraws, pending := s.pending }) ∧
  (∀ (left : Interruption) (s : State), s.nresetLow = true →
    exec (.powerOnReset left) s = .next { State.reset with
      now := s.now, power := true, nresetLow := true, flash := interruptedFlash s left
      sequencer := { Sequencer.reset s.sequencer.protect with inFlight := none }
      freeDraws := s.freeDraws, pending := s.pending }) ∧
  (∀ (s : State), s.nresetLow = true → s.power = true →
    exec .nresetRelease s = .next { State.reset with
      now := s.now, flash := s.flash
      sequencer := Sequencer.reset s.sequencer.protect, freeDraws := s.freeDraws, pending := s.pending }) ∧
  (∀ (left : Interruption) (s : State), Taking s → s.controller.state ≠ .mounting →
    exec (.restart [] left) s = .next { State.reset with
      now := s.now, power := s.power, nresetLow := s.nresetLow, flash := interruptedFlash s left
      sequencer := Sequencer.reset s.sequencer.protect, controller := Controller.reset s.controller.config
      freeDraws := s.freeDraws, pending := s.pending })

/-- A low nRESET and a loss of supply stop the station at once: no operation in flight, the entries of an aborted pass WAITING
again, nothing driven on the line or the port but recessive TXD and the idle fill, the transaction voided, ATTN and DIR
deasserted; the rest stands until the reset takes effect. While such a condition is held, only the commands of the supply,
nRESET and PROT act (R188; the model's reading, log 17). -/
def Obligations.ResetConditionsStopTheStation : Prop :=
  let returned := fun (s : State) => match s.sequencer.inFlight with
    | some (.program lanes) =>
      s.intake.map fun e => if lanes.any fun p => e.inPassOn p.block then { e with state := .waiting } else e
    | _ => s.intake
  let quiet := fun (t : State) => t.attn = false ∧ t.dir = false ∧ (∀ n, t.txd n = .recessive) ∧
    ∀ n, t.port.misoAt n = 0xFF
  (∀ (left : Interruption) (s : State), s.nresetLow = false → ∃ t, exec (.nresetAssert left) s = .next t ∧
    t = { s with
      nresetLow := true, flash := interruptedFlash s left, intake := returned s
      sequencer := { s.sequencer with inFlight := none }
      line := { s.line with state := .off, inFlight := none }, port := { s.port with miso := [] } } ∧
    quiet t) ∧
  (∀ (left : Interruption) (s : State), s.power = true → ∃ t, exec (.powerLoss left) s = .next t ∧
    t = { s with
      power := false, flash := interruptedFlash s left, intake := returned s
      sequencer := { s.sequencer with inFlight := none }
      line := { s.line with state := .off, inFlight := none }, port := { s.port with miso := [] } } ∧
    quiet t) ∧
  (∀ (c : Instr) (s : State), s.held = true → actsWhileHeld c = false → exec c s = .next s)

/-- PROT with no program, erase or retire mark in flight changes the level and posts PROT_ON or PROT_OFF. Asserted with a
pass in flight, of one lane or ganged, it aborts it: the entries return to WAITING, nothing is indexed, the page of each OPEN
block is closed (every page after a header pass), and the cells are as the abort left them. An aborted erase makes its blocks
DIRTY with fresh requests, an aborted retire mark leaves its field as it was left. PROT_ON is posted in every case, after the
events of the abort. -/
def Obligations.ProtectFollowsTheInputAndAborts : Prop :=
  ((∀ (left : Interruption) (s : State), s.sequencer.protect = false → s.abortable = false →
      exec (.protAssert left) s =
        .next (State.post { s with sequencer := { s.sequencer with protect := true } } .protOn)) ∧
    (∀ (s : State), s.sequencer.protect = true →
      EndsIn (exec .protRelease s) s (State.post { s with sequencer := { s.sequencer with protect := false } } .protOff))) ∧
  (∀ (left : Interruption) (s : State) (p : PassLane) (chain : Nat) (h : Option HeaderInfo) (w : WritePosition),
      Running s (.program [p]) → s.sequencer.protect = false → s.block p.block = .opened chain h w →
      ∃ u, EndsIn (exec (.protAssert left) s) s u ∧
        u.sequencer = { s.sequencer with protect := true, inFlight := none } ∧
        u.intake = s.intake.map (fun e => if e.inPassOn p.block then { e with state := .waiting } else e) ∧
        u.index = s.index ∧
        u.block p.block = (if p.header.isSome ∨ p.page = 31 then .sealed chain else .opened chain h ⟨p.page + 1, 0, 0⟩) ∧
        u.flash = programFlash s.flash p (some (left.passes.get (laneOf p.block))) ∧
        (u.lane (laneOf p.block)).engaged = false ∧
        ∃ mid : State, EventsFollow mid s ∧ u.port = (mid.post .protOn).port) ∧
  (∀ (left : Interruption) (s : State) (lanes : List PassLane), Running s (.program lanes) → s.sequencer.protect = false →
      (lanes.map fun p => laneOf p.block).Nodup →
      (∀ p ∈ lanes, ∃ chain h w, s.block p.block = .opened chain h w) →
      ∃ u, EndsIn (exec (.protAssert left) s) s u ∧
        u.sequencer = { s.sequencer with protect := true, inFlight := none } ∧
        u.intake = s.intake.map (fun e =>
          if lanes.any fun p => e.inPassOn p.block then { e with state := .waiting } else e) ∧
        u.index = s.index ∧
        (∀ p ∈ lanes, ∀ chain h w, s.block p.block = .opened chain h w →
          u.block p.block =
            (if p.header.isSome ∨ p.page = 31 then .sealed chain else .opened chain h ⟨p.page + 1, 0, 0⟩)) ∧
        (∀ b, (∀ p ∈ lanes, p.block ≠ b) → u.block b = s.block b) ∧
        (∀ p ∈ lanes, (u.lane (laneOf p.block)).engaged = false ∧
          readPage u.flash (pageAddress p.block p.page) = programPage p (some (left.passes.get (laneOf p.block)))
            (readPage s.flash (pageAddress p.block p.page))) ∧
        (∀ a, (∀ p ∈ lanes, a ≠ pageAddress p.block p.page) → readPage u.flash a = readPage s.flash a) ∧
        ∃ mid : State, EventsFollow mid s ∧ u.port = (mid.post .protOn).port) ∧
  (∀ (left : Interruption) (s : State) (blocks : List BlockId), Running s (.erase blocks) → s.sequencer.protect = false →
      blocks ≠ [] → (blocks.map laneOf).Nodup → (∀ b ∈ blocks, s.block b = .erasing ∨ s.block b = .dirty) →
      ∃ u added, EndsIn (exec (.protAssert left) s) s u ∧ added.Perm blocks ∧
        u.sequencer = { s.sequencer with
          protect := true, inFlight := none, dirtyErases := s.sequencer.dirtyErases ++ added } ∧
        u.intake = s.intake ∧ u.index = s.index ∧ (∀ b ∈ blocks, u.block b = .dirty) ∧
        (∀ b ∈ blocks, ∀ page, readPage u.flash (pageAddress b page) =
          erasePage (left.erases.get (laneOf b)) page (readPage s.flash (pageAddress b page))) ∧
        (∀ b, b ∉ blocks → u.block b = s.block b ∧
          ∀ page, readPage u.flash (pageAddress b page) = readPage s.flash (pageAddress b page)) ∧
        u.port = (s.post .protOn).port) ∧
  (∀ (left : Interruption) (s : State) (b : BlockId), Running s (.retireMark b) → s.sequencer.protect = false →
      EndsIn (exec (.protAssert left) s) s (State.post { s with
        sequencer := { s.sequencer with protect := true, inFlight := none }
        flash := markFlash s.flash b left.mark } .protOn))

/-! ### The local port -/

/-- R174: a GET gives the response once; without one it gives NO_RESPONSE and changes nothing. The bytes of each response are
its code, the number of its field bytes and the fields of 11.3.2 in their order, with the shared codes of chapter 11. Of the
flags bytes of FOUND, NEXT and STATUS only the bits that 11.3.2 names are stated. -/
def Obligations.GetGivesTheResponseOnce : Prop :=
  (∀ (s : State) (r : Response), s.held = false → s.port.state = .answered r →
    exec .get s = .next { s with port := { s.port with state := .idle, miso := 0x01 :: responseBytes r } }) ∧
  (∀ (s : State), s.held = false → (∀ r, s.port.state ≠ .answered r) →
    exec .get s = .next { s with port := { s.port with miso := [0x00] } }) ∧
  CodesAndNumbers ∧
    let layout := fun (r : Response) (code : Byte) (fields : List Byte) => responseBytes r = code :: byte fields.length :: fields
    layout .done 0x80 [] ∧ (∀ seq, layout (.accepted seq) 0x81 (beBytes 3 seq)) ∧
    (∀ seq secured holders attempts damaged, layout (.outcome seq secured holders attempts damaged) 0x82
      (beBytes 3 seq ++ [outcomeCode secured, byte holders.length] ++ holders.map byte ++ [byte attempts, flagByte damaged])) ∧
    (∀ pending (r : Record), ∃ flags : Byte, flags.getLsbD 0 = pending ∧ layout (.found pending r) 0x83
      ([flags, byte r.key.origin] ++ beBytes 3 r.key.seq ++ [byte r.cls] ++ beBytes 4 r.stamp.toNat ++
        [byte r.payload.length] ++ r.payload)) ∧
    layout .absent 0x84 [] ∧ (∀ k, layout (.damaged k) 0x85 (byte k.origin :: beBytes 3 k.seq)) ∧
    (∀ seq pending, ∃ flags : Byte, flags.getLsbD 0 = pending ∧ layout (.next seq pending) 0x86 (beBytes 3 seq ++ [flags])) ∧
    layout .none 0x87 [] ∧
    (∀ f : StatusFields, f.lanes = [] ∨ f.lanes.length = 4 → ∃ flags : Byte,
      flags.getLsbD 0 = f.config.isSome ∧ flags.getLsbD 1 = (f.config.bind Configuration.firstSeq).isSome ∧
      flags.getLsbD 2 = f.nextSeq.isSome ∧ flags.getLsbD 3 = !f.lanes.isEmpty ∧ flags.getLsbD 4 = f.protect ∧
      flags.getLsbD 5 = f.silenced ∧
      ∃ bytes : List Byte, layout (.status f) 0x88 bytes ∧ bytes.length = 32 ∧
        let standsAt := fun (offset : Nat) (field : List Byte) => (bytes.drop offset).take field.length = field
        standsAt 0 [stateCode f.state, flags] ∧
        (f.config = none → standsAt 2 [0, 0, 0, 0, 0, 0, 0]) ∧
        (∀ c, f.config = some c → standsAt 2 [byte c.stationId, byte c.k, byte c.timingClass, byte c.busRate] ∧
          standsAt 6 (beBytes 3 (c.firstSeq.getD 0))) ∧
        standsAt 9 (beBytes 4 (f.nextSeq.getD 0)) ∧
        standsAt 13 [byte f.localEntries, byte f.busEntries, byte f.evacuationEntries, byte f.liveEntries, byte f.doneEntries] ∧
        (f.lanes = [] → standsAt 18 [0, 0, 0, 0, 0, 0, 0, 0]) ∧
        (∀ i l, f.lanes[i]? = some l → standsAt (18 + 2 * i) [byte l.1, conditionCode l.2]) ∧
        standsAt 26 (beBytes 2 f.retired) ∧ standsAt 28 (beBytes 2 f.rejectedTotal) ∧ standsAt 30 (beBytes 2 f.failureTotal)) ∧
    (∀ rows, layout (.roster rows) 0x89 (byte rows.length :: rows.flatMap fun row =>
      let roll := fun (last : Option LastRoll) => match last with
        | none => [0, 0, 0, 0, 0, 0]
        | some l => [byte (rollCode l.state), byte l.k, byte l.timingClass] ++ beBytes 3 l.topSeq
      byte row.1 :: match row.2 with
        | .absent => 0 :: roll none
        | .present _ last => 1 :: roll last
        | .discordant _ last => 2 :: roll last)) ∧
    (∀ origin lost, layout (.originRow origin ⟨none, lost⟩) 0x8A ([byte origin, 0] ++ beBytes 2 lost)) ∧
    (∀ origin lost (t : TrackedRow), layout (.originRow origin ⟨some t, lost⟩) 0x8A
      ([byte origin, 1] ++ beBytes 2 lost ++ beBytes 3 t.horizon ++ beBytes 3 t.topSeen ++ [byte t.gaps.length] ++
        (t.gaps.flatMap fun g => beBytes 3 g.1 ++ beBytes 3 g.2) ++ [byte t.attempts])) ∧
    (∀ n name, ([.badState, .badParam, .noSpace, .tooLong, .protectedArray, .seqExhausted, .trackerFull, .stagingFull,
      .nothing, .notReady, .malformed] : List RefusalName)[n]? = some name → layout (.refusal name) (byte (0xC0 + n)) [])

/-- R181: an EVENT gives and removes the oldest event, or gives NO_EVENT, with the marker, and clears the marker. The bytes of
each event are its code, the number of its field bytes and the fields of 11.3.3 in their order, with the shared codes of
chapter 11. -/
def Obligations.EventGivesTheOldestAndClearsTheMarker : Prop :=
  (∀ (s : State) (e : Event) (rest : List Event), s.held = false → s.port.events = e :: rest →
    exec .event s = .next { s with port := { s.port with
      events := rest, overflow := false, miso := (if s.port.overflow then 1 else 0) :: eventBytes e } }) ∧
  (∀ (s : State), s.held = false → s.port.events = [] →
    exec .event s = .next { s with port := { s.port with
      overflow := false, miso := [if s.port.overflow then 1 else 0, 0x00] } }) ∧
  CodesAndNumbers ∧
    let layout := fun (e : Event) (code : Byte) (fields : List Byte) => eventBytes e = code :: byte fields.length :: fields
    let counts := fun (keys : Nat) (c : ScanCounts) => beBytes 3 keys ++ beBytes 2 c.bad ++ beBytes 2 c.free ++
      beBytes 2 c.chained ++ beBytes 2 c.dirty ++ beBytes 2 c.retired ++ beBytes 2 c.torn ++ beBytes 3 c.duplicates
    (∀ entered keys c, layout (.mounted entered keys c) 0x01 (stateCode entered :: counts keys c)) ∧
    (∀ leftState, layout (.halted leftState) 0x02 [stateCode leftState]) ∧
    (∀ keys c, layout (.haltedByMount keys c) 0x02 (stateCode .mounting :: counts keys c)) ∧
    (∀ seq secured holders, layout (.outcome seq secured holders) 0x03 (beBytes 3 seq ++ [outcomeCode secured, byte holders])) ∧
    layout .joined 0x04 [] ∧ layout .left 0x05 [] ∧
    (∀ peer, layout (.peerUp peer false) 0x06 [byte peer, 0] ∧ layout (.peerUp peer true) 0x06 [byte peer, 2]) ∧
    (∀ peer reason, layout (.peerDown peer reason) 0x07 [byte peer, reasonCode reason]) ∧
    (∀ peer k timingClass, layout (.peerDiscord peer k timingClass) 0x08 [byte peer, byte k, byte timingClass]) ∧
    (∀ origin first last, layout (.gapAbandoned origin first last) 0x09 (byte origin :: beBytes 3 first ++ beBytes 3 last)) ∧
    (∀ b l cause, layout (.blockRetired b l cause) 0x0A [byte b.val, byte l.val, causeCode cause]) ∧
    (∀ l, layout (.laneFull l) 0x0B [byte l.val]) ∧
    (∀ l condition, layout (.laneResumed l condition) 0x0C [byte l.val, conditionCode condition]) ∧
    (∀ k l, layout (.recordDamaged k l) 0x0D
      ([byte k.origin] ++ beBytes 3 k.seq ++ [byte l.block.val, byte l.page.val, byte l.slot.val])) ∧
    layout .busSilenced 0x0E [] ∧ layout .busResumed 0x0F [] ∧ layout .protOn 0x10 [] ∧ layout .protOff 0x11 []

/-- A PUT is accepted in IDLE and BUSY otherwise; a PEEK and a void transaction change nothing but what is driven. The kind
byte names the transaction, any other byte makes it void; the idle fill 0xFF is driven during the kind byte, after the end of
what the transaction gives, and throughout a void one. -/
def Obligations.OtherTransactions : Prop :=
  (∀ (s : State), s.held = false → s.port.state = .idle →
    exec .put s = .next { s with port := { s.port with state := .collecting, miso := [0x0A] } }) ∧
  (∀ (s : State), s.held = false → s.port.state ≠ .idle →
    exec .put s = .next { s with port := { s.port with miso := [0x0B] } }) ∧
  (∀ (s : State), s.held = false →
    exec .peek s = .next { s with port := { s.port with
      miso := [
        match s.port.state with
        | .idle => 0
        | .collecting => 1
        | .reading _ => 1
        | .answered _ => 2,
        BitVec.ofNat 8 s.port.events.length, if s.port.overflow then 1 else 0] } }) ∧
  (∀ (s : State) (kind : Byte), s.held = false → kind ∉ ([0x01, 0x02, 0x03, 0x04] : List Byte) →
    exec (.voidTransaction kind) s = .next { s with port := { s.port with miso := [] } }) ∧
  (transactionOf 0x01 = .put ∧ transactionOf 0x02 = .get ∧ transactionOf 0x03 = .event ∧ transactionOf 0x04 = .peek) ∧
  (∀ (s : State) (kind : Byte), s.held = false → kind ∉ ([0x01, 0x02, 0x03, 0x04] : List Byte) →
    transactionOf kind = .voidTransaction kind ∧
    ∃ t, exec (transactionOf kind) s = .next t ∧ ∀ n, t.port.misoAt n = 0xFF) ∧
  (∀ (p : Port), p.misoAt 0 = 0xFF ∧ (∀ n b, p.miso[n]? = some b → p.misoAt (n + 1) = b) ∧
    ∀ n, p.miso.length ≤ n → p.misoAt (n + 1) = 0xFF)

/-- Posting appends while the list holds fewer than 32 events and otherwise sets the overflow marker, and nothing else
changes; ATTN is asserted exactly while the port is ANSWERED or an event waits. -/
def Obligations.PostingAndAttn : Prop :=
  (∀ (s : State) (e : Event), s.port.events.length < 32 →
    s.post e = { s with port := { s.port with events := s.port.events ++ [e] } }) ∧
  (∀ (s : State) (e : Event), 32 ≤ s.port.events.length →
    s.post e = { s with port := { s.port with overflow := true } }) ∧
  (∀ (s : State), s.held = false →
    (s.attn = true ↔ (∃ r, s.port.state = .answered r) ∨ s.port.events ≠ []))

/-- A taken message that does not fit its kind is answered MALFORMED in every station state, and while MOUNTING every
request that fits its kind is refused NOT_READY, STATUS apart; neither changes anything else. A message is taken by its code
as the request of that code, with the bytes after it as its fields. -/
def Obligations.ThePortRefusesRequests : Prop :=
  (∀ (s : State), Taking s →
      let malformed := Host.Outcome.next (σ := State) (φ := Fault) (ρ := Refusal)
        { s with port := { s.port with state := .answered (.refusal .malformed) } }
      exec (.unknownRequest []) s = malformed ∧
      (∀ code rest, code ∉ ([0x10, 0x11, 0x12, 0x13, 0x20, 0x21, 0x30, 0x31, 0x40, 0x41, 0x42] : List Byte) →
        exec (.unknownRequest (code :: rest)) s = malformed) ∧
      (∀ m, m.length ≠ 4 → m.length ≠ 7 → exec (.configure m) s = malformed) ∧
      (∀ m left, m ≠ [] → exec (.join m) s = malformed ∧ exec (.leave m) s = malformed ∧
        exec (.restart m left) s = malformed ∧ exec (.takeOutcome m) s = malformed ∧ exec (.status m) s = malformed ∧
        exec (.roster m) s = malformed) ∧
      (∀ m, m.length < 5 ∨ 260 < m.length → exec (.submit m) s = malformed) ∧
      (∀ cls m, 3 < cls.toNat → exec (.submit (cls :: m)) s = malformed) ∧
      (∀ m, m.length ≠ 4 → exec (.readRecord m) s = malformed ∧ exec (.findNext m) s = malformed) ∧
      (∀ m, m.length ≠ 1 → exec (.originRow m) s = malformed)) ∧
  (∀ (s : State), Taking s → s.controller.state = .mounting →
      let refused := Host.Outcome.next (σ := State) (φ := Fault) (ρ := Refusal)
        { s with port := { s.port with state := .answered (.refusal .notReady) } }
      (∀ m, m.length = 4 ∨ m.length = 7 → exec (.configure m) s = refused) ∧
      (∀ left, exec (.join []) s = refused ∧ exec (.leave []) s = refused ∧ exec (.restart [] left) s = refused ∧
        exec (.takeOutcome []) s = refused ∧ exec (.roster []) s = refused) ∧
      (∀ cls m, cls.toNat ≤ 3 → 4 ≤ m.length → m.length ≤ 259 → exec (.submit (cls :: m)) s = refused) ∧
      (∀ m, m.length = 4 → exec (.readRecord m) s = refused ∧ exec (.findNext m) s = refused) ∧
      (∀ o, exec (.originRow [o]) s = refused)) ∧
  (∀ (left : Interruption) (m : List Byte),
      requestOf left (0x10 :: m) = .configure m ∧ requestOf left (0x11 :: m) = .join m ∧
      requestOf left (0x12 :: m) = .leave m ∧ requestOf left (0x13 :: m) = .restart m left ∧
      requestOf left (0x20 :: m) = .submit m ∧ requestOf left (0x21 :: m) = .takeOutcome m ∧
      requestOf left (0x30 :: m) = .readRecord m ∧ requestOf left (0x31 :: m) = .findNext m ∧
      requestOf left (0x40 :: m) = .status m ∧ requestOf left (0x41 :: m) = .roster m ∧
      requestOf left (0x42 :: m) = .originRow m ∧ requestOf left [] = .unknownRequest [] ∧
      ∀ code, code ∉ ([0x10, 0x11, 0x12, 0x13, 0x20, 0x21, 0x30, 0x31, 0x40, 0x41, 0x42] : List Byte) →
        requestOf left (code :: m) = .unknownRequest (code :: m))

/-- TAKE_OUTCOME removes and reports the oldest done entry in submission order, or is refused NOTHING. -/
def Obligations.TakeOutcomeReportsTheOldestDone : Prop :=
  ∀ (s : State), Taking s → s.controller.state ≠ .mounting →
    ((∀ e ∈ s.tracker.entries, e.state ≠ .secured ∧ e.state ≠ .short) →
      exec (.takeOutcome []) s =
        .next { s with port := { s.port with state := .answered (.refusal .nothing) } }) ∧
    (∀ older e younger, s.tracker.entries = older ++ e :: younger →
      (∀ x ∈ older, x.state ≠ .secured ∧ x.state ≠ .short) → e.state = .secured ∨ e.state = .short →
      exec (.takeOutcome []) s = .next { s with
        tracker := { s.tracker with entries := older ++ younger }
        port := { s.port with
          state := .answered (.outcome e.key.seq (e.state == .secured) e.holders e.attempts e.damaged) } })

/-- READ_RECORD: BAD_PARAM out of range; FOUND with PENDING from the queue first; a class-2 read for a held key, the
port staying WORKING; ABSENT otherwise. -/
def Obligations.ReadRecordLooksInTheQueueFirst : Prop :=
  ∀ (s : State) (o a b c : Byte), Taking s → s.controller.state ≠ .mounting →
    let k : Key := ⟨o.toNat, beNat [a, b, c]⟩
    let legal := 1 ≤ k.origin ∧ k.origin ≤ 30 ∧ 1 ≤ k.seq ∧ k.seq ≤ 16777215
    (¬ legal → exec (.readRecord [o, a, b, c]) s =
      .next { s with port := { s.port with state := .answered (.refusal .badParam) } }) ∧
    (∀ before e after, legal → s.intake = before ++ e :: after → e.record.key = k →
      (∀ x ∈ before, x.record.key ≠ k) →
      exec (.readRecord [o, a, b, c]) s =
        .next { s with port := { s.port with state := .answered (.found true e.record) } }) ∧
    (∀ l, legal → (∀ e ∈ s.intake, e.record.key ≠ k) → s.locate k = some l →
      exec (.readRecord [o, a, b, c]) s = .next (State.startNext { s with
        port := { s.port with state := .reading ⟨k, l⟩ }
        sequencer := { s.sequencer with hostReads := s.sequencer.hostReads ++ [⟨k, l⟩] } })) ∧
    (legal → (∀ e ∈ s.intake, e.record.key ≠ k) → s.locate k = none →
      exec (.readRecord [o, a, b, c]) s = .next { s with port := { s.port with state := .answered .absent } })

/-- R177: FIND_NEXT gives the smallest seq above `after` whose key is held or staged, PENDING when it is staged. -/
def Obligations.FindNextGivesTheSmallest : Prop :=
  ∀ (s : State) (o a b c : Byte), Taking s → s.controller.state ≠ .mounting →
    let after := beNat [a, b, c]
    let known := fun q : Nat => (∃ l, (⟨o.toNat, q⟩, l) ∈ s.index) ∨ ∃ e ∈ s.intake, e.record.key = ⟨o.toNat, q⟩
    (o.toNat < 1 ∨ 30 < o.toNat ∨ 16777215 < after → exec (.findNext [o, a, b, c]) s =
      .next { s with port := { s.port with state := .answered (.refusal .badParam) } }) ∧
    (∀ q pending, 1 ≤ o.toNat → o.toNat ≤ 30 → after ≤ 16777215 → after < q → known q →
      (∀ q', after < q' → known q' → q ≤ q') →
      (pending = true ↔ ∃ e ∈ s.intake, e.record.key = ⟨o.toNat, q⟩) →
      exec (.findNext [o, a, b, c]) s =
        .next { s with port := { s.port with state := .answered (.next q pending) } }) ∧
    (1 ≤ o.toNat → o.toNat ≤ 30 → after ≤ 16777215 → (∀ q, after < q → ¬ known q) → exec (.findNext [o, a, b, c]) s =
      .next { s with port := { s.port with state := .answered .none } })

/-- STATUS is answered in every state with each field as it stands, the three kinds of intake entries counted each for
itself, and while MOUNTING the state, the configuration and PROT alone. -/
def Obligations.StatusReportsTheStation : Prop :=
  ∀ (s : State), Taking s → ∃ f : StatusFields,
    exec (.status []) s = .next { s with port := { s.port with state := .answered (.status f) } } ∧
    f.state = s.controller.state ∧ f.config = s.controller.config ∧ f.protect = s.sequencer.protect ∧
    (s.controller.state = .mounting →
      f.nextSeq = none ∧ f.localEntries = 0 ∧ f.busEntries = 0 ∧ f.evacuationEntries = 0 ∧ f.liveEntries = 0 ∧
      f.doneEntries = 0 ∧ f.lanes = [] ∧ f.retired = 0 ∧ f.silenced = false ∧ f.rejectedTotal = 0 ∧
      f.failureTotal = 0) ∧
    (s.controller.state ≠ .mounting →
      f.nextSeq = s.tracker.nextSeq ∧
      f.localEntries = s.intake.countP (fun e => e.source == .localHost) ∧
      f.busEntries = s.intake.countP (fun e => match e.source with
        | .bus _ => true
        | _ => false) ∧
      f.evacuationEntries = s.intake.countP (fun e => match e.source with
        | .evacuation _ => true
        | _ => false) ∧
      f.localEntries + f.busEntries + f.evacuationEntries = s.intake.length ∧
      f.liveEntries + f.doneEntries = s.tracker.entries.length ∧
      f.doneEntries = s.tracker.entries.countP (fun e => e.state == .secured || e.state == .short) ∧
      f.lanes = [0, 1, 2, 3].map (fun l : Lane => ((s.freePool l).length, s.condition l)) ∧
      f.retired = s.map.blocks.toList.countP (fun r => r == .retired) ∧
      f.silenced = s.line.silenced.isSome ∧ f.rejectedTotal = s.line.rejectedTotal ∧
      f.failureTotal = s.line.failureTotal)

/-- ROSTER gives the rows of the other 29 station IDs in ascending order, none without a configuration; ORIGIN_ROW gives
the row of the origin named, or BAD_PARAM. Neither changes anything else. -/
def Obligations.RosterAndOriginRowReport : Prop :=
  ∀ (s : State), Taking s → s.controller.state ≠ .mounting →
    (s.controller.config = none → exec (.roster []) s =
      .next { s with port := { s.port with state := .answered (.roster []) } }) ∧
    (∀ c, s.controller.config = some c → 1 ≤ c.stationId → c.stationId ≤ 30 → ∃ rows,
      exec (.roster []) s = .next { s with port := { s.port with state := .answered (.roster rows) } } ∧
      rows.length = 29 ∧ (rows.map Prod.fst).Pairwise (· < ·) ∧
      (∀ id row, (id, row) ∈ rows ↔ 1 ≤ id ∧ id ≤ 30 ∧ id ≠ c.stationId ∧ row = s.rosterRow id)) ∧
    (∀ o : Byte, 1 ≤ o.toNat → o.toNat ≤ 30 → exec (.originRow [o]) s =
      .next { s with port := { s.port with state := .answered (.originRow o.toNat (s.originRow o.toNat)) } }) ∧
    (∀ o : Byte, o.toNat < 1 ∨ 30 < o.toNat → exec (.originRow [o]) s =
      .next { s with port := { s.port with state := .answered (.refusal .badParam) } })

/-! ### Station states -/

/-- CONFIGURE: refused BAD_STATE outside IDLE and BAD_PARAM for a field out of range; otherwise the configuration is
stored, next_seq is computed as the largest of R82's three values, the line seeks with an idle count of 0, the station
is READY and DONE is answered. -/
def Obligations.ConfigureStoresTheConfiguration : Prop :=
  ∀ (s : State) (fields : List Byte) (c : Configuration), Taking s → parseConfigure fields = some c →
    (s.controller.state ≠ .idle → s.controller.state ≠ .mounting → exec (.configure fields) s =
      .next { s with port := { s.port with state := .answered (.refusal .badState) } }) ∧
    (s.controller.state = .idle → configurationInRange c = false → exec (.configure fields) s =
      .next { s with port := { s.port with state := .answered (.refusal .badParam) } }) ∧
    (s.controller.state = .idle → configurationInRange c = true → ∃ q,
      exec (.configure fields) s = .next { s with
        controller := { s.controller with config := some c, state := .ready }
        tracker := { s.tracker with nextSeq := some q }
        line := { s.line with state := .seeking, idle := 0 }
        port := { s.port with state := .answered .done } } ∧
      c.firstSeq.getD 1 ≤ q ∧ (∀ k l, (k, l) ∈ s.index → k.origin = c.stationId → k.seq < q) ∧
      (∀ f, stationGet s.scanner.floors c.stationId none = some f → f ≤ q) ∧
      (q = c.firstSeq.getD 1 ∨ q = 1 ∨ (∃ k l, (k, l) ∈ s.index ∧ k.origin = c.stationId ∧ q = k.seq + 1) ∨
        stationGet s.scanner.floors c.stationId none = some q))

/-- JOIN in READY and LEAVE in ACTIVE are answered DONE and change the state; JOIN starts the roll timer and the repair
timer; LEAVE finds a drained station at once. Elsewhere both are refused BAD_STATE. -/
def Obligations.JoinAndLeave : Prop :=
  ∀ (s : State), Taking s → s.controller.state ≠ .mounting →
    (s.controller.state = .ready → exec (.join []) s = .next { s with
      controller := { s.controller with
        state := .joining, rollDue := none, rollTimer := some (s.now + s.scaled 100000) }
      gap := { s.gap with timer := some (s.now + s.scaled 20000) }
      port := { s.port with state := .answered .done } }) ∧
    (s.controller.state ≠ .ready → exec (.join []) s =
      .next { s with port := { s.port with state := .answered (.refusal .badState) } }) ∧
    (s.controller.state = .active → s.drained = false → exec (.leave []) s = .next { s with
      controller := { s.controller with state := .leaving }, port := { s.port with state := .answered .done } }) ∧
    (s.controller.state = .active → s.drained = true → exec (.leave []) s = .next { s with
      controller := { s.controller with state := .leaving, rollDue := some .leaving, rollTimer := none }
      port := { s.port with state := .answered .done } }) ∧
    (s.controller.state ≠ .active → exec (.leave []) s =
      .next { s with port := { s.port with state := .answered (.refusal .badState) } }) ∧
    (s.drained = true ↔ (∀ e ∈ s.tracker.entries, e.state = .secured ∨ e.state = .short) ∧
      (∀ e ∈ s.intake, e.source ≠ .localHost) ∧ s.transmit.sendOnce = [])

/-- The roll timer's expiry stops it and makes a ROLL due: JOINING in JOINING, otherwise ACTIVE unless LEAVING is due.
A silence deadline reached makes its row ABSENT and posts PEER_DOWN (SILENT). An answer's due time reached brings
every entry due no later, and the workers act. -/
def Obligations.RollSilenceAndAnswerTimersExpire : Prop :=
  (∀ (s : State) (t : Nat), s.held = false → s.controller.rollTimer = some t →
      (s.controller.state = .joining → exec .rollTimerExpiry s = .next { s with
        now := max s.now t, controller := { s.controller with rollTimer := none, rollDue := some .joining } }) ∧
      (s.controller.state = .active ∨ s.controller.state = .leaving → s.controller.rollDue ≠ some .leaving →
        exec .rollTimerExpiry s = .next { s with
          now := max s.now t, controller := { s.controller with rollTimer := none, rollDue := some .active } }) ∧
      (s.controller.state = .active ∨ s.controller.state = .leaving → s.controller.rollDue = some .leaving →
        exec .rollTimerExpiry s = .next { s with
          now := max s.now t, controller := { s.controller with rollTimer := none } })) ∧
  (∀ (s : State) (peer d : Nat) (last : Option LastRoll), s.held = false →
      s.rosterRow peer = .present d last ∨ s.rosterRow peer = .discordant d last →
      exec (.silenceDeadlineExpiry peer) s = .next (State.post { s with
        now := max s.now d
        controller := { s.controller with roster := stationSet s.controller.roster peer .absent } }
        (.peerDown peer .silent))) ∧
  (∀ (s : State) (k : Key) (a : AnswerEntry), s.held = false → s.answer k = some a →
      EndsIn (exec (.answerDue k) s) s { s with
        now := max s.now a.dueAt
        gap := { s.gap with answers := s.gap.answers.map fun b =>
          if b.dueAt ≤ a.dueAt then { b with due := true } else b } })

/-- The table of R113 for a ROLL transmitted: JOINING to ACTIVE with JOINED, the next roll, LEAVING to READY with the lists
emptied, the buffers of the answer entries released and LEFT, and in HALTED the LEAVING roll done. -/
def Obligations.RollTransmittedActsOnTheState : Prop :=
  ∀ (s : State) (sender k timingClass top : Nat) (st : RollState) (owner : FrameOwner),
    Driving s ⟨⟨sender, .roll st k timingClass top⟩, owner⟩ →
    let line := { afterFrame s.line ⟨sender, .roll st k timingClass top⟩ with inFlight := none, failureRun := 0 }
    let next := some (s.now + s.scaled 100000)
    (s.controller.state = .joining → st = .joining → exec .rollTransmitted s = .next (State.post { s with
      line := line
      controller := { s.controller with state := .active, rollDue := none, rollTimer := next } } .joined)) ∧
    (s.controller.state = .active → st = .active → exec .rollTransmitted s = .next { s with
      line := line, controller := { s.controller with rollDue := none, rollTimer := next } }) ∧
    (s.controller.state = .leaving → st = .active → s.controller.rollDue = some .active →
      exec .rollTransmitted s = .next { s with
        line := line, controller := { s.controller with rollDue := none, rollTimer := next } }) ∧
    (s.controller.state = .leaving → st = .active → s.controller.rollDue = some .leaving →
      exec .rollTransmitted s = .next { s with line := line }) ∧
    (s.controller.state = .leaving → st = .leaving → ∃ b u, EndsIn (exec .rollTransmitted s) b u ∧
      u.controller = { s.controller with state := .ready, rollDue := none, rollTimer := none } ∧
      u.receipts = [] ∧ u.gap = { s.gap with answers := [], slot := .empty, timer := none } ∧
      (∀ e ∈ u.intake, e.source ≠ .bus true) ∧ u.intake.map IntakeEntry.record = s.intake.map IntakeEntry.record ∧
      u.tracker = s.tracker ∧ u.index = s.index ∧ u.port = (s.post .left).port ∧ u.line = line ∧
      u.transmit.sendOnce = s.transmit.sendOnce ∧
      (∀ i, u.buffer i = (s.buffer i).released (fun o => s.gap.answers.any fun a => o == .answer a.key) false)) ∧
    (s.controller.state = .halted → st = .leaving → exec .rollTransmitted s = .next { s with
      line := line, controller := { s.controller with rollDue := none, rollTimer := none } }) ∧
    (s.controller.state = .halted → st ≠ .leaving → exec .rollTransmitted s = .next { s with line := line })

/-! ### Submission -/

/-- The conditions of R125 are tested in their order, the first that fails gives the refusal, and nothing else changes. -/
def Obligations.SubmitIsRefusedInOrder : Prop :=
  ∀ (s : State) (cls a b c d : Byte) (payload : List Byte), Taking s → cls.toNat ≤ 3 → payload.length ≤ 255 →
    let refused := fun name => exec (.submit (cls :: a :: b :: c :: d :: payload)) s =
      .next { s with port := { s.port with state := .answered (.refusal name) } }
    let active := s.controller.state = .active
    let fits := active ∧ 1 ≤ payload.length ∧ payload.length ≤ 240
    let writable := fits ∧ s.sequencer.protect = false
    let open_ := writable ∧ ∃ l, s.condition l = .openAvailable ∨ s.condition l = .needsBlock
    (s.controller.state = .halted → refused .noSpace) ∧
    (s.controller.state = .idle ∨ s.controller.state = .ready ∨ s.controller.state = .joining ∨
      s.controller.state = .leaving → refused .badState) ∧
    (active → payload.length = 0 ∨ 240 < payload.length → refused .tooLong) ∧
    (fits → s.sequencer.protect = true → refused .protectedArray) ∧
    (writable → (∀ l, s.condition l = .full ∨ s.condition l = .dead) → refused .noSpace) ∧
    (∀ q, open_ → s.tracker.nextSeq = some q →
      (16777215 < q → refused .seqExhausted) ∧
      (q ≤ 16777215 → 16 ≤ s.tracker.entries.length → refused .trackerFull) ∧
      (q ≤ 16777215 → s.tracker.entries.length < 16 → 20 ≤ s.sharedEntries → refused .stagingFull))

/-- An accepted SUBMIT (R126): the row of the own ID at the seq, the LOCAL entry, the tracker entry, next_seq one more,
ACCEPTED answered, and the workers act. -/
def Obligations.SubmitIsAccepted : Prop :=
  ∀ (s : State) (cls a b c d : Byte) (payload : List Byte) (q : Nat) (conf : Configuration), cls.toNat ≤ 3 →
    Submitting s payload.length q conf →
    let row := OriginRow.mk (some ⟨q, q, [], 0⟩) (s.originRow conf.stationId).lost
    EndsIn (exec (.submit (cls :: a :: b :: c :: d :: payload)) s) s { s with
      gap := { s.gap with rows := stationSet s.gap.rows conf.stationId row }
      intake := s.intake ++
        [⟨⟨⟨conf.stationId, q⟩, cls.toNat, BitVec.ofNat 32 (beNat [a, b, c, d]), payload⟩, .localHost, .waiting⟩]
      tracker := { s.tracker with
        nextSeq := some (q + 1), entries := s.tracker.entries ++ [⟨⟨conf.stationId, q⟩, .staged, [], 0, false⟩] }
      port := { s.port with state := .answered (.accepted q) } }

/-! ### Frames heard -/

/-- A rejected frame adds 1 to the rejected total up to 65,535 and reaches no block; a framing fault leaves SEEKING
with the idle count running on, any other rejection GAP. A valid frame of any kind under the own ID ends in GAP, is
not counted and reaches no block. A station that drives a frame of its own goes on driving it (the model's reading, log 15). -/
def Obligations.FramesThatReachNoBlock : Prop :=
  (∀ (s : State) (bytes : List Byte), Reading s →
      let counted := fun (state : LineState) (idle : Nat) => Host.Outcome.next (σ := State) (φ := Fault) (ρ := Refusal)
        { s with line := if s.line.state = .sending then
            { s.line with rejectedTotal := min 65535 (s.line.rejectedTotal + 1) }
          else { s.line with state := state, idle := idle, rejectedTotal := min 65535 (s.line.rejectedTotal + 1) } }
      exec (.frameRejected (.faulted bytes .stopDominant)) s = counted .seeking 0 ∧
      exec (.frameRejected (.faulted bytes .startRecessive)) s = counted .seeking (endIdle bytes + 1) ∧
      (∀ why, judge bytes = .rejected why → why ≠ .framing →
        exec (.frameRejected (.complete bytes)) s = counted .gap (endIdle bytes))) ∧
  (∀ (s : State) (f : Frame), Reading s → frameInRange f = true → f.sender = s.ownId →
      exec (heard f) s = .next { s with line := afterHeard s.line f })

/-- What a valid frame of a peer does to the roster: for every kind but ROLL, and for a ROLL by its state and whether it
agrees with the own K and timing class. The roster's events come first in the frame's event (the model's order, log 30). The
line after the frame is as R88 gives it, but that a station which drives a frame of its own goes on driving it: that a frame
heard in SENDING leaves the line as it was is the model's reading (log 15). -/
def Obligations.FramesKeepTheRoster : Prop :=
  ∀ (s : State) (f : Frame) (c : Configuration), Reading s → frameInRange f = true → s.controller.config = some c →
    f.sender ≠ c.stationId → ∃ t, exec (heard f) s = .next t ∧ t.line = afterHeard s.line f ∧
    let deadline := s.now + s.scaled 400000
    let becomes := fun row => t.controller.roster = stationSet s.controller.roster f.sender row
    let up := s.post (.peerUp f.sender false)
    ((∀ st k tc top, f.body ≠ .roll st k tc top) →
      (s.rosterRow f.sender = .absent → becomes (.present deadline none) ∧ EventsFollow t up) ∧
      (∀ d last, s.rosterRow f.sender = .present d last → becomes (.present deadline last) ∧ EventsFollow t s) ∧
      (∀ d last, s.rosterRow f.sender = .discordant d last →
        becomes (.discordant deadline last) ∧ EventsFollow t s)) ∧
    (∀ k tc top, f.body = .roll .leaving k tc top →
      (s.rosterRow f.sender = .absent → t.controller.roster = s.controller.roster ∧ EventsFollow t s) ∧
      (s.rosterRow f.sender ≠ .absent →
        becomes .absent ∧ EventsFollow t (s.post (.peerDown f.sender .left)))) ∧
    (∀ st k tc top, f.body = .roll st k tc top → st ≠ .leaving → k = c.k ∧ tc = c.timingClass →
      becomes (.present deadline (some ⟨st, k, tc, top⟩)) ∧
      (s.rosterRow f.sender = .absent → EventsFollow t up) ∧
      (∀ d last, s.rosterRow f.sender = .present d last → EventsFollow t s) ∧
      (∀ d last, s.rosterRow f.sender = .discordant d last → EventsFollow t (s.post (.peerUp f.sender true)))) ∧
    (∀ st k tc top, f.body = .roll st k tc top → st ≠ .leaving → k ≠ c.k ∨ tc ≠ c.timingClass →
      becomes (.discordant deadline (some ⟨st, k, tc, top⟩)) ∧
      (s.rosterRow f.sender = .absent → EventsFollow t (up.post (.peerDiscord f.sender k tc))) ∧
      (∀ d last, s.rosterRow f.sender = .present d last →
        EventsFollow t (s.post (.peerDiscord f.sender k tc))) ∧
      (∀ d last, s.rosterRow f.sender = .discordant d last → EventsFollow t s))

/-- A valid RECEIPT of a peer that is not DISCORDANT adds its sender to the holder set of every live own entry it names,
and an entry whose set reaches K is SECURED, posts OUTCOME in the order of the frame's keys, and ends its claim on a buffer
(a read goes on, and so does a frame the station is driving); a DISCORDANT peer is not counted. PEER_UP comes first when the sender was ABSENT (the model's order, log 30). -/
def Obligations.ReceiptsAreCounted : Prop :=
  ∀ (s : State) (sender : Nat) (keys : List Key) (c : Configuration), Reading s →
    frameInRange ⟨sender, .receipt keys⟩ = true → s.controller.config = some c → sender ≠ c.stationId →
    TrackerLaw s →
    let counts := fun e : TrackerEntry =>
      decide (e.key ∈ keys) && (e.state != .staged && e.state != .secured && e.state != .short)
    let secures := fun e : TrackerEntry => counts e && decide (c.k ≤ (insertHolder sender e.holders).length)
    let secured := (keys.eraseDups.filterMap s.entry).filter secures
    let known := if s.rosterRow sender = .absent then s.post (.peerUp sender false) else s
    ∃ u, EndsIn (exec (.receiptReceived sender keys) s) s u ∧
      u.tracker.nextSeq = s.tracker.nextSeq ∧ u.index = s.index ∧ u.intake = s.intake ∧ u.gap = s.gap ∧
      u.receipts = s.receipts ∧ u.flash = s.flash ∧ u.sequencer = s.sequencer ∧ u.map = s.map ∧
      u.transmit.sendOnce = s.transmit.sendOnce ∧
      ((∃ d last, s.rosterRow sender = .discordant d last) →
        u.tracker.entries = s.tracker.entries ∧ u.transmit = s.transmit ∧ u.port = s.port) ∧
      ((∀ d last, s.rosterRow sender ≠ .discordant d last) →
        u.tracker.entries = s.tracker.entries.map (fun e =>
          if counts e then
            let held := insertHolder sender e.holders
            if c.k ≤ held.length then { e with holders := held, state := .secured } else { e with holders := held }
          else e) ∧
        u.port = ((secured.map fun e => Event.outcome e.key.seq true (insertHolder sender e.holders).length).foldl
          State.post known).port ∧
        Released u s fun o => secured.any fun e => o == .tracker e.key)

/-- A valid REQUEST of a peer makes an answer entry for each held key of its span not yet listed, in ascending seq while
there is room, all due own ID answer steps later; outside JOINING, ACTIVE and LEAVING it makes none. -/
def Obligations.RequestsMakeAnswers : Prop :=
  ∀ (s : State) (sender origin first span : Nat) (c : Configuration), Reading s →
    frameInRange ⟨sender, .request origin first span⟩ = true → s.controller.config = some c → sender ≠ c.stationId →
    let onBus := s.controller.state = .joining ∨ s.controller.state = .active ∨ s.controller.state = .leaving
    let wanted := ((List.range span).map fun i => (⟨origin, first + i⟩ : Key)).filter fun k =>
      (s.locate k).isSome && s.gap.answers.all fun a => a.key != k
    let made := (wanted.take (8 - s.gap.answers.length)).map fun k =>
      (⟨k, s.now + c.stationId * s.scaled 500, false, false⟩ : AnswerEntry)
    ∃ t, exec (.requestReceived sender origin first span) s = .next t ∧
      t.index = s.index ∧ t.intake = s.intake ∧ t.tracker = s.tracker ∧ t.receipts = s.receipts ∧
      t.transmit = s.transmit ∧ t.sequencer = s.sequencer ∧ t.map = s.map ∧ t.flash = s.flash ∧
      (onBus → t.gap = { s.gap with answers := s.gap.answers ++ made }) ∧ (¬ onBus → t.gap = s.gap)

/-- A valid RECORD of a peer, of either kind, suppresses the answer entry of its key, whose claim on a buffer ends, unless the
station is driving that entry's own frame, and is classified by the first case of R16 that applies, with the result the case gives. PEER_UP is posted when the sender was ABSENT, and GAP_ABANDONED after it
when the row abandons a range (the order is the model's, log 30). -/
def Obligations.RecordsAreClassified : Prop :=
  ∀ (s : State) (sender : Nat) (r : Record) (repair : Bool) (c : Configuration), Reading s →
    frameInRange ⟨sender, if repair then .repairRecord r else .record r⟩ = true → s.controller.config = some c →
    sender ≠ c.stationId →
    let onBus := s.controller.state = .joining ∨ s.controller.state = .active ∨ s.controller.state = .leaving
    let row := s.originRow r.key.origin
    let tracked := row.tracked.getD ⟨r.key.seq - 1, r.key.seq - 1, [], 0⟩
    let known := if s.rosterRow sender = .absent then s.post (.peerUp sender false) else s
    let reported := fun (change : RowChange) => match change.abandoned with
      | none => known.port
      | some g => (known.post (.gapAbandoned r.key.origin g.1 g.2)).port
    ∃ u, EndsIn (exec (heard ⟨sender, if repair then .repairRecord r else .record r⟩) s) s u ∧
      u.index = s.index ∧ u.tracker = s.tracker ∧
      u.flash = s.flash ∧ u.sequencer = s.sequencer ∧ u.map = s.map ∧ u.transmit.sendOnce = s.transmit.sendOnce ∧
      (s.drivesAnswer r.key → u.gap.answers = s.gap.answers ∧ u.transmit = s.transmit) ∧
      (¬ s.drivesAnswer r.key → u.gap.answers = s.gap.answers.filter (fun a => a.key ≠ r.key) ∧
        Released u s fun o => s.gap.answers.any fun a => a.key == r.key && o == .answer r.key) ∧
      let noChange := u.intake = s.intake ∧ u.gap.rows = s.gap.rows ∧ u.gap.slot = s.gap.slot ∧ u.port = known.port
      (¬ onBus ∨ r.key.origin = c.stationId → noChange ∧ u.receipts = s.receipts) ∧
      (onBus → r.key.origin ≠ c.stationId →
        ((∃ l, s.locate r.key = some l) → noChange ∧
          u.receipts = if repair = true ∨ r.key ∈ s.receipts ∨ 32 ≤ s.receipts.length then s.receipts
            else s.receipts ++ [r.key]) ∧
        (s.locate r.key = none →
          u.receipts = s.receipts ∧
          ((∃ e ∈ s.intake, e.record.key = r.key) →
            u.gap.rows = s.gap.rows ∧ u.gap.slot = s.gap.slot ∧ u.port = known.port ∧
            u.intake = s.intake.map fun e => match e.source with
              | .bus owed => { e with source := .bus (owed || (!repair && e.record.key == r.key)) }
              | _ => e) ∧
          ((∀ e ∈ s.intake, e.record.key ≠ r.key) →
            ((∃ t, row.tracked = some t ∧ r.key.seq ≤ t.horizon) → noChange) ∧
            ((∀ t, row.tracked = some t → t.horizon < r.key.seq) →
              (20 ≤ s.sharedEntries ∨ s.sequencer.protect = true →
                u.intake = s.intake ∧ u.gap.slot = s.gap.slot ∧
                u.port = reported (extendTo tracked row.lost r.key.seq) ∧
                u.gap.rows = stationSet s.gap.rows r.key.origin (extendTo tracked row.lost r.key.seq).row) ∧
              (s.sharedEntries < 20 → s.sequencer.protect = false →
                u.intake = s.intake ++ [⟨r, .bus true, .waiting⟩] ∧
                u.port = reported (arrive tracked row.lost r.key.seq) ∧
                u.gap.rows = stationSet s.gap.rows r.key.origin (arrive tracked row.lost r.key.seq).row ∧
                u.gap.slot = match s.gap.slot with
                  | .empty => .empty
                  | .due q progress => .due q (progress || (q.origin == r.key.origin && decide (q.first ≤ r.key.seq)
                      && decide (r.key.seq ≤ q.first + q.span - 1)))
                  | .sent q progress => .sent q (progress || (q.origin == r.key.origin && decide (q.first ≤ r.key.seq)
                      && decide (r.key.seq ≤ q.first + q.span - 1))))))))

/-- A valid ROLL of a peer adopts an untracked row at its top seq and extends a tracked one to it, an abandoned range
being reported by GAP_ABANDONED after the roster's events (the order is the model's, log 30); outside JOINING, ACTIVE and
LEAVING the rows stand. -/
def Obligations.RollsExtendTheRow : Prop :=
  ∀ (s : State) (sender k tc top : Nat) (st : RollState) (c : Configuration), Reading s →
    frameInRange ⟨sender, .roll st k tc top⟩ = true → s.controller.config = some c → sender ≠ c.stationId →
    let onBus := s.controller.state = .joining ∨ s.controller.state = .active ∨ s.controller.state = .leaving
    let becomes := fun row => { s.gap with rows := stationSet s.gap.rows sender row }
    let agrees := k = c.k ∧ tc = c.timingClass
    let told : List Event := match st, s.rosterRow sender with
      | .leaving, .absent => []
      | .leaving, _ => [.peerDown sender .left]
      | _, .absent => if agrees then [.peerUp sender false] else [.peerUp sender false, .peerDiscord sender k tc]
      | _, .present _ _ => if agrees then [] else [.peerDiscord sender k tc]
      | _, .discordant _ _ => if agrees then [.peerUp sender true] else []
    let known := told.foldl State.post s
    ∃ t, exec (.rollReceived sender st k tc top) s = .next t ∧
      t.index = s.index ∧ t.intake = s.intake ∧ t.tracker = s.tracker ∧ t.receipts = s.receipts ∧
      t.transmit = s.transmit ∧ t.sequencer = s.sequencer ∧ t.map = s.map ∧ t.flash = s.flash ∧
      (¬ onBus → t.gap = s.gap ∧ t.port = known.port) ∧
      (onBus → (s.originRow sender).tracked = none →
        t.gap = becomes ⟨some ⟨top, top, [], 0⟩, (s.originRow sender).lost⟩ ∧ t.port = known.port) ∧
      (∀ row, onBus → (s.originRow sender).tracked = some row →
        let change := extendTo row (s.originRow sender).lost top
        t.gap = becomes change.row ∧ (change.abandoned = none → t.port = known.port) ∧
        ∀ g, change.abandoned = some g → t.port = (known.post (.gapAbandoned sender g.1 g.2)).port)

/-- An origin row under an arrival, and under a higher seq known and not received: what is missing afterwards, which seqs a
fifth range gives up, the lost count, the attempts, and that a tracked row keeps its law. -/
def Obligations.RowsTakeArrivalsAndKnownSeqs : Prop :=
  (∀ (t : TrackedRow) (lost q : Nat), t.Law → t.horizon < q → ∃ u,
      (arrive t lost q).row.tracked = some u ∧ u.Law ∧ u.topSeen = max t.topSeen q ∧
      let left := fun x => x ≠ q ∧ (missing t.gaps x ∨ (t.topSeen < x ∧ x < q))
      ((arrive t lost q).abandoned = none → (arrive t lost q).row.lost = lost ∧ (∀ x, missing u.gaps x ↔ left x) ∧
        u.attempts = if t.gaps.head? = some (q, q) then 0 else t.attempts) ∧
      (∀ g, (arrive t lost q).abandoned = some g → t.gaps.length = 4 ∧
        (arrive t lost q).row.lost = min 65535 (lost + (g.2 - g.1 + 1)) ∧ u.attempts = 0 ∧
        (∀ x, missing u.gaps x ↔ left x ∧ g.2 < x) ∧ (∀ x, g.1 ≤ x → x ≤ g.2 → left x))) ∧
  (∀ (t : TrackedRow) (lost top : Nat), t.Law → ∃ u,
      (extendTo t lost top).row.tracked = some u ∧ u.Law ∧ u.topSeen = max t.topSeen top ∧
      let left := fun x => missing t.gaps x ∨ (t.topSeen < x ∧ x ≤ top)
      ((extendTo t lost top).abandoned = none → (extendTo t lost top).row.lost = lost ∧
        (∀ x, missing u.gaps x ↔ left x) ∧ u.attempts = t.attempts) ∧
      (∀ g, (extendTo t lost top).abandoned = some g → t.gaps.length = 4 ∧ t.topSeen < top ∧ t.gaps.head? = some g ∧
        (extendTo t lost top).row.lost = min 65535 (lost + (g.2 - g.1 + 1)) ∧ u.attempts = 0 ∧
        (∀ x, missing u.gaps x ↔ left x ∧ g.2 < x)))

/-! ### The line and the Frame Scheduler -/

/-- A dominant bit sets the idle count to 0 in every state but OFF and starts a frame in GAP and QUIET; the 12th recessive
bit time makes SEEKING and GAP QUIET. DIR is asserted exactly while SENDING. TXD is recessive in every other state, OFF among
them; while a frame is driven it carries each byte in 10 bit times: a dominant start bit, the data bits from the most
significant, 0 dominant and 1 recessive, and a recessive stop bit. -/
def Obligations.GapsAndFrameStarts : Prop :=
  ∀ (s : State), s.held = false →
    (s.line.state = .off → exec .frameStartHeard s = .next s ∧ exec .gapEnd s = .next s) ∧
    (s.line.state = .gap ∨ s.line.state = .quiet →
      exec .frameStartHeard s = .next { s with line := { s.line with state := .receiving, idle := 0 } }) ∧
    (s.line.state = .seeking ∨ s.line.state = .receiving ∨ s.line.state = .sending →
      exec .frameStartHeard s = .next { s with line := { s.line with idle := 0 } }) ∧
    (s.line.state = .seeking ∨ s.line.state = .gap →
      exec .gapEnd s = .next { s with line := { s.line with state := .quiet, idle := 12 } }) ∧
    (s.line.state ≠ .sending → s.dir = false ∧ ∀ n, s.txd n = .recessive) ∧
    (∀ f, Driving s f → s.dir = true ∧ ∀ i b, (frameBytes f.frame)[i]? = some b →
      s.txd (10 * i) = .dominant ∧ s.txd (10 * i + 9) = .recessive ∧
      ∀ j, j < 8 → s.txd (10 * i + 1 + j) = if b.getLsbD (7 - j) then .recessive else .dominant)

/-- At an offer point the first frame ready and allowed, in the order of R98 and built as R99 gives, is begun; none while
SILENCED stands, none when none is ready. -/
def Obligations.OfferPointsFollowTheOrder : Prop :=
  ∀ (s : State), s.held = false → s.line.state = .quiet →
    let onBus := s.controller.state = .joining ∨ s.controller.state = .active ∨ s.controller.state = .leaving
    let sends := s.controller.state = .active ∨ s.controller.state = .leaving
    let begun := fun body owner => exec .offerPoint s = .next { s with line := { s.line with
      state := .sending, idle := 0, inFlight := some ⟨⟨s.ownId, body⟩, owner⟩ } }
    let free := s.line.silenced = none
    let noReceipt := ¬ onBus ∨ s.receipts = []
    let noRequest := ¬ onBus ∨ (∀ r progress, s.gap.slot ≠ .due r progress) ∨ s.somePresent = false
    let noAnswer := ¬ onBus ∨ ∀ i k r, s.buffer i ≠ .loaded (.answer k) r true
    let noRecord := ¬ sends ∨ ∀ i o r, s.buffer i = .loaded o r true → ∃ k, o = .answer k
    (s.line.silenced.isSome → exec .offerPoint s = .next s) ∧
    (free → onBus → s.receipts ≠ [] → begun (.receipt (s.receipts.take 6)) .receiptList) ∧
    (∀ r progress, free → onBus → noReceipt → s.gap.slot = .due r progress → s.somePresent = true →
      begun (.request r.origin r.first r.span) .repairSlot) ∧
    (∀ i r a before after, free → onBus → noReceipt → noRequest → s.gap.answers = before ++ a :: after →
      s.buffer i = .loaded (.answer a.key) r true →
      (∀ j r', s.buffer j = .loaded (.answer a.key) r' true → j = i) →
      (∀ b ∈ before, ∀ j r', s.buffer j = .loaded (.answer b.key) r' true → a.dueAt < b.dueAt) →
      (∀ b ∈ after, ∀ j r', s.buffer j = .loaded (.answer b.key) r' true → a.dueAt ≤ b.dueAt) →
      begun (.repairRecord r) (.buffer i)) ∧
    (∀ i o r, free → sends → noReceipt → noRequest → noAnswer → s.buffer i = .loaded o r true →
      (∀ j o' r', j ≠ i → s.buffer j = .loaded o' r' true → r.key.seq < r'.key.seq) →
      begun (.record r) (.buffer i)) ∧
    (∀ st c top, free → noReceipt → noRequest → noAnswer → noRecord → s.controller.config = some c →
      s.controller.rollDue = some st → onBus ∨ (s.controller.state = .halted ∧ st = .leaving) →
      (∀ k l, (k, l) ∈ s.index → k.origin = c.stationId → k.seq ≤ top) →
      (top = 0 ∨ ∃ l, (⟨c.stationId, top⟩, l) ∈ s.index) →
      begun (.roll st c.k c.timingClass top) .controller) ∧
    (noReceipt → noRequest → noAnswer → noRecord → s.controller.rollDue = none → exec .offerPoint s = .next s)

/-- A lost frame leaves RECEIVING with nothing in flight and no other change. A transmit failure leaves SEEKING, is
counted, and as the 16th in a run silences the station for one roll period with BUS_SILENCED; the expiry ends SILENCED
with BUS_RESUMED. The line is SEEKING also where the idle count has reached 12 already (the model's choice, log 39). A buffer whose claim had ended is emptied with its frame, and the workers act. After either the station
drives nothing: DIR is off and TXD recessive. -/
def Obligations.LostAndFailedFrames : Prop :=
  (∀ (s : State) (f : FrameInFlight), Driving s f →
      let line := { s.line with state := .receiving, idle := 0, inFlight := none }
      ((∀ i, ¬ Orphaned s f i) → exec .arbitrationLost s = .next { s with line := line }) ∧
      (∀ i, Orphaned s f i → EndsIn (exec .arbitrationLost s) s { s with
        line := line, transmit := { s.transmit with buffers := s.transmit.buffers.set i.val .empty i.isLt } }) ∧
      ∃ t, exec .arbitrationLost s = .next t ∧ t.dir = false ∧ ∀ n, t.txd n = .recessive) ∧
  (∀ (s : State) (f : FrameInFlight) (idle : Nat), Driving s f →
    let line := { s.line with
      state := .seeking, idle := min 12 idle, inFlight := none, failureRun := min 16 (s.line.failureRun + 1)
      failureTotal := min 65535 (s.line.failureTotal + 1) }
    let failed := if s.line.failureRun < 15 then { s with line := line }
      else State.post { s with line := { line with silenced := some (s.now + s.scaled 100000) } } .busSilenced
    ((∀ i, ¬ Orphaned s f i) → exec (.transmitFailure idle) s = .next failed) ∧
    (∀ i, Orphaned s f i → EndsIn (exec (.transmitFailure idle) s) s { failed with
      transmit := { s.transmit with buffers := s.transmit.buffers.set i.val .empty i.isLt } }) ∧
    ∃ t, exec (.transmitFailure idle) s = .next t ∧ t.dir = false ∧ ∀ n, t.txd n = .recessive) ∧
  (∀ (s : State) (t : Nat), s.held = false → s.line.silenced = some t →
    exec .silencedExpiry s = .next (State.post { s with
      now := max s.now t, line := { s.line with silenced := none, failureRun := 0 } } .busResumed))

/-! ### Frames sent -/

/-- A RECEIPT transmitted takes its keys out of the Receipt List; a REQUEST transmitted makes the slot that still holds it
SENT; both set the failure run to 0. -/
def Obligations.ReceiptAndRequestTransmitted : Prop :=
  ∀ (s : State) (sender : Nat) (owner : FrameOwner),
    let line := fun body => { afterFrame s.line ⟨sender, body⟩ with inFlight := none, failureRun := 0 }
    (∀ keys, Driving s ⟨⟨sender, .receipt keys⟩, owner⟩ → exec .receiptTransmitted s = .next { s with
      line := line (.receipt keys), receipts := s.receipts.filter fun k => k ∉ keys }) ∧
    (∀ origin first span, Driving s ⟨⟨sender, .request origin first span⟩, owner⟩ →
      exec .requestTransmitted s = .next { s with
        line := line (.request origin first span)
        gap := { s.gap with slot := match s.gap.slot with
          | .due r progress => if r = ⟨origin, first, span⟩ then .sent r progress else .due r progress
          | slot => slot } })

/-- A RECORD transmitted empties its buffer: a LOADED tracker entry has one attempt more and awaits receipts for one holder
window, a send-once key leaves its list, an owner whose claim has ended is not told. With the repair flag, its answer
entry is removed. -/
def Obligations.RecordTransmittedReachesItsOwner : Prop :=
  (∀ (s : State) (sender : Nat) (r : Record) (i : BufferNo), Driving s ⟨⟨sender, .record r⟩, .buffer i⟩ →
      let line := { afterFrame s.line ⟨sender, .record r⟩ with inFlight := none, failureRun := 0 }
      let transmit := { s.transmit with buffers := s.transmit.buffers.set i.val .empty i.isLt }
      (∀ k r', s.buffer i = .loaded (.tracker k) r' true → EndsIn (exec .recordTransmitted s) s { s with
        line := line, transmit := transmit
        tracker := { s.tracker with entries := s.tracker.entries.map fun e =>
          if e.key = k ∧ e.state = .loaded then
            { e with attempts := e.attempts + 1, state := .awaiting (s.now + s.scaled 25000) }
          else e } }) ∧
      (∀ k r', s.buffer i = .loaded (.sendOnce k) r' true → EndsIn (exec .recordTransmitted s) s { s with
        line := line, transmit := { transmit with sendOnce := s.transmit.sendOnce.filter fun o => o ≠ k } }) ∧
      (∀ o r', s.buffer i = .loaded o r' false →
        EndsIn (exec .recordTransmitted s) s { s with line := line, transmit := transmit })) ∧
  (∀ (s : State) (sender : Nat) (r : Record) (i : BufferNo), Driving s ⟨⟨sender, .repairRecord r⟩, .buffer i⟩ →
      let line := { afterFrame s.line ⟨sender, .repairRecord r⟩ with inFlight := none, failureRun := 0 }
      let transmit := { s.transmit with buffers := s.transmit.buffers.set i.val .empty i.isLt }
      (∀ k r', s.buffer i = .loaded (.answer k) r' true → (∀ j, j ≠ i → (s.buffer j).endClaim (.answer k) false = s.buffer j) →
        EndsIn (exec .repairRecordTransmitted s) s { s with
          line := line, transmit := transmit
          gap := { s.gap with answers := s.gap.answers.filter fun a => a.key ≠ k } }) ∧
      (∀ o r', s.buffer i = .loaded o r' false →
        EndsIn (exec .repairRecordTransmitted s) s { s with line := line, transmit := transmit }))

/-! ### Timers -/

/-- A holder window reached: below 4 attempts the entry is QUEUED again; at 4 it is SHORT, not damaged, with OUTCOME, and holds no
claim on a buffer. -/
def Obligations.HolderWindowExpires : Prop :=
  ∀ (s : State) (c : Configuration) (seq d : Nat) (e : TrackerEntry), s.held = false → s.controller.config = some c →
    s.entry ⟨c.stationId, seq⟩ = some e → e.state = .awaiting d →
    let becomes := fun (state : TrackerState) => s.tracker.entries.map fun x =>
      if x.key = e.key then { x with state := state } else x
    (e.attempts < 4 → EndsIn (exec (.holderWindowExpiry seq) s) s { s with
      now := max s.now d, tracker := { s.tracker with entries := becomes .queued } }) ∧
    (4 ≤ e.attempts → ∃ u, EndsIn (exec (.holderWindowExpiry seq) s) s u ∧
      u.now = max s.now d ∧ u.tracker = { s.tracker with entries := becomes .short } ∧
      u.port = (s.post (.outcome seq false e.holders.length)).port ∧ u.index = s.index ∧ u.intake = s.intake ∧
      u.gap = s.gap ∧ u.receipts = s.receipts ∧ u.line = s.line ∧ u.sequencer = s.sequencer ∧ u.map = s.map ∧
      u.transmit.sendOnce = s.transmit.sendOnce ∧ Released u s fun o => o == .tracker e.key)

/-- The repair timer reached: a SENT request is judged against its row, the next expiry comes one interval later, and the
slot takes the first row with a gap after the turn pointer, at most 8 seqs, while a peer is PRESENT. -/
def Obligations.RepairTimerJudgesAndChooses : Prop :=
  ∀ (s : State) (t : Nat), s.held = false → s.gap.timer = some t → ∃ u, exec .repairTimerExpiry s = .next u ∧
    u.now = max s.now t ∧ u.gap.timer = some (t + s.scaled 20000) ∧ u.gap.answers = s.gap.answers ∧
    u.index = s.index ∧ u.intake = s.intake ∧ u.tracker = s.tracker ∧ u.line = s.line ∧ u.controller = s.controller ∧
    u.receipts = s.receipts ∧ u.transmit = s.transmit ∧ u.sequencer = s.sequencer ∧ u.map = s.map ∧ u.flash = s.flash ∧
    ((∀ r progress, s.gap.slot ≠ .sent r progress) → u.gap.rows = s.gap.rows ∧ u.port = s.port) ∧
    (∀ r progress row, s.gap.slot = .sent r progress → (s.originRow r.origin).tracked = some row →
      let lost := (s.originRow r.origin).lost
      let becomes := fun row lost => u.gap.rows = stationSet s.gap.rows r.origin ⟨some row, lost⟩
      (progress = true → becomes { row with attempts := 0 } lost ∧ u.port = s.port) ∧
      (progress = false → (∀ g, row.gaps.head? = some g → r.first < g.1 ∨ g.2 < r.first) →
        becomes row lost ∧ u.port = s.port) ∧
      (∀ g rest, progress = false → row.gaps = g :: rest → g.1 ≤ r.first → r.first ≤ g.2 →
        (row.attempts < 2 → becomes { row with attempts := row.attempts + 1 } lost ∧ u.port = s.port) ∧
        (2 ≤ row.attempts →
          becomes { row with
            gaps := rest, attempts := 0
            horizon := match rest with
              | [] => row.topSeen
              | next :: _ => next.1 - 1 } (min 65535 (lost + (g.2 - g.1 + 1))) ∧
          u.port = (s.post (.gapAbandoned r.origin g.1 g.2)).port))) ∧
    let gaps := fun n => ((u.originRow ((s.gap.turn + n) % 30 + 1)).tracked.map TrackedRow.gaps).getD []
    (s.somePresent = false → u.gap.slot = .empty ∧ u.gap.turn = s.gap.turn) ∧
    ((∀ n, n < 30 → gaps n = []) → u.gap.slot = .empty ∧ u.gap.turn = s.gap.turn) ∧
    (∀ n g rest, s.somePresent = true → n < 30 → gaps n = g :: rest → (∀ m, m < n → gaps m = []) →
      u.gap.turn = (s.gap.turn + n) % 30 + 1 ∧
      u.gap.slot = .due ⟨(s.gap.turn + n) % 30 + 1, g.1, min 8 (g.2 - g.1 + 1)⟩ false)

/-! ### The array -/

/-- A program completion of any gang: the cells of each lane change as its result says and no other page changes; the
entries of the lanes that passed leave the queue, the others' return to WAITING; no lane of the pass stays engaged. A lane
reported PASS whose pass addressed cells that are not erased ends FAIL. No slot, tag or header becomes erased that was not. -/
def Obligations.ProgramCompletionSettlesTheEntries : Prop :=
  ∀ (s : State) (lanes : List PassLane) (results : Vector PassResult 4), Running s (.program lanes) →
    (lanes.map fun p => laneOf p.block).Nodup →
    let result := laneEnds s results
    ∃ u, EndsIn (exec (.programComplete results) s) s u ∧
      u.sequencer.inFlight = none ∧
      (∀ p ∈ lanes, readPage u.flash (pageAddress p.block p.page) =
        programPage p (match result p with
          | .pass _ => none
          | .fail fate => some fate
          | .aborted fate => some fate) (readPage s.flash (pageAddress p.block p.page))) ∧
      (∀ a, (∀ p ∈ lanes, a ≠ pageAddress p.block p.page) → readPage u.flash a = readPage s.flash a) ∧
      (∀ a i, ((readPage u.flash a).slots.get i = .erased → (readPage s.flash a).slots.get i = .erased) ∧
        ((readPage u.flash a).tags.get i = .erased → (readPage s.flash a).tags.get i = .erased) ∧
        ((readPage u.flash a).header = .erased → (readPage s.flash a).header = .erased)) ∧
      u.intake = (s.intake.filter fun e => lanes.all fun p => !(e.inPassOn p.block && hasPassed (result p))).map
        (fun e => if lanes.any fun p => e.inPassOn p.block then { e with state := .waiting } else e) ∧
      (∀ p ∈ lanes, (u.lane (laneOf p.block)).engaged = false)

/-- A program completion of any gang. The keys of the lanes that passed are indexed at their slots, evacuated keys only while
still indexed, and no other key moves. The block of a lane that passed has its write position advanced, the page or the block
closing; of one that failed it becomes RETIRING and joins the evacuator, or RETIRED when no key stands in it; of one aborted
it has its page closed, or every page when the pass was its header pass. A lane reported PASS whose pass addressed cells that
are not erased ends FAIL, its block RETIRING or RETIRED. Another block changes only from RETIRING to RETIRED,
when its last key was repointed. Every block that became RETIRED has its mark requested and BLOCK_RETIRED posted, in one
order. That a block emptied by the completion itself retires assumes the law of the intake queue. -/
def Obligations.ProgramCompletionMovesTheBlock : Prop :=
  ∀ (s : State) (lanes : List PassLane) (results : Vector PassResult 4), Running s (.program lanes) →
    (lanes.map fun p => laneOf p.block).Nodup →
    let result := laneEnds s results
    let passed := fun e : IntakeEntry => ∃ p ∈ lanes, e.inPassOn p.block = true ∧ hasPassed (result p) = true
    let holds := fun (t : State) b => ∃ k l, (k, l) ∈ t.index ∧ l.block = b
    let lawful := (s.intake.map fun e => e.record.key).Nodup ∧
      ∀ e ∈ s.intake, (∀ former, e.source ≠ .evacuation former) → s.locate e.record.key = none
    ∃ u, EndsIn (exec (.programComplete results) s) s u ∧
    ((∀ p ∈ lanes, hasPassed (result p) = false) → u.index = s.index) ∧
    (∀ k, (∀ e ∈ s.intake, passed e → e.record.key ≠ k) → u.locate k = s.locate k) ∧
    (∀ e ∈ s.intake, passed e → (∀ x ∈ s.intake, passed x → x.record.key = e.record.key → x = e) →
      ∀ l, e.state = .inPass l → u.locate e.record.key = match e.source with
        | .evacuation _ => (s.locate e.record.key).map fun _ => l
        | _ => some l) ∧
    (∀ p ∈ lanes, ∀ chain h w, s.block p.block = .opened chain h w →
      (hasPassed (result p) = true → u.block p.block = (if hw : w.slots.val + p.records.length < 8 ∧ w.passes.val < 3 then
          .opened chain none ⟨w.page, ⟨w.slots.val + p.records.length, hw.1⟩, ⟨w.passes.val + 1, by omega⟩⟩
        else if w.page.val < 31 then .opened chain none ⟨w.page + 1, 0, 0⟩ else .sealed chain)) ∧
      (∀ fate, result p = .fail fate →
        (holds u p.block → u.block p.block = .retiring chain ∧
          (u.map.evacuator.current = some p.block ∨ p.block ∈ u.map.evacuator.retiring)) ∧
        (¬ holds s p.block ∨ (lawful ∧ ¬ holds u p.block) → u.block p.block = .retired)) ∧
      (∀ fate, result p = .aborted fate → u.block p.block =
        (if p.header.isSome ∨ p.page = 31 then .sealed chain else .opened chain h ⟨p.page + 1, 0, 0⟩)) ∧
      (∀ met, results.get (laneOf p.block) = .pass met → ¬ Blank s p →
        u.block p.block = .retiring chain ∨ u.block p.block = .retired)) ∧
    (∀ b, (∀ p ∈ lanes, p.block ≠ b) →
      (lawful → s.isRetiring b → holds s b → ¬ holds u b → u.block b = .retired) ∧
      (¬ s.isRetiring b ∨ holds u b ∨ ¬ holds s b → u.block b = s.block b)) ∧
    ∃ marks : List BlockId, marks.Nodup ∧ (∀ b, b ∈ marks ↔ s.block b ≠ .retired ∧ u.block b = .retired) ∧
      u.sequencer.retireMarks = s.sequencer.retireMarks ++ marks ∧
      EventsFollow u ((marks.map fun b => Event.blockRetired b (laneOf b) .program).foldl State.post s)

/-- The entries of the lanes of a completed pass that passed, over erased cells, on OPEN blocks, are handed on in queue order. A LOCAL record is
handed to the tracker: the own ID joins the holders of its STAGED entry, which is QUEUED, or SECURED under K = 1 with OUTCOME
posted, its key sent once while there is room and its claims ended. A BUS record owing a receipt joins the Receipt List while
the station is on the bus and there is room. Nothing else changes in the three lists. -/
def Obligations.CompletedEntriesAreHandedOn : Prop :=
  ∀ (s : State) (lanes : List PassLane) (results : Vector PassResult 4) (c : Configuration), Running s (.program lanes) →
    (lanes.map fun p => laneOf p.block).Nodup → s.controller.config = some c →
    let passed := fun p : PassLane => hasPassed (laneEnds s results p)
    (∃ p ∈ lanes, passed p = true) → (∀ p ∈ lanes, passed p = true → s.isOpen p.block) →
    (s.intake.map fun e => e.record.key).Nodup → TrackerLaw s →
    let onBus := s.controller.state = .joining ∨ s.controller.state = .active ∨ s.controller.state = .leaving
    let handed := s.intake.filter fun e => lanes.any fun p => e.inPassOn p.block && passed p
    let told := (handed.filter fun e => e.source = .localHost ∧
      ∃ t ∈ s.tracker.entries, t.key = e.record.key ∧ t.state = .staged).map fun e => e.record.key
    let owing := (handed.filter fun e => e.source = .bus true ∧ e.record.key ∉ s.receipts).map fun e => e.record.key
    ∃ u, EndsIn (exec (.programComplete results) s) s u ∧ u.controller = s.controller ∧
      u.tracker = { s.tracker with entries := s.tracker.entries.map fun t =>
        if t.key ∈ told then { t with holders := [c.stationId], state := if c.k = 1 then .secured else .queued } else t } ∧
      u.receipts = (if onBus then s.receipts ++ owing.take (32 - s.receipts.length) else s.receipts) ∧
      (c.k ≠ 1 → u.transmit = s.transmit) ∧
      (c.k = 1 → u.transmit.sendOnce = s.transmit.sendOnce ++
          (told.filter fun k => k ∉ s.transmit.sendOnce).take (16 - s.transmit.sendOnce.length) ∧
        Released u s fun o => told.any fun k => o == .tracker k) ∧
      ∃ before : List Event, (∀ e ∈ before, ∀ q secured n, e ≠ .outcome q secured n) ∧
        u.port = ((before ++ if c.k = 1 then told.map fun k => Event.outcome k.seq true 1 else []).foldl State.post s).port

/-- An erase completion: each block of the gang becomes FREE, RETIRED with its mark requested and BLOCK_RETIRED posted with
cause ERASE, or DIRTY with a fresh request, as its lane's result says; its pages are as the result left them, and no other
block and no other page changes. These events come first, the lane events after them, and a completion that halts nothing
posts no other and changes nothing else of the station. A retire mark completion frees the array and leaves the mark field as its result says; the table is
unchanged. -/
def Obligations.EraseAndMarkCompletionsSetTheBlocks : Prop :=
  (∀ (s : State) (blocks : List BlockId) (results : Vector EraseResult 4), Running s (.erase blocks) →
      (blocks.map laneOf).Nodup →
      ∃ u, EndsIn (exec (.eraseComplete results) s) s u ∧ u.sequencer.inFlight = none ∧ u.index = s.index ∧
        u.intake = s.intake ∧
        (∀ b ∈ blocks,
          (results.get (laneOf b) = .pass → u.block b = .free) ∧
          (∀ fate, results.get (laneOf b) = .fail fate → u.block b = .retired ∧ b ∈ u.sequencer.retireMarks) ∧
          (∀ fate, results.get (laneOf b) = .aborted fate → u.block b = .dirty ∧ b ∈ u.sequencer.dirtyErases) ∧
          ∀ page, readPage u.flash (pageAddress b page) =
            erasePage (match results.get (laneOf b) with
              | .pass => .whole
              | .fail fate => fate
              | .aborted fate => fate) page (readPage s.flash (pageAddress b page))) ∧
        (∀ b, b ∉ blocks → u.block b = s.block b ∧
          ∀ page, readPage u.flash (pageAddress b page) = readPage s.flash (pageAddress b page)) ∧
        ((∀ b ∈ blocks, s.map.evacuator.current ≠ some b ∧ b ∉ s.map.evacuator.retiring) →
          (s.map.evacuator.current = none → s.map.evacuator.retiring = []) → u.map.evacuator = s.map.evacuator) ∧
        ∃ failed fresh : List BlockId, failed.Nodup ∧ fresh.Nodup ∧
          (∀ b, b ∈ failed ↔ b ∈ blocks ∧ ∃ fate, results.get (laneOf b) = .fail fate) ∧
          (∀ b, b ∈ fresh ↔ b ∈ blocks ∧ ∃ fate, results.get (laneOf b) = .aborted fate) ∧
          let told := (failed.map fun b => Event.blockRetired b (laneOf b) .erase) ++ laneEvents s u
          EventsFollow u (told.foldl State.post s) ∧
          (u.allDead = false ∨ s.controller.state = .halted ∨ s.controller.state = .mounting → u = { s with
            flash := u.flash
            map := { s.map with blocks := u.map.blocks, evacuator := u.map.evacuator }
            sequencer := { s.sequencer.freed with
              retireMarks := s.sequencer.retireMarks ++ failed, dirtyErases := s.sequencer.dirtyErases ++ fresh }
            port := (told.foldl State.post s).port })) ∧
  (∀ (s : State) (b : BlockId) (result : MarkResult), Running s (.retireMark b) →
      EndsIn (exec (.retireMarkComplete result) s) s { s with
        sequencer := s.sequencer.freed
        flash := markFlash s.flash b (match result with
          | .pass => .whole
          | .fail fate => fate
          | .aborted fate => fate) })

/-- A slot read that ended DAMAGED: a key still located at the slot read leaves the index and the Receipt List, is
reported by RECORD_DAMAGED whatever the state of its block, its live tracker entry becomes SHORT and damaged, with OUTCOME
after RECORD_DAMAGED, its answer entry is removed, and the claims of both end. A RETIRING block that held no other key becomes
RETIRED, with its mark requested and BLOCK_RETIRED posted before or after RECORD_DAMAGED. Otherwise nothing changes. -/
def Obligations.DamagedReadsRemoveTheKey : Prop :=
  ∀ (s : State) (k : Key) (l : Loc),
    (s.locate k ≠ some l → s.damagedRead k l = s) ∧
    (s.locate k = some l → let u := s.damagedRead k l
      let lives := s.entry k |>.any fun e => e.state.isLive
      let outcome := ((s.entry k).toList.filter fun e => e.state.isLive).map fun e => Event.outcome k.seq false e.holders.length
      let empties := s.isRetiring l.block ∧ ∀ e ∈ u.index, e.2.block ≠ l.block
      u.index = s.index.filter (fun e => e.1 ≠ k) ∧ u.receipts = s.receipts.filter (fun r => r ≠ k) ∧
      u.gap.answers = s.gap.answers.filter (fun a => a.key ≠ k) ∧ u.intake = s.intake ∧ u.flash = s.flash ∧
      u.line = s.line ∧ u.controller = s.controller ∧ u.transmit.sendOnce = s.transmit.sendOnce ∧
      Released u s (fun o => (lives && o == .tracker k) || ((s.answer k).isSome && o == .answer k)) ∧
      (∀ e, s.entry k = some e → e.state.isLive = true →
        u.tracker.entries = s.tracker.entries.map fun x =>
          if x.key = k then { x with state := .short, damaged := true } else x) ∧
      ((∀ e, s.entry k = some e → e.state.isLive = false) → u.tracker = s.tracker) ∧
      (empties → u.block l.block = .retired ∧ (∀ b, b ≠ l.block → u.block b = s.block b) ∧
        u.sequencer = { s.sequencer with retireMarks := s.sequencer.retireMarks ++ [l.block] } ∧
        ∃ told : List Event, told.Perm [.recordDamaged k l, .blockRetired l.block (laneOf l.block) .program] ∧
          u.port = ((told ++ outcome).foldl State.post s).port) ∧
      (¬ empties → u.map = s.map ∧ u.sequencer = s.sequencer ∧
        u.port = ((.recordDamaged k l :: outcome).foldl State.post s).port))

/-- A class-1 read completed, its slot judged as the array holds it after what has changed in the cells (log 2): GOOD loads
the buffer and tells its owner, or is discarded when the claim has ended. DAMAGED is handled as any damaged read, then the
buffer becomes EMPTY, and an owner whose claim stood at the completion is told: a live tracker entry becomes SHORT and damaged
with OUTCOME, one that is done stays as it is, an answer entry is removed, a send-once key dropped, and the claims of each
end. -/
def Obligations.TransmitReadLoadsTheBuffer : Prop :=
  (∀ (s : State) (r : TransmitRead) (changed : PageChange), Running s (.transmitRead r) →
    let found := s.cellsChange r.loc.block r.loc.page changed
    let result := readSlot (slotData found.flash r.loc) r.key
    let free := { found with sequencer := s.sequencer.freed }
    let filled := fun b => { s.transmit with buffers := s.transmit.buffers.set r.buffer.val b r.buffer.isLt }
    (∀ record k, result = some record → s.buffer r.buffer = .reading (.tracker k) true →
      EndsIn (exec (.transmitReadComplete changed) s) s { free with
        transmit := filled (.loaded (.tracker k) record true)
        tracker := { s.tracker with entries := s.tracker.entries.map fun e =>
          if e.key = k ∧ e.state = .queued then { e with state := .loaded } else e } }) ∧
    (∀ record k, result = some record → s.buffer r.buffer = .reading (.answer k) true →
      EndsIn (exec (.transmitReadComplete changed) s) s { free with
        transmit := filled (.loaded (.answer k) record true)
        gap := { s.gap with answers := s.gap.answers.map fun a => if a.key = k then { a with loaded := true } else a } }) ∧
    (∀ record k, result = some record → s.buffer r.buffer = .reading (.sendOnce k) true →
      EndsIn (exec (.transmitReadComplete changed) s) s { free with
        transmit := filled (.loaded (.sendOnce k) record true) }) ∧
    (∀ record o, result = some record → s.buffer r.buffer = .reading o false →
      EndsIn (exec (.transmitReadComplete changed) s) s { free with transmit := filled .empty }) ∧
    (result = none →
      let damaged := (free.damagedRead r.key r.loc).setBuffer r.buffer .empty
      let u := match (s.buffer r.buffer).heldBy with
        | some o => damaged.ownerAbsent o
        | none => damaged
      EndsIn (exec (.transmitReadComplete changed) s) s u ∧ u.buffer r.buffer = .empty ∧
      u.index = (free.damagedRead r.key r.loc).index ∧ u.receipts = (free.damagedRead r.key r.loc).receipts ∧
      u.map = (free.damagedRead r.key r.loc).map ∧ u.sequencer = (free.damagedRead r.key r.loc).sequencer ∧
      (∀ k, s.buffer r.buffer = .reading (.tracker k) true →
        ∀ e, u.entry k = some e → e.state.isLive = false) ∧
      (∀ k, s.buffer r.buffer = .reading (.answer k) true → u.answer k = none) ∧
      (∀ k, s.buffer r.buffer = .reading (.sendOnce k) true → k ∉ u.transmit.sendOnce))) ∧
  (∀ (s : State) (k : Key),
    (∀ e, s.entry k = some e → e.state.isLive = true → ∃ t : TransmitAssembly,
      let u := { s with
        tracker := { s.tracker with entries := s.tracker.entries.map fun x =>
          if x.key = k then { x with state := .short, damaged := true } else x }
        port := (s.post (.outcome k.seq false e.holders.length)).port
        transmit := t }
      s.ownerAbsent (.tracker k) = u ∧ t.sendOnce = s.transmit.sendOnce ∧ Released u s fun o => o == .tracker k) ∧
    ((∀ e, s.entry k = some e → e.state.isLive = false) → s.ownerAbsent (.tracker k) = s) ∧
    (∃ t : TransmitAssembly,
      let u := { s with
        gap := { s.gap with answers := s.gap.answers.filter fun a => a.key ≠ k }
        transmit := t }
      s.ownerAbsent (.answer k) = u ∧ t.sendOnce = s.transmit.sendOnce ∧
      Released u s fun o => (s.answer k).isSome && o == .answer k) ∧
    s.ownerAbsent (.sendOnce k) =
      { s with transmit := { s.transmit with sendOnce := s.transmit.sendOnce.filter fun o => o ≠ k } })

/-- A read is judged as the array holds its slot after what has changed in the cells (log 2). A class-2 read completed answers
READ_RECORD with FOUND and the record or DAMAGED and its key. A class-5 read stages a GOOD record whose key still stands at the
slot read, is not staged and finds an EVACUATION place; a key no longer there is not staged, and a DAMAGED one is handled as any
damaged read. -/
def Obligations.HostAndEvacuationReadsComplete : Prop :=
  (∀ (s : State) (r : SlotRead) (changed : PageChange), Running s (.hostRead r) →
      let found := s.cellsChange r.loc.block r.loc.page changed
      let result := readSlot (slotData found.flash r.loc) r.key
      let free := { found with sequencer := s.sequencer.freed }
      (∀ record, result = some record → EndsIn (exec (.hostReadComplete changed) s) s
        { free with port := { s.port with state := .answered (.found false record) } }) ∧
      (result = none → EndsIn (exec (.hostReadComplete changed) s) s
        ((free.damagedRead r.key r.loc).respond (.damaged r.key)))) ∧
  (∀ (s : State) (r : SlotRead) (changed : PageChange), Running s (.evacuationRead r) →
      let found := s.cellsChange r.loc.block r.loc.page changed
      let result := readSlot (slotData found.flash r.loc) r.key
      let free := { found with
        sequencer := s.sequencer.freed
        map := { s.map with evacuator := { s.map.evacuator with reads := s.map.evacuator.reads.erase r } } }
      (∀ record, result = some record → s.locate r.key = some r.loc → (∀ e ∈ s.intake, e.record.key ≠ r.key) →
        s.evacuationEntries < 4 → EndsIn (exec (.evacuationReadComplete changed) s) s
          { free with intake := s.intake ++ [⟨record, .evacuation r.loc, .waiting⟩] }) ∧
      (∀ record, result = some record → s.locate r.key ≠ some r.loc →
        EndsIn (exec (.evacuationReadComplete changed) s) s free) ∧
      (result = none → EndsIn (exec (.evacuationReadComplete changed) s) s (free.damagedRead r.key r.loc)))

/-- What a pass writes reads back: the slot of a record in range is GOOD for its key and gives its fields. Any cells whose
stored check fits, whose length field lies in 1 to 240 and whose key is the one expected are GOOD with their fields. A check
that differs, a length of 0 or above 240, another origin or seq, and an erased slot are each DAMAGED; so are cells whose
payload bytes are not as many as the length field says (the model's choice, log 32). A scan report gives each tag as erased,
good with its key or torn, whether each slot's data is erased, the header with its validity, the factory mark, and whether the
retire mark is valid on its block. After a pass that passed, the page reports the key of each record in its slot, whose data
reads back, and a header pass's header as valid with its fields; all else of the array is as it was. After a RETIRE MARK that
passed, page 31 reports a valid mark of its block and of no other, and all else is as it was. -/
def Obligations.SlotsReadBack : Prop :=
  (∀ (r : Record), recordInRange r = true →
    readSlot (slotOf r) r.key = some r ∧ (∀ k, k ≠ r.key → readSlot (slotOf r) k = none)) ∧
  (∀ origin seq cls len stamp payload check k,
    let read := readSlot (.cells origin seq cls len stamp payload check) k
    (check ≠ slotCheck origin seq cls len stamp payload → read = none) ∧
    (len.toNat = 0 ∨ 240 < len.toNat → read = none) ∧
    (origin.toNat ≠ k.origin ∨ seq.toNat ≠ k.seq → read = none) ∧
    (payload.length ≠ len.toNat → read = none) ∧
    (check = slotCheck origin seq cls len stamp payload → 1 ≤ len.toNat → len.toNat ≤ 240 →
      payload.length = len.toNat → k = ⟨origin.toNat, seq.toNat⟩ → read = some ⟨k, cls.toNat, stamp, payload⟩)) ∧
  (∀ k, readSlot .erased k = none) ∧
  (∀ (b : BlockId) (c : PageCells),
    let report := scanReport b c
    (report.slots.length = 8 ∧ ∀ i : SlotNo, ∃ tag dataErased, report.slots[i.val]? = some ⟨tag, dataErased⟩ ∧
      (dataErased = true ↔ c.slots.get i = .erased) ∧
      (c.tags.get i = .erased → tag = .erased) ∧
      (∀ origin seq check, c.tags.get i = .cells origin seq check →
        (check = tagCheck origin seq → tag = .good origin.toNat seq.toNat) ∧ (check ≠ tagCheck origin seq → tag = .torn)) ∧
      ∀ k, keyInRange k = true → c.tags.get i = tagOf k → tag = .good k.origin k.seq) ∧
    (report.header = c.header ∧ (c.header = .erased → report.headerValid = false) ∧
      (∀ chain writer floor check, c.header = .cells chain writer floor check →
        (report.headerValid = true ↔ check = headerCheck chain writer floor)) ∧
      ∀ h : HeaderInfo, HeaderAdmitted h → c.header = headerOf h →
        report.headerValid = true ∧ headerFields report.header = some h) ∧
    report.factory = c.factory ∧
    ((c.mark = .erased → report.markValid = false) ∧
      (∀ block check, c.mark = .cells block check →
        (report.markValid = true ↔ block.toNat = b.val ∧ check = markCheck block)) ∧
      ∀ b', c.mark = markOf b' → (report.markValid = true ↔ b' = b))) ∧
  (∀ (flash : List (Nat × PageCells)) (p : PassLane), p.first.val + p.records.length ≤ 8 →
    (∀ r ∈ p.records, recordInRange r = true) →
    let address := pageAddress p.block p.page
    let old := readPage flash address
    let new := readPage (programFlash flash p none) address
    let report := scanReport p.block new
    (∀ n r (i : SlotNo), p.records[n]? = some r → i.val = p.first.val + n →
      readSlot (new.slots.get i) r.key = some r ∧ report.slots[i.val]? = some ⟨.good r.key.origin r.key.seq, false⟩) ∧
    (∀ i : SlotNo, i.val < p.first.val ∨ p.first.val + p.records.length ≤ i.val →
      new.slots.get i = old.slots.get i ∧ new.tags.get i = old.tags.get i) ∧
    (p.header = none → new.header = old.header) ∧
    (∀ h, p.header = some h → HeaderAdmitted h → report.headerValid = true ∧ headerFields report.header = some h) ∧
    new.mark = old.mark ∧ new.factory = old.factory ∧
    ∀ a, a ≠ address → readPage (programFlash flash p none) a = readPage flash a) ∧
  (∀ (flash : List (Nat × PageCells)) (b : BlockId),
    let address := pageAddress b 31
    let new := readPage (markFlash flash b .whole) address
    (∀ b', (scanReport b' new).markValid = true ↔ b' = b) ∧ new = { readPage flash address with mark := new.mark } ∧
    ∀ a, a ≠ address → readPage (markFlash flash b .whole) a = readPage flash a)

/-! ### The station's own blocks -/

/-- The Array Sequencer: on a free array the oldest request of the first class that has one eligible starts and leaves its
list, programs, erases and marks only while PROT is not asserted; an erase takes with it, lane by lane in ascending order,
the first waiting request of each other lane. -/
def Obligations.TheSequencerServesByClass : Prop :=
  ∀ (s : State),
    let q := s.sequencer
    let erases := q.dirtyErases ++ q.reclaimErases
    let noRead := q.transmitReads = [] ∧ q.hostReads = []
    let starts := fun (left : Sequencer) (o : Operation) =>
      s.startNext = { s with sequencer := { left with inFlight := some o } }
    (q.inFlight.isSome ∨ q.exclusive = true → s.startNext = s) ∧
    (q.inFlight = none → q.exclusive = false →
      (∀ r rest, q.transmitReads = r :: rest → starts { q with transmitReads := rest } (.transmitRead r)) ∧
      (∀ r rest, q.transmitReads = [] → q.hostReads = r :: rest → starts { q with hostReads := rest } (.hostRead r)) ∧
      (∀ p rest, noRead → q.protect = false → q.programs = p :: rest → starts { q with programs := rest } (.program p)) ∧
      (∀ lead rest, noRead → q.protect = false → q.programs = [] → erases = lead :: rest → ∃ others,
        starts { q with
            dirtyErases := q.dirtyErases.filter fun b => b ∉ lead :: others
            reclaimErases := q.reclaimErases.filter fun b => b ∉ lead :: others } (.erase (lead :: others)) ∧
        (others.map laneOf).Pairwise (· < ·) ∧
        ∀ b, b ∈ others ↔ laneOf b ≠ laneOf lead ∧
          ∃ before after, erases = before ++ b :: after ∧ ∀ x ∈ before, laneOf x ≠ laneOf b) ∧
      (∀ r rest, noRead → q.protect = true ∨ q.programs = [] ∧ erases = [] → q.evacuationReads = r :: rest →
        starts { q with evacuationReads := rest } (.evacuationRead r)) ∧
      (∀ b rest, noRead → q.protect = false → q.programs = [] → erases = [] → q.evacuationReads = [] →
        q.retireMarks = b :: rest → starts { q with retireMarks := rest } (.retireMark b)) ∧
      (noRead → q.evacuationReads = [] → q.protect = true ∨ q.programs = [] ∧ erases = [] ∧ q.retireMarks = [] →
        s.startNext = s))

/-- The program builder: a pass is formed when an entry waits, no program request does and a lane is able. The first able
lane after the rotation pointer leads, opening its lowest-numbered FREE block when it has none OPEN; while entries remain, each
other lane that is OPEN-AVAILABLE, not engaged and at its page joins in rotation order; each lane takes the oldest WAITING
entries left, as many as it has free slots or as many as are left, and every lane of the pass is engaged. -/
def Obligations.TheBuilderFormsThePass : Prop :=
  ∀ (s : State),
    let able := fun l => (s.lane l).engaged = false ∧ (s.condition l = .openAvailable ∨ s.condition l = .needsBlock)
    let waiting := s.intake.filter fun e => e.state == .waiting
    (waiting = [] ∨ s.sequencer.programs ≠ [] ∨ (∀ l, ¬ able l) → s.formPass = s) ∧
    (∀ i : Lane, waiting ≠ [] → s.sequencer.programs = [] → able (s.map.rotation + 1 + i) →
      (∀ j, j < i → ¬ able (s.map.rotation + 1 + j)) →
      let lead := s.map.rotation + 1 + i
      ∃ lanes u, u = s.formPass ∧
        u = { s with
          intake := u.intake, map := u.map, freeDraws := u.freeDraws
          sequencer := { s.sequencer with programs := [lanes] } } ∧
        u.map.rotation = lead ∧ u.map.evacuator = s.map.evacuator ∧
        (∃ p joined, lanes = p :: joined ∧ laneOf p.block = lead) ∧ (lanes.map fun p => laneOf p.block).Nodup ∧
        (∀ p ∈ lanes, ∃ chain h w, u.block p.block = .opened chain h w ∧ p.page = w.page ∧ p.first = w.slots ∧
          1 ≤ p.records.length ∧ w.slots.val + p.records.length ≤ 8 ∧ (s.lane (laneOf p.block)).engaged = false ∧
          p.header = if w.page = 0 ∧ w.passes = 0 then h else none) ∧
        (∀ p ∈ lanes, ∀ p' ∈ lanes, p.page = p'.page) ∧
        lanes.flatMap PassLane.records <+: waiting.map IntakeEntry.record ∧
        (∀ before p p' after, lanes = before ++ p :: p' :: after → p.first.val + p.records.length = 8) ∧
        (let page := (lanes.head?.map PassLane.page).getD 0
          let joiners := [lead + 1, lead + 2, lead + 3].filter fun l =>
            !(s.lane l).engaged && (s.openBlock l).any fun o => o.position.page == page
          (lanes.map fun p => laneOf p.block) <+: lead :: joiners ∧
          ((lanes.map fun p => laneOf p.block) = lead :: joiners ∨
            lanes.flatMap PassLane.records = waiting.map IntakeEntry.record)) ∧
        (∀ before p after, lanes = before ++ p :: after →
          p.records.length = min (8 - p.first.val) (waiting.length - (before.flatMap PassLane.records).length)) ∧
        u.intake = s.intake.map (fun e => match e.state, (lanes.flatMap PassLane.assignments).lookup e.record.key with
          | .waiting, some l => { e with state := .inPass l }
          | _, _ => e) ∧
        (∀ l, u.lane l = { s.lane l with engaged := (s.lane l).engaged || lanes.any fun p => laneOf p.block == l }) ∧
        (s.condition lead = .openAvailable →
          u.map.blocks = s.map.blocks ∧ u.map.nextChain = s.map.nextChain ∧ u.freeDraws = s.freeDraws) ∧
        (s.condition lead = .needsBlock → ∃ b, laneOf b = lead ∧ s.block b = .free ∧
          (∀ b', b' < b → laneOf b' = lead → s.block b' ≠ .free) ∧
          u.block b = .opened s.map.nextChain (some ⟨s.map.nextChain, s.ownId, s.tracker.nextSeq.getD 0⟩) ⟨0, 0, 0⟩ ∧
          (∀ b', b' ≠ b → u.block b' = s.block b') ∧
          (s.map.nextChain < 4294967295 → u.map.nextChain = s.map.nextChain + 1 ∧ u.freeDraws = s.freeDraws)))

/-- The reclaimer tests a lane when a pin is released, when a mount has ended, and when a block of the lane has changed state;
a purge that takes a key out of the index is itself a release, so it has every lane tested; no other lane changes. No lane it
has tested is left that wants reclamation, but one whose candidate it dropped; every block it purged was SEALED and unpinned,
lay in a low lane, was the oldest of that lane or, at a pin release, its waiting candidate, is ERASING with a reclaim request,
and its keys have left the index and the Receipt List. A lane gives no more blocks than bring its FREE blocks and those awaiting
erase to 2, and none while its candidate goes on waiting. A candidate it has newly set is the oldest SEALED block of its low
lane and is pinned; after a pin release every candidate left is pinned and its lane not eased. A candidate that waits is tested
again at a pin release: dropped, with no block of the lane given, when an erase has raised the lane's FREE count since it was
chosen (log 35) or the lane is no longer low, purged when no longer pinned. A pin is released when a tracker entry leaves its
live states for SECURED or SHORT, when an answer entry is removed, and when a key is removed from the index or repointed,
whether or not anything names it, and after such an event every candidate left is pinned and its lane low and not eased. That
a completion tests only the lanes one of whose blocks it changed is the model's choice (log 38). -/
def Obligations.TheReclaimerPurgesTheOldest : Prop :=
  (∀ (s before : State) (released : Bool), (∀ l b, (s.lane l).candidate = some b → laneOf b = l ∧ s.isSealed b) →
    let u := s.reclaim released before
    let atRelease := released = true ∨ ∃ k l, s.locate k = some l ∧ u.locate k ≠ some l
    let tested := fun l => atRelease ∨ before.controller.state = .mounting ∨
      ∃ b, laneOf b = l ∧ (before.block b).sameState (s.block b) = false
    let eased := fun l => s.low l = false ∨ (s.lane l).freeThen < (s.freePool l).length
    (∀ l, tested l → ((s.lane l).candidate = none ∨ ¬ eased l) → u.low l = true → (u.lane l).candidate = none →
      ∀ b chain, laneOf b = l → u.block b ≠ .sealed chain) ∧
    (∀ l, ¬ tested l → u.lane l = s.lane l ∧ ∀ b, laneOf b = l → u.block b = s.block b) ∧
    (∀ l b, atRelease → (s.lane l).candidate = some b → eased l →
      (u.lane l).candidate = none ∧ ∀ b', laneOf b' = l → u.block b' = s.block b') ∧
    u.index = s.index.filter (fun e => u.block e.2.block = s.block e.2.block) ∧
    u.receipts = s.receipts.filter (fun k => ∀ e ∈ s.index, e.1 = k → u.block e.2.block = s.block e.2.block) ∧
    (∀ b, u.block b ≠ s.block b → u.block b = .erasing ∧ b ∈ u.sequencer.reclaimErases ∧ s.pinned b = false ∧
      s.low (laneOf b) = true ∧
      (∃ chain, s.block b = .sealed chain ∧ ((atRelease ∧ (s.lane (laneOf b)).candidate = some b) ∨
        ∀ b' chain', laneOf b' = laneOf b → s.block b' = .sealed chain' → chain ≤ chain' ∨ u.block b' = .erasing)) ∧
      ∀ c, (s.lane (laneOf b)).candidate = some c → atRelease ∧ u.block c = .erasing) ∧
    (∀ l, s.low l = true → (u.freePool l).length + u.awaitingErase l ≤ 2) ∧
    (∀ l b, (u.lane l).candidate = some b → (s.lane l).candidate = some b ∨
      (u.pinned b = true ∧ u.low l = true ∧ (u.lane l).freeThen = (u.freePool l).length ∧ laneOf b = l ∧ ∃ chain, u.block b = .sealed chain ∧
        ∀ b' chain', laneOf b' = l → u.block b' = .sealed chain' → chain ≤ chain')) ∧
    (atRelease → ∀ l b, (u.lane l).candidate = some b →
      u.pinned b = true ∧ u.low l = true ∧ (u.freePool l).length ≤ (u.lane l).freeThen) ∧
    u = { s with
      index := u.index, receipts := u.receipts
      map := { s.map with blocks := u.map.blocks, lanes := u.map.lanes }
      sequencer := { s.sequencer with reclaimErases := u.sequencer.reclaimErases } }) ∧
  (∀ (s : State) (l : Lane) (b : BlockId), (s.lane l).candidate = some b →
    let eased := s.low l = false ∨ (s.lane l).freeThen < (s.freePool l).length
    (eased → s.retest l = s.setLane l { s.lane l with candidate := none }) ∧
    (¬ eased → s.pinned b = true → s.retest l = s) ∧
    (¬ eased → s.pinned b = false → (s.retest l).block b = .erasing ∧ ((s.retest l).lane l).candidate = none)) ∧
  (∀ (s u : State), pinReleased s u = true ↔
    (∃ e ∈ s.tracker.entries, e.state.isLive = true ∧
      ∃ e' ∈ u.tracker.entries, e'.key = e.key ∧ (e'.state = .secured ∨ e'.state = .short)) ∨
    (∃ a ∈ s.gap.answers, ∀ a' ∈ u.gap.answers, a'.key ≠ a.key) ∨
    (∃ k l, s.locate k = some l ∧ u.locate k ≠ some l)) ∧
  (∀ (s u : State), u.held = false → u.controller.state ≠ .mounting → pinReleased s u = true →
    (∀ l b, (u.lane l).candidate = some b → laneOf b = l) → ∀ l b, ((State.settle s u).lane l).candidate = some b →
      let t := State.settle s u
      t.pinned b = true ∧ t.low l = true ∧ (t.freePool l).length ≤ (t.lane l).freeThen)

/-- The Transmit Assembly: an EMPTY buffer goes to waiting work, to the answer due first unless origin work waits and the
other buffer is an answer's, else to the lowest seq; a key indexed is read, an absent one is told to its owner. A gift is
made exactly while a buffer is EMPTY and answer or origin work waits, and afterwards no buffer stays EMPTY while work
waits. -/
def Obligations.BuffersGoToWaitingWork : Prop :=
  (∀ (s : State) (i : BufferNo) (o : BufferOwner), s.nextGift = some (i, o) →
    let answers := fun a => a ∈ s.gap.answers ∧ a.due = true ∧ a.loaded = false ∧ s.hasBuffer (.answer a.key) = false
    let origin := fun o => s.hasBuffer o = false ∧
      ((∃ e ∈ s.tracker.entries, e.state = .queued ∧ o = .tracker e.key) ∨ ∃ k ∈ s.transmit.sendOnce, o = .sendOnce k)
    s.buffer i = .empty ∧
    ((∃ before a after, s.gap.answers = before ++ a :: after ∧ o = .answer a.key ∧ answers a ∧
        (∀ b ∈ before, answers b → a.dueAt < b.dueAt) ∧ (∀ b ∈ after, answers b → a.dueAt ≤ b.dueAt) ∧
        ((∃ o', origin o') → (s.buffer (1 - i)).heldByAnswer = false)) ∨
      (origin o ∧ (∀ o', origin o' → o.key.seq ≤ o'.key.seq) ∧
        ((∃ a, answers a) → (s.buffer (1 - i)).heldByAnswer = true)))) ∧
  (∀ (s : State) (i : BufferNo) (o : BufferOwner) (l : Loc), s.locate o.key = some l → s.giveBuffer i o = { s with
    transmit := { s.transmit with buffers := s.transmit.buffers.set i.val (.reading o true) i.isLt }
    sequencer := { s.sequencer with transmitReads := s.sequencer.transmitReads ++ [⟨i, o.key, l⟩] } }) ∧
  (∀ (s : State) (i : BufferNo) (k : Key), s.locate k = none →
    (s.giveBuffer i (.answer k)).answer k = none ∧ k ∉ (s.giveBuffer i (.sendOnce k)).transmit.sendOnce ∧
    ∀ e, s.entry k = some e → e.state.isLive = true → (s.giveBuffer i (.tracker k)).tracker.entries =
      s.tracker.entries.map fun x => if x.key = k then { x with state := .short, damaged := true } else x) ∧
  (∀ (s : State), (s.tracker.entries.map TrackerEntry.key).Nodup → (State.giveBuffers s.giftBound s).nextGift = none) ∧
  (∀ (s : State), s.nextGift = none ↔ (∀ i, s.buffer i ≠ .empty) ∨
    ((∀ a ∈ s.gap.answers, a.due = true → a.loaded = true ∨ s.hasBuffer (.answer a.key) = true) ∧
      (∀ e ∈ s.tracker.entries, e.state = .queued → s.hasBuffer (.tracker e.key) = true) ∧
      ∀ k ∈ s.transmit.sendOnce, s.hasBuffer (.sendOnce k) = true))

/-- The evacuator: while EVACUATION entries and outstanding reads number fewer than 4, it places class-5 reads for keys of
its current block that are neither staged nor being read, the first in page and slot order. -/
def Obligations.TheEvacuatorReadsItsBlock : Prop :=
  ∀ (s : State),
    (s.map.evacuator.current = none → State.evacuate 4 s = s) ∧
    (∀ b, s.map.evacuator.current = some b →
      let eligible := fun (r : SlotRead) => (r.key, r.loc) ∈ s.index ∧ r.loc.block = b ∧
        (∀ e ∈ s.intake, e.record.key ≠ r.key) ∧ ∀ o ∈ s.map.evacuator.reads, o.key ≠ r.key
      ∃ placed : List SlotRead, State.evacuate 4 s = { s with
          map := { s.map with evacuator := { s.map.evacuator with reads := s.map.evacuator.reads ++ placed } }
          sequencer := { s.sequencer with evacuationReads := s.sequencer.evacuationReads ++ placed } } ∧
        (∀ r ∈ placed, eligible r) ∧ (placed.map SlotRead.key).Nodup ∧
        (placed = [] ∨ s.evacuationEntries + s.map.evacuator.reads.length + placed.length ≤ 4) ∧
        (∀ r, eligible r → (∀ p ∈ placed, p.key ≠ r.key) →
          4 ≤ s.evacuationEntries + s.map.evacuator.reads.length + placed.length ∧
          ∀ p ∈ placed, ¬ (r.loc.page < p.loc.page ∨ r.loc.page = p.loc.page ∧ r.loc.slot < p.loc.slot)))

/-- A program or erase completion posts, after the events of its blocks, LANE_FULL for each lane whose condition became FULL
and LANE_RESUMED with the new condition for each lane that left FULL, in ascending lane order (the model's, log 26), and for
no other lane. A completion that leaves every lane DEAD makes the station HALTED: a LEAVING roll due if it was on the bus, the
protocol's lists emptied, every entry that was not done SHORT, the claims of all these on buffers ended, and HALTED posted after the events of the blocks and lanes. -/
def Obligations.TheLastDeadLaneHaltsTheStation : Prop :=
  (∀ (s : State), s.controller.state ≠ .mounting → s.controller.state ≠ .halted →
    (s.tracker.entries.map TrackerEntry.key).Nodup →
    let onBus := s.controller.state = .joining ∨ s.controller.state = .active ∨ s.controller.state = .leaving
    let halts := fun (u : State) => u.allDead = true →
      u.controller.state = .halted ∧ u.controller.rollTimer = none ∧
      (onBus → u.controller.rollDue = some .leaving) ∧ (¬ onBus → u.controller.rollDue = none) ∧
      u.controller.config = s.controller.config ∧ u.controller.roster = s.controller.roster ∧
      u.receipts = [] ∧ u.gap = { s.gap with answers := [], slot := .empty, timer := none } ∧ u.transmit.sendOnce = [] ∧
      u.tracker = { s.tracker with entries := s.tracker.entries.map fun e =>
        if e.state = .secured ∨ e.state = .short then e else { e with state := .short } } ∧
      Released u s (fun o => match o with
        | .tracker k => s.tracker.entries.any fun e => e.key == k && e.state != .secured && e.state != .short
        | .answer k => s.gap.answers.any fun a => a.key == k
        | .sendOnce k => s.transmit.sendOnce.contains k) ∧
      ∃ mid : State, EventsFollow mid s ∧ EventsFollow u (mid.post (.halted s.controller.state))
    (∀ lanes results, Running s (.program lanes) → ∃ u, EndsIn (exec (.programComplete results) s) s u ∧ halts u) ∧
    (∀ blocks results, Running s (.erase blocks) → ∃ u, EndsIn (exec (.eraseComplete results) s) s u ∧ halts u)) ∧
  (∀ (s : State),
    let told := fun (u : State) => ([0, 1, 2, 3] : List Lane).filterMap fun l =>
      if s.condition l ≠ .full ∧ u.condition l = .full then some (Event.laneFull l)
      else if s.condition l = .full ∧ u.condition l ≠ .full then some (.laneResumed l (u.condition l))
      else none
    let ofBlocks := fun (events : List Event) => ∀ e ∈ events, ∃ b l cause, e = .blockRetired b l cause
    (∀ lanes results, Running s (.program lanes) → ∃ u, EndsIn (exec (.programComplete results) s) s u ∧
      ∃ retired, ofBlocks retired ∧ EventsFollow u ((retired ++ told u).foldl State.post s)) ∧
    (∀ blocks results, Running s (.erase blocks) → ∃ u, EndsIn (exec (.eraseComplete results) s) s u ∧
      ∃ retired, ofBlocks retired ∧ EventsFollow u ((retired ++ told u).foldl State.post s) ∧
        (u.allDead = false → u.port = ((retired ++ told u).foldl State.post s).port)))

/-! ### The mount -/

/-- A scan read completed in the mount reports the page as the array holds it after what has changed in its cells (log 2):
page 0 is followed by page 31 unless the block is BAD, page 31 classifies the block and the next one begins; after block 255
the chained blocks are taken in ascending chain number, and a page of a chained block is followed by the next, page 30 by the
CLASSIFY phase's page 31 and the next chained block. The class of a block, of a slot and of a page are those of R73, R74 and
R75, and each location of a page is offered to the candidates, the highest position in chain order winning (R76). A block
classified adds its finding with its valid header, the header's floor where it is the writer's greatest, and 1 to the count of
its class; a page adds its class to those of its block, and its locations in ascending slot order. -/
def Obligations.ScanReadsGoOn : Prop :=
  (∀ (s : State) (b : BlockId) (p : PageNo) (changed : PageChange), Running s (.scanRead b p) →
    let found := s.cellsChange b p changed
    let report := scanReport b (readPage found.flash (pageAddress b p))
    let goesOn := fun (sc : Scanner) (b : BlockId) (p : PageNo) => exec (.scanReadComplete changed) s = .next { found with
      scanner := { sc with block := b, page := p }
      sequencer := { s.sequencer with inFlight := some (.scanRead b p) } }
    let begins := fun (sc : Scanner) => ∀ f rest, sc.queue = f :: rest →
      goesOn ({ sc with queue := rest }.addPage f.block f.chain 0 f.page0) f.block 1
    let chained := fun (sc : Scanner) => { sc with phase := .pages, queue := chainedInOrder sc.findings }
    (s.scanner.phase = .classify → s.scanner.page0 = none → report.factory = false →
      goesOn { s.scanner with page0 := some report } b 31) ∧
    (∀ next : BlockId, next.val = b.val + 1 → s.scanner.phase = .classify → s.scanner.page0 = none →
      report.factory = true → goesOn (s.scanner.addBlock b .bad report none) next 0) ∧
    (∀ (next : BlockId) (page0 : PageReport), next.val = b.val + 1 → s.scanner.phase = .classify →
      s.scanner.page0 = some page0 →
      goesOn (s.scanner.addBlock b (blockClass page0 report) page0 (some report)) next 0) ∧
    (b = 255 → s.scanner.phase = .classify → s.scanner.page0 = none → report.factory = true →
      begins (chained (s.scanner.addBlock b .bad report none))) ∧
    (∀ page0, b = 255 → s.scanner.phase = .classify → s.scanner.page0 = some page0 →
      begins (chained (s.scanner.addBlock b (blockClass page0 report) page0 (some report)))) ∧
    (∀ f, s.scanner.phase = .pages → (s.scanner.findings.find? fun f => f.block == b) = some f → p.val < 30 →
      goesOn (s.scanner.addPage b f.chain p report) b (p + 1)) ∧
    (∀ f last, s.scanner.phase = .pages → (s.scanner.findings.find? fun f => f.block == b) = some f → p = 30 →
      f.page31 = some last → begins ((s.scanner.addPage b f.chain p report).addPage b f.chain 31 last))) ∧
  (∀ (page0 page31 : PageReport),
    let slotsErased := fun (r : PageReport) => ∀ t ∈ r.slots, t.tag = .erased ∧ t.dataErased = true
    let free := slotsErased page0 ∧ page0.header = .erased ∧ slotsErased page31 ∧ page31.mark = .erased
    let headed := page0.headerValid = true ∧ ∃ h, headerFields page0.header = some h ∧ 1 ≤ h.writer ∧ h.writer ≤ 30
    (page0.factory = true → blockClass page0 page31 = .bad) ∧
    (page0.factory = false → page31.markValid = true → blockClass page0 page31 = .retired) ∧
    (page0.factory = false → page31.markValid = false → (free → blockClass page0 page31 = .free) ∧
      (¬ free → headed → blockClass page0 page31 = .chained) ∧
      (¬ free → ¬ headed → blockClass page0 page31 = .dirty))) ∧
  (∀ (findings : List BlockFinding), (chainedInOrder findings).Perm (findings.filter fun f => f.cls == .chained) ∧
    ((chainedInOrder findings).map BlockFinding.chain).Pairwise (· ≤ ·)) ∧
  (∀ (r : SlotReport), (slotFinding r = .empty ↔ r.tag = .erased ∧ r.dataErased = true) ∧
    ∀ k, slotFinding r = .location k ↔ r.tag = .good k.origin k.seq ∧ r.dataErased = false ∧
      1 ≤ k.origin ∧ k.origin ≤ 30 ∧ 1 ≤ k.seq ∧ k.seq ≤ 16777215) ∧
  (∀ (page : PageNo) (r : PageReport),
    let some_ := fun c => ∃ t ∈ r.slots, slotFinding t = c
    (some_ .torn → pageClass page r = .torn) ∧
    (¬ some_ .torn → ¬ some_ .empty → pageClass page r = .full) ∧
    (¬ some_ .torn → some_ .empty → (∃ k, some_ (.location k)) ∨ page = 0 → pageClass page r = .partly) ∧
    (some_ .empty → (∀ t ∈ r.slots, slotFinding t = .empty) → page ≠ 0 → pageClass page r = .blank)) ∧
  (∀ (sc : Scanner) (b : BlockId) (chain : Nat) (page : PageNo) (r : PageReport),
    (sc.addPage b chain page r).counts.torn = sc.counts.torn + (if pageClass page r = .torn then 1 else 0) ∧
    (∀ k, (∀ t ∈ r.slots, slotFinding t ≠ .location k) →
      mapGet (sc.addPage b chain page r).candidates k = mapGet sc.candidates k) ∧
    ∀ k (i : SlotNo) before t after, r.slots = before ++ t :: after → before.length = i.val →
      slotFinding t = .location k → (∀ x ∈ before ++ after, slotFinding x ≠ .location k) →
      mapGet (sc.addPage b chain page r).candidates k = some (match mapGet sc.candidates k with
        | none => ⟨chain, ⟨b, page, i⟩, 1⟩
        | some c =>
          if c.chain < chain ∨ c.chain = chain ∧ (c.loc.page < page ∨ c.loc.page = page ∧ c.loc.slot < i) then
            ⟨chain, ⟨b, page, i⟩, c.count + 1⟩
          else { c with count := c.count + 1 })) ∧
  (∀ (sc : Scanner) (k : Key) (chain : Nat) (l : Loc), (sc.offer k chain l).counts.duplicates = sc.counts.duplicates +
    (match mapGet sc.candidates k with
      | some c => if c.count = 1 then 1 else 0
      | none => 0)) ∧
  (∀ (sc : Scanner) (k j : Key) (chain : Nat) (l : Loc), mapGet (sc.offer k chain l).candidates j =
    if j = k then some (match mapGet sc.candidates k with
      | none => ⟨chain, l, 1⟩
      | some c =>
        if c.chain < chain ∨ c.chain = chain ∧ (c.loc.page < l.page ∨ c.loc.page = l.page ∧ c.loc.slot < l.slot) then
          ⟨chain, l, c.count + 1⟩
        else { c with count := c.count + 1 })
    else mapGet sc.candidates j) ∧
  (∀ (r : PageReport) (h : HeaderInfo), r.validHeader = some h ↔
    r.headerValid = true ∧ headerFields r.header = some h ∧ 1 ≤ h.writer ∧ h.writer ≤ 30) ∧
  (∀ (sc : Scanner) (b : BlockId) (cls : BlockClass) (page0 : PageReport) (page31 : Option PageReport),
    let t := sc.addBlock b cls page0 page31
    t = { sc with
      page0 := none, findings := sc.findings ++ [⟨b, cls, page0.validHeader, page0, page31⟩], floors := t.floors
      counts := match cls with
        | .bad => { sc.counts with bad := sc.counts.bad + 1 }
        | .free => { sc.counts with free := sc.counts.free + 1 }
        | .chained => { sc.counts with chained := sc.counts.chained + 1 }
        | .dirty => { sc.counts with dirty := sc.counts.dirty + 1 }
        | .retired => { sc.counts with retired := sc.counts.retired + 1 } } ∧
    (page0.validHeader = none → t.floors = sc.floors) ∧
    (∀ h, page0.validHeader = some h → ∀ id, 1 ≤ id → id ≤ 30 → stationGet t.floors id none =
      if id = h.writer then some (max h.floor ((stationGet sc.floors id none).getD 0)) else stationGet sc.floors id none)) ∧
  (∀ (sc : Scanner) (b : BlockId) (chain : Nat) (page : PageNo) (r : PageReport),
    let t := sc.addPage b chain page r
    t = { sc with
      candidates := t.candidates, pages := t.pages
      counts := { sc.counts with torn := t.counts.torn, duplicates := t.counts.duplicates } } ∧
    (∀ b', (mapGet t.pages b').getD [] = (mapGet sc.pages b').getD [] ++ if b' = b then [pageClass page r] else []) ∧
    (r.slots.length = 8 →
      let located := (List.finRange 8).filterMap fun i => match (r.slots[i.val]?).map slotFinding with
        | some (.location k) => some (k, (⟨b, page, i⟩ : Loc))
        | _ => none
      let offered := located.foldl (fun sc e => sc.offer e.1 chain e.2) sc
      t.candidates = offered.candidates ∧ t.counts.duplicates = offered.counts.duplicates))

/-- The last scan read of the mount, of an array with or without chained blocks, ends the mount: the array is released with a
request for each DIRTY block in ascending block number, the map, the index and the origin rows are rebuilt as R76 to R79 say,
IDLE or READY is entered with MOUNTED, or HALTED when every lane is DEAD, the line seeks when a configuration was kept, and
next_seq is set then. -/
def Obligations.MountEnds : Prop :=
  (∀ (s : State) (b : BlockId) (p : PageNo) (changed : PageChange) (sc : Scanner), Running s (.scanRead b p) →
    let found := s.cellsChange b p changed
    ScanEndsWith s b p (scanReport b (readPage found.flash (pageAddress b p))) sc →
    s.controller.state = .mounting →
    ∃ before u, EndsIn (exec (.scanReadComplete changed) s) before u ∧
      u.sequencer = { s.sequencer with
        inFlight := none, exclusive := false
        dirtyErases := (List.finRange 256).filter fun b => u.block b == .dirty } ∧
      u.map.blocks = sc.blocks ∧ u.index = sc.index ∧ u.scanner.phase = .ended ∧ u.scanner.floors = sc.floors ∧
      u.flash = found.flash ∧ u.controller.config = s.controller.config ∧
      u.map.rotation = 3 ∧ u.map.evacuator = ⟨none, [], []⟩ ∧ (∀ l, u.lane l = ⟨false, none, 0⟩) ∧
      (sc.highestChain = none → u.map.nextChain = 0) ∧
      (∀ chain, sc.highestChain = some chain → chain < 4294967295 → u.map.nextChain = chain + 1) ∧
      (∀ id, 1 ≤ id → id ≤ 30 →
        ((∀ k l, (k, l) ∈ u.index → k.origin ≠ id) → u.originRow id = ⟨none, 0⟩) ∧
        ∀ k l, (k, l) ∈ u.index → k.origin = id → (∀ k' l', (k', l') ∈ u.index → k'.origin = id → k'.seq ≤ k.seq) →
          u.originRow id = ⟨some ⟨k.seq, k.seq, [], 0⟩, 0⟩) ∧
      u.gap = { s.gap with rows := u.gap.rows } ∧
      (u.allDead = true → u.controller.state = .halted ∧
        u.port = (s.post (.haltedByMount sc.index.length sc.counts)).port) ∧
      (u.allDead = false → s.controller.config = none → u.controller.state = .idle ∧
        u.port = (s.post (.mounted .idle sc.index.length sc.counts)).port) ∧
      (u.allDead = false → s.controller.config.isSome → u.controller.state = .ready ∧
        u.port = (s.post (.mounted .ready sc.index.length sc.counts)).port) ∧
      (s.controller.config = none → u.line = s.line ∧ u.tracker = s.tracker) ∧
      (∀ c, s.controller.config = some c → u.line = { s.line with state := .seeking, idle := 0 } ∧
        u.tracker.nextSeq = some (max (c.firstSeq.getD 1)
          (max (highestSeq sc.index c.stationId + 1) ((stationGet sc.floors c.stationId none).getD 0))))) ∧
  (∀ (classes : List PageClass), classes.length = 32 →
    (firstBlank classes = none ↔ classes[31]? ≠ some .blank) ∧
    ∀ p : PageNo, firstBlank classes = some p ↔
      (∀ i, p.val ≤ i → i < 32 → classes[i]? = some .blank) ∧ (p = 0 ∨ classes[p.val - 1]? ≠ some .blank)) ∧
  (∀ (sc : Scanner),
    let blank := fun (f : BlockFinding) => firstBlank ((mapGet sc.pages f.block).getD [])
    let eligible := fun (l : Lane) (f : BlockFinding) =>
      f ∈ sc.findings ∧ f.cls = .chained ∧ laneOf f.block = l ∧ (blank f).isSome
    (∀ l, sc.openOf l = none ↔ ∀ f, ¬ eligible l f) ∧
    (∀ l f, sc.openOf l = some f → eligible l f ∧ ∀ g, eligible l g → g.chain ≤ f.chain) ∧
    ((sc.findings.map BlockFinding.block).Nodup → ∀ f ∈ sc.findings, sc.blocks.get f.block = match f.cls with
      | .bad => .bad
      | .retired => .retired
      | .free => .free
      | .dirty => .dirty
      | .chained => match sc.openOf (laneOf f.block), blank f with
        | some o, some page => if o.block = f.block then .opened f.chain none ⟨page, 0, 0⟩ else .sealed f.chain
        | _, _ => .sealed f.chain) ∧
    (sc.highestChain = none ↔ ∀ f ∈ sc.findings, f.header = none) ∧
    (∀ chain, sc.highestChain = some chain →
      (∃ f ∈ sc.findings, ∃ h, f.header = some h ∧ h.chain = chain) ∧
      ∀ f ∈ sc.findings, ∀ h, f.header = some h → h.chain ≤ chain) ∧
    sc.index = sc.candidates.map (fun e => (e.1, e.2.loc)))

/-! ### The laws of every run -/

/-- Only an interruption and the completions of a program, an erase and a retire mark change the array: a read changes nothing,
and the cells that its command says have changed of themselves, in the page it senses, are all that then differs. Such a change
(the model's choice, log 2) leaves every other page and the factory mark, moves no erased cell and erases none; a slot that has
changed reads DAMAGED for every key, a tag torn, and a header and a retire mark are valid no more. So a read is GOOD only with
the fields stored. -/
def Obligations.OnlyArrayCommandsChangeTheArray : Prop :=
  (∀ (c : Instr) (s t : State), exec c s = .next t → t.flash ≠ s.flash →
    (∃ left, c = .powerOnReset left) ∨ (∃ left, c = .nresetAssert left) ∨ (∃ left, c = .powerLoss left) ∨
    (∃ left, c = .protAssert left) ∨ (∃ fields left, c = .restart fields left) ∨
    (∃ results, c = .programComplete results) ∨ (∃ results, c = .eraseComplete results) ∨
    (∃ result, c = .retireMarkComplete result) ∨
    ∃ b p changed, Senses s c b p changed ∧ changed ≠ {} ∧ t.flash = (s.cellsChange b p changed).flash) ∧
  (∀ (s : State) (b : BlockId) (p : PageNo) (changed : PageChange),
    let t := s.cellsChange b p changed
    let old := readPage s.flash (pageAddress b p)
    let new := readPage t.flash (pageAddress b p)
    t = { s with flash := t.flash } ∧ (changed = {} → t = s) ∧
    (∀ a, a ≠ pageAddress b p → readPage t.flash a = readPage s.flash a) ∧
    (∀ i : SlotNo, ChangesTo SlotData.erased (fun d => ∀ k, readSlot d k = none)
      (old.slots.get i) (changed.slots.get i) (new.slots.get i)) ∧
    (∀ i : SlotNo, ChangesTo TagCells.erased (fun c => readTag c = .torn)
      (old.tags.get i) (changed.tags.get i) (new.tags.get i)) ∧
    ChangesTo HeaderCells.erased (fun h => headerValid h = false) old.header changed.header new.header ∧
    ChangesTo MarkCells.erased (fun m => ∀ b, markValid b m = false) old.mark changed.mark new.mark ∧
    new.factory = old.factory) ∧
  (∀ (s : State) (l : Loc) (changed : PageChange) (k : Key) (r : Record),
    readSlot (slotData (s.cellsChange l.block l.page changed).flash l) k = some r → readSlot (slotData s.flash l) k = some r)

/-- Every law holds right after reset. -/
def Obligations.LawsHoldAfterReset : Prop :=
  MemoryLaw State.reset ∧ CapacityLaw State.reset ∧ IntakeLaw State.reset ∧ OriginLaw State.reset ∧ IndexLaw State.reset ∧
  ReceiptLaw State.reset ∧ TrackerLaw State.reset ∧ ModeLaw State.reset ∧ BlockLaw State.reset

/-- Every step keeps the array in its canonical form. -/
def Obligations.StepKeepsMemoryLaw : Prop := ∀ (s t : State), MemoryLaw s → step s = .next t → MemoryLaw t

/-- Every step keeps the capacities and the lists without duplicates that CapacityLaw names, and in a legal mode the law of
the intake queue: no key twice in it, no key of a LOCAL or BUS entry indexed. -/
def Obligations.StepKeepsCapacityLaw : Prop :=
  ∀ (s t : State), CapacityLaw s → step s = .next t → CapacityLaw t ∧ (ModeLaw s → IntakeLaw s → IntakeLaw t)

/-- Every step keeps the law of every origin row. -/
def Obligations.StepKeepsOriginLaw : Prop := ∀ (s t : State), OriginLaw s → step s = .next t → OriginLaw t

/-- Every step keeps at most one location for any key and, in a legal mode, every key of the Receipt List indexed, every
location of the index in a block that is OPEN, SEALED or RETIRING, and at most one OPEN block in each lane, with the other
parts of BlockLaw. -/
def Obligations.StepKeepsIndexAndReceiptLaw : Prop :=
  ∀ (s t : State), IndexLaw s → step s = .next t →
    IndexLaw t ∧ (ModeLaw s → ReceiptLaw s → ReceiptLaw t) ∧ (ModeLaw s → BlockLaw s → BlockLaw t)

/-- Every step in a legal mode keeps the law of the tracker. -/
def Obligations.StepKeepsTrackerLaw : Prop :=
  ∀ (s t : State), ModeLaw s → TrackerLaw s → step s = .next t → TrackerLaw t

/-- Every step keeps the modes legal. -/
def Obligations.StepKeepsModeLaw : Prop := ∀ (s t : State), ModeLaw s → step s = .next t → ModeLaw t

/-- Every frame in range, of every kind, is judged valid from the bytes it is sent as, with every field, and nothing else is:
bytes judged valid are those a frame in range is sent as. The ranges are those of R94, the bytes those of 11.1 with the CRC of
R95, and a frame is rejected at the first test of R96 that applies; a framing fault is found of bytes that end elsewhere than
the length byte says. -/
def Obligations.FramesAreJudgedAsBuilt : Prop :=
  (∀ f : Frame, frameInRange f = true ↔ FrameAdmitted f) ∧
  (∀ f : Frame, FrameAdmitted f → judge (frameBytes f) = .valid f) ∧
  (∀ bytes f, judge bytes = .valid f → bytes = frameBytes f ∧ FrameAdmitted f) ∧
  (∀ bytes, judge bytes = .rejected .framing ↔
    ¬ ∃ (arb len : Byte) (rest : List Byte), bytes = arb :: len :: rest ∧ rest.length = len.toNat + 2) ∧
  (∀ (arb len c1 c2 : Byte) (body : List Byte), body.length = len.toNat →
    let found := judge (arb :: len :: (body ++ [c1, c2]))
    let crcFits := c1.toNat * 256 + c2.toNat = (crc16 (arb :: len :: body)).toNat
    let kind := arb.toNat / 32
    let sender := arb.toNat % 32
    let kindFits := 1 ≤ kind ∧ kind ≤ 5
    let senderFits := 1 ≤ sender ∧ sender ≤ 30
    (¬ crcFits → found = .rejected .crc) ∧
    (crcFits → ¬ kindFits → found = .rejected .kind) ∧
    (crcFits → kindFits → ¬ senderFits → found = .rejected .sender) ∧
    (crcFits → kindFits → senderFits → ¬ LengthAdmitted kind len.toNat → found = .rejected .length) ∧
    (crcFits → kindFits → senderFits → LengthAdmitted kind len.toNat → found = .rejected .field ∨
      ∃ f, FrameAdmitted f ∧ frameBytes f = arb :: len :: (body ++ [c1, c2]) ∧ found = .valid f)) ∧
  CodesAndNumbers ∧
  (∀ f : Frame,
    let record := fun (r : Record) =>
      [byte r.key.origin] ++ beBytes 3 r.key.seq ++ [byte r.cls] ++ beBytes 4 r.stamp.toNat ++ r.payload
    let front := fun (kind : Nat) (body : List Byte) => byte (kind * 32 + f.sender) :: byte body.length :: body
    let sent := match f.body with
      | .receipt keys => front 1 (byte keys.length :: keys.flatMap fun k => byte k.origin :: beBytes 3 k.seq)
      | .request origin first span => front 2 ([byte origin] ++ beBytes 3 first ++ [byte span])
      | .repairRecord r => front 3 (record r)
      | .record r => front 4 (record r)
      | .roll st k timingClass topSeq => front 5 ([byte (rollCode st), byte k, byte timingClass] ++ beBytes 3 topSeq)
    frameBytes f = sent ++ beBytes 2 (crc16 sent).toNat)
end

