-- ==== Sys2Proof/Laws/Memory.lean ====
section
/-! SUPPORT. The laws of the sorted maps and of the flash array: what a write changes, and that every operation over the
array keeps its canonical form. -/

namespace Sys2Proof.Machine

/-! ### Maps -/

section Maps

variable {κ α : Type} [DecidableEq κ]

theorem mapGet_mapPut (lt : κ → κ → Bool) (m : List (κ × α)) (k : κ) (v : α) (j : κ) :
    mapGet (mapPut lt m k v) j = if j = k then some v else mapGet m j := by
  induction m with
  | nil => simp [mapPut, mapGet]
  | cons e rest ih =>
    simp only [mapPut]
    split
    · simp [mapGet]
    · split
      · rename_i _ h
        subst h
        simp only [mapGet]
        split <;> rfl
      · rename_i _ h
        simp only [mapGet, ih]
        split
        · rename_i hj
          subst hj
          simp [Ne.symm h]
        · rfl

theorem mapGet_mapDrop (m : List (κ × α)) (k j : κ) :
    mapGet (mapDrop m k) j = if j = k then none else mapGet m j := by
  induction m with
  | nil => simp [mapDrop, mapGet]
  | cons e rest ih =>
    simp only [mapDrop, List.filter_cons, decide_not] at ih ⊢
    split
    · rename_i h
      simp only [mapGet, ih]
      split
      · rename_i hj
        subst hj
        split
        · rename_i hk
          subst hk
          simp at h
        · rfl
      · rfl
    · rename_i h
      simp only [Bool.not_eq_true', decide_eq_false_iff_not, not_not] at h
      rw [ih]
      subst h
      simp only [mapGet]
      split <;> rfl

theorem mapGet_filter_value (m : List (κ × α)) (p : κ × α → Bool) (j : κ) (h : mapGet (m.filter p) j = none) (v : α)
    (hv : mapGet m j = some v) : ∃ e ∈ m, e.1 = j ∧ p e = false := by
  induction m with
  | nil => simp [mapGet] at hv
  | cons e rest ih =>
    simp only [mapGet] at hv
    by_cases hj : j = e.1
    · cases hp : p e with
      | true =>
        simp [hp, mapGet, hj] at h
      | false => exact ⟨e, List.mem_cons_self, hj.symm, hp⟩
    · rw [if_neg hj] at hv
      have h' : mapGet (rest.filter p) j = none := by
        cases hp : p e with
        | true => simpa [List.filter_cons, hp, mapGet, hj] using h
        | false => simpa [List.filter_cons, hp] using h
      obtain ⟨e', he, h1, h2⟩ := ih h' hv
      exact ⟨e', List.mem_cons_of_mem _ he, h1, h2⟩

theorem mem_mapPut (lt : κ → κ → Bool) (m : List (κ × α)) (k : κ) (v : α) (e : κ × α) (h : e ∈ mapPut lt m k v) :
    e = (k, v) ∨ e ∈ m := by
  induction m with
  | nil => simpa [mapPut] using h
  | cons a rest ih =>
    simp only [mapPut] at h
    split at h
    · simpa using h
    · split at h
      · rcases List.mem_cons.mp h with h | h
        · exact Or.inl h
        · exact Or.inr (List.mem_cons_of_mem _ h)
      · rcases List.mem_cons.mp h with h | h
        · exact Or.inr (h ▸ List.mem_cons_self)
        · rcases ih h with h | h
          · exact Or.inl h
          · exact Or.inr (List.mem_cons_of_mem _ h)

omit [DecidableEq κ] in
/-- Filtering keeps a map sorted. -/
theorem mapSorted_filter (lt : κ → κ → Bool) (m : List (κ × α)) (p : κ × α → Bool) (h : mapSorted lt m = true) :
    mapSorted lt (m.filter p) = true := by
  induction m with
  | nil => rfl
  | cons e rest ih =>
    simp only [mapSorted, Bool.and_eq_true, List.all_eq_true] at h
    simp only [List.filter_cons]
    split
    · simp only [mapSorted, Bool.and_eq_true, List.all_eq_true]
      exact ⟨fun x hx => h.1 x (List.mem_of_mem_filter hx), ih h.2⟩
    · exact ih h.2

/-- Putting a key keeps a map sorted, for a strict total order of the keys. -/
theorem mapSorted_mapPut (lt : κ → κ → Bool) (trans : ∀ a b c, lt a b = true → lt b c = true → lt a c = true)
    (total : ∀ a b, lt a b = false → a ≠ b → lt b a = true) (m : List (κ × α)) (k : κ) (v : α)
    (h : mapSorted lt m = true) : mapSorted lt (mapPut lt m k v) = true := by
  induction m with
  | nil => rfl
  | cons e rest ih =>
    have h' := h
    simp only [mapSorted, Bool.and_eq_true, List.all_eq_true] at h
    simp only [mapPut]
    split
    · rename_i hlt
      simp only [mapSorted, Bool.and_eq_true, List.all_eq_true] at h' ⊢
      refine ⟨fun x hx => ?_, h'⟩
      rcases List.mem_cons.mp hx with rfl | hx
      · exact hlt
      · exact trans _ _ _ hlt (h.1 x hx)
    · rename_i hlt
      split
      · rename_i heq
        subst heq
        simp only [mapSorted, Bool.and_eq_true, List.all_eq_true]
        exact h
      · rename_i hne
        simp only [mapSorted, Bool.and_eq_true, List.all_eq_true]
        refine ⟨fun x hx => ?_, ih h.2⟩
        rcases mem_mapPut lt rest k v x hx with rfl | hx
        · exact total _ _ (by simpa using hlt) hne
        · exact h.1 x hx

end Maps

theorem addressLt_trans (a b c : Nat) (h : addressLt a b = true) (h' : addressLt b c = true) : addressLt a c = true := by
  simp only [addressLt, decide_eq_true_eq] at *
  omega

theorem addressLt_total (a b : Nat) (h : addressLt a b = false) (hne : a ≠ b) : addressLt b a = true := by
  simp only [addressLt, decide_eq_true_eq, decide_eq_false_iff_not] at *
  omega

theorem keyLt_trans (a b c : Key) (h : keyLt a b = true) (h' : keyLt b c = true) : keyLt a c = true := by
  simp only [keyLt, Bool.or_eq_true, Bool.and_eq_true, decide_eq_true_eq, beq_iff_eq] at *
  omega

theorem keyLt_total (a b : Key) (h : keyLt a b = false) (hne : a ≠ b) : keyLt b a = true := by
  obtain ⟨ao, aq⟩ := a
  obtain ⟨bo, bq⟩ := b
  simp only [keyLt, Bool.or_eq_true, Bool.or_eq_false_iff, Bool.and_eq_true, Bool.and_eq_false_imp, decide_eq_true_eq,
    decide_eq_false_iff_not, beq_iff_eq, ne_eq, Key.mk.injEq, not_and] at *
  omega

/-! ### The array -/

theorem pageAddress_lt (b : BlockId) (p : PageNo) : pageAddress b p < 8192 := by
  unfold pageAddress
  omega

theorem pageAddress_inj (b c : BlockId) (p q : PageNo) (h : pageAddress b p = pageAddress c q) : b = c ∧ p = q := by
  unfold pageAddress at h
  constructor <;> apply Fin.ext <;> omega

/-- What a page reads as after a write of one page. -/
theorem readPage_writePage (flash : List (Nat × PageCells)) (a : Nat) (c : PageCells) (b : Nat) :
    readPage (writePage flash a c) b = if b = a then c else readPage flash b := by
  unfold readPage writePage
  split
  · rename_i h
    rw [mapGet_mapDrop]
    split
    · simp [h]
    · rfl
  · rw [mapGet_mapPut]
    split <;> rfl

/-- What a page reads as after one lane's pass. -/
theorem readPage_programFlash (flash : List (Nat × PageCells)) (p : PassLane) (fate : Option PassFate) (a : Nat) :
    readPage (programFlash flash p fate) a =
      if a = pageAddress p.block p.page then programPage p fate (readPage flash (pageAddress p.block p.page))
      else readPage flash a :=
  readPage_writePage _ _ _ _

/-- What a page reads as after a RETIRE MARK. -/
theorem readPage_markFlash (flash : List (Nat × PageCells)) (b : BlockId) (fate : Landed MarkCells) (a : Nat) :
    readPage (markFlash flash b fate) a =
      if a = pageAddress b 31 then
        { readPage flash (pageAddress b 31) with
          mark := landOn .erased (readPage flash (pageAddress b 31)).mark (markOf b) fate }
      else readPage flash a :=
  readPage_writePage _ _ _ _

/-- What a scan report says of one slot (R35). -/
theorem scanReport_slot (b : BlockId) (c : PageCells) (i : SlotNo) :
    (scanReport b c).slots[i.val]? = some ⟨readTag (c.tags.get i), c.slots.get i == .erased⟩ := by
  simp [scanReport, Vector.get]

/-! ### Cells that have changed of themselves -/

@[simp] theorem changeTo_none {α : Type} [DecidableEq α] (erased : α) (fits : α → Bool) (before : α) :
    changeTo erased fits before none = before := rfl

/-- All that a change of cells can do: nothing, or it leaves what the command says where that is admitted. -/
theorem changeTo_cases {α : Type} [DecidableEq α] (erased : α) (fits : α → Bool) (before : α) (now : Option α) :
    changeTo erased fits before now = before ∨
      before ≠ erased ∧ now = some (changeTo erased fits before now) ∧
        changeTo erased fits before now ≠ erased ∧ fits (changeTo erased fits before now) = false := by
  unfold changeTo
  split
  · exact .inl rfl
  · split
    · rename_i h
      exact .inr ⟨h.1, rfl, by simpa [alters] using h.2⟩
    · exact .inl rfl

/-- An admitted change of cells that are not erased takes. -/
theorem changeTo_some {α : Type} [DecidableEq α] {erased : α} {fits : α → Bool} {before cells : α} (hb : before ≠ erased)
    (hc : cells ≠ erased) (hf : fits cells = false) : changeTo erased fits before (some cells) = cells := by
  simp [changeTo, alters, hb, hc, hf]

/-- A slot's check does not fit exactly when every read of it is DAMAGED. -/
theorem slotFits_eq_false (d : SlotData) : slotFits d = false ↔ ∀ k, readSlot d k = none := by
  cases d with
  | erased => simp [slotFits, readSlot]
  | cells origin seq cls len stamp payload check =>
    refine ⟨fun h k => ?_, fun h => by simp only [slotFits, h, Option.isSome_none]⟩
    by_contra hr
    obtain ⟨r, hr⟩ := Option.ne_none_iff_exists'.mp hr
    simp only [readSlot, Option.ite_none_right_eq_some] at hr
    simp [slotFits, readSlot, hr.1] at h

/-- The check of a tag that is not erased does not fit exactly when it reads torn. -/
theorem tagFits_eq_false (t : TagCells) (h : t ≠ .erased) : tagFits t = false ↔ readTag t = .torn := by
  cases t with
  | erased => exact absurd rfl h
  | cells origin seq check =>
    simp only [tagFits, readTag]
    split <;> rename_i hg
    · simp [hg]
    · by_cases hc : check = tagCheck origin seq
      · exact absurd (if_pos hc) (hg _ _)
      · simp [hc]

/-- The check of a retire mark does not fit exactly when it is valid on no block. -/
theorem markFits_eq_false (m : MarkCells) : markFits m = false ↔ ∀ b, markValid b m = false := by
  cases m with
  | erased => simp [markFits, markValid]
  | cells block check =>
    simp only [markFits, markValid, Bool.and_eq_false_imp, beq_iff_eq]
    exact ⟨fun h _ _ => h, fun h => h ⟨block.toNat, block.isLt⟩ rfl⟩

/-- R34: a slot some of whose cells have changed reads GOOD only with the fields it was stored with. -/
theorem readSlot_changeTo {before : SlotData} {now : Option SlotData} {k : Key} {r : Record}
    (h : readSlot (changeTo .erased slotFits before now) k = some r) : readSlot before k = some r := by
  rcases changeTo_cases .erased slotFits before now with e | ⟨_, _, _, hf⟩
  · rwa [e] at h
  · rw [(slotFits_eq_false _).mp hf k] at h
    cases h

theorem get_zipWith {α β γ : Type} {n : Nat} (f : α → β → γ) (u : Vector α n) (v : Vector β n) (i : Fin n) :
    (Vector.zipWith f u v).get i = f (u.get i) (v.get i) := by
  simp [Vector.get_eq_getElem]

@[simp] theorem changedPage_slot (c : PageCells) (w : PageChange) (i : SlotNo) :
    (changedPage c w).slots.get i = changeTo .erased slotFits (c.slots.get i) (w.slots.get i) := get_zipWith _ _ _ _

@[simp] theorem changedPage_tag (c : PageCells) (w : PageChange) (i : SlotNo) :
    (changedPage c w).tags.get i = changeTo .erased tagFits (c.tags.get i) (w.tags.get i) := get_zipWith _ _ _ _

@[simp] theorem changedPage_none (c : PageCells) : changedPage c {} = c := by
  obtain ⟨slots, tags, header, mark, factory⟩ := c
  simp only [changedPage, changeTo_none, PageCells.mk.injEq, and_true]
  constructor <;> ext i hi <;> simp

/-- What a page reads as after cells of one page have changed of themselves. -/
theorem readPage_changedFlash (flash : List (Nat × PageCells)) (a : Nat) (w : PageChange) (b : Nat) :
    readPage (changedFlash flash a w) b = if b = a then changedPage (readPage flash a) w else readPage flash b := by
  unfold changedFlash
  split
  · rename_i h
    split
    · rename_i hb
      rw [hb, h]
    · rfl
  · exact readPage_writePage _ _ _ _

@[simp] theorem changedFlash_none (flash : List (Nat × PageCells)) (a : Nat) : changedFlash flash a {} = flash := by
  simp [changedFlash]

@[simp] theorem State.cellsChange_none (s : State) (b : BlockId) (p : PageNo) : s.cellsChange b p {} = s := by
  simp [State.cellsChange]

/-- What a slot holds after cells of its page have changed of themselves. -/
theorem slotData_changedFlash (flash : List (Nat × PageCells)) (l : Loc) (w : PageChange) :
    slotData (changedFlash flash (pageAddress l.block l.page) w) l =
      changeTo .erased slotFits (slotData flash l) (w.slots.get l.slot) := by
  simp [slotData, readPage_changedFlash]

/-- All that a slot read finds changed: the cells of its page, and the array free. -/
theorem State.slotSensed_eq (s : State) (l : Loc) (w : PageChange) : s.slotSensed l w = { s with
    flash := changedFlash s.flash (pageAddress l.block l.page) w
    sequencer := { s.sequencer with inFlight := none } } := rfl

/-- R34: a slot read is GOOD only with the fields stored, whatever has changed in the cells. -/
theorem State.readResult_slotSensed {s : State} {l : Loc} {w : PageChange} {k : Key} {r : Record}
    (h : (s.slotSensed l w).readResult k l = some r) : readSlot (slotData s.flash l) k = some r := by
  unfold State.readResult at h
  rw [State.slotSensed_eq, slotData_changedFlash] at h
  exact readSlot_changeTo h

/-- What a scan read reports, of the array after what has changed in the cells of its page. -/
theorem State.scanResult_cellsChange (s : State) (b : BlockId) (p : PageNo) (w : PageChange) :
    (s.cellsChange b p w).scanResult b p = scanReport b (changedPage (readPage s.flash (pageAddress b p)) w) := by
  simp [State.scanResult, State.cellsChange, readPage_changedFlash]

/-- A write of a page keeps the canonical form. -/
theorem writePage_wf (flash : List (Nat × PageCells)) (a : Nat) (c : PageCells) (ha : a < 8192)
    (h : Memory.wf flash = true) : Memory.wf (writePage flash a c) = true := by
  unfold Memory.wf at *
  simp only [Bool.and_eq_true, List.all_eq_true, decide_eq_true_eq] at *
  unfold writePage
  split
  · refine ⟨mapSorted_filter _ _ _ h.1, fun e he => h.2 e (List.mem_of_mem_filter he)⟩
  · rename_i hc
    refine ⟨mapSorted_mapPut _ addressLt_trans addressLt_total _ _ _ h.1, fun e he => ?_⟩
    rcases mem_mapPut _ _ _ _ _ he with rfl | he
    · exact ⟨ha, by simpa using hc⟩
    · exact h.2 e he

/-- A pass keeps the canonical form. -/
theorem programFlash_wf (flash : List (Nat × PageCells)) (p : PassLane) (fate : Option PassFate)
    (h : Memory.wf flash = true) : Memory.wf (programFlash flash p fate) = true :=
  writePage_wf _ _ _ (pageAddress_lt _ _) h

/-- A retire mark keeps the canonical form. -/
theorem markFlash_wf (flash : List (Nat × PageCells)) (b : BlockId) (fate : Landed MarkCells)
    (h : Memory.wf flash = true) : Memory.wf (markFlash flash b fate) = true :=
  writePage_wf _ _ _ (pageAddress_lt _ _) h

/-- A property that every step of a fold keeps. -/
theorem foldl_keeps {σ α : Type} (P : σ → Prop) (f : σ → α → σ) (hf : ∀ s a, P s → P (f s a)) (l : List α) (s : σ)
    (h : P s) : P (l.foldl f s) := by
  induction l generalizing s with
  | nil => exact h
  | cons a rest ih => exact ih (f s a) (hf s a h)

/-- A field that no step of a fold changes. -/
theorem foldl_field {σ α β : Type} (g : σ → β) (f : σ → α → σ) (hf : ∀ s a, g (f s a) = g s) (l : List α) (s : σ) :
    g (l.foldl f s) = g s := by
  induction l generalizing s with
  | nil => rfl
  | cons a rest ih => exact (ih (f s a)).trans (hf s a)

/-- An erase keeps the canonical form. -/
theorem eraseFlash_wf (flash : List (Nat × PageCells)) (b : BlockId) (fate : EraseFate)
    (h : Memory.wf flash = true) : Memory.wf (eraseFlash flash b fate) = true :=
  foldl_keeps (fun f => Memory.wf f = true) _ (fun f p hf => writePage_wf f _ _ (pageAddress_lt b p) hf) _ _ h

/-- Cells changed of themselves keep the canonical form. -/
theorem changedFlash_wf (flash : List (Nat × PageCells)) (a : Nat) (w : PageChange) (ha : a < 8192)
    (h : Memory.wf flash = true) : Memory.wf (changedFlash flash a w) = true := by
  unfold changedFlash
  split
  · exact h
  · exact writePage_wf _ _ _ ha h

/-- An interruption of the operation in flight keeps the canonical form. -/
theorem interruptedFlash_wf (s : State) (w : Interruption) (h : Memory.wf s.flash = true) :
    Memory.wf (interruptedFlash s w) = true := by
  unfold interruptedFlash
  split
  · exact foldl_keeps (fun f => Memory.wf f = true) _ (fun f p hf => programFlash_wf f p _ hf) _ _ h
  · exact foldl_keeps (fun f => Memory.wf f = true) _ (fun f b hf => eraseFlash_wf f b _ hf) _ _ h
  · exact markFlash_wf _ _ _ h
  · exact h

end Sys2Proof.Machine
end

