-- ==== Sys2Proof/Laws/State.lean ====
section
/-! SUPPORT. One lemma for each field and each update of State: what an update leaves unchanged, true by rfl. -/

namespace Sys2Proof.Machine.State

@[simp] theorem reach_power (s : State) (t : Nat) : (s.reach t).power = s.power := rfl
@[simp] theorem reach_nresetLow (s : State) (t : Nat) : (s.reach t).nresetLow = s.nresetLow := rfl
@[simp] theorem reach_flash (s : State) (t : Nat) : (s.reach t).flash = s.flash := rfl
@[simp] theorem reach_sequencer (s : State) (t : Nat) : (s.reach t).sequencer = s.sequencer := rfl
@[simp] theorem reach_map (s : State) (t : Nat) : (s.reach t).map = s.map := rfl
@[simp] theorem reach_index (s : State) (t : Nat) : (s.reach t).index = s.index := rfl
@[simp] theorem reach_intake (s : State) (t : Nat) : (s.reach t).intake = s.intake := rfl
@[simp] theorem reach_scanner (s : State) (t : Nat) : (s.reach t).scanner = s.scanner := rfl
@[simp] theorem reach_line (s : State) (t : Nat) : (s.reach t).line = s.line := rfl
@[simp] theorem reach_transmit (s : State) (t : Nat) : (s.reach t).transmit = s.transmit := rfl
@[simp] theorem reach_controller (s : State) (t : Nat) : (s.reach t).controller = s.controller := rfl
@[simp] theorem reach_tracker (s : State) (t : Nat) : (s.reach t).tracker = s.tracker := rfl
@[simp] theorem reach_receipts (s : State) (t : Nat) : (s.reach t).receipts = s.receipts := rfl
@[simp] theorem reach_gap (s : State) (t : Nat) : (s.reach t).gap = s.gap := rfl
@[simp] theorem reach_port (s : State) (t : Nat) : (s.reach t).port = s.port := rfl
@[simp] theorem reach_freeDraws (s : State) (t : Nat) : (s.reach t).freeDraws = s.freeDraws := rfl
@[simp] theorem reach_pending (s : State) (t : Nat) : (s.reach t).pending = s.pending := rfl

@[simp] theorem respond_now (s : State) (r : Response) : (s.respond r).now = s.now := rfl
@[simp] theorem respond_power (s : State) (r : Response) : (s.respond r).power = s.power := rfl
@[simp] theorem respond_nresetLow (s : State) (r : Response) : (s.respond r).nresetLow = s.nresetLow := rfl
@[simp] theorem respond_flash (s : State) (r : Response) : (s.respond r).flash = s.flash := rfl
@[simp] theorem respond_sequencer (s : State) (r : Response) : (s.respond r).sequencer = s.sequencer := rfl
@[simp] theorem respond_map (s : State) (r : Response) : (s.respond r).map = s.map := rfl
@[simp] theorem respond_index (s : State) (r : Response) : (s.respond r).index = s.index := rfl
@[simp] theorem respond_intake (s : State) (r : Response) : (s.respond r).intake = s.intake := rfl
@[simp] theorem respond_scanner (s : State) (r : Response) : (s.respond r).scanner = s.scanner := rfl
@[simp] theorem respond_line (s : State) (r : Response) : (s.respond r).line = s.line := rfl
@[simp] theorem respond_transmit (s : State) (r : Response) : (s.respond r).transmit = s.transmit := rfl
@[simp] theorem respond_controller (s : State) (r : Response) : (s.respond r).controller = s.controller := rfl
@[simp] theorem respond_tracker (s : State) (r : Response) : (s.respond r).tracker = s.tracker := rfl
@[simp] theorem respond_receipts (s : State) (r : Response) : (s.respond r).receipts = s.receipts := rfl
@[simp] theorem respond_gap (s : State) (r : Response) : (s.respond r).gap = s.gap := rfl
@[simp] theorem respond_freeDraws (s : State) (r : Response) : (s.respond r).freeDraws = s.freeDraws := rfl
@[simp] theorem respond_pending (s : State) (r : Response) : (s.respond r).pending = s.pending := rfl

@[simp] theorem drive_now (s : State) (bytes : List Byte) : (s.drive bytes).now = s.now := rfl
@[simp] theorem drive_power (s : State) (bytes : List Byte) : (s.drive bytes).power = s.power := rfl
@[simp] theorem drive_nresetLow (s : State) (bytes : List Byte) : (s.drive bytes).nresetLow = s.nresetLow := rfl
@[simp] theorem drive_flash (s : State) (bytes : List Byte) : (s.drive bytes).flash = s.flash := rfl
@[simp] theorem drive_sequencer (s : State) (bytes : List Byte) : (s.drive bytes).sequencer = s.sequencer := rfl
@[simp] theorem drive_map (s : State) (bytes : List Byte) : (s.drive bytes).map = s.map := rfl
@[simp] theorem drive_index (s : State) (bytes : List Byte) : (s.drive bytes).index = s.index := rfl
@[simp] theorem drive_intake (s : State) (bytes : List Byte) : (s.drive bytes).intake = s.intake := rfl
@[simp] theorem drive_scanner (s : State) (bytes : List Byte) : (s.drive bytes).scanner = s.scanner := rfl
@[simp] theorem drive_line (s : State) (bytes : List Byte) : (s.drive bytes).line = s.line := rfl
@[simp] theorem drive_transmit (s : State) (bytes : List Byte) : (s.drive bytes).transmit = s.transmit := rfl
@[simp] theorem drive_controller (s : State) (bytes : List Byte) : (s.drive bytes).controller = s.controller := rfl
@[simp] theorem drive_tracker (s : State) (bytes : List Byte) : (s.drive bytes).tracker = s.tracker := rfl
@[simp] theorem drive_receipts (s : State) (bytes : List Byte) : (s.drive bytes).receipts = s.receipts := rfl
@[simp] theorem drive_gap (s : State) (bytes : List Byte) : (s.drive bytes).gap = s.gap := rfl
@[simp] theorem drive_freeDraws (s : State) (bytes : List Byte) : (s.drive bytes).freeDraws = s.freeDraws := rfl
@[simp] theorem drive_pending (s : State) (bytes : List Byte) : (s.drive bytes).pending = s.pending := rfl

@[simp] theorem setPort_now (s : State) (p : PortState) : (s.setPort p).now = s.now := rfl
@[simp] theorem setPort_power (s : State) (p : PortState) : (s.setPort p).power = s.power := rfl
@[simp] theorem setPort_nresetLow (s : State) (p : PortState) : (s.setPort p).nresetLow = s.nresetLow := rfl
@[simp] theorem setPort_flash (s : State) (p : PortState) : (s.setPort p).flash = s.flash := rfl
@[simp] theorem setPort_sequencer (s : State) (p : PortState) : (s.setPort p).sequencer = s.sequencer := rfl
@[simp] theorem setPort_map (s : State) (p : PortState) : (s.setPort p).map = s.map := rfl
@[simp] theorem setPort_index (s : State) (p : PortState) : (s.setPort p).index = s.index := rfl
@[simp] theorem setPort_intake (s : State) (p : PortState) : (s.setPort p).intake = s.intake := rfl
@[simp] theorem setPort_scanner (s : State) (p : PortState) : (s.setPort p).scanner = s.scanner := rfl
@[simp] theorem setPort_line (s : State) (p : PortState) : (s.setPort p).line = s.line := rfl
@[simp] theorem setPort_transmit (s : State) (p : PortState) : (s.setPort p).transmit = s.transmit := rfl
@[simp] theorem setPort_controller (s : State) (p : PortState) : (s.setPort p).controller = s.controller := rfl
@[simp] theorem setPort_tracker (s : State) (p : PortState) : (s.setPort p).tracker = s.tracker := rfl
@[simp] theorem setPort_receipts (s : State) (p : PortState) : (s.setPort p).receipts = s.receipts := rfl
@[simp] theorem setPort_gap (s : State) (p : PortState) : (s.setPort p).gap = s.gap := rfl
@[simp] theorem setPort_freeDraws (s : State) (p : PortState) : (s.setPort p).freeDraws = s.freeDraws := rfl
@[simp] theorem setPort_pending (s : State) (p : PortState) : (s.setPort p).pending = s.pending := rfl

@[simp] theorem setRosterRow_now (s : State) (id : Nat) (r : RosterRow) : (s.setRosterRow id r).now = s.now := rfl
@[simp] theorem setRosterRow_power (s : State) (id : Nat) (r : RosterRow) : (s.setRosterRow id r).power = s.power := rfl
@[simp] theorem setRosterRow_nresetLow (s : State) (id : Nat) (r : RosterRow) : (s.setRosterRow id r).nresetLow = s.nresetLow := rfl
@[simp] theorem setRosterRow_flash (s : State) (id : Nat) (r : RosterRow) : (s.setRosterRow id r).flash = s.flash := rfl
@[simp] theorem setRosterRow_sequencer (s : State) (id : Nat) (r : RosterRow) : (s.setRosterRow id r).sequencer = s.sequencer := rfl
@[simp] theorem setRosterRow_map (s : State) (id : Nat) (r : RosterRow) : (s.setRosterRow id r).map = s.map := rfl
@[simp] theorem setRosterRow_index (s : State) (id : Nat) (r : RosterRow) : (s.setRosterRow id r).index = s.index := rfl
@[simp] theorem setRosterRow_intake (s : State) (id : Nat) (r : RosterRow) : (s.setRosterRow id r).intake = s.intake := rfl
@[simp] theorem setRosterRow_scanner (s : State) (id : Nat) (r : RosterRow) : (s.setRosterRow id r).scanner = s.scanner := rfl
@[simp] theorem setRosterRow_line (s : State) (id : Nat) (r : RosterRow) : (s.setRosterRow id r).line = s.line := rfl
@[simp] theorem setRosterRow_transmit (s : State) (id : Nat) (r : RosterRow) : (s.setRosterRow id r).transmit = s.transmit := rfl
@[simp] theorem setRosterRow_tracker (s : State) (id : Nat) (r : RosterRow) : (s.setRosterRow id r).tracker = s.tracker := rfl
@[simp] theorem setRosterRow_receipts (s : State) (id : Nat) (r : RosterRow) : (s.setRosterRow id r).receipts = s.receipts := rfl
@[simp] theorem setRosterRow_gap (s : State) (id : Nat) (r : RosterRow) : (s.setRosterRow id r).gap = s.gap := rfl
@[simp] theorem setRosterRow_port (s : State) (id : Nat) (r : RosterRow) : (s.setRosterRow id r).port = s.port := rfl
@[simp] theorem setRosterRow_freeDraws (s : State) (id : Nat) (r : RosterRow) : (s.setRosterRow id r).freeDraws = s.freeDraws := rfl
@[simp] theorem setRosterRow_pending (s : State) (id : Nat) (r : RosterRow) : (s.setRosterRow id r).pending = s.pending := rfl

@[simp] theorem setRoll_now (s : State) (due : Option RollState) (timer : Option Nat) : (s.setRoll due timer).now = s.now := rfl
@[simp] theorem setRoll_power (s : State) (due : Option RollState) (timer : Option Nat) : (s.setRoll due timer).power = s.power := rfl
@[simp] theorem setRoll_nresetLow (s : State) (due : Option RollState) (timer : Option Nat) : (s.setRoll due timer).nresetLow = s.nresetLow := rfl
@[simp] theorem setRoll_flash (s : State) (due : Option RollState) (timer : Option Nat) : (s.setRoll due timer).flash = s.flash := rfl
@[simp] theorem setRoll_sequencer (s : State) (due : Option RollState) (timer : Option Nat) : (s.setRoll due timer).sequencer = s.sequencer := rfl
@[simp] theorem setRoll_map (s : State) (due : Option RollState) (timer : Option Nat) : (s.setRoll due timer).map = s.map := rfl
@[simp] theorem setRoll_index (s : State) (due : Option RollState) (timer : Option Nat) : (s.setRoll due timer).index = s.index := rfl
@[simp] theorem setRoll_intake (s : State) (due : Option RollState) (timer : Option Nat) : (s.setRoll due timer).intake = s.intake := rfl
@[simp] theorem setRoll_scanner (s : State) (due : Option RollState) (timer : Option Nat) : (s.setRoll due timer).scanner = s.scanner := rfl
@[simp] theorem setRoll_line (s : State) (due : Option RollState) (timer : Option Nat) : (s.setRoll due timer).line = s.line := rfl
@[simp] theorem setRoll_transmit (s : State) (due : Option RollState) (timer : Option Nat) : (s.setRoll due timer).transmit = s.transmit := rfl
@[simp] theorem setRoll_tracker (s : State) (due : Option RollState) (timer : Option Nat) : (s.setRoll due timer).tracker = s.tracker := rfl
@[simp] theorem setRoll_receipts (s : State) (due : Option RollState) (timer : Option Nat) : (s.setRoll due timer).receipts = s.receipts := rfl
@[simp] theorem setRoll_gap (s : State) (due : Option RollState) (timer : Option Nat) : (s.setRoll due timer).gap = s.gap := rfl
@[simp] theorem setRoll_port (s : State) (due : Option RollState) (timer : Option Nat) : (s.setRoll due timer).port = s.port := rfl
@[simp] theorem setRoll_freeDraws (s : State) (due : Option RollState) (timer : Option Nat) : (s.setRoll due timer).freeDraws = s.freeDraws := rfl
@[simp] theorem setRoll_pending (s : State) (due : Option RollState) (timer : Option Nat) : (s.setRoll due timer).pending = s.pending := rfl

@[simp] theorem setOriginRow_now (s : State) (id : Nat) (r : OriginRow) : (s.setOriginRow id r).now = s.now := rfl
@[simp] theorem setOriginRow_power (s : State) (id : Nat) (r : OriginRow) : (s.setOriginRow id r).power = s.power := rfl
@[simp] theorem setOriginRow_nresetLow (s : State) (id : Nat) (r : OriginRow) : (s.setOriginRow id r).nresetLow = s.nresetLow := rfl
@[simp] theorem setOriginRow_flash (s : State) (id : Nat) (r : OriginRow) : (s.setOriginRow id r).flash = s.flash := rfl
@[simp] theorem setOriginRow_sequencer (s : State) (id : Nat) (r : OriginRow) : (s.setOriginRow id r).sequencer = s.sequencer := rfl
@[simp] theorem setOriginRow_map (s : State) (id : Nat) (r : OriginRow) : (s.setOriginRow id r).map = s.map := rfl
@[simp] theorem setOriginRow_index (s : State) (id : Nat) (r : OriginRow) : (s.setOriginRow id r).index = s.index := rfl
@[simp] theorem setOriginRow_intake (s : State) (id : Nat) (r : OriginRow) : (s.setOriginRow id r).intake = s.intake := rfl
@[simp] theorem setOriginRow_scanner (s : State) (id : Nat) (r : OriginRow) : (s.setOriginRow id r).scanner = s.scanner := rfl
@[simp] theorem setOriginRow_line (s : State) (id : Nat) (r : OriginRow) : (s.setOriginRow id r).line = s.line := rfl
@[simp] theorem setOriginRow_transmit (s : State) (id : Nat) (r : OriginRow) : (s.setOriginRow id r).transmit = s.transmit := rfl
@[simp] theorem setOriginRow_controller (s : State) (id : Nat) (r : OriginRow) : (s.setOriginRow id r).controller = s.controller := rfl
@[simp] theorem setOriginRow_tracker (s : State) (id : Nat) (r : OriginRow) : (s.setOriginRow id r).tracker = s.tracker := rfl
@[simp] theorem setOriginRow_receipts (s : State) (id : Nat) (r : OriginRow) : (s.setOriginRow id r).receipts = s.receipts := rfl
@[simp] theorem setOriginRow_port (s : State) (id : Nat) (r : OriginRow) : (s.setOriginRow id r).port = s.port := rfl
@[simp] theorem setOriginRow_freeDraws (s : State) (id : Nat) (r : OriginRow) : (s.setOriginRow id r).freeDraws = s.freeDraws := rfl
@[simp] theorem setOriginRow_pending (s : State) (id : Nat) (r : OriginRow) : (s.setOriginRow id r).pending = s.pending := rfl

@[simp] theorem emptySlot_now (s : State) : (s.emptySlot).now = s.now := rfl
@[simp] theorem emptySlot_power (s : State) : (s.emptySlot).power = s.power := rfl
@[simp] theorem emptySlot_nresetLow (s : State) : (s.emptySlot).nresetLow = s.nresetLow := rfl
@[simp] theorem emptySlot_flash (s : State) : (s.emptySlot).flash = s.flash := rfl
@[simp] theorem emptySlot_sequencer (s : State) : (s.emptySlot).sequencer = s.sequencer := rfl
@[simp] theorem emptySlot_map (s : State) : (s.emptySlot).map = s.map := rfl
@[simp] theorem emptySlot_index (s : State) : (s.emptySlot).index = s.index := rfl
@[simp] theorem emptySlot_intake (s : State) : (s.emptySlot).intake = s.intake := rfl
@[simp] theorem emptySlot_scanner (s : State) : (s.emptySlot).scanner = s.scanner := rfl
@[simp] theorem emptySlot_line (s : State) : (s.emptySlot).line = s.line := rfl
@[simp] theorem emptySlot_transmit (s : State) : (s.emptySlot).transmit = s.transmit := rfl
@[simp] theorem emptySlot_controller (s : State) : (s.emptySlot).controller = s.controller := rfl
@[simp] theorem emptySlot_tracker (s : State) : (s.emptySlot).tracker = s.tracker := rfl
@[simp] theorem emptySlot_receipts (s : State) : (s.emptySlot).receipts = s.receipts := rfl
@[simp] theorem emptySlot_port (s : State) : (s.emptySlot).port = s.port := rfl
@[simp] theorem emptySlot_freeDraws (s : State) : (s.emptySlot).freeDraws = s.freeDraws := rfl
@[simp] theorem emptySlot_pending (s : State) : (s.emptySlot).pending = s.pending := rfl

@[simp] theorem indexPut_now (s : State) (k : Key) (l : Loc) : (s.indexPut k l).now = s.now := rfl
@[simp] theorem indexPut_power (s : State) (k : Key) (l : Loc) : (s.indexPut k l).power = s.power := rfl
@[simp] theorem indexPut_nresetLow (s : State) (k : Key) (l : Loc) : (s.indexPut k l).nresetLow = s.nresetLow := rfl
@[simp] theorem indexPut_flash (s : State) (k : Key) (l : Loc) : (s.indexPut k l).flash = s.flash := rfl
@[simp] theorem indexPut_sequencer (s : State) (k : Key) (l : Loc) : (s.indexPut k l).sequencer = s.sequencer := rfl
@[simp] theorem indexPut_map (s : State) (k : Key) (l : Loc) : (s.indexPut k l).map = s.map := rfl
@[simp] theorem indexPut_intake (s : State) (k : Key) (l : Loc) : (s.indexPut k l).intake = s.intake := rfl
@[simp] theorem indexPut_scanner (s : State) (k : Key) (l : Loc) : (s.indexPut k l).scanner = s.scanner := rfl
@[simp] theorem indexPut_line (s : State) (k : Key) (l : Loc) : (s.indexPut k l).line = s.line := rfl
@[simp] theorem indexPut_transmit (s : State) (k : Key) (l : Loc) : (s.indexPut k l).transmit = s.transmit := rfl
@[simp] theorem indexPut_controller (s : State) (k : Key) (l : Loc) : (s.indexPut k l).controller = s.controller := rfl
@[simp] theorem indexPut_tracker (s : State) (k : Key) (l : Loc) : (s.indexPut k l).tracker = s.tracker := rfl
@[simp] theorem indexPut_receipts (s : State) (k : Key) (l : Loc) : (s.indexPut k l).receipts = s.receipts := rfl
@[simp] theorem indexPut_gap (s : State) (k : Key) (l : Loc) : (s.indexPut k l).gap = s.gap := rfl
@[simp] theorem indexPut_port (s : State) (k : Key) (l : Loc) : (s.indexPut k l).port = s.port := rfl
@[simp] theorem indexPut_freeDraws (s : State) (k : Key) (l : Loc) : (s.indexPut k l).freeDraws = s.freeDraws := rfl
@[simp] theorem indexPut_pending (s : State) (k : Key) (l : Loc) : (s.indexPut k l).pending = s.pending := rfl

@[simp] theorem indexDrop_now (s : State) (k : Key) : (s.indexDrop k).now = s.now := rfl
@[simp] theorem indexDrop_power (s : State) (k : Key) : (s.indexDrop k).power = s.power := rfl
@[simp] theorem indexDrop_nresetLow (s : State) (k : Key) : (s.indexDrop k).nresetLow = s.nresetLow := rfl
@[simp] theorem indexDrop_flash (s : State) (k : Key) : (s.indexDrop k).flash = s.flash := rfl
@[simp] theorem indexDrop_sequencer (s : State) (k : Key) : (s.indexDrop k).sequencer = s.sequencer := rfl
@[simp] theorem indexDrop_map (s : State) (k : Key) : (s.indexDrop k).map = s.map := rfl
@[simp] theorem indexDrop_intake (s : State) (k : Key) : (s.indexDrop k).intake = s.intake := rfl
@[simp] theorem indexDrop_scanner (s : State) (k : Key) : (s.indexDrop k).scanner = s.scanner := rfl
@[simp] theorem indexDrop_line (s : State) (k : Key) : (s.indexDrop k).line = s.line := rfl
@[simp] theorem indexDrop_transmit (s : State) (k : Key) : (s.indexDrop k).transmit = s.transmit := rfl
@[simp] theorem indexDrop_controller (s : State) (k : Key) : (s.indexDrop k).controller = s.controller := rfl
@[simp] theorem indexDrop_tracker (s : State) (k : Key) : (s.indexDrop k).tracker = s.tracker := rfl
@[simp] theorem indexDrop_receipts (s : State) (k : Key) : (s.indexDrop k).receipts = s.receipts := rfl
@[simp] theorem indexDrop_gap (s : State) (k : Key) : (s.indexDrop k).gap = s.gap := rfl
@[simp] theorem indexDrop_port (s : State) (k : Key) : (s.indexDrop k).port = s.port := rfl
@[simp] theorem indexDrop_freeDraws (s : State) (k : Key) : (s.indexDrop k).freeDraws = s.freeDraws := rfl
@[simp] theorem indexDrop_pending (s : State) (k : Key) : (s.indexDrop k).pending = s.pending := rfl

@[simp] theorem setBlock_now (s : State) (b : BlockId) (r : BlockRow) : (s.setBlock b r).now = s.now := rfl
@[simp] theorem setBlock_power (s : State) (b : BlockId) (r : BlockRow) : (s.setBlock b r).power = s.power := rfl
@[simp] theorem setBlock_nresetLow (s : State) (b : BlockId) (r : BlockRow) : (s.setBlock b r).nresetLow = s.nresetLow := rfl
@[simp] theorem setBlock_flash (s : State) (b : BlockId) (r : BlockRow) : (s.setBlock b r).flash = s.flash := rfl
@[simp] theorem setBlock_sequencer (s : State) (b : BlockId) (r : BlockRow) : (s.setBlock b r).sequencer = s.sequencer := rfl
@[simp] theorem setBlock_index (s : State) (b : BlockId) (r : BlockRow) : (s.setBlock b r).index = s.index := rfl
@[simp] theorem setBlock_intake (s : State) (b : BlockId) (r : BlockRow) : (s.setBlock b r).intake = s.intake := rfl
@[simp] theorem setBlock_scanner (s : State) (b : BlockId) (r : BlockRow) : (s.setBlock b r).scanner = s.scanner := rfl
@[simp] theorem setBlock_line (s : State) (b : BlockId) (r : BlockRow) : (s.setBlock b r).line = s.line := rfl
@[simp] theorem setBlock_transmit (s : State) (b : BlockId) (r : BlockRow) : (s.setBlock b r).transmit = s.transmit := rfl
@[simp] theorem setBlock_controller (s : State) (b : BlockId) (r : BlockRow) : (s.setBlock b r).controller = s.controller := rfl
@[simp] theorem setBlock_tracker (s : State) (b : BlockId) (r : BlockRow) : (s.setBlock b r).tracker = s.tracker := rfl
@[simp] theorem setBlock_receipts (s : State) (b : BlockId) (r : BlockRow) : (s.setBlock b r).receipts = s.receipts := rfl
@[simp] theorem setBlock_gap (s : State) (b : BlockId) (r : BlockRow) : (s.setBlock b r).gap = s.gap := rfl
@[simp] theorem setBlock_port (s : State) (b : BlockId) (r : BlockRow) : (s.setBlock b r).port = s.port := rfl
@[simp] theorem setBlock_freeDraws (s : State) (b : BlockId) (r : BlockRow) : (s.setBlock b r).freeDraws = s.freeDraws := rfl
@[simp] theorem setBlock_pending (s : State) (b : BlockId) (r : BlockRow) : (s.setBlock b r).pending = s.pending := rfl

@[simp] theorem setLane_now (s : State) (l : Lane) (r : LaneRow) : (s.setLane l r).now = s.now := rfl
@[simp] theorem setLane_power (s : State) (l : Lane) (r : LaneRow) : (s.setLane l r).power = s.power := rfl
@[simp] theorem setLane_nresetLow (s : State) (l : Lane) (r : LaneRow) : (s.setLane l r).nresetLow = s.nresetLow := rfl
@[simp] theorem setLane_flash (s : State) (l : Lane) (r : LaneRow) : (s.setLane l r).flash = s.flash := rfl
@[simp] theorem setLane_sequencer (s : State) (l : Lane) (r : LaneRow) : (s.setLane l r).sequencer = s.sequencer := rfl
@[simp] theorem setLane_index (s : State) (l : Lane) (r : LaneRow) : (s.setLane l r).index = s.index := rfl
@[simp] theorem setLane_intake (s : State) (l : Lane) (r : LaneRow) : (s.setLane l r).intake = s.intake := rfl
@[simp] theorem setLane_scanner (s : State) (l : Lane) (r : LaneRow) : (s.setLane l r).scanner = s.scanner := rfl
@[simp] theorem setLane_line (s : State) (l : Lane) (r : LaneRow) : (s.setLane l r).line = s.line := rfl
@[simp] theorem setLane_transmit (s : State) (l : Lane) (r : LaneRow) : (s.setLane l r).transmit = s.transmit := rfl
@[simp] theorem setLane_controller (s : State) (l : Lane) (r : LaneRow) : (s.setLane l r).controller = s.controller := rfl
@[simp] theorem setLane_tracker (s : State) (l : Lane) (r : LaneRow) : (s.setLane l r).tracker = s.tracker := rfl
@[simp] theorem setLane_receipts (s : State) (l : Lane) (r : LaneRow) : (s.setLane l r).receipts = s.receipts := rfl
@[simp] theorem setLane_gap (s : State) (l : Lane) (r : LaneRow) : (s.setLane l r).gap = s.gap := rfl
@[simp] theorem setLane_port (s : State) (l : Lane) (r : LaneRow) : (s.setLane l r).port = s.port := rfl
@[simp] theorem setLane_freeDraws (s : State) (l : Lane) (r : LaneRow) : (s.setLane l r).freeDraws = s.freeDraws := rfl
@[simp] theorem setLane_pending (s : State) (l : Lane) (r : LaneRow) : (s.setLane l r).pending = s.pending := rfl

@[simp] theorem setBuffer_now (s : State) (i : BufferNo) (b : Buffer) : (s.setBuffer i b).now = s.now := rfl
@[simp] theorem setBuffer_power (s : State) (i : BufferNo) (b : Buffer) : (s.setBuffer i b).power = s.power := rfl
@[simp] theorem setBuffer_nresetLow (s : State) (i : BufferNo) (b : Buffer) : (s.setBuffer i b).nresetLow = s.nresetLow := rfl
@[simp] theorem setBuffer_flash (s : State) (i : BufferNo) (b : Buffer) : (s.setBuffer i b).flash = s.flash := rfl
@[simp] theorem setBuffer_sequencer (s : State) (i : BufferNo) (b : Buffer) : (s.setBuffer i b).sequencer = s.sequencer := rfl
@[simp] theorem setBuffer_map (s : State) (i : BufferNo) (b : Buffer) : (s.setBuffer i b).map = s.map := rfl
@[simp] theorem setBuffer_index (s : State) (i : BufferNo) (b : Buffer) : (s.setBuffer i b).index = s.index := rfl
@[simp] theorem setBuffer_intake (s : State) (i : BufferNo) (b : Buffer) : (s.setBuffer i b).intake = s.intake := rfl
@[simp] theorem setBuffer_scanner (s : State) (i : BufferNo) (b : Buffer) : (s.setBuffer i b).scanner = s.scanner := rfl
@[simp] theorem setBuffer_line (s : State) (i : BufferNo) (b : Buffer) : (s.setBuffer i b).line = s.line := rfl
@[simp] theorem setBuffer_controller (s : State) (i : BufferNo) (b : Buffer) : (s.setBuffer i b).controller = s.controller := rfl
@[simp] theorem setBuffer_tracker (s : State) (i : BufferNo) (b : Buffer) : (s.setBuffer i b).tracker = s.tracker := rfl
@[simp] theorem setBuffer_receipts (s : State) (i : BufferNo) (b : Buffer) : (s.setBuffer i b).receipts = s.receipts := rfl
@[simp] theorem setBuffer_gap (s : State) (i : BufferNo) (b : Buffer) : (s.setBuffer i b).gap = s.gap := rfl
@[simp] theorem setBuffer_port (s : State) (i : BufferNo) (b : Buffer) : (s.setBuffer i b).port = s.port := rfl
@[simp] theorem setBuffer_freeDraws (s : State) (i : BufferNo) (b : Buffer) : (s.setBuffer i b).freeDraws = s.freeDraws := rfl
@[simp] theorem setBuffer_pending (s : State) (i : BufferNo) (b : Buffer) : (s.setBuffer i b).pending = s.pending := rfl

@[simp] theorem dropSendOnce_now (s : State) (k : Key) : (s.dropSendOnce k).now = s.now := rfl
@[simp] theorem dropSendOnce_power (s : State) (k : Key) : (s.dropSendOnce k).power = s.power := rfl
@[simp] theorem dropSendOnce_nresetLow (s : State) (k : Key) : (s.dropSendOnce k).nresetLow = s.nresetLow := rfl
@[simp] theorem dropSendOnce_flash (s : State) (k : Key) : (s.dropSendOnce k).flash = s.flash := rfl
@[simp] theorem dropSendOnce_sequencer (s : State) (k : Key) : (s.dropSendOnce k).sequencer = s.sequencer := rfl
@[simp] theorem dropSendOnce_map (s : State) (k : Key) : (s.dropSendOnce k).map = s.map := rfl
@[simp] theorem dropSendOnce_index (s : State) (k : Key) : (s.dropSendOnce k).index = s.index := rfl
@[simp] theorem dropSendOnce_intake (s : State) (k : Key) : (s.dropSendOnce k).intake = s.intake := rfl
@[simp] theorem dropSendOnce_scanner (s : State) (k : Key) : (s.dropSendOnce k).scanner = s.scanner := rfl
@[simp] theorem dropSendOnce_line (s : State) (k : Key) : (s.dropSendOnce k).line = s.line := rfl
@[simp] theorem dropSendOnce_controller (s : State) (k : Key) : (s.dropSendOnce k).controller = s.controller := rfl
@[simp] theorem dropSendOnce_tracker (s : State) (k : Key) : (s.dropSendOnce k).tracker = s.tracker := rfl
@[simp] theorem dropSendOnce_receipts (s : State) (k : Key) : (s.dropSendOnce k).receipts = s.receipts := rfl
@[simp] theorem dropSendOnce_gap (s : State) (k : Key) : (s.dropSendOnce k).gap = s.gap := rfl
@[simp] theorem dropSendOnce_port (s : State) (k : Key) : (s.dropSendOnce k).port = s.port := rfl
@[simp] theorem dropSendOnce_freeDraws (s : State) (k : Key) : (s.dropSendOnce k).freeDraws = s.freeDraws := rfl
@[simp] theorem dropSendOnce_pending (s : State) (k : Key) : (s.dropSendOnce k).pending = s.pending := rfl

@[simp] theorem updateEntry_now (s : State) (k : Key) (f : TrackerEntry → TrackerEntry) : (s.updateEntry k f).now = s.now := rfl
@[simp] theorem updateEntry_power (s : State) (k : Key) (f : TrackerEntry → TrackerEntry) : (s.updateEntry k f).power = s.power := rfl
@[simp] theorem updateEntry_nresetLow (s : State) (k : Key) (f : TrackerEntry → TrackerEntry) : (s.updateEntry k f).nresetLow = s.nresetLow := rfl
@[simp] theorem updateEntry_flash (s : State) (k : Key) (f : TrackerEntry → TrackerEntry) : (s.updateEntry k f).flash = s.flash := rfl
@[simp] theorem updateEntry_sequencer (s : State) (k : Key) (f : TrackerEntry → TrackerEntry) : (s.updateEntry k f).sequencer = s.sequencer := rfl
@[simp] theorem updateEntry_map (s : State) (k : Key) (f : TrackerEntry → TrackerEntry) : (s.updateEntry k f).map = s.map := rfl
@[simp] theorem updateEntry_index (s : State) (k : Key) (f : TrackerEntry → TrackerEntry) : (s.updateEntry k f).index = s.index := rfl
@[simp] theorem updateEntry_intake (s : State) (k : Key) (f : TrackerEntry → TrackerEntry) : (s.updateEntry k f).intake = s.intake := rfl
@[simp] theorem updateEntry_scanner (s : State) (k : Key) (f : TrackerEntry → TrackerEntry) : (s.updateEntry k f).scanner = s.scanner := rfl
@[simp] theorem updateEntry_line (s : State) (k : Key) (f : TrackerEntry → TrackerEntry) : (s.updateEntry k f).line = s.line := rfl
@[simp] theorem updateEntry_transmit (s : State) (k : Key) (f : TrackerEntry → TrackerEntry) : (s.updateEntry k f).transmit = s.transmit := rfl
@[simp] theorem updateEntry_controller (s : State) (k : Key) (f : TrackerEntry → TrackerEntry) : (s.updateEntry k f).controller = s.controller := rfl
@[simp] theorem updateEntry_receipts (s : State) (k : Key) (f : TrackerEntry → TrackerEntry) : (s.updateEntry k f).receipts = s.receipts := rfl
@[simp] theorem updateEntry_gap (s : State) (k : Key) (f : TrackerEntry → TrackerEntry) : (s.updateEntry k f).gap = s.gap := rfl
@[simp] theorem updateEntry_port (s : State) (k : Key) (f : TrackerEntry → TrackerEntry) : (s.updateEntry k f).port = s.port := rfl
@[simp] theorem updateEntry_freeDraws (s : State) (k : Key) (f : TrackerEntry → TrackerEntry) : (s.updateEntry k f).freeDraws = s.freeDraws := rfl
@[simp] theorem updateEntry_pending (s : State) (k : Key) (f : TrackerEntry → TrackerEntry) : (s.updateEntry k f).pending = s.pending := rfl

@[simp] theorem stage_now (s : State) (r : Record) (src : Source) : (s.stage r src).now = s.now := rfl
@[simp] theorem stage_power (s : State) (r : Record) (src : Source) : (s.stage r src).power = s.power := rfl
@[simp] theorem stage_nresetLow (s : State) (r : Record) (src : Source) : (s.stage r src).nresetLow = s.nresetLow := rfl
@[simp] theorem stage_flash (s : State) (r : Record) (src : Source) : (s.stage r src).flash = s.flash := rfl
@[simp] theorem stage_sequencer (s : State) (r : Record) (src : Source) : (s.stage r src).sequencer = s.sequencer := rfl
@[simp] theorem stage_map (s : State) (r : Record) (src : Source) : (s.stage r src).map = s.map := rfl
@[simp] theorem stage_index (s : State) (r : Record) (src : Source) : (s.stage r src).index = s.index := rfl
@[simp] theorem stage_scanner (s : State) (r : Record) (src : Source) : (s.stage r src).scanner = s.scanner := rfl
@[simp] theorem stage_line (s : State) (r : Record) (src : Source) : (s.stage r src).line = s.line := rfl
@[simp] theorem stage_transmit (s : State) (r : Record) (src : Source) : (s.stage r src).transmit = s.transmit := rfl
@[simp] theorem stage_controller (s : State) (r : Record) (src : Source) : (s.stage r src).controller = s.controller := rfl
@[simp] theorem stage_tracker (s : State) (r : Record) (src : Source) : (s.stage r src).tracker = s.tracker := rfl
@[simp] theorem stage_receipts (s : State) (r : Record) (src : Source) : (s.stage r src).receipts = s.receipts := rfl
@[simp] theorem stage_gap (s : State) (r : Record) (src : Source) : (s.stage r src).gap = s.gap := rfl
@[simp] theorem stage_port (s : State) (r : Record) (src : Source) : (s.stage r src).port = s.port := rfl
@[simp] theorem stage_freeDraws (s : State) (r : Record) (src : Source) : (s.stage r src).freeDraws = s.freeDraws := rfl
@[simp] theorem stage_pending (s : State) (r : Record) (src : Source) : (s.stage r src).pending = s.pending := rfl

@[simp] theorem returnEntries_now (s : State) (b : BlockId) : (s.returnEntries b).now = s.now := rfl
@[simp] theorem returnEntries_power (s : State) (b : BlockId) : (s.returnEntries b).power = s.power := rfl
@[simp] theorem returnEntries_nresetLow (s : State) (b : BlockId) : (s.returnEntries b).nresetLow = s.nresetLow := rfl
@[simp] theorem returnEntries_flash (s : State) (b : BlockId) : (s.returnEntries b).flash = s.flash := rfl
@[simp] theorem returnEntries_sequencer (s : State) (b : BlockId) : (s.returnEntries b).sequencer = s.sequencer := rfl
@[simp] theorem returnEntries_map (s : State) (b : BlockId) : (s.returnEntries b).map = s.map := rfl
@[simp] theorem returnEntries_index (s : State) (b : BlockId) : (s.returnEntries b).index = s.index := rfl
@[simp] theorem returnEntries_scanner (s : State) (b : BlockId) : (s.returnEntries b).scanner = s.scanner := rfl
@[simp] theorem returnEntries_line (s : State) (b : BlockId) : (s.returnEntries b).line = s.line := rfl
@[simp] theorem returnEntries_transmit (s : State) (b : BlockId) : (s.returnEntries b).transmit = s.transmit := rfl
@[simp] theorem returnEntries_controller (s : State) (b : BlockId) : (s.returnEntries b).controller = s.controller := rfl
@[simp] theorem returnEntries_tracker (s : State) (b : BlockId) : (s.returnEntries b).tracker = s.tracker := rfl
@[simp] theorem returnEntries_receipts (s : State) (b : BlockId) : (s.returnEntries b).receipts = s.receipts := rfl
@[simp] theorem returnEntries_gap (s : State) (b : BlockId) : (s.returnEntries b).gap = s.gap := rfl
@[simp] theorem returnEntries_port (s : State) (b : BlockId) : (s.returnEntries b).port = s.port := rfl
@[simp] theorem returnEntries_freeDraws (s : State) (b : BlockId) : (s.returnEntries b).freeDraws = s.freeDraws := rfl
@[simp] theorem returnEntries_pending (s : State) (b : BlockId) : (s.returnEntries b).pending = s.pending := rfl

@[simp] theorem dropReceipt_now (s : State) (k : Key) : (s.dropReceipt k).now = s.now := rfl
@[simp] theorem dropReceipt_power (s : State) (k : Key) : (s.dropReceipt k).power = s.power := rfl
@[simp] theorem dropReceipt_nresetLow (s : State) (k : Key) : (s.dropReceipt k).nresetLow = s.nresetLow := rfl
@[simp] theorem dropReceipt_flash (s : State) (k : Key) : (s.dropReceipt k).flash = s.flash := rfl
@[simp] theorem dropReceipt_sequencer (s : State) (k : Key) : (s.dropReceipt k).sequencer = s.sequencer := rfl
@[simp] theorem dropReceipt_map (s : State) (k : Key) : (s.dropReceipt k).map = s.map := rfl
@[simp] theorem dropReceipt_index (s : State) (k : Key) : (s.dropReceipt k).index = s.index := rfl
@[simp] theorem dropReceipt_intake (s : State) (k : Key) : (s.dropReceipt k).intake = s.intake := rfl
@[simp] theorem dropReceipt_scanner (s : State) (k : Key) : (s.dropReceipt k).scanner = s.scanner := rfl
@[simp] theorem dropReceipt_line (s : State) (k : Key) : (s.dropReceipt k).line = s.line := rfl
@[simp] theorem dropReceipt_transmit (s : State) (k : Key) : (s.dropReceipt k).transmit = s.transmit := rfl
@[simp] theorem dropReceipt_controller (s : State) (k : Key) : (s.dropReceipt k).controller = s.controller := rfl
@[simp] theorem dropReceipt_tracker (s : State) (k : Key) : (s.dropReceipt k).tracker = s.tracker := rfl
@[simp] theorem dropReceipt_gap (s : State) (k : Key) : (s.dropReceipt k).gap = s.gap := rfl
@[simp] theorem dropReceipt_port (s : State) (k : Key) : (s.dropReceipt k).port = s.port := rfl
@[simp] theorem dropReceipt_freeDraws (s : State) (k : Key) : (s.dropReceipt k).freeDraws = s.freeDraws := rfl
@[simp] theorem dropReceipt_pending (s : State) (k : Key) : (s.dropReceipt k).pending = s.pending := rfl

@[simp] theorem lineAfter_now (s : State) (state : LineState) (idle : Nat) : (s.lineAfter state idle).now = s.now := rfl
@[simp] theorem lineAfter_power (s : State) (state : LineState) (idle : Nat) : (s.lineAfter state idle).power = s.power := rfl
@[simp] theorem lineAfter_nresetLow (s : State) (state : LineState) (idle : Nat) : (s.lineAfter state idle).nresetLow = s.nresetLow := rfl
@[simp] theorem lineAfter_flash (s : State) (state : LineState) (idle : Nat) : (s.lineAfter state idle).flash = s.flash := rfl
@[simp] theorem lineAfter_sequencer (s : State) (state : LineState) (idle : Nat) : (s.lineAfter state idle).sequencer = s.sequencer := rfl
@[simp] theorem lineAfter_map (s : State) (state : LineState) (idle : Nat) : (s.lineAfter state idle).map = s.map := rfl
@[simp] theorem lineAfter_index (s : State) (state : LineState) (idle : Nat) : (s.lineAfter state idle).index = s.index := rfl
@[simp] theorem lineAfter_intake (s : State) (state : LineState) (idle : Nat) : (s.lineAfter state idle).intake = s.intake := rfl
@[simp] theorem lineAfter_scanner (s : State) (state : LineState) (idle : Nat) : (s.lineAfter state idle).scanner = s.scanner := rfl
@[simp] theorem lineAfter_transmit (s : State) (state : LineState) (idle : Nat) : (s.lineAfter state idle).transmit = s.transmit := rfl
@[simp] theorem lineAfter_controller (s : State) (state : LineState) (idle : Nat) : (s.lineAfter state idle).controller = s.controller := rfl
@[simp] theorem lineAfter_tracker (s : State) (state : LineState) (idle : Nat) : (s.lineAfter state idle).tracker = s.tracker := rfl
@[simp] theorem lineAfter_receipts (s : State) (state : LineState) (idle : Nat) : (s.lineAfter state idle).receipts = s.receipts := rfl
@[simp] theorem lineAfter_gap (s : State) (state : LineState) (idle : Nat) : (s.lineAfter state idle).gap = s.gap := rfl
@[simp] theorem lineAfter_port (s : State) (state : LineState) (idle : Nat) : (s.lineAfter state idle).port = s.port := rfl
@[simp] theorem lineAfter_freeDraws (s : State) (state : LineState) (idle : Nat) : (s.lineAfter state idle).freeDraws = s.freeDraws := rfl
@[simp] theorem lineAfter_pending (s : State) (state : LineState) (idle : Nat) : (s.lineAfter state idle).pending = s.pending := rfl

@[simp] theorem readingEnded_now (s : State) (state : LineState) (idle : Nat) : (s.readingEnded state idle).now = s.now := rfl
@[simp] theorem readingEnded_power (s : State) (state : LineState) (idle : Nat) : (s.readingEnded state idle).power = s.power := rfl
@[simp] theorem readingEnded_nresetLow (s : State) (state : LineState) (idle : Nat) : (s.readingEnded state idle).nresetLow = s.nresetLow := rfl
@[simp] theorem readingEnded_flash (s : State) (state : LineState) (idle : Nat) : (s.readingEnded state idle).flash = s.flash := rfl
@[simp] theorem readingEnded_sequencer (s : State) (state : LineState) (idle : Nat) : (s.readingEnded state idle).sequencer = s.sequencer := rfl
@[simp] theorem readingEnded_map (s : State) (state : LineState) (idle : Nat) : (s.readingEnded state idle).map = s.map := rfl
@[simp] theorem readingEnded_index (s : State) (state : LineState) (idle : Nat) : (s.readingEnded state idle).index = s.index := rfl
@[simp] theorem readingEnded_intake (s : State) (state : LineState) (idle : Nat) : (s.readingEnded state idle).intake = s.intake := rfl
@[simp] theorem readingEnded_scanner (s : State) (state : LineState) (idle : Nat) : (s.readingEnded state idle).scanner = s.scanner := rfl
@[simp] theorem readingEnded_transmit (s : State) (state : LineState) (idle : Nat) : (s.readingEnded state idle).transmit = s.transmit := rfl
@[simp] theorem readingEnded_controller (s : State) (state : LineState) (idle : Nat) : (s.readingEnded state idle).controller = s.controller := rfl
@[simp] theorem readingEnded_tracker (s : State) (state : LineState) (idle : Nat) : (s.readingEnded state idle).tracker = s.tracker := rfl
@[simp] theorem readingEnded_receipts (s : State) (state : LineState) (idle : Nat) : (s.readingEnded state idle).receipts = s.receipts := rfl
@[simp] theorem readingEnded_gap (s : State) (state : LineState) (idle : Nat) : (s.readingEnded state idle).gap = s.gap := rfl
@[simp] theorem readingEnded_port (s : State) (state : LineState) (idle : Nat) : (s.readingEnded state idle).port = s.port := rfl
@[simp] theorem readingEnded_freeDraws (s : State) (state : LineState) (idle : Nat) : (s.readingEnded state idle).freeDraws = s.freeDraws := rfl
@[simp] theorem readingEnded_pending (s : State) (state : LineState) (idle : Nat) : (s.readingEnded state idle).pending = s.pending := rfl

@[simp] theorem frameEnded_now (s : State) (bytes : List Byte) : (s.frameEnded bytes).now = s.now := rfl
@[simp] theorem frameEnded_power (s : State) (bytes : List Byte) : (s.frameEnded bytes).power = s.power := rfl
@[simp] theorem frameEnded_nresetLow (s : State) (bytes : List Byte) : (s.frameEnded bytes).nresetLow = s.nresetLow := rfl
@[simp] theorem frameEnded_flash (s : State) (bytes : List Byte) : (s.frameEnded bytes).flash = s.flash := rfl
@[simp] theorem frameEnded_sequencer (s : State) (bytes : List Byte) : (s.frameEnded bytes).sequencer = s.sequencer := rfl
@[simp] theorem frameEnded_map (s : State) (bytes : List Byte) : (s.frameEnded bytes).map = s.map := rfl
@[simp] theorem frameEnded_index (s : State) (bytes : List Byte) : (s.frameEnded bytes).index = s.index := rfl
@[simp] theorem frameEnded_intake (s : State) (bytes : List Byte) : (s.frameEnded bytes).intake = s.intake := rfl
@[simp] theorem frameEnded_scanner (s : State) (bytes : List Byte) : (s.frameEnded bytes).scanner = s.scanner := rfl
@[simp] theorem frameEnded_transmit (s : State) (bytes : List Byte) : (s.frameEnded bytes).transmit = s.transmit := rfl
@[simp] theorem frameEnded_controller (s : State) (bytes : List Byte) : (s.frameEnded bytes).controller = s.controller := rfl
@[simp] theorem frameEnded_tracker (s : State) (bytes : List Byte) : (s.frameEnded bytes).tracker = s.tracker := rfl
@[simp] theorem frameEnded_receipts (s : State) (bytes : List Byte) : (s.frameEnded bytes).receipts = s.receipts := rfl
@[simp] theorem frameEnded_gap (s : State) (bytes : List Byte) : (s.frameEnded bytes).gap = s.gap := rfl
@[simp] theorem frameEnded_port (s : State) (bytes : List Byte) : (s.frameEnded bytes).port = s.port := rfl
@[simp] theorem frameEnded_freeDraws (s : State) (bytes : List Byte) : (s.frameEnded bytes).freeDraws = s.freeDraws := rfl
@[simp] theorem frameEnded_pending (s : State) (bytes : List Byte) : (s.frameEnded bytes).pending = s.pending := rfl

@[simp] theorem countRejected_now (s : State) : (s.countRejected).now = s.now := rfl
@[simp] theorem countRejected_power (s : State) : (s.countRejected).power = s.power := rfl
@[simp] theorem countRejected_nresetLow (s : State) : (s.countRejected).nresetLow = s.nresetLow := rfl
@[simp] theorem countRejected_flash (s : State) : (s.countRejected).flash = s.flash := rfl
@[simp] theorem countRejected_sequencer (s : State) : (s.countRejected).sequencer = s.sequencer := rfl
@[simp] theorem countRejected_map (s : State) : (s.countRejected).map = s.map := rfl
@[simp] theorem countRejected_index (s : State) : (s.countRejected).index = s.index := rfl
@[simp] theorem countRejected_intake (s : State) : (s.countRejected).intake = s.intake := rfl
@[simp] theorem countRejected_scanner (s : State) : (s.countRejected).scanner = s.scanner := rfl
@[simp] theorem countRejected_transmit (s : State) : (s.countRejected).transmit = s.transmit := rfl
@[simp] theorem countRejected_controller (s : State) : (s.countRejected).controller = s.controller := rfl
@[simp] theorem countRejected_tracker (s : State) : (s.countRejected).tracker = s.tracker := rfl
@[simp] theorem countRejected_receipts (s : State) : (s.countRejected).receipts = s.receipts := rfl
@[simp] theorem countRejected_gap (s : State) : (s.countRejected).gap = s.gap := rfl
@[simp] theorem countRejected_port (s : State) : (s.countRejected).port = s.port := rfl
@[simp] theorem countRejected_freeDraws (s : State) : (s.countRejected).freeDraws = s.freeDraws := rfl
@[simp] theorem countRejected_pending (s : State) : (s.countRejected).pending = s.pending := rfl

@[simp] theorem sent_now (s : State) (f : Frame) : (s.sent f).now = s.now := rfl
@[simp] theorem sent_power (s : State) (f : Frame) : (s.sent f).power = s.power := rfl
@[simp] theorem sent_nresetLow (s : State) (f : Frame) : (s.sent f).nresetLow = s.nresetLow := rfl
@[simp] theorem sent_flash (s : State) (f : Frame) : (s.sent f).flash = s.flash := rfl
@[simp] theorem sent_sequencer (s : State) (f : Frame) : (s.sent f).sequencer = s.sequencer := rfl
@[simp] theorem sent_map (s : State) (f : Frame) : (s.sent f).map = s.map := rfl
@[simp] theorem sent_index (s : State) (f : Frame) : (s.sent f).index = s.index := rfl
@[simp] theorem sent_intake (s : State) (f : Frame) : (s.sent f).intake = s.intake := rfl
@[simp] theorem sent_scanner (s : State) (f : Frame) : (s.sent f).scanner = s.scanner := rfl
@[simp] theorem sent_transmit (s : State) (f : Frame) : (s.sent f).transmit = s.transmit := rfl
@[simp] theorem sent_controller (s : State) (f : Frame) : (s.sent f).controller = s.controller := rfl
@[simp] theorem sent_tracker (s : State) (f : Frame) : (s.sent f).tracker = s.tracker := rfl
@[simp] theorem sent_receipts (s : State) (f : Frame) : (s.sent f).receipts = s.receipts := rfl
@[simp] theorem sent_gap (s : State) (f : Frame) : (s.sent f).gap = s.gap := rfl
@[simp] theorem sent_port (s : State) (f : Frame) : (s.sent f).port = s.port := rfl
@[simp] theorem sent_freeDraws (s : State) (f : Frame) : (s.sent f).freeDraws = s.freeDraws := rfl
@[simp] theorem sent_pending (s : State) (f : Frame) : (s.sent f).pending = s.pending := rfl

@[simp] theorem freeArray_now (s : State) : (s.freeArray).now = s.now := rfl
@[simp] theorem freeArray_power (s : State) : (s.freeArray).power = s.power := rfl
@[simp] theorem freeArray_nresetLow (s : State) : (s.freeArray).nresetLow = s.nresetLow := rfl
@[simp] theorem freeArray_flash (s : State) : (s.freeArray).flash = s.flash := rfl
@[simp] theorem freeArray_map (s : State) : (s.freeArray).map = s.map := rfl
@[simp] theorem freeArray_index (s : State) : (s.freeArray).index = s.index := rfl
@[simp] theorem freeArray_intake (s : State) : (s.freeArray).intake = s.intake := rfl
@[simp] theorem freeArray_scanner (s : State) : (s.freeArray).scanner = s.scanner := rfl
@[simp] theorem freeArray_line (s : State) : (s.freeArray).line = s.line := rfl
@[simp] theorem freeArray_transmit (s : State) : (s.freeArray).transmit = s.transmit := rfl
@[simp] theorem freeArray_controller (s : State) : (s.freeArray).controller = s.controller := rfl
@[simp] theorem freeArray_tracker (s : State) : (s.freeArray).tracker = s.tracker := rfl
@[simp] theorem freeArray_receipts (s : State) : (s.freeArray).receipts = s.receipts := rfl
@[simp] theorem freeArray_gap (s : State) : (s.freeArray).gap = s.gap := rfl
@[simp] theorem freeArray_port (s : State) : (s.freeArray).port = s.port := rfl
@[simp] theorem freeArray_freeDraws (s : State) : (s.freeArray).freeDraws = s.freeDraws := rfl
@[simp] theorem freeArray_pending (s : State) : (s.freeArray).pending = s.pending := rfl

@[simp] theorem cellsChange_now (s : State) (b : BlockId) (p : PageNo) (w : PageChange) : (s.cellsChange b p w).now = s.now := rfl
@[simp] theorem cellsChange_power (s : State) (b : BlockId) (p : PageNo) (w : PageChange) : (s.cellsChange b p w).power = s.power := rfl
@[simp] theorem cellsChange_nresetLow (s : State) (b : BlockId) (p : PageNo) (w : PageChange) : (s.cellsChange b p w).nresetLow = s.nresetLow := rfl
@[simp] theorem cellsChange_map (s : State) (b : BlockId) (p : PageNo) (w : PageChange) : (s.cellsChange b p w).map = s.map := rfl
@[simp] theorem cellsChange_sequencer (s : State) (b : BlockId) (p : PageNo) (w : PageChange) : (s.cellsChange b p w).sequencer = s.sequencer := rfl
@[simp] theorem cellsChange_index (s : State) (b : BlockId) (p : PageNo) (w : PageChange) : (s.cellsChange b p w).index = s.index := rfl
@[simp] theorem cellsChange_intake (s : State) (b : BlockId) (p : PageNo) (w : PageChange) : (s.cellsChange b p w).intake = s.intake := rfl
@[simp] theorem cellsChange_scanner (s : State) (b : BlockId) (p : PageNo) (w : PageChange) : (s.cellsChange b p w).scanner = s.scanner := rfl
@[simp] theorem cellsChange_line (s : State) (b : BlockId) (p : PageNo) (w : PageChange) : (s.cellsChange b p w).line = s.line := rfl
@[simp] theorem cellsChange_transmit (s : State) (b : BlockId) (p : PageNo) (w : PageChange) : (s.cellsChange b p w).transmit = s.transmit := rfl
@[simp] theorem cellsChange_controller (s : State) (b : BlockId) (p : PageNo) (w : PageChange) : (s.cellsChange b p w).controller = s.controller := rfl
@[simp] theorem cellsChange_tracker (s : State) (b : BlockId) (p : PageNo) (w : PageChange) : (s.cellsChange b p w).tracker = s.tracker := rfl
@[simp] theorem cellsChange_receipts (s : State) (b : BlockId) (p : PageNo) (w : PageChange) : (s.cellsChange b p w).receipts = s.receipts := rfl
@[simp] theorem cellsChange_gap (s : State) (b : BlockId) (p : PageNo) (w : PageChange) : (s.cellsChange b p w).gap = s.gap := rfl
@[simp] theorem cellsChange_port (s : State) (b : BlockId) (p : PageNo) (w : PageChange) : (s.cellsChange b p w).port = s.port := rfl
@[simp] theorem cellsChange_freeDraws (s : State) (b : BlockId) (p : PageNo) (w : PageChange) : (s.cellsChange b p w).freeDraws = s.freeDraws := rfl
@[simp] theorem cellsChange_pending (s : State) (b : BlockId) (p : PageNo) (w : PageChange) : (s.cellsChange b p w).pending = s.pending := rfl

@[simp] theorem setProtect_now (s : State) (level : Bool) : (s.setProtect level).now = s.now := rfl
@[simp] theorem setProtect_power (s : State) (level : Bool) : (s.setProtect level).power = s.power := rfl
@[simp] theorem setProtect_nresetLow (s : State) (level : Bool) : (s.setProtect level).nresetLow = s.nresetLow := rfl
@[simp] theorem setProtect_flash (s : State) (level : Bool) : (s.setProtect level).flash = s.flash := rfl
@[simp] theorem setProtect_map (s : State) (level : Bool) : (s.setProtect level).map = s.map := rfl
@[simp] theorem setProtect_index (s : State) (level : Bool) : (s.setProtect level).index = s.index := rfl
@[simp] theorem setProtect_intake (s : State) (level : Bool) : (s.setProtect level).intake = s.intake := rfl
@[simp] theorem setProtect_scanner (s : State) (level : Bool) : (s.setProtect level).scanner = s.scanner := rfl
@[simp] theorem setProtect_line (s : State) (level : Bool) : (s.setProtect level).line = s.line := rfl
@[simp] theorem setProtect_transmit (s : State) (level : Bool) : (s.setProtect level).transmit = s.transmit := rfl
@[simp] theorem setProtect_controller (s : State) (level : Bool) : (s.setProtect level).controller = s.controller := rfl
@[simp] theorem setProtect_tracker (s : State) (level : Bool) : (s.setProtect level).tracker = s.tracker := rfl
@[simp] theorem setProtect_receipts (s : State) (level : Bool) : (s.setProtect level).receipts = s.receipts := rfl
@[simp] theorem setProtect_gap (s : State) (level : Bool) : (s.setProtect level).gap = s.gap := rfl
@[simp] theorem setProtect_port (s : State) (level : Bool) : (s.setProtect level).port = s.port := rfl
@[simp] theorem setProtect_freeDraws (s : State) (level : Bool) : (s.setProtect level).freeDraws = s.freeDraws := rfl
@[simp] theorem setProtect_pending (s : State) (level : Bool) : (s.setProtect level).pending = s.pending := rfl

@[simp] theorem programCells_now (s : State) (p : PassLane) (fate : Option PassFate) : (s.programCells p fate).now = s.now := rfl
@[simp] theorem programCells_power (s : State) (p : PassLane) (fate : Option PassFate) : (s.programCells p fate).power = s.power := rfl
@[simp] theorem programCells_nresetLow (s : State) (p : PassLane) (fate : Option PassFate) : (s.programCells p fate).nresetLow = s.nresetLow := rfl
@[simp] theorem programCells_sequencer (s : State) (p : PassLane) (fate : Option PassFate) : (s.programCells p fate).sequencer = s.sequencer := rfl
@[simp] theorem programCells_map (s : State) (p : PassLane) (fate : Option PassFate) : (s.programCells p fate).map = s.map := rfl
@[simp] theorem programCells_index (s : State) (p : PassLane) (fate : Option PassFate) : (s.programCells p fate).index = s.index := rfl
@[simp] theorem programCells_intake (s : State) (p : PassLane) (fate : Option PassFate) : (s.programCells p fate).intake = s.intake := rfl
@[simp] theorem programCells_scanner (s : State) (p : PassLane) (fate : Option PassFate) : (s.programCells p fate).scanner = s.scanner := rfl
@[simp] theorem programCells_line (s : State) (p : PassLane) (fate : Option PassFate) : (s.programCells p fate).line = s.line := rfl
@[simp] theorem programCells_transmit (s : State) (p : PassLane) (fate : Option PassFate) : (s.programCells p fate).transmit = s.transmit := rfl
@[simp] theorem programCells_controller (s : State) (p : PassLane) (fate : Option PassFate) : (s.programCells p fate).controller = s.controller := rfl
@[simp] theorem programCells_tracker (s : State) (p : PassLane) (fate : Option PassFate) : (s.programCells p fate).tracker = s.tracker := rfl
@[simp] theorem programCells_receipts (s : State) (p : PassLane) (fate : Option PassFate) : (s.programCells p fate).receipts = s.receipts := rfl
@[simp] theorem programCells_gap (s : State) (p : PassLane) (fate : Option PassFate) : (s.programCells p fate).gap = s.gap := rfl
@[simp] theorem programCells_port (s : State) (p : PassLane) (fate : Option PassFate) : (s.programCells p fate).port = s.port := rfl
@[simp] theorem programCells_freeDraws (s : State) (p : PassLane) (fate : Option PassFate) : (s.programCells p fate).freeDraws = s.freeDraws := rfl
@[simp] theorem programCells_pending (s : State) (p : PassLane) (fate : Option PassFate) : (s.programCells p fate).pending = s.pending := rfl

@[simp] theorem eraseCells_now (s : State) (b : BlockId) (fate : EraseFate) : (s.eraseCells b fate).now = s.now := rfl
@[simp] theorem eraseCells_power (s : State) (b : BlockId) (fate : EraseFate) : (s.eraseCells b fate).power = s.power := rfl
@[simp] theorem eraseCells_nresetLow (s : State) (b : BlockId) (fate : EraseFate) : (s.eraseCells b fate).nresetLow = s.nresetLow := rfl
@[simp] theorem eraseCells_sequencer (s : State) (b : BlockId) (fate : EraseFate) : (s.eraseCells b fate).sequencer = s.sequencer := rfl
@[simp] theorem eraseCells_map (s : State) (b : BlockId) (fate : EraseFate) : (s.eraseCells b fate).map = s.map := rfl
@[simp] theorem eraseCells_index (s : State) (b : BlockId) (fate : EraseFate) : (s.eraseCells b fate).index = s.index := rfl
@[simp] theorem eraseCells_intake (s : State) (b : BlockId) (fate : EraseFate) : (s.eraseCells b fate).intake = s.intake := rfl
@[simp] theorem eraseCells_scanner (s : State) (b : BlockId) (fate : EraseFate) : (s.eraseCells b fate).scanner = s.scanner := rfl
@[simp] theorem eraseCells_line (s : State) (b : BlockId) (fate : EraseFate) : (s.eraseCells b fate).line = s.line := rfl
@[simp] theorem eraseCells_transmit (s : State) (b : BlockId) (fate : EraseFate) : (s.eraseCells b fate).transmit = s.transmit := rfl
@[simp] theorem eraseCells_controller (s : State) (b : BlockId) (fate : EraseFate) : (s.eraseCells b fate).controller = s.controller := rfl
@[simp] theorem eraseCells_tracker (s : State) (b : BlockId) (fate : EraseFate) : (s.eraseCells b fate).tracker = s.tracker := rfl
@[simp] theorem eraseCells_receipts (s : State) (b : BlockId) (fate : EraseFate) : (s.eraseCells b fate).receipts = s.receipts := rfl
@[simp] theorem eraseCells_gap (s : State) (b : BlockId) (fate : EraseFate) : (s.eraseCells b fate).gap = s.gap := rfl
@[simp] theorem eraseCells_port (s : State) (b : BlockId) (fate : EraseFate) : (s.eraseCells b fate).port = s.port := rfl
@[simp] theorem eraseCells_freeDraws (s : State) (b : BlockId) (fate : EraseFate) : (s.eraseCells b fate).freeDraws = s.freeDraws := rfl
@[simp] theorem eraseCells_pending (s : State) (b : BlockId) (fate : EraseFate) : (s.eraseCells b fate).pending = s.pending := rfl

@[simp] theorem respond_port_state (s : State) (r : Response) :
    (s.respond r).port.state = .answered r := rfl
@[simp] theorem respond_port_events (s : State) (r : Response) : (s.respond r).port.events = s.port.events := rfl
@[simp] theorem respond_port_overflow (s : State) (r : Response) : (s.respond r).port.overflow = s.port.overflow := rfl
@[simp] theorem respond_port_miso (s : State) (r : Response) : (s.respond r).port.miso = s.port.miso := rfl

@[simp] theorem drive_port_state (s : State) (bytes : List Byte) : (s.drive bytes).port.state = s.port.state := rfl
@[simp] theorem drive_port_events (s : State) (bytes : List Byte) : (s.drive bytes).port.events = s.port.events := rfl
@[simp] theorem drive_port_overflow (s : State) (bytes : List Byte) : (s.drive bytes).port.overflow = s.port.overflow := rfl
@[simp] theorem drive_port_miso (s : State) (bytes : List Byte) :
    (s.drive bytes).port.miso = bytes := rfl

@[simp] theorem setPort_port_state (s : State) (p : PortState) :
    (s.setPort p).port.state = p := rfl
@[simp] theorem setPort_port_events (s : State) (p : PortState) : (s.setPort p).port.events = s.port.events := rfl
@[simp] theorem setPort_port_overflow (s : State) (p : PortState) : (s.setPort p).port.overflow = s.port.overflow := rfl
@[simp] theorem setPort_port_miso (s : State) (p : PortState) : (s.setPort p).port.miso = s.port.miso := rfl

@[simp] theorem setRosterRow_controller_state (s : State) (id : Nat) (r : RosterRow) : (s.setRosterRow id r).controller.state = s.controller.state := rfl
@[simp] theorem setRosterRow_controller_config (s : State) (id : Nat) (r : RosterRow) : (s.setRosterRow id r).controller.config = s.controller.config := rfl
@[simp] theorem setRosterRow_controller_rollTimer (s : State) (id : Nat) (r : RosterRow) : (s.setRosterRow id r).controller.rollTimer = s.controller.rollTimer := rfl
@[simp] theorem setRosterRow_controller_rollDue (s : State) (id : Nat) (r : RosterRow) : (s.setRosterRow id r).controller.rollDue = s.controller.rollDue := rfl
@[simp] theorem setRosterRow_controller_roster (s : State) (id : Nat) (r : RosterRow) :
    (s.setRosterRow id r).controller.roster = stationSet s.controller.roster id r := rfl

@[simp] theorem setRoll_controller_state (s : State) (due : Option RollState) (timer : Option Nat) : (s.setRoll due timer).controller.state = s.controller.state := rfl
@[simp] theorem setRoll_controller_config (s : State) (due : Option RollState) (timer : Option Nat) : (s.setRoll due timer).controller.config = s.controller.config := rfl
@[simp] theorem setRoll_controller_rollTimer (s : State) (due : Option RollState) (timer : Option Nat) :
    (s.setRoll due timer).controller.rollTimer = timer := rfl
@[simp] theorem setRoll_controller_rollDue (s : State) (due : Option RollState) (timer : Option Nat) :
    (s.setRoll due timer).controller.rollDue = due := rfl
@[simp] theorem setRoll_controller_roster (s : State) (due : Option RollState) (timer : Option Nat) : (s.setRoll due timer).controller.roster = s.controller.roster := rfl

@[simp] theorem setOriginRow_gap_rows (s : State) (id : Nat) (r : OriginRow) :
    (s.setOriginRow id r).gap.rows = stationSet s.gap.rows id r := rfl
@[simp] theorem setOriginRow_gap_slot (s : State) (id : Nat) (r : OriginRow) : (s.setOriginRow id r).gap.slot = s.gap.slot := rfl
@[simp] theorem setOriginRow_gap_turn (s : State) (id : Nat) (r : OriginRow) : (s.setOriginRow id r).gap.turn = s.gap.turn := rfl
@[simp] theorem setOriginRow_gap_timer (s : State) (id : Nat) (r : OriginRow) : (s.setOriginRow id r).gap.timer = s.gap.timer := rfl
@[simp] theorem setOriginRow_gap_answers (s : State) (id : Nat) (r : OriginRow) : (s.setOriginRow id r).gap.answers = s.gap.answers := rfl

@[simp] theorem emptySlot_gap_rows (s : State) : (s.emptySlot).gap.rows = s.gap.rows := rfl
@[simp] theorem emptySlot_gap_slot (s : State) :
    (s.emptySlot).gap.slot = .empty := rfl
@[simp] theorem emptySlot_gap_turn (s : State) : (s.emptySlot).gap.turn = s.gap.turn := rfl
@[simp] theorem emptySlot_gap_timer (s : State) :
    (s.emptySlot).gap.timer = none := rfl
@[simp] theorem emptySlot_gap_answers (s : State) : (s.emptySlot).gap.answers = s.gap.answers := rfl

@[simp] theorem setBlock_map_blocks (s : State) (b : BlockId) (r : BlockRow) :
    (s.setBlock b r).map.blocks = s.map.blocks.set b.val r b.isLt := rfl
@[simp] theorem setBlock_map_lanes (s : State) (b : BlockId) (r : BlockRow) : (s.setBlock b r).map.lanes = s.map.lanes := rfl
@[simp] theorem setBlock_map_nextChain (s : State) (b : BlockId) (r : BlockRow) : (s.setBlock b r).map.nextChain = s.map.nextChain := rfl
@[simp] theorem setBlock_map_rotation (s : State) (b : BlockId) (r : BlockRow) : (s.setBlock b r).map.rotation = s.map.rotation := rfl
@[simp] theorem setBlock_map_evacuator (s : State) (b : BlockId) (r : BlockRow) : (s.setBlock b r).map.evacuator = s.map.evacuator := rfl

@[simp] theorem setLane_map_blocks (s : State) (l : Lane) (r : LaneRow) : (s.setLane l r).map.blocks = s.map.blocks := rfl
@[simp] theorem setLane_map_lanes (s : State) (l : Lane) (r : LaneRow) :
    (s.setLane l r).map.lanes = s.map.lanes.set l.val r l.isLt := rfl
@[simp] theorem setLane_map_nextChain (s : State) (l : Lane) (r : LaneRow) : (s.setLane l r).map.nextChain = s.map.nextChain := rfl
@[simp] theorem setLane_map_rotation (s : State) (l : Lane) (r : LaneRow) : (s.setLane l r).map.rotation = s.map.rotation := rfl
@[simp] theorem setLane_map_evacuator (s : State) (l : Lane) (r : LaneRow) : (s.setLane l r).map.evacuator = s.map.evacuator := rfl

@[simp] theorem setBuffer_transmit_buffers (s : State) (i : BufferNo) (b : Buffer) :
    (s.setBuffer i b).transmit.buffers = s.transmit.buffers.set i.val b i.isLt := rfl
@[simp] theorem setBuffer_transmit_sendOnce (s : State) (i : BufferNo) (b : Buffer) : (s.setBuffer i b).transmit.sendOnce = s.transmit.sendOnce := rfl

@[simp] theorem dropSendOnce_transmit_buffers (s : State) (k : Key) : (s.dropSendOnce k).transmit.buffers = s.transmit.buffers := rfl
@[simp] theorem dropSendOnce_transmit_sendOnce (s : State) (k : Key) :
    (s.dropSendOnce k).transmit.sendOnce = s.transmit.sendOnce.filter fun o => o ≠ k := rfl

@[simp] theorem updateEntry_tracker_nextSeq (s : State) (k : Key) (f : TrackerEntry → TrackerEntry) : (s.updateEntry k f).tracker.nextSeq = s.tracker.nextSeq := rfl
@[simp] theorem updateEntry_tracker_entries (s : State) (k : Key) (f : TrackerEntry → TrackerEntry) :
    (s.updateEntry k f).tracker.entries = s.tracker.entries.map fun e => if e.key = k then f e else e := rfl

@[simp] theorem lineAfter_line_state (s : State) (state : LineState) (idle : Nat) :
    (s.lineAfter state idle).line.state = state := rfl
@[simp] theorem lineAfter_line_idle (s : State) (state : LineState) (idle : Nat) :
    (s.lineAfter state idle).line.idle = idle := rfl
@[simp] theorem lineAfter_line_inFlight (s : State) (state : LineState) (idle : Nat) : (s.lineAfter state idle).line.inFlight = s.line.inFlight := rfl
@[simp] theorem lineAfter_line_failureRun (s : State) (state : LineState) (idle : Nat) : (s.lineAfter state idle).line.failureRun = s.line.failureRun := rfl
@[simp] theorem lineAfter_line_failureTotal (s : State) (state : LineState) (idle : Nat) : (s.lineAfter state idle).line.failureTotal = s.line.failureTotal := rfl
@[simp] theorem lineAfter_line_rejectedTotal (s : State) (state : LineState) (idle : Nat) : (s.lineAfter state idle).line.rejectedTotal = s.line.rejectedTotal := rfl
@[simp] theorem lineAfter_line_silenced (s : State) (state : LineState) (idle : Nat) : (s.lineAfter state idle).line.silenced = s.line.silenced := rfl

@[simp] theorem readingEnded_line (s : State) (state : LineState) (idle : Nat) :
    (s.readingEnded state idle).line = s.line.afterReading state idle := rfl
@[simp] theorem frameEnded_line (s : State) (bytes : List Byte) :
    (s.frameEnded bytes).line = s.line.afterReading .gap (endIdle bytes) := rfl

@[simp] theorem countRejected_line_state (s : State) : (s.countRejected).line.state = s.line.state := rfl
@[simp] theorem countRejected_line_idle (s : State) : (s.countRejected).line.idle = s.line.idle := rfl
@[simp] theorem countRejected_line_inFlight (s : State) : (s.countRejected).line.inFlight = s.line.inFlight := rfl
@[simp] theorem countRejected_line_failureRun (s : State) : (s.countRejected).line.failureRun = s.line.failureRun := rfl
@[simp] theorem countRejected_line_failureTotal (s : State) : (s.countRejected).line.failureTotal = s.line.failureTotal := rfl
@[simp] theorem countRejected_line_rejectedTotal (s : State) :
    (s.countRejected).line.rejectedTotal = min Config.countStop (s.line.rejectedTotal + 1) := rfl
@[simp] theorem countRejected_line_silenced (s : State) : (s.countRejected).line.silenced = s.line.silenced := rfl

@[simp] theorem sent_line_state (s : State) (f : Frame) :
    (s.sent f).line.state = .gap := rfl
@[simp] theorem sent_line_idle (s : State) (f : Frame) :
    (s.sent f).line.idle = endIdle (frameBytes f) := rfl
@[simp] theorem sent_line_inFlight (s : State) (f : Frame) :
    (s.sent f).line.inFlight = none := rfl
@[simp] theorem sent_line_failureRun (s : State) (f : Frame) :
    (s.sent f).line.failureRun = 0 := rfl
@[simp] theorem sent_line_failureTotal (s : State) (f : Frame) : (s.sent f).line.failureTotal = s.line.failureTotal := rfl
@[simp] theorem sent_line_rejectedTotal (s : State) (f : Frame) : (s.sent f).line.rejectedTotal = s.line.rejectedTotal := rfl
@[simp] theorem sent_line_silenced (s : State) (f : Frame) : (s.sent f).line.silenced = s.line.silenced := rfl

@[simp] theorem freeArray_sequencer_inFlight (s : State) :
    (s.freeArray).sequencer.inFlight = none := rfl
@[simp] theorem freeArray_sequencer_transmitReads (s : State) : (s.freeArray).sequencer.transmitReads = s.sequencer.transmitReads := rfl
@[simp] theorem freeArray_sequencer_hostReads (s : State) : (s.freeArray).sequencer.hostReads = s.sequencer.hostReads := rfl
@[simp] theorem freeArray_sequencer_programs (s : State) : (s.freeArray).sequencer.programs = s.sequencer.programs := rfl
@[simp] theorem freeArray_sequencer_dirtyErases (s : State) : (s.freeArray).sequencer.dirtyErases = s.sequencer.dirtyErases := rfl
@[simp] theorem freeArray_sequencer_reclaimErases (s : State) : (s.freeArray).sequencer.reclaimErases = s.sequencer.reclaimErases := rfl
@[simp] theorem freeArray_sequencer_evacuationReads (s : State) : (s.freeArray).sequencer.evacuationReads = s.sequencer.evacuationReads := rfl
@[simp] theorem freeArray_sequencer_retireMarks (s : State) : (s.freeArray).sequencer.retireMarks = s.sequencer.retireMarks := rfl
@[simp] theorem freeArray_sequencer_exclusive (s : State) : (s.freeArray).sequencer.exclusive = s.sequencer.exclusive := rfl
@[simp] theorem freeArray_sequencer_protect (s : State) : (s.freeArray).sequencer.protect = s.sequencer.protect := rfl

@[simp] theorem setProtect_sequencer_inFlight (s : State) (level : Bool) : (s.setProtect level).sequencer.inFlight = s.sequencer.inFlight := rfl
@[simp] theorem setProtect_sequencer_transmitReads (s : State) (level : Bool) : (s.setProtect level).sequencer.transmitReads = s.sequencer.transmitReads := rfl
@[simp] theorem setProtect_sequencer_hostReads (s : State) (level : Bool) : (s.setProtect level).sequencer.hostReads = s.sequencer.hostReads := rfl
@[simp] theorem setProtect_sequencer_programs (s : State) (level : Bool) : (s.setProtect level).sequencer.programs = s.sequencer.programs := rfl
@[simp] theorem setProtect_sequencer_dirtyErases (s : State) (level : Bool) : (s.setProtect level).sequencer.dirtyErases = s.sequencer.dirtyErases := rfl
@[simp] theorem setProtect_sequencer_reclaimErases (s : State) (level : Bool) : (s.setProtect level).sequencer.reclaimErases = s.sequencer.reclaimErases := rfl
@[simp] theorem setProtect_sequencer_evacuationReads (s : State) (level : Bool) : (s.setProtect level).sequencer.evacuationReads = s.sequencer.evacuationReads := rfl
@[simp] theorem setProtect_sequencer_retireMarks (s : State) (level : Bool) : (s.setProtect level).sequencer.retireMarks = s.sequencer.retireMarks := rfl
@[simp] theorem setProtect_sequencer_exclusive (s : State) (level : Bool) : (s.setProtect level).sequencer.exclusive = s.sequencer.exclusive := rfl
@[simp] theorem setProtect_sequencer_protect (s : State) (level : Bool) :
    (s.setProtect level).sequencer.protect = level := rfl

@[simp] theorem reach_now (s : State) (t : Nat) : (s.reach t).now = max s.now t := rfl
@[simp] theorem indexPut_index (s : State) (k : Key) (l : Loc) : (s.indexPut k l).index = mapPut keyLt s.index k l := rfl
@[simp] theorem indexDrop_index (s : State) (k : Key) : (s.indexDrop k).index = mapDrop s.index k := rfl
@[simp] theorem stage_intake (s : State) (r : Record) (src : Source) : (s.stage r src).intake = s.intake ++ [⟨r, src, .waiting⟩] := rfl
@[simp] theorem dropReceipt_receipts (s : State) (k : Key) : (s.dropReceipt k).receipts = s.receipts.filter fun r => r ≠ k := rfl
@[simp] theorem programCells_flash (s : State) (p : PassLane) (fate : Option PassFate) : (s.programCells p fate).flash = programFlash s.flash p fate := rfl
@[simp] theorem eraseCells_flash (s : State) (b : BlockId) (fate : EraseFate) : (s.eraseCells b fate).flash = eraseFlash s.flash b fate := rfl
@[simp] theorem cellsChange_flash (s : State) (b : BlockId) (p : PageNo) (w : PageChange) :
    (s.cellsChange b p w).flash = changedFlash s.flash (pageAddress b p) w := rfl

end Sys2Proof.Machine.State
end

