-- ==== Sys2Proof/Laws/Ops.lean ====
section
/-! SUPPORT. What each shared operation that chooses between cases can do, field by field. -/

namespace Sys2Proof.Machine

/-! ### Posting -/

theorem State.post_port (s : State) (e : Event) :
    (s.post e).port = if s.port.events.length < 32 then { s.port with events := s.port.events ++ [e] }
      else { s.port with overflow := true } := by
  unfold State.post
  split <;> rename_i h <;> simp_all [Config.eventPlaces]

theorem State.post_eq (s : State) (e : Event) : s.post e = { s with port := (s.post e).port } := by
  unfold State.post
  split <;> rfl

@[simp] theorem State.post_now (s : State) (e : Event) : (s.post e).now = s.now := by rw [post_eq]
@[simp] theorem State.post_power (s : State) (e : Event) : (s.post e).power = s.power := by rw [post_eq]
@[simp] theorem State.post_nresetLow (s : State) (e : Event) : (s.post e).nresetLow = s.nresetLow := by rw [post_eq]
@[simp] theorem State.post_flash (s : State) (e : Event) : (s.post e).flash = s.flash := by rw [post_eq]
@[simp] theorem State.post_sequencer (s : State) (e : Event) : (s.post e).sequencer = s.sequencer := by rw [post_eq]
@[simp] theorem State.post_map (s : State) (e : Event) : (s.post e).map = s.map := by rw [post_eq]
@[simp] theorem State.post_index (s : State) (e : Event) : (s.post e).index = s.index := by rw [post_eq]
@[simp] theorem State.post_intake (s : State) (e : Event) : (s.post e).intake = s.intake := by rw [post_eq]
@[simp] theorem State.post_scanner (s : State) (e : Event) : (s.post e).scanner = s.scanner := by rw [post_eq]
@[simp] theorem State.post_line (s : State) (e : Event) : (s.post e).line = s.line := by rw [post_eq]
@[simp] theorem State.post_transmit (s : State) (e : Event) : (s.post e).transmit = s.transmit := by rw [post_eq]
@[simp] theorem State.post_controller (s : State) (e : Event) : (s.post e).controller = s.controller := by rw [post_eq]
@[simp] theorem State.post_tracker (s : State) (e : Event) : (s.post e).tracker = s.tracker := by rw [post_eq]
@[simp] theorem State.post_receipts (s : State) (e : Event) : (s.post e).receipts = s.receipts := by rw [post_eq]
@[simp] theorem State.post_gap (s : State) (e : Event) : (s.post e).gap = s.gap := by rw [post_eq]
@[simp] theorem State.post_freeDraws (s : State) (e : Event) : (s.post e).freeDraws = s.freeDraws := by rw [post_eq]
@[simp] theorem State.post_pending (s : State) (e : Event) : (s.post e).pending = s.pending := by rw [post_eq]

@[simp] theorem State.post_port_state (s : State) (e : Event) : (s.post e).port.state = s.port.state := by
  rw [post_port]
  split <;> rfl

@[simp] theorem State.post_port_miso (s : State) (e : Event) : (s.post e).port.miso = s.port.miso := by
  rw [post_port]
  split <;> rfl

/-- Posting only adds. -/
theorem State.post_events (s : State) (e : Event) : ∃ more, (s.post e).port.events = s.port.events ++ more := by
  rw [post_port]
  split
  · exact ⟨[e], rfl⟩
  · exact ⟨[], (List.append_nil _).symm⟩

/-- The event list stays within its 32 places. -/
theorem State.post_events_le (s : State) (e : Event) (h : s.port.events.length ≤ 32) :
    (s.post e).port.events.length ≤ 32 := by
  rw [post_port]
  split
  · simp only [List.length_append, List.length_cons, List.length_nil]
    omega
  · exact h

/-! ### What the workers keep -/

theorem WorkersKeep.refl (s : State) : WorkersKeep s s where
  now := rfl
  power := rfl
  nresetLow := rfl
  flash := rfl
  scanner := rfl
  line := rfl
  pending := rfl
  exclusive := rfl
  protect := rfl
  state := rfl
  config := rfl
  roster := rfl
  rows := rfl
  slot := rfl
  turn := rfl
  timer := rfl
  portState := rfl
  miso := rfl
  nextSeq := rfl
  entryKeys := rfl
  records := rfl
  sources := rfl
  index := List.Sublist.refl _
  receipts := List.Sublist.refl _
  answers := List.Sublist.refl _
  sendOnce := List.Sublist.refl _
  events := ⟨[], (List.append_nil _).symm⟩

theorem WorkersKeep.trans {s t u : State} (h : WorkersKeep s t) (k : WorkersKeep t u) : WorkersKeep s u where
  now := k.now.trans h.now
  power := k.power.trans h.power
  nresetLow := k.nresetLow.trans h.nresetLow
  flash := k.flash.trans h.flash
  scanner := k.scanner.trans h.scanner
  line := k.line.trans h.line
  pending := k.pending.trans h.pending
  exclusive := k.exclusive.trans h.exclusive
  protect := k.protect.trans h.protect
  state := k.state.trans h.state
  config := k.config.trans h.config
  roster := k.roster.trans h.roster
  rows := k.rows.trans h.rows
  slot := k.slot.trans h.slot
  turn := k.turn.trans h.turn
  timer := k.timer.trans h.timer
  portState := k.portState.trans h.portState
  miso := k.miso.trans h.miso
  nextSeq := k.nextSeq.trans h.nextSeq
  entryKeys := k.entryKeys.trans h.entryKeys
  records := k.records.trans h.records
  sources := k.sources.trans h.sources
  index := k.index.trans h.index
  receipts := k.receipts.trans h.receipts
  answers := k.answers.trans h.answers
  sendOnce := k.sendOnce.trans h.sendOnce
  events := by
    obtain ⟨m, hm⟩ := h.events
    obtain ⟨n, hn⟩ := k.events
    exact ⟨m ++ n, by rw [hn, hm, List.append_assoc]⟩

theorem foldl_workersKeep {α : Type} (f : State → α → State) (hf : ∀ s a, WorkersKeep s (f s a)) (l : List α) (s : State) :
    WorkersKeep s (l.foldl f s) := by
  induction l generalizing s with
  | nil => exact WorkersKeep.refl s
  | cons a rest ih => exact (hf s a).trans (ih (f s a))

theorem State.post_keep (s : State) (e : Event) : WorkersKeep s (s.post e) where
  now := by simp
  power := by simp
  nresetLow := by simp
  flash := by simp
  scanner := by simp
  line := by simp
  pending := by simp
  exclusive := by simp
  protect := by simp
  state := by simp
  config := by simp
  roster := by simp
  rows := by simp
  slot := by simp
  turn := by simp
  timer := by simp
  portState := by simp
  miso := by simp
  nextSeq := by simp
  entryKeys := by simp
  records := by simp
  sources := by simp
  index := by simp
  receipts := by simp
  answers := by simp
  sendOnce := by simp
  events := s.post_events e

theorem State.setBuffer_keep (s : State) (i : BufferNo) (b : Buffer) : WorkersKeep s (s.setBuffer i b) :=
  { WorkersKeep.refl s with }

theorem State.setBlock_keep (s : State) (b : BlockId) (r : BlockRow) : WorkersKeep s (s.setBlock b r) :=
  { WorkersKeep.refl s with }

theorem State.setLane_keep (s : State) (l : Lane) (r : LaneRow) : WorkersKeep s (s.setLane l r) :=
  { WorkersKeep.refl s with }

theorem State.endClaims_keep (s : State) (o : BufferOwner) : WorkersKeep s (s.endClaims o) :=
  (s.setBuffer_keep _ _).trans (State.setBuffer_keep _ _ _)

theorem State.updateEntry_keep (s : State) (k : Key) (f : TrackerEntry → TrackerEntry) (hf : ∀ e, (f e).key = e.key) :
    WorkersKeep s (s.updateEntry k f) :=
  { WorkersKeep.refl s with
    entryKeys := by
      rw [State.updateEntry_tracker_entries, List.map_map]
      refine List.map_congr_left fun e _ => ?_
      simp only [Function.comp_apply]
      split
      · exact hf e
      · rfl }

theorem State.finish_keep (s : State) (e : TrackerEntry) (secured damaged : Bool) :
    WorkersKeep s (s.finish e secured damaged) := by
  unfold State.finish
  refine WorkersKeep.trans (WorkersKeep.trans ?_ (State.post_keep _ _)) (State.endClaims_keep _ _)
  exact State.updateEntry_keep s _ _ fun _ => rfl

theorem State.shortDamaged_keep (s : State) (k : Key) : WorkersKeep s (s.shortDamaged k) := by
  unfold State.shortDamaged
  split
  · split
    · exact s.finish_keep _ _ _
    · exact WorkersKeep.refl s
  · exact WorkersKeep.refl s

theorem State.removeAnswer_keep (s : State) (k : Key) : WorkersKeep s (s.removeAnswer k) := by
  unfold State.removeAnswer
  split
  · exact WorkersKeep.refl s
  · exact WorkersKeep.trans
      (t := { s with gap := { s.gap with answers := s.gap.answers.filter fun a => a.key ≠ k } })
      { WorkersKeep.refl s with answers := List.filter_sublist } (State.endClaims_keep _ _)

theorem State.dropSendOnce_keep (s : State) (k : Key) : WorkersKeep s (s.dropSendOnce k) :=
  { WorkersKeep.refl s with sendOnce := List.filter_sublist }

theorem State.ownerAbsent_keep (s : State) (o : BufferOwner) : WorkersKeep s (s.ownerAbsent o) := by
  cases o
  · exact s.shortDamaged_keep _
  · exact s.removeAnswer_keep _
  · exact s.dropSendOnce_keep _

theorem State.giveBuffer_keep (s : State) (i : BufferNo) (o : BufferOwner) : WorkersKeep s (s.giveBuffer i o) := by
  unfold State.giveBuffer
  split
  · exact s.ownerAbsent_keep o
  · exact { WorkersKeep.refl s with }

theorem State.giveBuffers_keep (n : Nat) (s : State) : WorkersKeep s (State.giveBuffers n s) := by
  induction n generalizing s with
  | zero => exact WorkersKeep.refl s
  | succ n ih =>
    unfold State.giveBuffers
    split
    · exact WorkersKeep.refl s
    · exact (s.giveBuffer_keep _ _).trans (ih _)

theorem State.evacuate_keep (n : Nat) (s : State) : WorkersKeep s (State.evacuate n s) := by
  induction n generalizing s with
  | zero => exact WorkersKeep.refl s
  | succ n ih =>
    unfold State.evacuate
    split
    · exact WorkersKeep.refl s
    · split
      · split
        · exact WorkersKeep.refl s
        · rename_i r _
          exact WorkersKeep.trans (t := s.placeEvacuationRead r) { WorkersKeep.refl s with } (ih _)
      · exact WorkersKeep.refl s

theorem State.purge_keep (s : State) (l : Lane) (b : BlockId) : WorkersKeep s (s.purge l b) :=
  { WorkersKeep.refl s with index := List.filter_sublist, receipts := List.filter_sublist }

theorem State.reclaimNew_keep (n : Nat) (s : State) (l : Lane) : WorkersKeep s (State.reclaimNew n s l) := by
  induction n generalizing s with
  | zero => exact WorkersKeep.refl s
  | succ n ih =>
    unfold State.reclaimNew
    split
    · split
      · exact WorkersKeep.refl s
      · split
        · exact s.setLane_keep _ _
        · exact (s.purge_keep _ _).trans (ih _)
    · exact WorkersKeep.refl s

theorem State.retest_keep (s : State) (l : Lane) : WorkersKeep s (s.retest l) := by
  unfold State.retest
  split
  · exact WorkersKeep.refl s
  · split
    · exact s.setLane_keep _ _
    · split
      · exact WorkersKeep.refl s
      · exact s.purge_keep _ _

theorem reclaimLane_keep (released : Bool) (before s : State) (l : Lane) :
    WorkersKeep s (reclaimLane released before s l) := by
  unfold reclaimLane
  split
  · exact s.retest_keep l
  · split
    · split
      · exact (s.retest_keep l).trans (State.reclaimNew_keep _ _ _)
      · exact State.reclaimNew_keep _ _ _
    · exact WorkersKeep.refl s

theorem State.reclaimRound_keep (s : State) (released : Bool) (before : State) :
    WorkersKeep s (s.reclaimRound released before) :=
  foldl_workersKeep _ (reclaimLane_keep released before) _ _

/-- What the reclaimer's tests are: one round, or two when the first was not made at a release and removed a key. -/
theorem State.reclaim_cases (s : State) (released : Bool) (before : State) :
    s.reclaim released before = s.reclaimRound released before ∧
        (released = true ∨ keyMoved s (s.reclaimRound released before) = false) ∨
      released = false ∧ keyMoved s (s.reclaimRound false before) = true ∧
        s.reclaim released before = (s.reclaimRound false before).reclaimRound true before := by
  cases released
  · cases h : keyMoved s (s.reclaimRound false before) <;> simp [State.reclaim, h]
  · simp [State.reclaim]

theorem State.reclaim_keep (s : State) (released : Bool) (before : State) : WorkersKeep s (s.reclaim released before) := by
  rcases s.reclaim_cases released before with ⟨once, -⟩ | ⟨-, -, twice⟩
  · exact once ▸ s.reclaimRound_keep released before
  · exact twice ▸ (s.reclaimRound_keep false before).trans (State.reclaimRound_keep _ true before)

/-- A lane that is neither tested nor at a release keeps what it has. -/
theorem reclaimLane_untested {released : Bool} {before s : State} {l : Lane}
    (h : reclaimTests released before s l = false) : reclaimLane released before s l = s := by
  have hr : released = false := by
    cases released
    · rfl
    · simp [reclaimTests] at h
  subst hr
  simp [reclaimLane, State.drops, h]

theorem State.openIfNeeded_keep (s : State) (l : Lane) : WorkersKeep s (s.openIfNeeded l) := by
  unfold State.openIfNeeded
  split
  · exact WorkersKeep.refl s
  · split
    · exact WorkersKeep.refl s
    · exact { WorkersKeep.refl s with }

theorem assign_record (slots : List (Key × Loc)) (e : IntakeEntry) : (assign slots e).record = e.record := by
  unfold assign
  split <;> rfl

theorem assign_source (slots : List (Key × Loc)) (e : IntakeEntry) : (assign slots e).source = e.source := by
  unfold assign
  split <;> rfl

theorem State.placePass_keep (s : State) (lead : Lane) (lanes : List PassLane) : WorkersKeep s (s.placePass lead lanes) := by
  unfold State.placePass
  refine WorkersKeep.trans (t := { s with
    intake := s.intake.map (assign (lanes.flatMap PassLane.assignments))
    sequencer := { s.sequencer with programs := s.sequencer.programs ++ [lanes] }
    map := { s.map with rotation := lead } }) ?_ (foldl_workersKeep _ (fun _ _ => State.setLane_keep _ _ _) _ _)
  exact { WorkersKeep.refl s with
    records := by
      simp only [List.map_map]
      exact List.map_congr_left fun e _ => assign_record _ e
    sources := by
      simp only [List.map_map]
      exact List.map_congr_left fun e _ => assign_source _ e }

theorem State.formPass_keep (s : State) : WorkersKeep s s.formPass := by
  unfold State.formPass
  split
  · exact WorkersKeep.refl s
  · split
    · exact WorkersKeep.refl s
    · simp only
      split
      · exact s.openIfNeeded_keep _
      · exact (s.openIfNeeded_keep _).trans (State.placePass_keep _ _ _)

theorem State.formAndReclaim_keep (s : State) : WorkersKeep s s.formAndReclaim :=
  s.formPass_keep.trans (State.reclaim_keep _ _ _)

theorem Sequencer.start_exclusive (q : Sequencer) : q.start.exclusive = q.exclusive := by
  unfold Sequencer.start
  split <;> try rfl
  split <;> rfl

theorem Sequencer.start_protect (q : Sequencer) : q.start.protect = q.protect := by
  unfold Sequencer.start
  split <;> try rfl
  split <;> simp_all

theorem State.startNext_keep (s : State) : WorkersKeep s s.startNext := by
  unfold State.startNext
  split
  · exact { WorkersKeep.refl s with
      exclusive := Sequencer.start_exclusive _
      protect := Sequencer.start_protect _ }
  · exact WorkersKeep.refl s

theorem State.drainTest_keep (s : State) : WorkersKeep s s.drainTest := by
  unfold State.drainTest
  split
  · exact { WorkersKeep.refl s with }
  · exact WorkersKeep.refl s

theorem State.workers_keep (before s : State) : WorkersKeep s (State.workers before s) := by
  unfold State.workers
  exact ((((((State.evacuate_keep _ s).trans (State.giveBuffers_keep _ _)).trans (State.reclaim_keep _ _ _)).trans
    (State.formAndReclaim_keep _)).trans (State.startNext_keep _)).trans (State.formAndReclaim_keep _)).trans
    (State.drainTest_keep _)

/-- What the workers do in an event, said once. -/
theorem State.settle_keep (before s : State) : WorkersKeep s (State.settle before s) := by
  unfold State.settle
  split
  · exact WorkersKeep.refl s
  · exact State.workers_keep before s

/-! ### Commands and the hold -/

/-- A station that is not held runs the command. -/
theorem State.awake_free {s : State} (h : s.held = false) (f : State → State) : s.awake f = .next (f s) := by
  simp [State.awake, h]

/-- A station that is held does not. -/
theorem State.awake_held {s : State} (h : s.held = true) (f : State → State) : s.awake f = .next s := by
  simp [State.awake, h]

/-- The command answers a next state whatever the hold. -/
theorem State.awake_next (s : State) (f : State → State) : ∃ t, s.awake f = .next t := by
  unfold State.awake
  split <;> exact ⟨_, rfl⟩

/-- A state reached through the workers ends the command as EndsIn says. -/
theorem EndsIn.of_settle {o : Outcome} {before u : State} (h : o = .next (State.settle before u)) : EndsIn o before u :=
  ⟨h, State.settle_keep before u⟩

/-! ### The least of a list -/

/-- leastBy gives the first element of the least measure, and nothing only of an empty list. -/
theorem leastBy_spec {α : Type} (f : α → Nat) (l : List α) :
    match leastBy f l with
    | none => l = []
    | some x => ∃ before after, l = before ++ x :: after ∧ (∀ y ∈ before, f x < f y) ∧ ∀ y ∈ after, f x ≤ f y := by
  induction l using List.reverseRecOn with
  | nil => rfl
  | append_singleton l a ih =>
    have e : leastBy f (l ++ [a]) = match leastBy f l with
        | none => some a
        | some b => if f a < f b then some a else some b := by
      unfold leastBy
      rw [List.foldl_append]
      rfl
    rw [e]
    cases h : leastBy f l with
    | none =>
      rw [h] at ih
      subst ih
      exact ⟨[], [], rfl, by simp, by simp⟩
    | some b =>
      rw [h] at ih
      obtain ⟨before, after, hl, hb, ha⟩ := ih
      simp only
      by_cases hc : f a < f b
      · rw [if_pos hc]
        refine ⟨l, [], rfl, ?_, by simp⟩
        intro y hy
        rw [hl, List.mem_append, List.mem_cons] at hy
        rcases hy with hy | rfl | hy
        · exact hc.trans (hb y hy)
        · exact hc
        · exact hc.trans_le (ha y hy)
      · rw [if_neg hc]
        refine ⟨before, after ++ [a], by rw [hl]; simp, hb, ?_⟩
        intro y hy
        rw [List.mem_append, List.mem_singleton] at hy
        rcases hy with hy | rfl
        · exact ha y hy
        · exact Nat.le_of_not_lt hc

/-- The element leastBy gives, when the list is split at an element before which every measure is greater. -/
theorem leastBy_split {α : Type} (f : α → Nat) (before : List α) (x : α) (after : List α)
    (hb : ∀ y ∈ before, f x < f y) (ha : ∀ y ∈ after, f x ≤ f y) : leastBy f (before ++ x :: after) = some x := by
  have pick : ∀ (l : List α) (b : Option α), (∀ y, b = some y → f x < f y) → (∀ y ∈ l, f x < f y) →
      ∀ y, l.foldl (fun best a => match best with
        | none => some a
        | some b => if f a < f b then some a else some b) b = some y → f x < f y := by
    intro l
    induction l with
    | nil => intro b hb _ y hy; exact hb y hy
    | cons a rest ih =>
      intro b hb hl
      refine ih _ ?_ fun y hy => hl y (List.mem_cons_of_mem _ hy)
      intro y hy
      cases b with
      | none => injection hy with hy; exact hy ▸ hl a List.mem_cons_self
      | some b =>
        dsimp only at hy
        split at hy <;> injection hy with hy <;> subst hy
        · exact hl _ List.mem_cons_self
        · exact hb _ rfl
  have stay : ∀ l : List α, (∀ y ∈ l, f x ≤ f y) → l.foldl (fun best a => match best with
        | none => some a
        | some b => if f a < f b then some a else some b) (some x) = some x := by
    intro l
    induction l with
    | nil => intro _; rfl
    | cons a rest ih =>
      intro hl
      rw [List.foldl_cons]
      simp only
      rw [if_neg (Nat.not_lt.mpr (hl a List.mem_cons_self))]
      exact ih fun y hy => hl y (List.mem_cons_of_mem _ hy)
  unfold leastBy
  rw [List.foldl_append, List.foldl_cons]
  have key := pick before none (by simp) hb
  generalize before.foldl _ none = r at key ⊢
  cases r with
  | none => exact stay after ha
  | some b =>
    dsimp only
    rw [if_pos (key b rfl)]
    exact stay after ha

/-! ### The highest seq -/

/-- The highest seq of an origin bounds every seq of the origin, and is 0 or one of them. -/
theorem highestSeq_spec (index : List (Key × Loc)) (origin : Nat) :
    (∀ e ∈ index, e.1.origin = origin → e.1.seq ≤ highestSeq index origin) ∧
    (highestSeq index origin = 0 ∨ ∃ e ∈ index, e.1.origin = origin ∧ e.1.seq = highestSeq index origin) := by
  have step : highestSeq [] origin = 0 := rfl
  induction index using List.reverseRecOn with
  | nil => exact ⟨by simp, Or.inl step⟩
  | append_singleton l a ih =>
    obtain ⟨ih, ih'⟩ := ih
    have e : highestSeq (l ++ [a]) origin =
        if a.1.origin = origin then max (highestSeq l origin) a.1.seq else highestSeq l origin := by
      unfold highestSeq
      rw [List.foldl_append]
      rfl
    rw [e]
    by_cases h : a.1.origin = origin
    · rw [if_pos h]
      refine ⟨?_, ?_⟩
      · intro x hx ho
        rcases List.mem_append.mp hx with hx | hx
        · exact (ih x hx ho).trans (le_max_left _ _)
        · rw [List.mem_singleton.mp hx]
          exact le_max_right _ _
      · by_cases hle : highestSeq l origin ≤ a.1.seq
        · exact Or.inr ⟨a, by simp, h, (max_eq_right hle).symm⟩
        · rw [max_eq_left (by omega)]
          rcases ih' with h' | ⟨x, hx, ho, hs⟩
          · exact Or.inl h'
          · exact Or.inr ⟨x, by simp [hx], ho, hs⟩
    · rw [if_neg h]
      refine ⟨?_, ?_⟩
      · intro x hx ho
        rcases List.mem_append.mp hx with hx | hx
        · exact ih x hx ho
        · rw [List.mem_singleton.mp hx] at ho
          exact absurd ho h
      · rcases ih' with h' | ⟨x, hx, ho, hs⟩
        · exact Or.inl h'
        · exact Or.inr ⟨x, by simp [hx], ho, hs⟩

/-! ### Tables by station ID -/

theorem stationGet_stationSet {α : Type} (t : Vector α 30) (id j : Nat) (a d : α) :
    stationGet (stationSet t id a) j d = if j = id ∧ 1 ≤ id ∧ id ≤ 30 then a else stationGet t j d := by
  unfold stationGet stationSet
  by_cases hj : 1 ≤ j ∧ j ≤ 30
  · by_cases hi : 1 ≤ id ∧ id ≤ 30
    · rw [dif_pos hj, dif_pos hi, dif_pos hj]
      by_cases h : j = id
      · subst h
        rw [if_pos ⟨rfl, hi⟩, Vector.get_eq_getElem, Vector.getElem_set_self]
      · rw [if_neg (by tauto)]
        have : id - 1 ≠ j - 1 := by omega
        rw [Vector.get_eq_getElem, Vector.get_eq_getElem, Vector.getElem_set_ne _ _ this]
    · rw [dif_neg hi, if_neg (by tauto)]
  · rw [dif_neg hj, dif_neg hj, if_neg (by omega)]

theorem stationSet_stationSet {α : Type} (t : Vector α 30) (id : Nat) (a b : α) :
    stationSet (stationSet t id a) id b = stationSet t id b := by
  unfold stationSet
  split <;> simp [Vector.set_set]

/-! ### What the station drives (R87, R88, R185) -/

/-- A station that drives no frame leaves TXD recessive. -/
theorem State.txd_of_not_dir (s : State) (n : Nat) (h : s.dir = false) : s.txd n = .recessive := by
  unfold State.txd
  rw [h]

theorem byteLevels_length (b : Byte) : (byteLevels b).length = 10 := rfl

/-- Bit time j of byte i stands 10 i + j bit times after the start of the frame. -/
theorem flatMap_byteLevels_getElem? (bytes : List Byte) (i : Nat) (b : Byte) (h : bytes[i]? = some b) (j : Nat)
    (hj : j < 10) : (bytes.flatMap byteLevels)[10 * i + j]? = (byteLevels b)[j]? := by
  induction bytes generalizing i with
  | nil => cases h
  | cons a as ih =>
    rw [List.flatMap_cons]
    cases i with
    | zero =>
      obtain rfl : a = b := by simpa using h
      rw [List.getElem?_append_left (by rw [byteLevels_length]; omega)]
      simp
    | succ i =>
      rw [List.getElem?_append_right (by rw [byteLevels_length]; omega), byteLevels_length, ← ih i (by simpa using h)]
      congr 1
      omega

@[simp] theorem Port.misoAt_zero (p : Port) : p.misoAt 0 = idleFill := rfl

theorem Port.misoAt_of_getElem? (p : Port) (n : Nat) (b : Byte) (h : p.miso[n]? = some b) : p.misoAt (n + 1) = b := by
  simp [Port.misoAt, h]

theorem Port.misoAt_of_length_le (p : Port) (n : Nat) (h : p.miso.length ≤ n) : p.misoAt (n + 1) = idleFill := by
  simp [Port.misoAt, List.getElem?_eq_none h]

/-! ### Interruptions (R13) -/

/-- A reset in progress leaves the records and sources of the intake queue as they are. -/
theorem interruptedIntake_records (s : State) :
    (interruptedIntake s).map IntakeEntry.record = s.intake.map IntakeEntry.record ∧
    (interruptedIntake s).map IntakeEntry.source = s.intake.map IntakeEntry.source := by
  unfold interruptedIntake
  split
  · rw [List.map_map, List.map_map]
    refine ⟨List.map_congr_left fun e _ => ?_, List.map_congr_left fun e _ => ?_⟩ <;>
      (simp only [Function.comp]; split <;> rfl)
  · exact ⟨rfl, rfl⟩

/-! ### The scanner's collections (R74, R76) -/

theorem insertByChain_perm (f : BlockFinding) (l : List BlockFinding) : (insertByChain f l).Perm (f :: l) := by
  induction l with
  | nil => exact .refl _
  | cons g l ih =>
    unfold insertByChain
    split
    · exact .refl _
    · exact (ih.cons g).trans (.swap ..)

/-- Insertion keeps the ascending order of the chain numbers. -/
theorem insertByChain_sorted (f : BlockFinding) (l : List BlockFinding)
    (h : (l.map BlockFinding.chain).Pairwise (· ≤ ·)) :
    ((insertByChain f l).map BlockFinding.chain).Pairwise (· ≤ ·) := by
  induction l with
  | nil => simp [insertByChain]
  | cons g l ih =>
    simp only [List.map_cons, List.pairwise_cons] at h
    unfold insertByChain
    split
    · simp only [List.map_cons, List.pairwise_cons]
      refine ⟨fun a ha => ?_, h⟩
      rcases List.mem_cons.mp ha with rfl | ha
      · omega
      · exact Nat.le_trans (by omega) (h.1 a ha)
    · simp only [List.map_cons, List.pairwise_cons]
      refine ⟨fun a ha => ?_, ih h.2⟩
      rcases List.mem_cons.mp (((insertByChain_perm f l).map BlockFinding.chain).mem_iff.mp ha) with rfl | ha
      · omega
      · exact h.1 a ha

/-- An offer changes the candidate of its own key alone. -/
theorem Scanner.offer_get_ne (sc : Scanner) (k j : Key) (chain : Nat) (l : Loc) (h : j ≠ k) :
    mapGet (sc.offer k chain l).candidates j = mapGet sc.candidates j := by
  unfold Scanner.offer
  split <;> (simp only; rw [mapGet_mapPut, if_neg h])

/-- The first location found of a key is its candidate. -/
theorem Scanner.offer_get_new (sc : Scanner) (k : Key) (chain : Nat) (l : Loc) (h : mapGet sc.candidates k = none) :
    mapGet (sc.offer k chain l).candidates k = some ⟨chain, l, 1⟩ := by
  unfold Scanner.offer
  rw [h]
  simp only
  rw [mapGet_mapPut, if_pos rfl]

/-- A further location is counted, and becomes the candidate when its position is the higher (R76). -/
theorem Scanner.offer_get_again (sc : Scanner) (k : Key) (chain : Nat) (l : Loc) (c : Candidate)
    (h : mapGet sc.candidates k = some c) :
    mapGet (sc.offer k chain l).candidates k =
      some (if positionBefore c chain l then ⟨chain, l, c.count + 1⟩ else { c with count := c.count + 1 }) := by
  unfold Scanner.offer
  rw [h]
  simp only
  rw [mapGet_mapPut, if_pos rfl]

/-! ### The end of claims (R105) -/

theorem Buffer.endClaim_eq_released (b : Buffer) (owner : BufferOwner) (onLine : Bool) :
    b.endClaim owner onLine = b.released (fun o => o == owner) onLine := by
  cases b with
  | empty => rfl
  | reading o claimed => by_cases h : o = owner <;> simp [Buffer.endClaim, Buffer.released, h]
  | loaded o r claimed => by_cases h : o = owner <;> simp [Buffer.endClaim, Buffer.released, h]

theorem Buffer.released_nobody (b : Buffer) (onLine : Bool) : b.released (fun _ => false) onLine = b := by
  cases b <;> simp [Buffer.released]

theorem Buffer.released_released (b : Buffer) (gone more : BufferOwner → Bool) (onLine : Bool) :
    (b.released gone onLine).released more onLine = b.released (fun o => gone o || more o) onLine := by
  cases b with
  | empty => rfl
  | reading o claimed => simp [Buffer.released, Bool.and_assoc]
  | loaded o r claimed =>
    cases hg : gone o <;> cases hm : more o <;> cases onLine <;> simp [Buffer.released, hg, hm]

theorem State.endClaims_line (s : State) (owner : BufferOwner) : (s.endClaims owner).line = s.line := rfl

theorem State.buffer_setBuffer (s : State) (i j : BufferNo) (b : Buffer) :
    (s.setBuffer i b).buffer j = if j = i then b else s.buffer j := by
  simp only [State.buffer, State.setBuffer]
  change (s.transmit.buffers.set i.val b i.isLt)[j.val] = if j = i then b else s.transmit.buffers[j.val]
  simp only [Vector.getElem_set, Fin.ext_iff, eq_comm]

theorem State.endClaims_released (s : State) (owner : BufferOwner) : Released (s.endClaims owner) s fun o => o == owner := by
  intro i
  rw [← Buffer.endClaim_eq_released]
  have other : (s.setBuffer 0 ((s.buffer 0).endClaim owner (s.onLine 0))).onLine 1 = s.onLine 1 := rfl
  match i with
  | 0 => simp [State.endClaims, State.buffer_setBuffer]
  | 1 => simp [State.endClaims, State.buffer_setBuffer, other]

theorem Released.refl (s : State) : Released s s fun _ => false := fun _ => (Buffer.released_nobody _ _).symm

theorem Released.trans {s t u : State} {gone more : BufferOwner → Bool} (h : Released t s gone) (k : Released u t more)
    (line : t.line = s.line) : Released u s fun o => gone o || more o := by
  intro i
  have onLine : t.onLine i = s.onLine i := by simp only [State.onLine, line]
  rw [k i, onLine, h i, Buffer.released_released]

/-- What the end of many claims does to the buffers, said once. -/
theorem State.endAllClaims_released (s : State) (owners : List BufferOwner) :
    Released (s.endAllClaims owners) s fun o => owners.any fun p => o == p := by
  induction owners generalizing s with
  | nil => exact Released.refl s
  | cons p rest ih => exact (s.endClaims_released p).trans (ih (s.endClaims p)) rfl

/-! ### Pins (R61) -/

/-- What a pin is: a live tracker entry, or an answer entry, with the location of its key. -/
theorem State.mem_pins (s : State) (o : BufferOwner) (l : Loc) :
    (o, l) ∈ s.pins ↔ s.locate o.key = some l ∧ ((∃ e ∈ s.tracker.entries, e.state.isLive = true ∧ o = .tracker e.key) ∨
      ∃ a ∈ s.gap.answers, o = .answer a.key) := by
  simp only [State.pins, List.mem_filterMap, List.mem_append, List.mem_map, List.mem_filter, Option.map_eq_some_iff,
    Prod.mk.injEq]
  constructor
  · rintro ⟨o', ho, l', hl, rfl, rfl⟩
    refine ⟨hl, ?_⟩
    rcases ho with ⟨e, ⟨he, hlive⟩, rfl⟩ | ⟨a, ha, rfl⟩
    · exact Or.inl ⟨e, he, hlive, rfl⟩
    · exact Or.inr ⟨a, ha, rfl⟩
  · rintro ⟨hl, ho⟩
    refine ⟨o, ?_, l, hl, rfl, rfl⟩
    rcases ho with ⟨e, he, hlive, rfl⟩ | ⟨a, ha, rfl⟩
    · exact Or.inl ⟨e, ⟨he, hlive⟩, rfl⟩
    · exact Or.inr ⟨a, ha, rfl⟩

/-- A block is pinned exactly when a pin's location lies in it. -/
theorem State.pinned_iff (s : State) (b : BlockId) : s.pinned b = true ↔ ∃ o l, (o, l) ∈ s.pins ∧ l.block = b := by
  simp only [State.pinned, List.any_eq_true, beq_iff_eq, Prod.exists]

/-- A purge of an unpinned block changes no pin: a named key lies in another block, and stays there. -/
theorem State.purge_pins (s : State) (l : Lane) (b : BlockId) (h : s.pinned b = false) : (s.purge l b).pins = s.pins := by
  have stays : ∀ k v, s.locate k = some v → v.block ≠ b → (s.purge l b).locate k = some v := by
    intro k v
    show mapGet s.index k = some v → _ → mapGet (s.index.filter fun e => e.2.block != b) k = some v
    induction s.index with
    | nil => simp [mapGet]
    | cons e rest ih =>
      intro hv hb
      unfold mapGet at hv
      split at hv
      · rename_i hk
        cases hv
        simp [mapGet, hb, hk]
      · rename_i hk
        by_cases he : e.2.block = b
        · simpa [he] using ih hv hb
        · simpa [mapGet, he, hk] using ih hv hb
  have goes : ∀ k, s.locate k = none → (s.purge l b).locate k = none := by
    intro k
    show mapGet s.index k = none → mapGet (s.index.filter fun e => e.2.block != b) k = none
    induction s.index with
    | nil => simp [mapGet]
    | cons e rest ih =>
      intro hv
      unfold mapGet at hv
      split at hv
      · cases hv
      · rename_i hk
        by_cases he : e.2.block = b
        · simpa [he] using ih hv
        · simpa [mapGet, he, hk] using ih hv
  have unpinned : ∀ o v, (o, v) ∈ s.pins → v.block ≠ b := fun o v hp hb => by
    have := (s.pinned_iff b).mpr ⟨o, v, hp, hb⟩
    simp [h] at this
  unfold State.pins at unpinned ⊢
  show List.filterMap _ _ = _
  refine List.filterMap_congr fun o ho => ?_
  cases hl : s.locate o.key with
  | none => rw [goes _ hl]
  | some v => rw [stays _ _ hl (unpinned o v (List.mem_filterMap.mpr ⟨o, ho, by rw [hl]; rfl⟩))]

theorem State.purge_pinned (s : State) (l : Lane) (b c : BlockId) (h : s.pinned b = false) :
    (s.purge l b).pinned c = s.pinned c := by
  unfold State.pinned
  rw [s.purge_pins l b h]

theorem mapGet_of_mem {κ α : Type} [DecidableEq κ] {m : List (κ × α)} {e : κ × α} (h : e ∈ m) : ∃ v, mapGet m e.1 = some v := by
  induction m with
  | nil => cases h
  | cons x rest ih =>
    unfold mapGet
    split
    · exact ⟨_, rfl⟩
    · rename_i hne
      rcases List.mem_cons.mp h with rfl | h
      · exact absurd rfl hne
      · exact ih h

theorem mem_of_mapGet {κ α : Type} [DecidableEq κ] {m : List (κ × α)} {k : κ} {v : α} (h : mapGet m k = some v) : (k, v) ∈ m := by
  induction m with
  | nil => simp [mapGet] at h
  | cons x rest ih =>
    unfold mapGet at h
    split at h
    · rename_i hk
      cases h
      subst hk
      exact List.mem_cons_self
    · exact List.mem_cons_of_mem _ (ih h)

/-- A key has moved when the index no longer locates it where it did. -/
theorem keyMoved_iff (s u : State) : keyMoved s u = true ↔ ∃ k l, s.locate k = some l ∧ u.locate k ≠ some l := by
  simp only [keyMoved, List.any_eq_true, bne_iff_ne]
  constructor
  · rintro ⟨e, he, hne⟩
    obtain ⟨l, hl⟩ := mapGet_of_mem he
    exact ⟨e.1, l, hl, fun hu => hne (hu.trans hl.symm)⟩
  · rintro ⟨k, l, hl, hne⟩
    exact ⟨(k, l), mem_of_mapGet hl, fun hu => hne (hu.trans hl)⟩

/-! ### The scanner's floors and page classes (R73, R75) -/

/-- The floor of one writer after a valid header: the greater of the two, every other writer's as it was. -/
theorem addFloor_get (floors : Vector (Option Nat) 30) (h : HeaderInfo) (id : Nat) (hid : 1 ≤ id ∧ id ≤ 30) :
    stationGet (addFloor floors h) id none =
      if id = h.writer then some (max h.floor ((stationGet floors id none).getD 0)) else stationGet floors id none := by
  by_cases same : id = h.writer
  · subst same
    rw [if_pos rfl]
    unfold addFloor
    split
    · rename_i f hf
      split
      · rw [stationGet_stationSet]
        simp only [hf, hid, and_self, if_true, Option.getD_some]
        congr 1
        omega
      · rw [hf]
        simp only [Option.getD_some, Option.some.injEq]
        omega
    · rename_i hf
      rw [stationGet_stationSet]
      simp [hf, hid]
  · rw [if_neg same]
    unfold addFloor
    split
    · split
      · rw [stationGet_stationSet]
        simp [same]
      · rfl
    · rw [stationGet_stationSet]
      simp [same]

theorem mapGet_append_single {κ α : Type} [DecidableEq κ] (m : List (κ × α)) (k j : κ) (v : α) :
    mapGet (m ++ [(k, v)]) j = match mapGet m j with
      | some w => some w
      | none => if j = k then some v else none := by
  induction m with
  | nil => by_cases h : j = k <;> simp [mapGet, h]
  | cons e rest ih => by_cases h : j = e.1 <;> simp [mapGet, h, ih]

/-- One more page class of a block stands after those it has; every other block's stand. -/
theorem addPageClass_get (pages : List (BlockId × List PageClass)) (b j : BlockId) (c : PageClass) :
    (mapGet (addPageClass pages b c) j).getD [] = (mapGet pages j).getD [] ++ if j = b then [c] else [] := by
  unfold addPageClass
  split
  · rename_i hb
    rw [mapGet_append_single]
    by_cases h : j = b
    · subst h
      simp [hb]
    · cases hj : mapGet pages j <;> simp [h]
  · rename_i w hb
    have mapped : ∀ l : List (BlockId × List PageClass),
        mapGet (l.map fun e => if e.1 = b then (b, e.2 ++ [c]) else e) j =
          (mapGet l j).map fun v => if j = b then v ++ [c] else v := by
      intro l
      induction l with
      | nil => rfl
      | cons e rest ih =>
        by_cases hj : j = e.1
        · subst hj
          by_cases hb : e.1 = b <;> simp [mapGet, hb]
        · by_cases hb : e.1 = b
          · have hj' : ¬ j = b := fun h => hj (h.trans hb.symm)
            simp [mapGet, hb, hj', ih]
          · simp [mapGet, hb, hj, ih]
    rw [mapped]
    by_cases h : j = b
    · subst h
      simp [hb]
    · cases hj : mapGet pages j <;> simp [h]

/-! ### The line after a reading -/

/-- A station that is not driving stands in the line state the reading ends in. -/
theorem LineUnit.afterReading_of_not_sending {line : LineUnit} (h : line.state ≠ .sending) (state : LineState) (idle : Nat) :
    line.afterReading state idle = { line with state := state, idle := idle } := if_neg h

/-- A station that is driving goes on. -/
theorem LineUnit.afterReading_of_sending {line : LineUnit} (h : line.state = .sending) (state : LineState) (idle : Nat) :
    line.afterReading state idle = line := if_pos h

@[simp] theorem LineUnit.afterReading_inFlight (line : LineUnit) (state : LineState) (idle : Nat) :
    (line.afterReading state idle).inFlight = line.inFlight := by unfold LineUnit.afterReading; split <;> rfl

@[simp] theorem LineUnit.afterReading_failureRun (line : LineUnit) (state : LineState) (idle : Nat) :
    (line.afterReading state idle).failureRun = line.failureRun := by unfold LineUnit.afterReading; split <;> rfl

@[simp] theorem LineUnit.afterReading_failureTotal (line : LineUnit) (state : LineState) (idle : Nat) :
    (line.afterReading state idle).failureTotal = line.failureTotal := by unfold LineUnit.afterReading; split <;> rfl

@[simp] theorem LineUnit.afterReading_rejectedTotal (line : LineUnit) (state : LineState) (idle : Nat) :
    (line.afterReading state idle).rejectedTotal = line.rejectedTotal := by unfold LineUnit.afterReading; split <;> rfl

@[simp] theorem LineUnit.afterReading_silenced (line : LineUnit) (state : LineState) (idle : Nat) :
    (line.afterReading state idle).silenced = line.silenced := by unfold LineUnit.afterReading; split <;> rfl

/-! ### Cells a program leaves -/

/-- R20: a program or a retire mark returns no cell to the erased state. -/
theorem landOn_ne_erased {α : Type} [DecidableEq α] {erased before target : α} (fate : Landed α) (hb : before ≠ erased)
    (ht : target ≠ erased) : landOn erased before target fate ≠ erased := by
  cases fate with
  | untouched => exact hb
  | whole => exact ht
  | partly cells =>
    show (if cells = erased then before else cells) ≠ erased
    split
    · exact hb
    · assumption

theorem slotOf_ne_erased (r : Record) : slotOf r ≠ .erased := nofun

theorem tagOf_ne_erased (k : Key) : tagOf k ≠ .erased := nofun

theorem headerOf_ne_erased (h : HeaderInfo) : headerOf h ≠ .erased := nofun

theorem markOf_ne_erased (b : BlockId) : markOf b ≠ .erased := nofun

/-- All that a change of cells can do, in the words of the statements. -/
theorem changesTo_changeTo {α : Type} [DecidableEq α] {erased : α} {fits : α → Bool} {spoilt : α → Prop}
    (h : ∀ cells, cells ≠ erased → (fits cells = false ↔ spoilt cells)) (before : α) (said : Option α) :
    ChangesTo erased spoilt before said (changeTo erased fits before said) := by
  constructor
  · rintro cells rfl hb hc hs
    exact changeTo_some hb hc ((h cells hc).mpr hs)
  · intro hn
    rcases changeTo_cases erased fits before said with he | ⟨hb, hs, hc, hf⟩
    · exact he
    · exact absurd ⟨_, hs, hb, hc, (h _ hc).mp hf⟩ hn

/-- No slot and no tag of one page is erased that is not erased in the other. -/
def NotErasedFrom (c d : PageCells) : Prop :=
  ∀ i, (d.slots.get i = .erased → c.slots.get i = .erased) ∧ (d.tags.get i = .erased → c.tags.get i = .erased)

/-- A cell set to what a program leaves in it is not erased, if it was not. -/
theorem get_set_landOn {α : Type} [DecidableEq α] {n : Nat} {erased target : α} (v : Vector α n) (i j : Fin n)
    (fate : Landed α) (ht : target ≠ erased)
    (h : (v.set i.val (landOn erased (v.get i) target fate) i.isLt).get j = erased) : v.get j = erased := by
  rw [Vector.get_eq_getElem, Vector.getElem_set] at h
  split at h
  · rename_i hij
    obtain rfl : i = j := Fin.ext hij
    by_contra hb
    exact landOn_ne_erased fate hb ht h
  · exact h

theorem programSlot_notErased (first : SlotNo) (fate : Option PassFate) (c : PageCells) (rn : Record × Nat) :
    NotErasedFrom c (programSlot first fate c rn) := fun _ =>
  ⟨get_set_landOn _ _ _ _ (slotOf_ne_erased _), get_set_landOn _ _ _ _ (tagOf_ne_erased _)⟩

/-- R20: a pass returns no slot and no tag of its page to the erased state. -/
theorem programPage_notErased (p : PassLane) (fate : Option PassFate) (c : PageCells) :
    NotErasedFrom c (programPage p fate c) := by
  have slots : NotErasedFrom c (p.records.zipIdx.foldl (programSlot p.first fate) c) :=
    foldl_keeps (NotErasedFrom c) (programSlot p.first fate) (fun d rn h i =>
      ⟨fun e => (h i).1 ((programSlot_notErased p.first fate d rn i).1 e),
        fun e => (h i).2 ((programSlot_notErased p.first fate d rn i).2 e)⟩) _ _ fun _ => ⟨id, id⟩
  unfold programPage programHeader
  split
  · exact slots
  · split <;> exact slots

/-! ### What a lane of a pass ends with -/

/-- The model's test of a pass against the statement's words. -/
theorem passBlank_iff (s : State) (p : PassLane) : passBlank s.flash p = true ↔ Blank s p := by
  simp [passBlank, Blank, Option.isSome_iff_ne_none, imp_iff_not_or]

/-- The result the completion uses is the one the statements name. -/
theorem passOutcome_eq_laneEnds (s : State) (results : Vector PassResult 4) :
    (passOutcome s.flash fun l => results.get l) = laneEnds s results := by
  funext p
  unfold passOutcome laneEnds
  beta_reduce
  generalize results.get (laneOf p.block) = r
  cases r <;> simp [← passBlank_iff]

/-- An abort is no matter of the cells (R39). -/
@[simp] theorem passOutcome_aborted (flash : List (Nat × PageCells)) (fate : Lane → PassFate) :
    (passOutcome flash fun l => .aborted (fate l)) = fun p => .aborted (fate (laneOf p.block)) := rfl

/-- R73: a lane whose pass met cells that are not erased does not pass. -/
theorem not_hasPassed_of_not_blank {s : State} {p : PassLane} (results : Vector PassResult 4) (h : ¬ Blank s p) :
    hasPassed (laneEnds s results p) = false := by
  unfold laneEnds
  cases results.get (laneOf p.block) <;> simp [hasPassed, h]

end Sys2Proof.Machine
end

