-- ==== Sys2Proof/Laws/Rows.lean ====
section
/-! SUPPORT. The laws of the gap lists and the origin rows: what adding a range, taking a seq out and closing a change do. -/
namespace Sys2Proof.Machine

/-! ### Ranges -/

theorem gapsAbove_mono {low low' : Nat} (hl : low' ≤ low) {gaps : List (Nat × Nat)} (h : gapsAbove low gaps) :
    gapsAbove low' gaps := by
  cases gaps with
  | nil => trivial
  | cons g rest => exact ⟨Nat.lt_of_le_of_lt hl h.1, h.2⟩

/-- Ranges above a bound contain only seqs above it. -/
theorem lt_of_missing {low : Nat} {gaps : List (Nat × Nat)} (h : gapsAbove low gaps) {x : Nat} (hx : missing gaps x) :
    low < x := by
  induction gaps generalizing low with
  | nil => exact absurd hx (by simp [missing])
  | cons g rest ih =>
    obtain ⟨h1, h2, h3⟩ := h
    obtain ⟨g', hg, hx1, hx2⟩ := hx
    rcases List.mem_cons.mp hg with rfl | hg
    · omega
    · have := ih h3 ⟨g', hg, hx1, hx2⟩
      omega

theorem missing_nil (x : Nat) : ¬ missing [] x := by simp [missing]

theorem missing_cons (g : Nat × Nat) (gaps : List (Nat × Nat)) (x : Nat) :
    missing (g :: gaps) x ↔ (g.1 ≤ x ∧ x ≤ g.2) ∨ missing gaps x := by simp [missing]

theorem missing_append (a b : List (Nat × Nat)) (x : Nat) : missing (a ++ b) x ↔ missing a x ∨ missing b x := by
  simp [missing, or_and_right, exists_or]

/-- Ranges above a bound, with one more above them all. -/
theorem gapsAbove_append_one {low top first last : Nat} {gaps : List (Nat × Nat)} (h : gapsAbove low gaps)
    (ht : ∀ g ∈ gaps, g.2 ≤ top) (hl : low ≤ top) (hf : top < first) (hfl : first ≤ last) :
    gapsAbove low (gaps ++ [(first, last)]) := by
  induction gaps generalizing low with
  | nil => exact ⟨by simp only; omega, hfl, trivial⟩
  | cons g rest ih =>
    exact ⟨h.1, h.2.1, ih h.2.2 (fun g' hg => ht g' (List.mem_cons_of_mem _ hg)) (ht g List.mem_cons_self)⟩

/-- What adding a range above all others does (R154). -/
theorem addRange_spec {low top last : Nat} {gaps : List (Nat × Nat)} (h : gapsAbove low gaps)
    (ht : ∀ g ∈ gaps, g.2 ≤ top) (hl : low ≤ top) (hlast : top < last) :
    gapsAbove low (addRange gaps (top + 1) last) ∧ (∀ g ∈ addRange gaps (top + 1) last, g.2 ≤ last) ∧
    (∀ x, missing (addRange gaps (top + 1) last) x ↔ missing gaps x ∨ (top < x ∧ x ≤ last)) ∧
    (addRange gaps (top + 1) last = gaps ++ [(top + 1, last)] ∨
      (addRange gaps (top + 1) last).length = gaps.length) := by
  have plain : gapsAbove low (gaps ++ [(top + 1, last)]) ∧ (∀ g ∈ gaps ++ [(top + 1, last)], g.2 ≤ last) ∧
      ∀ x, missing (gaps ++ [(top + 1, last)]) x ↔ missing gaps x ∨ (top < x ∧ x ≤ last) := by
    refine ⟨gapsAbove_append_one h ht hl (Nat.lt_succ_self _) hlast, ?_, ?_⟩
    · intro g hg
      rcases List.mem_append.mp hg with hg | hg
      · exact (ht g hg).trans hlast.le
      · rw [List.mem_singleton.mp hg]
    · intro x
      rw [missing_append]
      simp [missing]
  unfold addRange
  cases hg : gaps.getLast? with
  | none =>
    have : gaps = [] := List.getLast?_eq_none_iff.mp hg
    subst this
    exact ⟨plain.1, plain.2.1, plain.2.2, Or.inl rfl⟩
  | some g =>
    simp only
    by_cases hj : g.2 + 1 = top + 1
    · rw [if_pos hj]
      obtain ⟨init, rfl⟩ : ∃ init, gaps = init ++ [g] := by
        rw [List.getLast?_eq_some_iff] at hg
        exact hg
      rw [List.dropLast_concat]
      have top_eq : g.2 = top := by omega
      have init_le : ∀ low, gapsAbove low (init ++ [g]) → gapsAbove low (init ++ [(g.1, last)]) := by
        clear plain hg h ht hl
        induction init with
        | nil => intro low h; exact ⟨h.1, by have := h.2.1; simp only; omega, trivial⟩
        | cons a rest ih => intro low h; exact ⟨h.1, h.2.1, ih _ h.2.2⟩
      refine ⟨init_le _ h, ?_, ?_, Or.inr (by simp)⟩
      · intro g' hg'
        rcases List.mem_append.mp hg' with hg' | hg'
        · exact (ht g' (List.mem_append_left _ hg')).trans hlast.le
        · rw [List.mem_singleton.mp hg']
      · intro x
        have gle : g.1 ≤ g.2 := by
          clear plain hg ht hl init_le
          induction init generalizing low with
          | nil => exact h.2.1
          | cons a rest ih => exact ih h.2.2
        simp only [missing_append, missing_cons, missing_nil, or_false]
        by_cases hm : missing init x
        · simp [hm]
        · simp only [hm, false_or]
          omega
    · rw [if_neg hj]
      exact ⟨plain.1, plain.2.1, plain.2.2, Or.inl rfl⟩

/-- What taking one seq out of the ranges does (R156). -/
theorem splitRange_spec (q : Nat) {low : Nat} {gaps : List (Nat × Nat)} (h : gapsAbove low gaps) :
    gapsAbove low (gaps.flatMap (splitRange q)) ∧
    (∀ x, missing (gaps.flatMap (splitRange q)) x ↔ missing gaps x ∧ x ≠ q) ∧
    (∀ g ∈ gaps.flatMap (splitRange q), ∃ g' ∈ gaps, g.2 ≤ g'.2) ∧
    (gaps.flatMap (splitRange q)).length ≤ gaps.length + 1 ∧
    (¬ missing gaps q → gaps.flatMap (splitRange q) = gaps) := by
  induction gaps generalizing low with
  | nil => exact ⟨trivial, by simp [missing], by simp, by simp, by simp⟩
  | cons g rest ih =>
    obtain ⟨h1, h2, h3⟩ := h
    obtain ⟨i1, i2, i3, i4, i5⟩ := ih h3
    rw [List.flatMap_cons]
    by_cases hq : g.1 ≤ q ∧ q ≤ g.2
    · have out : ¬ missing rest q := fun hm => by have := lt_of_missing h3 hm; omega
      rw [i5 out]
      have rest_ne : ∀ x, missing rest x → x ≠ q := fun x hx => by have := lt_of_missing h3 hx; omega
      have rest_le : ∀ g' ∈ rest, ∃ g'' ∈ g :: rest, g'.2 ≤ g''.2 :=
        fun g' hg => ⟨g', List.mem_cons_of_mem _ hg, le_refl _⟩
      unfold splitRange
      rw [if_pos hq]
      by_cases ha : g.1 < q <;> by_cases hb : q < g.2
      · rw [if_pos ha, if_pos hb]
        refine ⟨⟨h1, by simp only; omega, by simp only; omega, by simp only; omega, h3⟩, ?_, ?_, by simp, ?_⟩
        · intro x
          simp only [List.cons_append, List.nil_append, missing_cons]
          have := rest_ne x
          constructor
          · rintro (⟨_, _⟩ | ⟨_, _⟩ | hm)
            · exact ⟨Or.inl (by omega), by omega⟩
            · exact ⟨Or.inl (by omega), by omega⟩
            · exact ⟨Or.inr hm, this hm⟩
          · rintro ⟨(⟨_, _⟩ | hm), hne⟩
            · by_cases x < q
              · exact Or.inl (by omega)
              · exact Or.inr (Or.inl (by omega))
            · exact Or.inr (Or.inr hm)
        · intro g' hg'
          simp only [List.cons_append, List.nil_append, List.mem_cons] at hg'
          rcases hg' with rfl | rfl | hg'
          · exact ⟨g, List.mem_cons_self, by simp only; omega⟩
          · exact ⟨g, List.mem_cons_self, le_refl _⟩
          · exact rest_le g' hg'
        · intro hm
          exact absurd ⟨g, List.mem_cons_self, hq⟩ hm
      · rw [if_pos ha, if_neg hb]
        refine ⟨⟨h1, by simp only; omega, gapsAbove_mono (by simp only; omega) h3⟩, ?_, ?_, by simp, ?_⟩
        · intro x
          simp only [List.cons_append, List.nil_append, missing_cons]
          have := rest_ne x
          constructor
          · rintro (⟨_, _⟩ | hm)
            · exact ⟨Or.inl (by omega), by omega⟩
            · exact ⟨Or.inr hm, this hm⟩
          · rintro ⟨(⟨_, _⟩ | hm), hne⟩
            · exact Or.inl (by omega)
            · exact Or.inr hm
        · intro g' hg'
          simp only [List.cons_append, List.nil_append, List.mem_cons] at hg'
          rcases hg' with rfl | hg'
          · exact ⟨g, List.mem_cons_self, by simp only; omega⟩
          · exact rest_le g' hg'
        · intro hm
          exact absurd ⟨g, List.mem_cons_self, hq⟩ hm
      · rw [if_neg ha, if_pos hb]
        refine ⟨⟨by simp only; omega, by simp only; omega, h3⟩, ?_, ?_, by simp, ?_⟩
        · intro x
          simp only [List.cons_append, List.nil_append, missing_cons]
          have := rest_ne x
          constructor
          · rintro (⟨_, _⟩ | hm)
            · exact ⟨Or.inl (by omega), by omega⟩
            · exact ⟨Or.inr hm, this hm⟩
          · rintro ⟨(⟨_, _⟩ | hm), hne⟩
            · exact Or.inl (by omega)
            · exact Or.inr hm
        · intro g' hg'
          simp only [List.cons_append, List.nil_append, List.mem_cons] at hg'
          rcases hg' with rfl | hg'
          · exact ⟨g, List.mem_cons_self, le_refl _⟩
          · exact rest_le g' hg'
        · intro hm
          exact absurd ⟨g, List.mem_cons_self, hq⟩ hm
      · rw [if_neg ha, if_neg hb]
        refine ⟨gapsAbove_mono (by omega) h3, ?_, ?_, by simp only [List.nil_append, List.length_cons]; omega, ?_⟩
        · intro x
          simp only [List.nil_append, missing_cons]
          have := rest_ne x
          constructor
          · intro hm
            exact ⟨Or.inr hm, this hm⟩
          · rintro ⟨(⟨_, _⟩ | hm), hne⟩
            · omega
            · exact hm
        · exact rest_le
        · intro hm
          exact absurd ⟨g, List.mem_cons_self, hq⟩ hm
    · have split_eq : splitRange q g = [g] := by
        unfold splitRange
        rw [if_neg hq]
      rw [split_eq]
      refine ⟨⟨h1, h2, i1⟩, ?_, ?_, ?_, ?_⟩
      · intro x
        simp only [List.cons_append, List.nil_append, missing_cons, i2]
        constructor
        · rintro (hx | ⟨hm, hne⟩)
          · exact ⟨Or.inl hx, fun hxq => hq (hxq ▸ hx)⟩
          · exact ⟨Or.inr hm, hne⟩
        · rintro ⟨(hx | hm), hne⟩
          · exact Or.inl hx
          · exact Or.inr ⟨hm, hne⟩
      · intro g' hg'
        rcases List.mem_cons.mp hg' with rfl | hg'
        · exact ⟨g', List.mem_cons_self, le_refl _⟩
        · obtain ⟨g'', h'', hle⟩ := i3 g' hg'
          exact ⟨g'', List.mem_cons_of_mem _ h'', hle⟩
      · simp only [List.cons_append, List.nil_append, List.length_cons]
        omega
      · intro hm
        rw [missing_cons, not_or] at hm
        rw [i5 hm.2]
        rfl

/-! ### Rows -/

/-- What a change of the gap list settles (R154, R159): `t` holds the changed list, not yet its horizon. -/
theorem closeRow_spec (t : TrackedRow) (lost low : Nat) (ha : gapsAbove low t.gaps) (hw : ∀ g ∈ t.gaps, g.2 ≤ t.topSeen)
    (hc : t.gaps.length ≤ 5) (hn : t.attempts < 3) :
    ∃ u, (closeRow t lost).row.tracked = some u ∧ u.Law ∧ u.topSeen = t.topSeen ∧
      (t.gaps.length ≤ 4 → (closeRow t lost).abandoned = none ∧ (closeRow t lost).row.lost = lost ∧ u.gaps = t.gaps ∧
        u.attempts = t.attempts) ∧
      (∀ g rest, t.gaps.length = 5 → t.gaps = g :: rest → (closeRow t lost).abandoned = some g ∧
        (closeRow t lost).row.lost = min 65535 (lost + (g.2 - g.1 + 1)) ∧ u.gaps = rest ∧ u.attempts = 0) := by
  have settle : ∀ r : TrackedRow, (∃ low, gapsAbove low r.gaps) → (∀ g ∈ r.gaps, g.2 ≤ r.topSeen) →
      r.gaps.length ≤ 4 → r.attempts < 3 → r.withHorizon.Law := by
    rintro ⟨h, top, gaps, n⟩ ⟨low, hg⟩ hw hc hn
    cases gaps with
    | nil => exact ⟨le_refl _, trivial, by simp [TrackedRow.withHorizon], by simp [TrackedRow.withHorizon], rfl, hn⟩
    | cons g rest =>
      obtain ⟨h1, h2, h3⟩ := hg
      have hle := hw g List.mem_cons_self
      refine ⟨?_, ⟨?_, h2, h3⟩, hw, hc, rfl, hn⟩
      · simp only [TrackedRow.withHorizon] at hle ⊢
        omega
      · simp only [TrackedRow.withHorizon]
        omega
  unfold closeRow
  by_cases hlen : Config.gapPlaces < t.gaps.length
  · rw [if_pos hlen]
    simp only [Config.gapPlaces] at hlen
    cases hg : t.gaps with
    | nil => rw [hg] at hlen; simp at hlen
    | cons g rest =>
      rw [hg] at ha hw hlen hc
      simp only [abandonLowest, hg]
      refine ⟨_, rfl, settle _ ⟨_, ha.2.2⟩ (fun g' h' => hw g' (List.mem_cons_of_mem _ h')) ?_ (by simp), rfl, ?_, ?_⟩
      · simp only [List.length_cons] at hc
        simp only
        omega
      · intro hle
        simp only [List.length_cons] at hle hlen
        omega
      · intro g' rest' _ he
        injection he with e1 e2
        subst e1 e2
        exact ⟨rfl, rfl, rfl, rfl⟩
  · rw [if_neg hlen]
    simp only [Config.gapPlaces] at hlen
    refine ⟨_, rfl, settle t ⟨low, ha⟩ hw (by omega) hn, rfl, fun _ => ⟨rfl, rfl, rfl, rfl⟩, ?_⟩
    intro g rest h5
    omega

end Sys2Proof.Machine
end

