-- ==== Sys2Proof/Tests/Slice0.lean ====
section
/-! SUPPORT. The model's own tests: ill-formed commands refused, one step of each command on a small state, and a
witness for the hypotheses of every statement. -/

open Sys2Proof Sys2Proof.Machine

set_option Elab.async false

namespace Sys2Proof.Tests

/-! ### Ill-formed commands -/

theorem test_wellFormed_pass_of_nine_slots :
    Instr.wellFormed (.programComplete (Vector.replicate 4 (.fail ⟨List.replicate 9 {}, .untouched⟩))) = false ∧
    Instr.wellFormed (.programComplete (Vector.replicate 4 (.pass ⟨List.replicate 9 {}, .untouched⟩))) = false := by
  decide +kernel

theorem test_wellFormed_erase_of_33_pages :
    Instr.wellFormed (.eraseComplete (Vector.replicate 4 (.aborted (.partly (List.replicate 33 blankPage))))) = false := by
  decide +kernel

theorem test_wellFormed_interruptions :
    let left : Interruption := { passes := Vector.replicate 4 ⟨List.replicate 9 {}, .untouched⟩ }
    let erased : Interruption := { erases := Vector.replicate 4 (.partly (List.replicate 33 blankPage)) }
    ∀ w ∈ [left, erased], ∀ c ∈ [Instr.powerOnReset w, .nresetAssert w, .protAssert w, .powerLoss w, .restart [] w],
      c.wellFormed = false := by decide +kernel

/-- No program and no retire mark returns cells to the erased state (R20). -/
theorem test_wellFormed_erasing_fates :
    Instr.wellFormed (.programComplete (Vector.replicate 4 (.fail ⟨[⟨.partly .erased, .untouched⟩], .untouched⟩))) = false ∧
    Instr.wellFormed (.programComplete (Vector.replicate 4 (.aborted ⟨[⟨.whole, .partly .erased⟩], .untouched⟩))) = false ∧
    Instr.wellFormed (.programComplete (Vector.replicate 4 (.fail ⟨[], .partly .erased⟩))) = false ∧
    Instr.wellFormed (.retireMarkComplete (.fail (.partly .erased))) = false ∧
    Instr.wellFormed (.retireMarkComplete (.aborted (.partly .erased))) = false ∧
    Instr.wellFormed (.protAssert { mark := .partly .erased }) = false := by decide +kernel

/-- Cells that a read's command says have changed: to erased, or to what a check fits. -/
theorem test_wellFormed_changes_of_cells :
    let data (d : SlotData) : PageChange := { slots := (Vector.replicate 8 none).set 3 (some d) }
    let tag (c : TagCells) : PageChange := { tags := (Vector.replicate 8 none).set 7 (some c) }
    let header (h : HeaderCells) : PageChange := { header := some h }
    let mark (m : MarkCells) : PageChange := { mark := some m }
    (∀ w ∈ [data .erased, data (slotOf ⟨⟨2, 4⟩, 1, 9, [7]⟩), tag .erased, tag (tagOf ⟨2, 4⟩), header .erased,
        header (headerOf ⟨0, 2, 4⟩), mark .erased, mark (markOf 4)],
      ∀ c ∈ [Instr.transmitReadComplete w, .hostReadComplete w, .evacuationReadComplete w, .scanReadComplete w],
        c.wellFormed = false) ∧
    (∀ w ∈ [{}, data (.cells 2 4 1 1 9 [8] 0), tag (.cells 2 4 0), header (.cells 0 2 4 0), mark (.cells 4 0)],
      Instr.wellFormed (.scanReadComplete w) = true) := by decide +kernel

theorem test_wellFormed_void_with_a_valid_kind : Instr.wellFormed (.voidTransaction 0x02) = false := by decide +kernel

theorem test_wellFormed_unknown_with_a_known_code : Instr.wellFormed (.unknownRequest [0x40]) = false := by
  decide +kernel

theorem test_wellFormed_rejected_valid_frame :
    Instr.wellFormed (.frameRejected (.complete (frameBytes ⟨4, .roll .active 3 0 7⟩))) = false := by decide +kernel

theorem test_wellFormed_rejected_short_frame : Instr.wellFormed (.frameRejected (.complete [0x24, 5, 1])) = false := by
  decide +kernel

theorem test_wellFormed_frames_out_of_range :
    Instr.wellFormed (.receiptReceived 31 [⟨2, 5⟩]) = false ∧ Instr.wellFormed (.receiptReceived 4 []) = false ∧
    Instr.wellFormed (.requestReceived 4 7 16777215 2) = false ∧ Instr.wellFormed (.requestReceived 4 7 5 9) = false ∧
    Instr.wellFormed (.recordReceived 4 ⟨⟨5, 1⟩, 0, 0, [1]⟩) = false ∧
    Instr.wellFormed (.repairRecordReceived 4 ⟨⟨5, 1⟩, 0, 0, []⟩) = false ∧
    Instr.wellFormed (.rollReceived 4 .active 9 0 0) = false ∧ Instr.wellFormed (.rollReceived 0 .active 1 0 0) = false := by
  decide +kernel

theorem test_wellFormed_timers_out_of_range :
    Instr.wellFormed (.holderWindowExpiry 0) = false ∧ Instr.wellFormed (.answerDue ⟨31, 1⟩) = false ∧
    Instr.wellFormed (.silenceDeadlineExpiry 31) = false := by decide +kernel

/-! ### Checks and layouts -/

/-- The published check values of the two CRCs, over the digits 1 to 9. -/
theorem test_crc_check_values :
    crc16 [0x31, 0x32, 0x33, 0x34, 0x35, 0x36, 0x37, 0x38, 0x39] = 0x29B1 ∧
    crc32 [0x31, 0x32, 0x33, 0x34, 0x35, 0x36, 0x37, 0x38, 0x39] = 0x0376E6E7 := by decide +kernel

/-- A REQUEST of station 3 for (7, 115) and two more: kind 2 and ID 3, 5 body bytes, and it is judged valid. -/
theorem test_request_frame :
    (frameBytes ⟨3, .request 7 115 3⟩).take 7 = [0x43, 5, 7, 0, 0, 115, 3] ∧
    judge (frameBytes ⟨3, .request 7 115 3⟩) = .valid ⟨3, .request 7 115 3⟩ := by decide +kernel

theorem test_idle_after_bytes : endIdle [0x00, 0xFF] = 9 ∧ endIdle [0xFE] = 1 := by decide +kernel

theorem test_messages :
    responseBytes (.accepted 140) = [0x81, 3, 0, 0, 140] ∧ eventBytes (.peerDown 9 .silent) = [0x07, 2, 9, 1] ∧
    responseBytes (.refusal .malformed) = [0xCA, 0] := by decide +kernel

/-! ### Small states -/

abbrev conf : Configuration := ⟨2, 3, 0, 1, none⟩

/-- Station 2, ACTIVE under K = 3, its line QUIET, its array free and blank, next_seq 5. -/
def base : State :=
  { State.reset with
    sequencer := { Sequencer.reset false with inFlight := none, exclusive := false }
    controller := { Controller.reset (some conf) with state := .active }
    tracker := ⟨some 5, []⟩
    line := { LineUnit.reset with state := .quiet, idle := 12 } }

/-- The state in another station state. -/
def State.inState (s : State) (st : StationState) : State := { s with controller := { s.controller with state := st } }

/-- The state with an accepted PUT. -/
def State.collecting (s : State) : State := { s with port := { s.port with state := .collecting } }

/-- The state in MOUNTING, in which the workers do not run: what is left is a command's own effect. -/
def State.alone (s : State) : State := State.inState s .mounting

/-- The state driving a frame. -/
def State.sending (s : State) (body : FrameBody) (owner : FrameOwner) : State :=
  { s with line := { s.line with state := .sending, inFlight := some ⟨⟨2, body⟩, owner⟩ } }

/-- The state with an operation in flight. -/
def State.running (s : State) (o : Operation) : State := { s with sequencer := { s.sequencer with inFlight := some o } }

/-- The state with a roster row. -/
def State.hearing (s : State) (id : Nat) (r : RosterRow) : State := s.setRosterRow id r

/-- The state a command answers. -/
def after (c : Instr) (s : State) : State :=
  match exec c s with
  | .next t => t
  | _ => s

abbrev own : Key := ⟨2, 4⟩
abbrev other : Key := ⟨7, 9⟩
abbrev ownRecord : Record := ⟨own, 1, 9, [7]⟩
abbrev otherRecord : Record := ⟨other, 1, 9, [7]⟩

/-- A tracker entry of the own key. -/
def entry (st : TrackerState) (attempts : Nat) : TrackerEntry := ⟨own, st, [2], attempts, false⟩

/-- Base with one tracker entry, its key held. -/
def tracking (st : TrackerState) (attempts : Nat) : State :=
  { base with tracker := ⟨some 5, [entry st attempts]⟩, index := [(own, ⟨0, 0, 0⟩)] }

/-- Base with one answer entry, its key held. -/
def answering (due loaded : Bool) : State :=
  { base with
    gap := { base.gap with answers := [⟨other, 1000, due, loaded⟩] }
    index := [(other, ⟨0, 0, 1⟩)] }

/-- One buffer filled. -/
def State.filled (s : State) (b : Buffer) : State := s.setBuffer 0 b

/-- A pass of the own record to the header pass of block 0, in flight. -/
def pass0 : PassLane := ⟨0, 0, 0, [ownRecord], some ⟨0, 2, 4⟩⟩

/-- Base with pass0 in flight. -/
def passing : State :=
  { State.running base (.program [pass0]) with
    map := { base.map with blocks := base.map.blocks.set 0 (.opened 0 (some ⟨0, 2, 4⟩) ⟨0, 0, 0⟩) }
    intake := [⟨ownRecord, .localHost, .inPass ⟨0, 0, 0⟩⟩]
    tracker := ⟨some 5, [⟨own, .staged, [], 0, false⟩]⟩ }

/-! ### One step of each command -/

theorem test_step_idles : step base = .next { base with now := 1 } := rfl

theorem test_powerOnReset : (after (.powerOnReset {}) { base with power := false }).sequencer.inFlight = some (.scanRead 0 0) ∧
    (after (.powerOnReset {}) { base with power := false }).controller.config = none := by decide +kernel

/-- The station is held, and the entries of the pass in flight are WAITING again (R13, R188). -/
theorem test_nresetAssert : (after (.nresetAssert {}) passing).held = true ∧
    (after (.nresetAssert {}) passing).intake.map IntakeEntry.state = [.waiting] := by decide +kernel

theorem test_nresetRelease : (after .nresetRelease { base with nresetLow := true }).controller.state = .mounting := by
  decide +kernel

theorem test_powerLoss : (after (.powerLoss {}) base).power = false := by decide +kernel

theorem test_protAssert_aborts :
    (after (.protAssert {}) (State.alone passing)).intake.map IntakeEntry.state = [.waiting] ∧
    (after (.protAssert {}) (State.alone passing)).block 0 = .sealed 0 := by decide +kernel

theorem test_protRelease :
    (after .protRelease (State.setProtect (State.alone base) true)).port.events = [.protOff] := by decide +kernel

theorem test_put : (after .put base).port.miso = [0x0A] ∧ (after .put (State.collecting base)).port.miso = [0x0B] := by
  decide +kernel

theorem test_get : (after .get (base.respond .done)).port.miso = [1, 0x80, 0] ∧ (after .get base).port.miso = [0] := by
  decide +kernel

theorem test_event : (after .event (base.post .joined)).port.miso = [0, 0x04, 0] ∧ (after .event base).port.miso = [0, 0] := by
  decide +kernel

theorem test_peek : (after .peek (base.post .joined)).port.miso = [0, 1, 0] := by decide +kernel

theorem test_voidTransaction : (after (.voidTransaction 9) (base.drive [1])).port.misoAt 1 = 0xFF := by decide +kernel

theorem test_unknownRequest :
    (after (.unknownRequest [0x99]) (State.collecting base)).port.state = .answered (.refusal .malformed) := by
  decide +kernel

theorem test_configure :
    let s := State.collecting { State.inState base .idle with line := LineUnit.reset, tracker := ⟨none, []⟩ }
    (after (.configure [2, 3, 0, 1, 0, 0, 9]) s).tracker.nextSeq = some 9 ∧
    (after (.configure [31, 3, 0, 1]) s).port.state = .answered (.refusal .badParam) := by decide +kernel

theorem test_join : (after (.join []) (State.collecting (State.inState base .ready))).controller.rollTimer = some 100000 := by
  decide +kernel

theorem test_leave : (after (.leave []) (State.collecting base)).controller.rollDue = some .leaving := by decide +kernel

theorem test_restart : (after (.restart [] {}) (State.collecting base)).controller.config = some conf := by decide +kernel

theorem test_submit_is_accepted :
    (after (.submit [1, 0, 0, 0, 9, 7, 8]) (State.collecting base)).port.state = .answered (.accepted 5) := by
  decide +kernel

theorem test_submit_is_refused :
    (after (.submit [1, 0, 0, 0, 9]) (State.collecting base)).port.state = .answered (.refusal .tooLong) := by
  decide +kernel

theorem test_takeOutcome : (after (.takeOutcome []) (State.collecting (tracking .short 4))).port.state =
    .answered (.outcome 4 false [2] 4 false) := by decide +kernel

theorem test_readRecord :
    (after (.readRecord [2, 0, 0, 4]) (State.collecting (tracking .queued 0))).sequencer.inFlight =
      some (.hostRead ⟨own, ⟨0, 0, 0⟩⟩) ∧
    (after (.readRecord [2, 0, 0, 3]) (State.collecting (tracking .queued 0))).port.state = .answered .absent := by
  decide +kernel

theorem test_findNext :
    (after (.findNext [2, 0, 0, 3]) (State.collecting (tracking .queued 0))).port.state = .answered (.next 4 false) ∧
    (after (.findNext [2, 0, 0, 4]) (State.collecting (tracking .queued 0))).port.state = .answered .none := by
  decide +kernel

theorem test_status : (after (.status []) (State.collecting (State.alone base))).port.state =
    .answered (.status ⟨.mounting, some conf, none, 0, 0, 0, 0, 0, [], 0, false, false, 0, 0⟩) := by decide +kernel

theorem test_roster : ((after (.roster []) (State.collecting base)).rosterRows.map Prod.fst).take 3 = [1, 3, 4] := by
  decide +kernel

theorem test_originRow :
    (after (.originRow [7]) (State.collecting base)).port.state = .answered (.originRow 7 ⟨none, 0⟩) := by decide +kernel

theorem test_frameRejected :
    (after (.frameRejected (.faulted [0xFF] .startRecessive)) base).line =
      { base.line with state := .seeking, idle := 10, rejectedTotal := 1 } := by decide +kernel

theorem test_receiptReceived :
    let s := { tracking (.awaiting 25000) 1 with tracker := ⟨some 5, [⟨own, .awaiting 25000, [2, 4], 1, false⟩]⟩ }
    (after (.receiptReceived 9 [own]) (State.alone s)).tracker.entries =
      [⟨own, .secured, [2, 4, 9], 1, false⟩] := by decide +kernel

theorem test_requestReceived :
    (after (.requestReceived 4 7 8 3) { base with index := [(other, ⟨0, 0, 1⟩)] }).gap.answers =
      [⟨other, 1000, false, false⟩] := by decide +kernel

theorem test_recordReceived_is_admitted :
    let s := base.classify otherRecord false
    s.intake = [⟨otherRecord, .bus true, .waiting⟩] ∧ s.originRow 7 = ⟨some ⟨9, 9, [], 0⟩, 0⟩ := by decide +kernel

theorem test_recordReceived_suppresses :
    (after (.recordReceived 7 otherRecord) (State.alone (answering false false))).gap.answers = [] := by decide +kernel

theorem test_repairRecordReceived_of_a_held_key :
    ((answering false false).classify otherRecord true).receipts = [] ∧
    ((answering false false).classify otherRecord false).receipts = [other] := by decide +kernel

theorem test_rollReceived : (after (.rollReceived 4 .active 2 0 20) base).port.events =
    [.peerUp 4 false, .peerDiscord 4 2 0] := by decide +kernel

theorem test_gapEnd : (after .gapEnd { base with line := { base.line with state := .gap, idle := 3 } }).line = base.line := by
  decide +kernel

theorem test_frameStartHeard : (after .frameStartHeard base).line.state = .receiving := by decide +kernel

theorem test_offerPoint : (after .offerPoint { base with receipts := [other] }).line.inFlight =
    some ⟨⟨2, .receipt [other]⟩, .receiptList⟩ := by decide +kernel

theorem test_arbitrationLost : (after .arbitrationLost (State.sending base (.receipt [other]) .receiptList)).line.state =
    .receiving := by decide +kernel

theorem test_transmitFailure_silences :
    let s := State.sending { base with line := { base.line with failureRun := 15 } } (.receipt [other]) .receiptList
    (after (.transmitFailure 4) s).line.silenced = some 100000 ∧
    (after (.transmitFailure 4) s).port.events = [.busSilenced] := by decide +kernel

theorem test_silencedExpiry :
    let s := { base with line := { base.line with failureRun := 16, silenced := some 100000 } }
    (after .silencedExpiry s).line.failureRun = 0 ∧ (after .silencedExpiry s).now = 100000 := by decide +kernel

theorem test_receiptTransmitted :
    (after .receiptTransmitted (State.sending { base with receipts := [other, own] } (.receipt [other]) .receiptList)).receipts
      = [own] := by decide +kernel

theorem test_requestTransmitted :
    let s := { base with gap := { base.gap with slot := .due ⟨7, 5, 2⟩ false } }
    (after .requestTransmitted (State.sending s (.request 7 5 2) .repairSlot)).gap.slot = .sent ⟨7, 5, 2⟩ false := by
  decide +kernel

theorem test_repairRecordTransmitted :
    let s := State.filled (answering true true) (.loaded (.answer other) otherRecord true)
    (after .repairRecordTransmitted (State.alone (State.sending s (.repairRecord otherRecord) (.buffer 0)))).gap.answers = [] := by
  decide +kernel

theorem test_recordTransmitted :
    let s := State.filled (tracking .loaded 0) (.loaded (.tracker own) ownRecord true)
    (after .recordTransmitted (State.alone (State.sending s (.record ownRecord) (.buffer 0)))).tracker.entries =
      [⟨own, .awaiting 25000, [2], 1, false⟩] := by decide +kernel

theorem test_rollTransmitted : (after .rollTransmitted
      (State.sending (State.inState base .joining) (.roll .joining 3 0 0) .controller)).controller.state = .active := by
  decide +kernel

theorem test_holderWindowExpiry :
    ((after (.holderWindowExpiry 4) (State.alone (tracking (.awaiting 25000) 3))).tracker.entries.map TrackerEntry.state
      = [.queued]) ∧
    ((after (.holderWindowExpiry 4) (State.alone (tracking (.awaiting 25000) 4))).tracker.entries.map TrackerEntry.state
      = [.short]) := by decide +kernel

theorem test_rollTimerExpiry :
    (after .rollTimerExpiry { base with controller := { base.controller with rollTimer := some 5 } }).controller.rollDue =
      some .active := by decide +kernel

theorem test_repairTimerExpiry :
    let s := State.hearing { base with gap := { base.gap with
      timer := some 20000, rows := stationSet base.gap.rows 7 ⟨some ⟨4, 30, [(5, 20)], 0⟩, 0⟩ } } 4 (.present 9 none)
    (after .repairTimerExpiry s).gap.slot = .due ⟨7, 5, 8⟩ false ∧ (after .repairTimerExpiry s).gap.timer = some 40000 := by
  decide +kernel

theorem test_answerDue : ((after (.answerDue other) (State.alone (answering false false))).gap.answers.map AnswerEntry.due) =
    [true] := by decide +kernel

theorem test_silenceDeadlineExpiry :
    (after (.silenceDeadlineExpiry 4) (State.hearing base 4 (.present 9 none))).port.events = [.peerDown 4 .silent] := by
  decide +kernel

theorem test_programComplete_pass :
    let t := after (.programComplete (Vector.replicate 4 .pass)) (State.alone passing)
    t.index = [(own, ⟨0, 0, 0⟩)] ∧ t.intake = [] ∧ t.block 0 = .opened 0 none ⟨0, 1, 1⟩ ∧
    t.tracker.entries = [⟨own, .queued, [2], 0, false⟩] := by decide +kernel

/-- Block 0 as an aborted erase can leave it: a slot of its page 0 is not erased. -/
def unerased : State :=
  { passing with flash := [(pageAddress 0 0, { blankPage with slots := blankPage.slots.set 0 (slotOf otherRecord) })] }

/-- R20: a fate that says erased leaves a programmed slot, tag and mark as they were. -/
theorem test_program_erases_nothing :
    let written : PageCells := programPage pass0 none blankPage
    programPage pass0 (some ⟨[⟨.partly .erased, .partly .erased⟩], .partly .erased⟩) written = written ∧
    markFlash (markFlash [] 4 .whole) 4 (.partly .erased) = markFlash [] 4 .whole := by decide +kernel

/-- R73: a pass that meets unerased cells ends FAIL and its block retires, its entry WAITING again. -/
theorem test_programComplete_meets_unerased :
    let t := unerased.programCompletion [pass0] fun _ => .pass
    t.index = [] ∧ t.block 0 = .retired ∧ t.intake.map IntakeEntry.state = [.waiting] ∧ t.flash = unerased.flash ∧
    (readPage (unerased.programCompletion [pass0] fun _ => .pass ⟨[⟨.whole, .whole⟩], .whole⟩).flash 0).header =
      headerOf ⟨0, 2, 4⟩ := by decide +kernel

theorem witness_ProgramCompletionMovesTheBlock_unerased :
    Running unerased (.program [pass0]) ∧ unerased.block pass0.block = .opened 0 (some ⟨0, 2, 4⟩) ⟨0, 0, 0⟩ ∧
    (Vector.replicate 4 PassResult.pass).get (laneOf pass0.block) = .pass ∧ ¬ Blank unerased pass0 ∧
    laneEnds unerased (Vector.replicate 4 .pass) pass0 = .fail {} ∧ Blank passing pass0 := ⟨⟨rfl, rfl⟩, by decide +kernel⟩

theorem test_programComplete_fail :
    let t := after (.programComplete (Vector.replicate 4 (.fail {}))) (State.alone passing)
    t.index = [] ∧ t.block 0 = .retired ∧ t.sequencer.retireMarks = [0] ∧ t.port.events = [.blockRetired 0 0 .program] := by
  decide +kernel

theorem test_eraseComplete :
    let s := (State.running (State.alone base) (.erase [4])).setBlock 4 .erasing
    (after (.eraseComplete (Vector.replicate 4 .pass)) s).block 4 = .free ∧
    (after (.eraseComplete (Vector.replicate 4 (.aborted .untouched))) s).block 4 = .dirty := by decide +kernel

/-- The state with the own record in slot 0 of page 0 of block 0. -/
def State.holding (s : State) : State := { s with flash := programFlash [] pass0 none }

/-- The slot of the own record has changed to these cells. -/
def slotNow (d : SlotData) : PageChange := { slots := (Vector.replicate 8 none).set 0 (some d) }

/-- The own record's slot with another payload, under the check stored, which no longer fits. -/
def spoiltSlot : SlotData :=
  match slotOf ownRecord with
  | .erased => .erased
  | .cells origin seq cls len stamp payload check => .cells origin seq cls len stamp (payload.map fun b => ~~~b) check

theorem test_transmitReadComplete :
    let s := State.running (State.filled (tracking .queued 0) (.reading (.tracker own) true))
      (.transmitRead ⟨0, own, ⟨0, 0, 0⟩⟩)
    (after (.transmitReadComplete {}) (State.alone (State.holding s))).buffer 0 = .loaded (.tracker own) ownRecord true ∧
    (after (.transmitReadComplete {}) (State.alone s)).tracker.entries = [⟨own, .short, [2], 0, true⟩] ∧
    (after (.transmitReadComplete (slotNow spoiltSlot)) (State.alone (State.holding s))).tracker.entries =
      [⟨own, .short, [2], 0, true⟩] := by decide +kernel

theorem test_hostReadComplete :
    let s := State.running (tracking .queued 0) (.hostRead ⟨own, ⟨0, 0, 0⟩⟩)
    (after (.hostReadComplete {}) (State.alone (State.holding s))).port.state = .answered (.found false ownRecord) ∧
    (after (.hostReadComplete {}) (State.alone s)).port.state = .answered (.damaged own) := by decide +kernel

theorem test_evacuationReadComplete :
    let s := State.running (tracking .queued 0) (.evacuationRead ⟨own, ⟨0, 0, 0⟩⟩)
    (after (.evacuationReadComplete {}) (State.alone (State.holding s))).intake =
      [⟨ownRecord, .evacuation ⟨0, 0, 0⟩, .waiting⟩] := by decide +kernel

/-- Cells that have changed stay so and read DAMAGED; a change to erased, to what a check fits, and of erased cells is none. -/
theorem test_cellsChange :
    let s := State.holding base
    let now (d : SlotData) := (s.cellsChange 0 0 (slotNow d)).flash
    slotData (now spoiltSlot) ⟨0, 0, 0⟩ = spoiltSlot ∧ readSlot spoiltSlot own = none ∧ now .erased = s.flash ∧
    now (slotOf otherRecord) = s.flash ∧ now (slotOf { ownRecord with payload := [8] }) = s.flash ∧
    (base.cellsChange 0 0 (slotNow spoiltSlot)).flash = base.flash ∧
    ((s.cellsChange 0 0 { tags := Vector.replicate 8 (some (.cells 2 4 0)) }).scanResult 0 0).slots =
      ⟨.torn, false⟩ :: List.replicate 7 ⟨.erased, true⟩ ∧
    ((s.cellsChange 0 0 { header := some (.cells 0 2 4 0) }).scanResult 0 0).headerValid = false := by decide +kernel

theorem test_retireMarkComplete :
    (after (.retireMarkComplete .pass) (State.running (State.alone base) (.retireMark 4))).flash =
      [(159, { blankPage with mark := markOf 4 })] := by decide +kernel

theorem test_scanReadComplete :
    (after (.scanReadComplete {}) State.reset).sequencer.inFlight = some (.scanRead 0 31) ∧
    (after (.scanReadComplete {}) { State.reset with flash := [(0, { blankPage with factory := true })] }).sequencer.inFlight =
      some (.scanRead 1 0) := by decide +kernel

/-! ### Witnesses: concrete states that meet the hypotheses of each statement, clause by clause -/

theorem witness_ResetsTakeEffect :
    base.nresetLow = false ∧ State.nresetLow { base with nresetLow := true } = true ∧ base.power = true ∧
    Taking (State.collecting base) ∧ (State.collecting base).controller.state ≠ .mounting := by
  refine ⟨rfl, rfl, rfl, ⟨rfl, rfl⟩, by decide⟩

theorem witness_ResetConditionsStopTheStation :
    passing.sequencer.inFlight = some (.program [pass0]) ∧ base.nresetLow = false ∧ base.power = true ∧ State.held { base with power := false } = true ∧
    State.held { base with nresetLow := true } = true ∧ actsWhileHeld .get = false := by decide +kernel

theorem witness_ProtectFollowsTheInputAndAborts :
    base.sequencer.protect = false ∧ base.abortable = false ∧ (State.setProtect base true).sequencer.protect = true ∧
    Running passing (.program [pass0]) ∧ passing.sequencer.protect = false ∧
    passing.block pass0.block = .opened 0 (some ⟨0, 2, 4⟩) ⟨0, 0, 0⟩ := by
  refine ⟨rfl, rfl, rfl, ⟨rfl, rfl⟩, rfl, by decide +kernel⟩

/-- A ganged pass on blocks 0 and 1 at page 31, a ganged erase of an ERASING and a DIRTY block, and a retire mark. -/
theorem witness_ProtectFollowsTheInputAndAborts_gangs :
    let second : PassLane := ⟨1, 31, 2, [otherRecord], none⟩
    let ganged := State.setBlock (State.setBlock (State.running base (.program [pass0, second])) 0
      (.opened 0 (some ⟨0, 2, 4⟩) ⟨0, 0, 0⟩)) 1 (.opened 1 none ⟨31, 2, 1⟩)
    let erasing := State.setBlock (State.setBlock (State.running base (.erase [4, 255])) 4 .erasing) 255 .dirty
    let marking := State.running base (.retireMark 4)
    Running ganged (.program [pass0, second]) ∧ ganged.sequencer.protect = false ∧
    ([pass0, second].map fun p => laneOf p.block).Nodup ∧
    (∀ p ∈ [pass0, second], ∃ chain h w, ganged.block p.block = .opened chain h w) ∧
    Running erasing (.erase [4, 255]) ∧ erasing.sequencer.protect = false ∧ ([4, 255] : List BlockId) ≠ [] ∧
    (([4, 255] : List BlockId).map laneOf).Nodup ∧
    (∀ b ∈ ([4, 255] : List BlockId), erasing.block b = .erasing ∨ erasing.block b = .dirty) ∧
    Running marking (.retireMark 4) ∧ marking.sequencer.protect = false := by
  refine ⟨⟨rfl, rfl⟩, rfl, by decide, ?_, ⟨rfl, rfl⟩, rfl, by decide, by decide, by decide +kernel, ⟨rfl, rfl⟩, rfl⟩
  intro p hp
  rcases List.mem_cons.mp hp with rfl | hp
  · exact ⟨0, some ⟨0, 2, 4⟩, ⟨0, 0, 0⟩, by decide +kernel⟩
  · obtain rfl := List.mem_singleton.mp hp
    exact ⟨1, none, ⟨31, 2, 1⟩, by decide +kernel⟩

/-- A STATUS with every field present, its lanes FREE 0 to 3 in the four conditions, PROT asserted and SILENCED. -/
def fullStatus : StatusFields :=
  ⟨.active, some ⟨2, 3, 1, 0, some 258⟩, some 77, 1, 2, 3, 4, 5,
    [(0, .openAvailable), (1, .needsBlock), (2, .full), (3, .dead)], 256, true, true, 65535, 772⟩

theorem test_status_bytes :
    responseBytes (.status fullStatus) = [0x88, 32, 4, 0x3F, 2, 3, 1, 0, 0, 1, 2, 0, 0, 0, 77, 1, 2, 3, 4, 5,
      0, 0, 1, 1, 2, 2, 3, 3, 1, 0, 0xFF, 0xFF, 3, 4] := by decide +kernel

theorem test_roster_and_mounted_bytes :
    responseBytes (.roster [(1, .absent), (3, .discordant 9 (some ⟨.leaving, 2, 1, 515⟩))]) =
      [0x89, 17, 2, 1, 0, 0, 0, 0, 0, 0, 0, 3, 2, 5, 2, 1, 0, 2, 3] ∧
    eventBytes (.mounted .idle 65536 ⟨1, 2, 3, 4, 5, 6, 7⟩) =
      [0x01, 19, 1, 1, 0, 0, 0, 1, 0, 2, 0, 3, 0, 4, 0, 5, 0, 6, 0, 0, 7] := by decide +kernel

theorem witness_GetGivesTheResponseOnce_status :
    fullStatus.lanes.length = 4 ∧ { fullStatus with lanes := [], config := none }.lanes = [] ∧
    { fullStatus with lanes := [], config := none }.config = none ∧ fullStatus.config = some ⟨2, 3, 1, 0, some 258⟩ ∧
    fullStatus.lanes[3]? = some (3, .dead) ∧
    ([.badState, .badParam, .noSpace, .tooLong, .protectedArray, .seqExhausted, .trackerFull, .stagingFull,
      .nothing, .notReady, .malformed] : List RefusalName)[10]? = some .malformed := by decide +kernel

theorem witness_GetGivesTheResponseOnce :
    base.held = false ∧ (base.respond .done).port.state = .answered .done ∧ ∀ r, base.port.state ≠ .answered r :=
  ⟨rfl, rfl, fun _ => nofun⟩

theorem witness_EventGivesTheOldestAndClearsTheMarker :
    (base.post .joined).held = false ∧ (base.post .joined).port.events = [.joined] ∧ base.held = false ∧
    base.port.events = [] := by decide +kernel

theorem witness_OtherTransactions :
    base.held = false ∧ base.port.state = .idle ∧ (State.collecting base).port.state ≠ .idle ∧
    (0x00 : Byte) ∉ ([0x01, 0x02, 0x03, 0x04] : List Byte) ∧ (0x05 : Byte) ∉ ([0x01, 0x02, 0x03, 0x04] : List Byte) ∧
    (after .put base).port.miso[0]? = some 0x0A ∧ (after .put base).port.miso.length ≤ 1 := by decide +kernel

/-- The event list one short of full, and full. -/
def events (n : Nat) : State := { base with port := { base.port with events := List.replicate n .joined } }

theorem witness_PostingAndAttn :
    (events 31).port.events.length < 32 ∧ 32 ≤ (events 32).port.events.length ∧ base.held = false := by decide +kernel

theorem test_requests_by_code :
    ([0x10, 0x20, 0x30, 0x42, 0x43] : List Byte).map (fun code => requestOf {} [code]) =
      [.configure [], .submit [], .readRecord [], .originRow [], .unknownRequest [0x43]] := by decide +kernel

theorem witness_ThePortRefusesRequests :
    Taking (State.collecting base) ∧ (0x14 : Byte) ∉ requestCodes ∧
    ([2, 3, 0] : List Byte).length ≠ 4 ∧ ([2, 3, 0] : List Byte).length ≠ 7 ∧ ([0] : List Byte) ≠ [] ∧
    (List.replicate 4 (0 : Byte)).length < 5 ∧ 260 < (List.replicate 261 (0 : Byte)).length ∧ 3 < (4 : Byte).toNat ∧
    ([2, 0, 0] : List Byte).length ≠ 4 ∧ ([] : List Byte).length ≠ 1 :=
  ⟨⟨rfl, rfl⟩, by decide +kernel⟩

theorem witness_ThePortRefusesRequests_mounting :
    Taking (State.collecting State.reset) ∧ (State.collecting State.reset).controller.state = .mounting ∧
    (List.replicate 4 (0 : Byte)).length = 4 ∧ (List.replicate 7 (0 : Byte)).length = 7 ∧ (3 : Byte).toNat ≤ 3 ∧
    4 ≤ (List.replicate 4 (0 : Byte)).length ∧ (List.replicate 259 (0 : Byte)).length ≤ 259 :=
  ⟨⟨rfl, rfl⟩, by decide +kernel⟩

theorem witness_TakeOutcomeReportsTheOldestDone :
    let two : State := { tracking .queued 0 with
      tracker := ⟨some 6, [entry .queued 0, { entry .secured 1 with key := ⟨2, 5⟩ }]⟩ }
    Taking (State.collecting two) ∧ two.controller.state ≠ .mounting ∧
    (∀ e ∈ (tracking .queued 0).tracker.entries, e.state ≠ .secured ∧ e.state ≠ .short) ∧
    two.tracker.entries = [entry .queued 0] ++ { entry .secured 1 with key := ⟨2, 5⟩ } :: [] ∧
    (∀ x ∈ [entry .queued 0], x.state ≠ .secured ∧ x.state ≠ .short) ∧
    (tracking .short 4).tracker.entries = [] ++ entry .short 4 :: [] :=
  ⟨⟨rfl, rfl⟩, by decide +kernel⟩

theorem witness_ReadRecordLooksInTheQueueFirst :
    let staged := State.collecting { base with intake := [⟨ownRecord, .localHost, .waiting⟩] }
    Taking staged ∧ staged.controller.state ≠ .mounting ∧
    staged.intake = [] ++ ⟨ownRecord, .localHost, .waiting⟩ :: [] ∧ ownRecord.key = ⟨2, beNat [0, 0, 4]⟩ ∧
    (tracking .queued 0).locate ⟨2, beNat [0, 0, 4]⟩ = some ⟨0, 0, 0⟩ ∧ base.locate ⟨30, beNat [255, 255, 255]⟩ = none ∧
    ¬ (1 ≤ (0 : Byte).toNat) ∧ ¬ ((31 : Byte).toNat ≤ 30) ∧ ¬ (1 ≤ beNat [0, 0, 0]) ∧ beNat [255, 255, 255] ≤ 16777215 :=
  ⟨⟨rfl, rfl⟩, by decide +kernel⟩

theorem witness_FindNextGivesTheSmallest :
    let s := State.collecting { base with
      index := [(⟨1, 4⟩, ⟨0, 0, 0⟩)], intake := [⟨⟨⟨30, 16777215⟩, 0, 0, [1]⟩, .bus true, .waiting⟩] }
    Taking s ∧ s.controller.state ≠ .mounting ∧ (⟨1, 4⟩, (⟨0, 0, 0⟩ : Loc)) ∈ s.index ∧ beNat [0, 0, 3] < 4 ∧
    (∃ e ∈ s.intake, e.record.key = ⟨30, 16777215⟩) ∧ (0 : Byte).toNat < 1 ∧ 30 < (31 : Byte).toNat ∧
    (∀ e ∈ base.index, e.1.origin ≠ 1) ∧ base.intake = [] :=
  ⟨⟨rfl, rfl⟩, by decide +kernel⟩

theorem witness_StatusReportsTheStation :
    Taking (State.collecting base) ∧ base.controller.state ≠ .mounting ∧ Taking (State.collecting State.reset) ∧
    State.reset.controller.state = .mounting :=
  ⟨⟨rfl, rfl⟩, by decide, ⟨rfl, rfl⟩, rfl⟩

theorem witness_RosterAndOriginRowReport :
    Taking (State.collecting base) ∧ base.controller.state ≠ .mounting ∧ base.controller.config = some conf ∧
    1 ≤ conf.stationId ∧ conf.stationId ≤ 30 ∧
    State.controller { base with controller := Controller.reset none } = Controller.reset none ∧
    1 ≤ (1 : Byte).toNat ∧ (30 : Byte).toNat ≤ 30 ∧ (0 : Byte).toNat < 1 ∧ 30 < (31 : Byte).toNat :=
  ⟨⟨rfl, rfl⟩, by decide, rfl, by decide, by decide, rfl, by decide, by decide, by decide, by decide⟩

theorem witness_ConfigureStoresTheConfiguration :
    Taking (State.collecting (State.inState base .idle)) ∧ parseConfigure [2, 3, 0, 1] = some conf ∧
    (State.inState base .idle).controller.state = .idle ∧ base.controller.state ≠ .idle ∧
    configurationInRange conf = true ∧ configurationInRange ⟨30, 8, 3, 2, some 16777215⟩ = true ∧
    configurationInRange ⟨31, 8, 3, 2, none⟩ = false ∧ configurationInRange ⟨1, 9, 0, 0, none⟩ = false ∧
    configurationInRange ⟨1, 1, 4, 0, none⟩ = false ∧ configurationInRange ⟨1, 1, 0, 3, none⟩ = false ∧
    configurationInRange ⟨1, 1, 0, 0, some 0⟩ = false ∧ configurationInRange ⟨1, 1, 0, 0, some 1⟩ = true :=
  ⟨⟨rfl, rfl⟩, by decide +kernel⟩

theorem witness_JoinAndLeave :
    Taking (State.collecting base) ∧ base.controller.state = .active ∧ (State.inState base .ready).controller.state = .ready ∧
    base.drained = true ∧ (tracking .queued 0).drained = false := ⟨⟨rfl, rfl⟩, by decide +kernel⟩

theorem witness_RollSilenceAndAnswerTimersExpire :
    let timed : State := { base with controller := { base.controller with rollTimer := some 5 } }
    let due : State := { timed with controller := { timed.controller with state := .leaving, rollDue := some .leaving } }
    timed.held = false ∧ timed.controller.rollTimer = some 5 ∧ timed.controller.rollDue ≠ some .leaving ∧
    (State.inState timed .joining).controller.state = .joining ∧ due.controller.rollDue = some .leaving ∧
    (State.hearing base 30 (.present 9 none)).rosterRow 30 = .present 9 none ∧
    (State.hearing base 1 (.discordant 9 none)).rosterRow 1 = .discordant 9 none := by decide +kernel

/-- Base in a state with a roll due, its ROLL on the line. -/
def rolling (st : StationState) (due : RollState) (carried : RollState) : State :=
  State.sending { base with controller := { base.controller with state := st, rollDue := some due } }
    (.roll carried 3 0 0) .controller

theorem witness_RollTransmittedActsOnTheState :
    ∀ s ∈ [rolling .joining .joining .joining, rolling .active .active .active, rolling .leaving .active .active,
      rolling .leaving .leaving .active, rolling .leaving .leaving .leaving, rolling .halted .leaving .leaving,
      rolling .halted .leaving .active], s.held = false ∧ s.line.state = .sending ∧
      s.line.inFlight.isSome ∧ s.controller.rollDue.isSome := by decide +kernel

theorem witness_SubmitIsRefusedInOrder :
    let s := State.collecting base
    Taking s ∧ (3 : Byte).toNat ≤ 3 ∧ (List.replicate 255 (0 : Byte)).length ≤ 255 ∧ s.controller.state = .active ∧
    (State.inState s .halted).controller.state = .halted ∧ ([] : List Byte).length = 0 ∧
    240 < (List.replicate 241 (0 : Byte)).length ∧ (State.setProtect s true).sequencer.protect = true ∧
    s.condition 0 = .needsBlock ∧ s.tracker.nextSeq = some 5 ∧ s.sequencer.protect = false :=
  ⟨⟨rfl, rfl⟩, by decide +kernel⟩

theorem witness_SubmitIsRefusedInOrder_full :
    let full : State := { base with map := { base.map with blocks := Vector.replicate 256 (.sealed 1) } }
    let last : State := { base with tracker := ⟨some 16777216, []⟩ }
    let tracked : State := { base with tracker := ⟨some 16777215, List.replicate 16 (entry .short 4)⟩ }
    let queued : State := { base with intake := List.replicate 20 ⟨ownRecord, .bus true, .waiting⟩ }
    (∀ l, full.condition l = .full ∨ full.condition l = .dead) ∧ last.tracker.nextSeq = some 16777216 ∧
    16 ≤ tracked.tracker.entries.length ∧ 20 ≤ queued.sharedEntries := by decide +kernel

theorem witness_SubmitIsAccepted : Submitting (State.collecting base) 240 5 conf where
  taking := ⟨rfl, rfl⟩
  config := rfl
  active := rfl
  payload := by decide
  unprotected := rfl
  lane := ⟨0, Or.inr (by decide +kernel)⟩
  nextSeq := rfl
  range := by decide
  tracker := by decide
  room := by decide +kernel

theorem witness_FramesThatReachNoBlock :
    Reading base ∧ judge [0x24, 0, 0, 0] = .rejected .crc ∧
    judge (let f : List Byte := [0xC4, 0]; f ++ beBytes 2 (crc16 f).toNat) = .rejected .kind ∧
    judge (let f : List Byte := [0x20, 0]; f ++ beBytes 2 (crc16 f).toNat) = .rejected .sender ∧
    judge (let f : List Byte := [0x24, 4, 0, 0, 0, 0]; f ++ beBytes 2 (crc16 f).toNat) = .rejected .length ∧
    judge (let f : List Byte := [0x24, 5, 2, 2, 0, 0, 4]; f ++ beBytes 2 (crc16 f).toNat) = .rejected .field :=
  ⟨⟨rfl, nofun, nofun⟩, by decide +kernel⟩

/-- One frame of each kind under a sender's ID. -/
def framesOf (sender : Nat) : List Frame :=
  [⟨sender, .receipt [own]⟩, ⟨sender, .request 7 5 8⟩, ⟨sender, .repairRecord otherRecord⟩,
    ⟨sender, .record ⟨⟨sender, 16777215⟩, 3, 0, [1]⟩⟩, ⟨sender, .roll .active 3 0 16777215⟩,
    ⟨sender, .roll .leaving 3 0 0⟩, ⟨sender, .roll .joining 8 3 1⟩]

theorem witness_FramesThatReachNoBlock_own :
    Reading base ∧ ∀ f ∈ framesOf 2, frameInRange f = true ∧ f.sender = base.ownId :=
  ⟨⟨rfl, nofun, nofun⟩, by decide +kernel⟩

theorem witness_FramesKeepTheRoster :
    Reading base ∧ base.controller.config = some conf ∧ (∀ id ∈ [1, 30], ∀ f ∈ framesOf id,
      frameInRange f = true ∧ f.sender ≠ conf.stationId) ∧
    base.rosterRow 1 = .absent ∧ (State.hearing base 1 (.present 9 none)).rosterRow 1 = .present 9 none ∧
    (State.hearing base 30 (.discordant 9 none)).rosterRow 30 = .discordant 9 none :=
  ⟨⟨rfl, nofun, nofun⟩, rfl, by decide +kernel⟩

/-- A tracker of one entry keeps its law. -/
theorem trackerLaw_tracking (st : TrackerState) (attempts : Nat) (h : st ≠ .secured) (h' : st ≠ .staged)
    (ha : attempts < 4) : TrackerLaw (tracking st attempts) where
  target := Nat.le_of_ble_eq_true rfl
  entries := by
    intro e he
    obtain rfl : e = entry st attempts := by simpa [tracking] using he
    exact ⟨rfl, ⟨5, rfl, Nat.le_of_ble_eq_true rfl⟩, by simp [entry],
      ⟨fun hs => absurd hs h, fun hk => absurd hk (Nat.not_le_of_gt (Nat.le_of_ble_eq_true rfl))⟩,
      fun hs => absurd hs h', Nat.le_of_lt ha, fun _ => ha⟩
  rising := by simp [tracking]
  started := fun hs => by rcases hs with hs | hs <;> cases hs

theorem witness_ReceiptsAreCounted :
    Reading (tracking .queued 0) ∧ frameInRange ⟨4, .receipt [own, own, other]⟩ = true ∧ (4 : Nat) ≠ conf.stationId ∧
    (tracking .queued 0).controller.config = some conf ∧ TrackerLaw (tracking .queued 0) ∧
    (State.hearing (tracking .queued 0) 4 (.discordant 9 none)).rosterRow 4 = .discordant 9 none ∧
    ∀ d last, (tracking .queued 0).rosterRow 4 ≠ .discordant d last :=
  ⟨⟨rfl, nofun, nofun⟩, by decide +kernel, by decide, rfl,
    trackerLaw_tracking _ _ (by decide) (by decide) (by decide), by decide +kernel, fun _ _ => nofun⟩

/-- Two entries secured by one frame: the outcomes stand in the order of its keys, and a LOADED buffer is released. -/
theorem test_receipt_secures_in_the_order_of_its_keys :
    let s : State := State.filled { base with tracker := ⟨some 5,
      [⟨⟨2, 3⟩, .awaiting 9, [2, 4], 1, false⟩, ⟨own, .loaded, [2, 4], 0, false⟩]⟩ } (.loaded (.tracker own) ownRecord true)
    (s.countReceipts 9 [own, own, ⟨2, 3⟩]).port.events = [.outcome 4 true 3, .outcome 3 true 3] ∧
    (s.countReceipts 9 [own, own, ⟨2, 3⟩]).buffer 0 = .empty := by decide +kernel

/-- R133: a receipt counted while the frame of its LOADED entry is on the line. The entry is SECURED, the frame goes on, and its
transmission then changes nothing in the entry (R130). -/
theorem test_receipt_secures_an_entry_on_the_line :
    let s : State := State.sending (State.filled { base with tracker := ⟨some 5, [⟨own, .loaded, [2, 4], 0, false⟩]⟩ }
      (.loaded (.tracker own) ownRecord true)) (.record ownRecord) (.buffer 0)
    let t := after (.receiptReceived 9 [own]) (State.alone s)
    Reading s ∧ t.tracker.entries = [⟨own, .secured, [2, 4, 9], 0, false⟩] ∧ t.line = s.line ∧
    t.buffer 0 = .loaded (.tracker own) ownRecord false ∧
    (after .recordTransmitted t).tracker.entries = t.tracker.entries ∧ (after .recordTransmitted t).buffer 0 = .empty :=
  ⟨⟨rfl, nofun, nofun⟩, by decide +kernel⟩

/-- A station that drives a frame hears others: a rejected one is counted, its own answer's RECORD suppresses nothing. -/
theorem test_frames_heard_while_sending :
    let s := State.sending base (.receipt [other]) .receiptList
    let a := State.sending (State.filled (answering true true) (.loaded (.answer other) otherRecord true))
      (.repairRecord otherRecord) (.buffer 0)
    let t := after (.frameRejected (.faulted [0x24] .stopDominant)) s
    t.line = { s.line with rejectedTotal := 1 } ∧
    (after (.repairRecordReceived 4 otherRecord) (State.alone a)).gap.answers = a.gap.answers ∧ a.gap.answers ≠ [] ∧
    (after (.rollReceived 4 .active 3 0 7) s).line = s.line ∧
    (after (.rollReceived 4 .active 3 0 7) s).port.events = [.peerUp 4 false] := by decide +kernel

theorem witness_RecordsAreClassified_drivesAnswer :
    let a := State.sending (State.filled (answering true true) (.loaded (.answer other) otherRecord true))
      (.repairRecord otherRecord) (.buffer 0)
    Reading a ∧ a.drivesAnswer other := ⟨⟨rfl, nofun, nofun⟩, _, _, rfl, by decide +kernel⟩

theorem witness_RequestsMakeAnswers :
    Reading base ∧ frameInRange ⟨4, .request 7 16777208 8⟩ = true ∧ frameInRange ⟨4, .request 30 1 1⟩ = true ∧
    base.controller.config = some conf ∧ (4 : Nat) ≠ conf.stationId :=
  ⟨⟨rfl, nofun, nofun⟩, by decide +kernel, by decide +kernel, rfl, by decide⟩

theorem witness_RecordsAreClassified :
    let held : State := { base with index := [(other, ⟨0, 0, 1⟩)] }
    let queued : State := { base with intake := [⟨otherRecord, .bus false, .waiting⟩] }
    let known (h : Nat) : State := { base with gap := { base.gap with
      rows := stationSet base.gap.rows 7 ⟨some ⟨h, 20, [(h + 1, 20)], 0⟩, 0⟩ } }
    let full : State := { base with intake := List.replicate 20 ⟨ownRecord, .bus true, .waiting⟩ }
    Reading base ∧ base.controller.config = some conf ∧
    frameInRange ⟨7, .record otherRecord⟩ = true ∧ frameInRange ⟨4, .repairRecord otherRecord⟩ = true ∧
    (State.inState base .ready).controller.state = .ready ∧ frameInRange ⟨4, .repairRecord ownRecord⟩ = true ∧
    held.locate other = some ⟨0, 0, 1⟩ ∧ (∃ e ∈ queued.intake, e.record.key = other) ∧ base.locate other = none ∧
    ((known 9).originRow 7).tracked = some ⟨9, 20, [(10, 20)], 0⟩ ∧
    ((known 8).originRow 7).tracked = some ⟨8, 20, [(9, 20)], 0⟩ ∧
    20 ≤ full.sharedEntries ∧ (∀ e ∈ full.intake, e.record.key ≠ other) ∧ base.sharedEntries < 20 ∧
    base.sequencer.protect = false ∧ base.rosterRow 7 = .absent ∧
    (arrive ⟨4, 30, [(5, 9), (11, 11), (20, 22), (30, 30)], 2⟩ 0 7).abandoned = some (5, 6) ∧
    (extendTo ⟨4, 31, [(5, 9), (11, 11), (20, 22), (30, 30)], 2⟩ 0 33).abandoned = some (5, 9) :=
  ⟨⟨rfl, nofun, nofun⟩, by decide +kernel⟩

theorem witness_RollsExtendTheRow :
    let tracked : State := { base with gap := { base.gap with rows := stationSet base.gap.rows 4 ⟨some ⟨9, 9, [], 0⟩, 0⟩ } }
    Reading base ∧ frameInRange ⟨4, .roll .active 3 0 16777215⟩ = true ∧ frameInRange ⟨4, .roll .leaving 3 0 0⟩ = true ∧
    base.controller.config = some conf ∧ (4 : Nat) ≠ conf.stationId ∧ (base.originRow 4).tracked = none ∧
    (tracked.originRow 4).tracked = some ⟨9, 9, [], 0⟩ ∧ (extendTo ⟨9, 9, [], 0⟩ 0 20).abandoned = none ∧
    (extendTo ⟨4, 31, [(5, 9), (11, 11), (20, 22), (30, 30)], 2⟩ 0 16777215).abandoned = some (5, 9) :=
  ⟨⟨rfl, nofun, nofun⟩, by decide +kernel⟩

/-- A row with four ranges, the first of them 5 to 9. -/
def fullRow : TrackedRow := ⟨4, 30, [(5, 9), (11, 11), (20, 22), (30, 30)], 2⟩

theorem fullRow_law : fullRow.Law := by
  refine ⟨by decide, ?_, by decide, by decide, rfl, by decide⟩
  simp [fullRow, gapsAbove]

/-- The clauses of the row statement all arise: a plain arrival, one that splits into a fifth range, one above it all, and
an extension that gives up the lowest range. -/
theorem witness_RowsTakeArrivalsAndKnownSeqs :
    fullRow.Law ∧ fullRow.horizon < 11 ∧ (arrive fullRow 0 11).abandoned = none ∧
    (arrive fullRow 0 7).abandoned = some (5, 6) ∧ (arrive fullRow 0 31).abandoned = none ∧
    (arrive fullRow 0 33).abandoned = none ∧ (extendTo fullRow 0 31).abandoned = none ∧
    (extendTo { fullRow with topSeen := 31 } 65535 33).abandoned = some (5, 9) ∧ (extendTo fullRow 0 30).abandoned = none :=
  ⟨fullRow_law, by decide +kernel⟩

/-- The arbitration byte 0x22 of a RECEIPT of station 2 on TXD: start bit, 0010 0010 with 1 recessive, stop bit. -/
theorem test_txd_of_the_first_byte :
    ((List.range 10).map (State.sending base (.receipt [other]) .receiptList).txd) =
      [.dominant, .dominant, .dominant, .recessive, .dominant, .dominant, .dominant, .recessive, .dominant, .recessive] := by
  decide +kernel

theorem witness_GapsAndFrameStarts_driving :
    Driving (State.sending base (.receipt [other]) .receiptList) ⟨⟨2, .receipt [other]⟩, .receiptList⟩ ∧
    (frameBytes ⟨2, .receipt [other]⟩)[8]? = some (BitVec.ofNat 8 (crc16 (frameFront ⟨2, .receipt [other]⟩)).toNat) :=
  ⟨⟨rfl, rfl, rfl⟩, by decide +kernel⟩

theorem witness_GapsAndFrameStarts :
    ∀ st ∈ [LineState.off, .seeking, .gap, .quiet, .receiving, .sending],
      State.held { base with line := { base.line with state := st } } = false := by decide +kernel

theorem witness_OfferPointsFollowTheOrder :
    let due : State := State.hearing { base with gap := { base.gap with slot := .due ⟨7, 5, 8⟩ false } } 4 (.present 9 none)
    let answer : State := State.filled (answering true true) (.loaded (.answer other) otherRecord true)
    let record : State := State.filled (tracking .loaded 0) (.loaded (.tracker own) ownRecord true)
    let roll : State := { base with controller := { base.controller with rollDue := some .active } }
    let silenced : State := { base with line := { base.line with silenced := some 5, failureRun := 16 } }
    base.held = false ∧ base.line.state = .quiet ∧ silenced.line.silenced.isSome ∧ base.line.silenced = none ∧
    State.receipts { base with receipts := [other] } ≠ [] ∧ due.gap.slot = .due ⟨7, 5, 8⟩ false ∧ due.somePresent = true ∧
    answer.buffer 0 = .loaded (.answer other) otherRecord true ∧ answer.buffer 1 = .empty ∧
    answer.gap.answers = [] ++ ⟨other, 1000, true, true⟩ :: [] ∧ answer.receipts = [] ∧ answer.gap.slot = .empty ∧
    record.buffer 0 = .loaded (.tracker own) ownRecord true ∧ record.buffer 1 = .empty ∧
    roll.controller.rollDue = some .active ∧ roll.controller.config = some conf ∧ roll.buffer 0 = .empty ∧
    roll.buffer 1 = .empty ∧ roll.index = [] ∧ base.controller.rollDue = none := by decide +kernel

theorem witness_LostAndFailedFrames :
    let s := State.sending base (.receipt [other]) .receiptList
    let orphan := State.sending (State.filled base (.loaded (.tracker own) ownRecord false)) (.record ownRecord) (.buffer 0)
    Driving s ⟨⟨2, .receipt [other]⟩, .receiptList⟩ ∧ (∀ i, ¬ Orphaned s ⟨⟨2, .receipt [other]⟩, .receiptList⟩ i) ∧
    Driving orphan ⟨⟨2, .record ownRecord⟩, .buffer 0⟩ ∧ Orphaned orphan ⟨⟨2, .record ownRecord⟩, .buffer 0⟩ 0 := by
  refine ⟨⟨rfl, rfl, rfl⟩, ?_, ⟨rfl, rfl, rfl⟩, rfl, .tracker own, ownRecord, by decide +kernel⟩
  intro i h
  cases h.1

theorem witness_LostAndFailedFrames_failed :
    let s (run : Nat) := State.sending { base with line := { base.line with failureRun := run } } (.receipt [other]) .receiptList
    Driving (s 14) ⟨⟨2, .receipt [other]⟩, .receiptList⟩ ∧ (s 14).line.failureRun < 15 ∧
    Driving (s 15) ⟨⟨2, .receipt [other]⟩, .receiptList⟩ ∧ ¬ (s 15).line.failureRun < 15 ∧
    (State.line { base with line := { base.line with silenced := some 5 } }).silenced = some 5 :=
  ⟨⟨rfl, rfl, rfl⟩, by decide, ⟨rfl, rfl, rfl⟩, by decide, rfl⟩

theorem witness_ReceiptAndRequestTransmitted :
    Driving (State.sending base (.receipt [other]) .receiptList) ⟨⟨2, .receipt [other]⟩, .receiptList⟩ ∧
    Driving (State.sending base (.request 7 5 8) .repairSlot) ⟨⟨2, .request 7 5 8⟩, .repairSlot⟩ :=
  ⟨⟨rfl, rfl, rfl⟩, rfl, rfl, rfl⟩

theorem witness_RecordTransmittedReachesItsOwner :
    let s (o : BufferOwner) (claimed : Bool) :=
      State.sending (State.filled base (.loaded o ownRecord claimed)) (.record ownRecord) (.buffer 0)
    let a := State.sending (State.filled (answering true true) (.loaded (.answer other) otherRecord true))
      (.repairRecord otherRecord) (.buffer 0)
    (∀ o ∈ [BufferOwner.tracker own, .sendOnce own], ∀ c ∈ [true, false],
      Driving (s o c) ⟨⟨2, .record ownRecord⟩, .buffer 0⟩ ∧ (s o c).buffer 0 = .loaded o ownRecord c) ∧
    Driving a ⟨⟨2, .repairRecord otherRecord⟩, .buffer 0⟩ ∧ a.buffer 0 = .loaded (.answer other) otherRecord true ∧
    ∀ j : BufferNo, j ≠ 0 → (a.buffer j).endClaim (.answer other) false = a.buffer j := by
  refine ⟨?_, ⟨rfl, rfl, rfl⟩, by decide +kernel, by decide +kernel⟩
  intro o ho c _
  refine ⟨⟨rfl, rfl, rfl⟩, ?_⟩
  rcases List.mem_cons.mp ho with rfl | ho
  · rfl
  · rw [List.mem_singleton.mp ho]
    rfl

theorem witness_HolderWindowExpires :
    ∀ n ∈ [3, 4], (tracking (.awaiting 9) n).held = false ∧ (tracking (.awaiting 9) n).controller.config = some conf ∧
      (tracking (.awaiting 9) n).entry ⟨conf.stationId, 4⟩ = some (entry (.awaiting 9) n) := by decide +kernel

theorem witness_RepairTimerJudgesAndChooses :
    let s (attempts first : Nat) (progress : Bool) : State := State.hearing { base with gap := { base.gap with
      timer := some 5, slot := .sent ⟨7, first, 8⟩ progress
      rows := stationSet base.gap.rows 7 ⟨some ⟨4, 30, [(5, 9), (11, 30)], attempts⟩, 0⟩ } } 4 (.present 9 none)
    (∀ a ∈ [0, 1, 2], ∀ f ∈ [5, 9, 10], ∀ p ∈ [true, false],
      (s a f p).held = false ∧ (s a f p).gap.timer = some 5 ∧ (s a f p).gap.slot = .sent ⟨7, f, 8⟩ p ∧
      (s a f p).somePresent = true ∧ ((s a f p).originRow 7).tracked = some ⟨4, 30, [(5, 9), (11, 30)], a⟩) ∧
    base.somePresent = false ∧ base.gap.slot = .empty := by decide +kernel

theorem witness_RollSilenceAndAnswerTimersExpire_answers :
    (answering false false).held = false ∧ (answering false false).answer other = some ⟨other, 1000, false, false⟩ := by
  decide +kernel

theorem witness_ProgramCompletionSettlesTheEntries :
    Running passing (.program [pass0]) ∧ ([pass0].map fun p => laneOf p.block).Nodup := ⟨⟨rfl, rfl⟩, by decide⟩

/-- A gang in flight: the own record to the header pass of block 0, and a key evacuated from the RETIRING block 8, where
it stands alone or beside another key, to block 1. -/
def pass1 : PassLane := ⟨1, 31, 7, [otherRecord], none⟩

def ganging (alone : Bool) : State :=
  let s := { passing with
    sequencer := { passing.sequencer with inFlight := some (.program [pass0, pass1]) }
    intake := [⟨ownRecord, .localHost, .inPass ⟨0, 0, 0⟩⟩, ⟨otherRecord, .evacuation ⟨8, 3, 2⟩, .inPass ⟨1, 31, 7⟩⟩]
    index := (other, ⟨8, 3, 2⟩) :: if alone then [] else [(⟨9, 1⟩, ⟨8, 3, 3⟩)] }
  (s.setBlock 1 (.opened 6 none ⟨31, 7, 3⟩)).setBlock 8 (.retiring 4)

/-- Lanes 0 and 1 end so. -/
def endings (a b : PassResult) : Vector PassResult 4 := ⟨#[a, b, .pass, .pass], rfl⟩

theorem witness_ProgramCompletionMovesTheBlock :
    let done (r : Vector PassResult 4) := (ganging true).programCompletion [pass0, pass1] fun l => r.get l
    Running (ganging true) (.program [pass0, pass1]) ∧ ([pass0, pass1].map fun p => laneOf p.block).Nodup ∧
    (ganging true).block 0 = .opened 0 (some ⟨0, 2, 4⟩) ⟨0, 0, 0⟩ ∧ (ganging true).block 1 = .opened 6 none ⟨31, 7, 3⟩ ∧
    (done (endings .pass .pass)).index = [(own, ⟨0, 0, 0⟩), (other, ⟨1, 31, 7⟩)] ∧
    (done (endings .pass .pass)).block 0 = .opened 0 none ⟨0, 1, 1⟩ ∧ (done (endings .pass .pass)).block 1 = .sealed 6 ∧
    (done (endings .pass .pass)).block 8 = .retired ∧ (done (endings .pass .pass)).sequencer.retireMarks = [8] ∧
    (done (endings (.fail {}) (.aborted {}))).index = [(other, ⟨8, 3, 2⟩)] ∧
    (done (endings (.fail {}) (.aborted {}))).block 0 = .retired ∧
    (done (endings (.fail {}) (.aborted {}))).block 1 = .sealed 6 ∧
    (done (endings (.aborted {}) .pass)).block 0 = .sealed 0 ∧ (ganging true).block 5 = .free ∧
    ((ganging false).programCompletion [pass0, pass1] fun _ => .pass).block 8 = .retiring 4 ∧
    (((ganging true).indexPut ⟨9, 1⟩ ⟨0, 0, 0⟩).programCompletion [pass0] fun _ => .fail {}).map.evacuator.current = some 0 :=
  ⟨⟨rfl, rfl⟩, by decide, by decide +kernel⟩

theorem witness_ProgramCompletionMovesTheBlock_lawful :
    ((ganging true).intake.map fun e => e.record.key).Nodup ∧
    (∀ e ∈ (ganging true).intake, (∀ former, e.source ≠ .evacuation former) →
      (ganging true).locate e.record.key = none) ∧
    (ganging true).isRetiring 8 ∧ (other, (⟨8, 3, 2⟩ : Loc)) ∈ (ganging true).index := by
  refine ⟨by decide, fun e he h => ?_, ⟨4, rfl⟩, by decide +kernel⟩
  rcases List.mem_cons.mp he with rfl | he
  · rfl
  · obtain rfl := List.mem_singleton.mp he
    exact absurd rfl (h ⟨8, 3, 2⟩)

theorem trackerLaw_passing : TrackerLaw passing where
  target := by decide
  entries := by
    intro e he
    obtain rfl : e = ⟨own, .staged, [], 0, false⟩ := by simpa [passing] using he
    exact ⟨rfl, ⟨5, rfl, by decide⟩, List.Pairwise.nil, ⟨nofun, fun hk => absurd hk (by decide)⟩, fun _ => rfl,
      by decide, fun _ => by decide⟩
  rising := by simp [passing]
  started := fun hs => by rcases hs with hs | hs <;> exact absurd hs (by decide)

theorem witness_CompletedEntriesAreHandedOn :
    Running passing (.program [pass0]) ∧ ([pass0].map fun p => laneOf p.block).Nodup ∧
    passing.controller.config = some conf ∧ hasPassed (laneEnds passing (Vector.replicate 4 .pass) pass0) = true ∧
    passing.isOpen pass0.block ∧ (passing.intake.map fun e => e.record.key).Nodup ∧ TrackerLaw passing :=
  ⟨⟨rfl, rfl⟩, by decide, rfl, by decide +kernel, ⟨0, some ⟨0, 2, 4⟩, ⟨0, 0, 0⟩, rfl⟩, by decide, trackerLaw_passing⟩

/-- The gang of two lanes under K = 3 and under K = 1: the LOCAL record of lane 0 is handed on, with a receipt for a BUS one. -/
theorem witness_CompletedEntriesAreHandedOn_gang :
    let under (k : Nat) : State := { ganging true with
      intake := [⟨otherRecord, .bus true, .inPass ⟨1, 31, 7⟩⟩, ⟨ownRecord, .localHost, .inPass ⟨0, 0, 0⟩⟩], index := []
      controller := { base.controller with config := some { conf with k := k } } }
    let done (k : Nat) := (under k).programCompletion [pass0, pass1] fun _ => .pass
    ([pass0, pass1].map fun p => laneOf p.block).Nodup ∧ (done 3).receipts = [other] ∧
    (done 3).tracker.entries = [⟨own, .queued, [2], 0, false⟩] ∧ (done 3).transmit = base.transmit ∧
    (done 1).tracker.entries = [⟨own, .secured, [2], 0, false⟩] ∧ (done 1).transmit.sendOnce = [own] ∧
    (done 1).port.events = [.outcome 4 true 1] := by decide +kernel

theorem witness_EraseAndMarkCompletionsSetTheBlocks :
    Running (State.running base (.erase [4, 255])) (.erase [4, 255]) ∧ (([4, 255] : List BlockId).map laneOf).Nodup ∧
    (Vector.replicate 4 EraseResult.pass).get (laneOf 4) = .pass ∧
    (Vector.replicate 4 (EraseResult.fail .whole)).get (laneOf 255) = .fail .whole ∧
    (Vector.replicate 4 (EraseResult.aborted .whole)).get (laneOf 255) = .aborted .whole ∧
    (5 : BlockId) ∉ ([4, 255] : List BlockId) := ⟨⟨rfl, rfl⟩, by decide +kernel⟩

/-- Lane 0 fails and lane 3 is aborted: the event of R69 with cause ERASE, and the rest of the station as it was. -/
theorem witness_EraseAndMarkCompletionsSetTheBlocks_fail :
    let s := ((State.running base (.erase [4, 255])).setBlock 4 .erasing).setBlock 255 .dirty
    let u := s.eraseCompletion [4, 255] fun l => if l = 0 then .fail .whole else .aborted .whole
    Running s (.erase [4, 255]) ∧ u.allDead = false ∧ u.port.events = [.blockRetired 4 0 .erase] ∧
    u.sequencer.retireMarks = [4] ∧ u.sequencer.dirtyErases = [255] ∧ u.block 4 = .retired ∧ u.block 255 = .dirty ∧
    s.map.evacuator = ⟨none, [], []⟩ ∧ u.map.evacuator = s.map.evacuator ∧ u.tracker = s.tracker :=
  ⟨⟨rfl, rfl⟩, by decide +kernel⟩

theorem witness_EraseAndMarkCompletionsSetTheBlocks_mark : Running (State.running base (.retireMark 4)) (.retireMark 4) := ⟨rfl, rfl⟩

theorem witness_DamagedReadsRemoveTheKey :
    (tracking .queued 0).locate own = some ⟨0, 0, 0⟩ ∧ (tracking .queued 0).locate own ≠ some ⟨0, 0, 1⟩ ∧
    (tracking .queued 0).entry own = some (entry .queued 0) ∧ (entry .queued 0).state.isLive = true ∧
    (tracking .short 4).entry own = some (entry .short 4) ∧ (entry .short 4).state.isLive = false ∧
    ((tracking .queued 0).setBlock 0 (.retiring 7)).block 0 = .retiring 7 ∧
    (((tracking .queued 0).setBlock 0 (.retiring 7)).damagedRead own ⟨0, 0, 0⟩).port.events =
      [.blockRetired 0 0 .program, .recordDamaged own ⟨0, 0, 0⟩, .outcome 4 false 1] ∧
    ((State.filled (tracking .loaded 0) (.loaded (.tracker own) ownRecord true)).damagedRead own ⟨0, 0, 0⟩).buffer 0 =
      .empty := by decide +kernel

theorem witness_TransmitReadLoadsTheBuffer :
    let s (o : BufferOwner) (c : Bool) := State.running (State.filled base (.reading o c)) (.transmitRead ⟨0, own, ⟨0, 0, 0⟩⟩)
    (∀ o ∈ [BufferOwner.tracker own, .answer own, .sendOnce own], ∀ c ∈ [true, false],
      (s o c).held = false ∧ (s o c).sequencer.inFlight = some (.transmitRead ⟨0, own, ⟨0, 0, 0⟩⟩) ∧
      (s o c).buffer 0 = .reading o c) ∧
    readSlot (slotData (State.cellsChange (State.holding base) 0 0 {}).flash ⟨0, 0, 0⟩) own = some ownRecord ∧
    readSlot (slotData (State.cellsChange (State.holding base) 0 0 (slotNow spoiltSlot)).flash ⟨0, 0, 0⟩) own = none := by decide +kernel

/-- DAMAGED where the key has moved to another slot: nothing but the owner's end happens; a done entry stays as it is. -/
theorem witness_TransmitReadLoadsTheBuffer_damaged :
    let reading (st : TrackerState) := State.filled (tracking st 0) (.reading (.tracker own) true)
    let u (st : TrackerState) (l : Loc) := (reading st).transmitRead ⟨0, own, l⟩ none
    (reading .queued).buffer 0 = .reading (.tracker own) true ∧ ((reading .queued).buffer 0).heldBy = some (.tracker own) ∧
    (Buffer.reading (.tracker own) false).heldBy = none ∧
    (tracking .queued 0).entry own = some (entry .queued 0) ∧ (entry .queued 0).state.isLive = true ∧
    (tracking .short 4).entry own = some (entry .short 4) ∧ (entry .short 4).state.isLive = false ∧
    (u .queued ⟨0, 0, 0⟩).port.events = [.recordDamaged own ⟨0, 0, 0⟩, .outcome 4 false 1] ∧
    (u .queued ⟨5, 0, 0⟩).port.events = [.outcome 4 false 1] ∧
    (u .queued ⟨5, 0, 0⟩).tracker.entries = [⟨own, .short, [2], 0, true⟩] ∧
    (u .queued ⟨5, 0, 0⟩).index = [(own, ⟨0, 0, 0⟩)] ∧ (u .short ⟨5, 0, 0⟩).port.events = [] := by decide +kernel

theorem witness_HostAndEvacuationReadsComplete :
    Running (State.running base (.hostRead ⟨own, ⟨0, 0, 0⟩⟩)) (.hostRead ⟨own, ⟨0, 0, 0⟩⟩) ∧
    Running (State.running base (.evacuationRead ⟨own, ⟨0, 0, 0⟩⟩)) (.evacuationRead ⟨own, ⟨0, 0, 0⟩⟩) ∧
    readSlot (slotData (State.cellsChange (State.holding base) 0 0 {}).flash ⟨0, 0, 0⟩) own = some ownRecord ∧
    readSlot (slotData (State.cellsChange (State.holding base) 0 0 (slotNow spoiltSlot)).flash ⟨0, 0, 0⟩) own = none ∧
    (tracking .queued 0).locate own = some ⟨0, 0, 0⟩ ∧ base.locate own ≠ some ⟨0, 0, 0⟩ ∧ base.evacuationEntries < 4 :=
  ⟨⟨rfl, rfl⟩, ⟨rfl, rfl⟩, by decide +kernel⟩

/-- Base with its free array and these requests waiting. -/
def requested (f : Sequencer → Sequencer) : State := { base with sequencer := f base.sequencer }

theorem witness_TheSequencerServesByClass :
    let read : TransmitRead := ⟨0, own, ⟨0, 0, 0⟩⟩
    let slot : SlotRead := ⟨own, ⟨0, 0, 0⟩⟩
    let all := requested fun q => { q with
      transmitReads := [read], hostReads := [slot], programs := [[pass0]], dirtyErases := [4, 8, 5], reclaimErases := [6]
      evacuationReads := [slot], retireMarks := [7] }
    let erases := requested fun q => { q with dirtyErases := [4, 8, 5], reclaimErases := [6] }
    all.sequencer.inFlight = none ∧ all.sequencer.exclusive = false ∧ all.sequencer.transmitReads = [read] ∧
    (State.running base (.retireMark 4)).sequencer.inFlight.isSome ∧
    (requested fun q => { q with hostReads := [slot] }).sequencer.hostReads = [slot] ∧
    (requested fun q => { q with programs := [[pass0]] }).sequencer.programs = [[pass0]] ∧
    erases.sequencer.dirtyErases ++ erases.sequencer.reclaimErases = [4, 8, 5, 6] ∧
    erases.startNext.sequencer.inFlight = some (.erase [4, 5, 6]) ∧ erases.startNext.sequencer.dirtyErases = [8] ∧
    (requested fun q => { q with protect := true, evacuationReads := [slot] }).sequencer.protect = true ∧
    (requested fun q => { q with retireMarks := [7] }).sequencer.retireMarks = [7] ∧
    base.sequencer.retireMarks = [] := by decide +kernel

/-- Base with 10 records waiting and an OPEN block in each of lanes 0 and 1, at page 3. -/
def building : State :=
  let s := { base with intake := (List.range 10).map fun i => ⟨{ otherRecord with key := ⟨7, i + 1⟩ }, .bus true, .waiting⟩ }
  (s.setBlock 0 (.opened 0 none ⟨3, 5, 1⟩)).setBlock 1 (.opened 1 none ⟨3, 0, 0⟩)

theorem witness_TheBuilderFormsThePass :
    let opening : State := { base with intake := [⟨ownRecord, .localHost, .waiting⟩] }
    building.waiting ≠ [] ∧ building.sequencer.programs = [] ∧ (building.lane (building.map.rotation + 1 + 0)).engaged = false ∧
    building.condition (building.map.rotation + 1 + 0) = .openAvailable ∧
    ([1, 2, 3].filter fun l : Lane => !(building.lane l).engaged &&
      (building.openBlock l).any fun o => o.position.page == 3) = [1] ∧
    building.formPass.sequencer.programs.map (fun lanes => lanes.map fun p => (p.block, p.first, p.records.length)) =
      [[(0, 5, 3), (1, 0, 7)]] ∧
    opening.waiting ≠ [] ∧ opening.condition (opening.map.rotation + 1 + 0) = .needsBlock ∧
    opening.formPass.block 0 = .opened 0 (some ⟨0, 2, 5⟩) ⟨0, 0, 0⟩ ∧ base.waiting = [] := by decide +kernel

/-- Base whose lane 0 has no FREE block, with SEALED blocks 0 and 4, the older of them pinned or not. -/
def sealing (pin : Bool) : State :=
  let s := if pin then tracking .queued 0 else { base with index := [(own, ⟨0, 0, 0⟩)], receipts := [own] }
  (((laneBlocks 0).foldl (fun s b => s.setBlock b .bad) s).setBlock 0 (.sealed 3)).setBlock 4 (.sealed 5)

theorem witness_TheReclaimerPurgesTheOldest :
    (sealing false).low 0 = true ∧ ((sealing false).lane 0).candidate = none ∧
    let tested := (sealing false).reclaim false base
    let pinned := (sealing true).reclaim false base
    (base.block 4).sameState ((sealing false).block 4) = false ∧ base.controller.state ≠ .mounting ∧
    tested.block 0 = .erasing ∧ tested.index = [] ∧ tested.receipts = [] ∧ tested.sequencer.reclaimErases = [0, 4] ∧
    (pinned.lane 0).candidate = some 0 ∧ pinned.low 0 = true ∧ pinned.pinned 0 = true ∧
    State.low { pinned with map := { base.map with lanes := base.map.lanes } } 0 = false ∧
    State.pinned { pinned with tracker := base.tracker } 0 = false := by decide +kernel

/-- A waiting candidate, block 4, that is not its lane's oldest: it holds the lane back until a release, at which it is purged
before the oldest, and the lane gives the two blocks that it is short of; a lane that is not low gives none. -/
theorem witness_TheReclaimerPurgesTheOldest_candidate :
    let s := (sealing false).setLane 0 ⟨false, some 4, 0⟩
    let three := s.setBlock 8 (.sealed 9)
    let full := (three.setBlock 12 .free).setBlock 16 .dirty
    (s.lane 0).candidate = some 4 ∧ s.isSealed 4 ∧ laneOf 4 = 0 ∧ s.low 0 = true ∧ (reclaimLane false base s 0).block 0 = .sealed 3 ∧
    (reclaimLane true three three 0).sequencer.reclaimErases = [4, 0] ∧ (reclaimLane true three three 0).awaitingErase 0 = 2 ∧
    full.low 0 = false ∧ (reclaimLane true full full 0).block 4 = .sealed 5 ∧ ((reclaimLane true full full 0).lane 0).candidate = none :=
  ⟨by decide +kernel, ⟨5, by decide +kernel⟩, by decide +kernel⟩

/-- A candidate of a lane that is not low, pinned by an AWAITING entry and by an answer entry for one key: when a receipt
makes the entry SECURED its pin is released, and the candidate is dropped although the answer entry pins it still. -/
theorem witness_TheReclaimerPurgesTheOldest_release :
    let s := (State.setBlock { tracking (.awaiting 25000) 1 with
      tracker := ⟨some 5, [⟨own, .awaiting 25000, [2, 4], 1, false⟩]⟩
      gap := { base.gap with answers := [⟨own, 1000, false, false⟩] } } 0 (.sealed 3)).setLane 0 ⟨false, some 0, 0⟩
    let u := s.countReceipts 9 [own]
    pinReleased s u = true ∧ u.pinned 0 = true ∧ u.low 0 = false ∧ ((u.reclaim true s).lane 0).candidate = none ∧
    pinReleased s (s.removeAnswer own) = true ∧ pinReleased s (s.damagedRead own ⟨0, 0, 0⟩) = true ∧
    pinReleased s s = false ∧ (∀ l, (u.lane l).candidate = if l = 0 then some 0 else none) := by decide +kernel

/-- Lane 0 with block 12 ERASING and its oldest SEALED block, 0, a candidate pinned by an answer entry. -/
def waitingCandidate : State :=
  let s : State := { sealing false with gap := { base.gap with answers := [⟨own, 1000, false, false⟩] } }
  (s.setBlock 12 .erasing).setLane 0 ⟨false, some 0, 0⟩

/-- The same once the erase of block 12 has passed. -/
def erasedMeanwhile : State := State.blockErased (fun _ => .pass) waitingCandidate 12

/-- The answer entry is removed, and the reclaimer tests lane 0. -/
def releaseIn (s : State) : State :=
  let t := s.removeAnswer own
  reclaimLane (pinReleased s t) s t 0

/-- R65, a pin release and an erase completion that restores the free count. The completion first: the candidate is dropped at
the release and no block is given. The release first: the candidate is purged, and both blocks will be FREE. -/
theorem test_completion_then_release :
    let t := releaseIn erasedMeanwhile
    (erasedMeanwhile.lane 0).candidate = some 0 ∧ (t.lane 0).candidate = none ∧ t.block 0 = .sealed 3 ∧ t.freePool 0 = [12] := by
  decide +kernel

theorem test_release_then_completion :
    let t := releaseIn waitingCandidate
    (t.lane 0).candidate = none ∧ t.block 0 = .erasing ∧ t.sequencer.reclaimErases = [0] := by decide +kernel

/-- After the drop the lane is not tested until an event of R60; a further release then gives the block. -/
theorem test_dropped_lane_is_tested_at_a_release :
    let t := erasedMeanwhile.setLane 0 ⟨false, none, 0⟩
    (reclaimLane false t t 0).block 0 = .sealed 3 ∧ (reclaimLane true t (t.removeAnswer own) 0).block 0 = .erasing := by
  decide +kernel

/-- R61, the third event: a key that no tracker and no answer entry names leaves the index, or is repointed. Either is a
release, at which the candidate whose lane an erase has eased is dropped, pinned as it is; a key inserted is none. -/
theorem test_unnamed_key_releases :
    let s := { erasedMeanwhile with index := erasedMeanwhile.index ++ [(other, ⟨5, 0, 0⟩)] }
    let removed := s.damagedRead other ⟨5, 0, 0⟩
    let repointed := s.indexPut other ⟨9, 0, 0⟩
    s.eased 0 = true ∧ entryDone s removed = false ∧ answerGone s removed = false ∧
    pinReleased s removed = true ∧ pinReleased s repointed = true ∧ pinReleased s (s.indexPut ⟨9, 1⟩ ⟨9, 0, 0⟩) = false ∧
    removed.pinned 0 = true ∧ ((removed.reclaim (pinReleased s removed) s).lane 0).candidate = none ∧
    (removed.reclaim (pinReleased s removed) s).block 0 = .sealed 3 ∧
    ((s.reclaim (pinReleased s s) s).lane 0).candidate = some 0 := by decide +kernel

/-- R61 with R49: the purge of block 1 in lane 1, tested for its change to SEALED, takes a key out of the index, and so the
candidate of lane 0, which an erase has eased, is dropped; were the block without keys, the candidate would wait on. -/
theorem test_purge_releases :
    let before := (laneBlocks 1).foldl (fun s b => s.setBlock b .bad) erasedMeanwhile
    let bare := before.setBlock 1 (.sealed 2)
    let s := { bare with index := bare.index ++ [(other, ⟨1, 0, 0⟩)] }
    let t := s.reclaim false before
    keyMoved s t = true ∧ t.block 1 = .erasing ∧ (t.lane 0).candidate = none ∧ t.block 0 = .sealed 3 ∧
    (bare.reclaim false before).block 1 = .erasing ∧ ((bare.reclaim false before).lane 0).candidate = some 0 := by
  decide +kernel

theorem witness_BuffersGoToWaitingWork :
    let both : State := { tracking .queued 0 with
      gap := (answering true false).gap, index := [(own, ⟨0, 0, 0⟩), (other, ⟨0, 0, 1⟩)] }
    both.nextGift = some (0, .answer other) ∧ both.locate other = some ⟨0, 0, 1⟩ ∧
    (State.filled both (.reading (.answer other) true)).nextGift = some (1, .tracker own) ∧
    base.locate own = none ∧ (tracking .queued 0).entry own = some (entry .queued 0) ∧
    (entry .queued 0).state.isLive = true ∧ (both.tracker.entries.map TrackerEntry.key).Nodup ∧
    (State.giveBuffers both.giftBound both).buffer 1 = .reading (.tracker own) true := by decide +kernel

theorem witness_TheEvacuatorReadsItsBlock :
    let s : State := { tracking .queued 0 with map := { base.map with evacuator := ⟨some 0, [], []⟩ } }
    s.map.evacuator.current = some 0 ∧ (own, (⟨0, 0, 0⟩ : Loc)) ∈ s.index ∧ s.intake = [] ∧ s.map.evacuator.reads = [] ∧
    (State.evacuate 4 s).sequencer.evacuationReads = [⟨own, ⟨0, 0, 0⟩⟩] ∧ base.map.evacuator.current = none := by
  decide +kernel

/-- The pass in flight on the only block of the array that is not BAD; or that block's erase. -/
def lastBlock (s : State) (row : BlockRow) : State :=
  State.setBlock { s with map := { s.map with blocks := Vector.replicate 256 .bad } } 0 row

theorem witness_TheLastDeadLaneHaltsTheStation :
    let program := lastBlock passing (passing.block 0)
    let erase := lastBlock (State.running (tracking .queued 0) (.erase [0])) .erasing
    program.held = false ∧ program.sequencer.inFlight = some (.program [pass0]) ∧ program.controller.state = .active ∧
    (program.tracker.entries.map TrackerEntry.key).Nodup ∧
    (program.programCompletion [pass0] fun _ => .fail {}).allDead = true ∧
    (program.programCompletion [pass0] fun _ => .fail {}).tracker.entries = [⟨own, .short, [], 0, false⟩] ∧
    erase.held = false ∧ erase.sequencer.inFlight = some (.erase [0]) ∧
    (erase.eraseCompletion [0] fun _ => .fail .untouched).allDead = true ∧
    (erase.eraseCompletion [0] fun _ => .fail .untouched).port.events =
      [.blockRetired 0 0 .erase, .laneResumed 0 .dead, .halted .active, .outcome 4 false 1] := by decide +kernel

/-- The erase of the last block but BAD ones of lane 0, which was FULL, and a pass whose block becomes SEALED. -/
theorem witness_TheLastDeadLaneHaltsTheStation_events :
    let erase := lastBlock (State.running base (.erase [0])) .erasing
    let program := lastBlock passing (.opened 0 (some ⟨0, 2, 4⟩) ⟨31, 7, 3⟩)
    Running erase (.erase [0]) ∧ (erase.eraseCompletion [0] fun _ => .pass).allDead = false ∧
    (erase.eraseCompletion [0] fun _ => .pass).port.events = [.laneResumed 0 .needsBlock] ∧
    Running program (.program [pass0]) ∧
    (program.programCompletion [pass0] fun _ => .pass).port.events = [.laneFull 0] :=
  ⟨⟨rfl, rfl⟩, by decide +kernel, by decide +kernel, ⟨rfl, rfl⟩, by decide +kernel⟩

theorem witness_SlotsReadBack :
    recordInRange ⟨⟨1, 1⟩, 0, 0, [0]⟩ = true ∧
    recordInRange ⟨⟨30, 16777215⟩, 3, 0xFFFFFFFF, List.replicate 240 0xFF⟩ = true ∧
    (0 : BitVec 32) ≠ slotCheck 2 4 1 1 9 [7] ∧ (0 : Byte).toNat = 0 ∧ 240 < (241 : Byte).toNat ∧
    (31 : Byte).toNat ≠ own.origin ∧ (5 : BitVec 24).toNat ≠ own.seq ∧ ([] : List Byte).length ≠ (1 : Byte).toNat ∧
    1 ≤ (1 : Byte).toNat ∧ (240 : Byte).toNat ≤ 240 ∧ ([7] : List Byte).length = (1 : Byte).toNat ∧
    own = ⟨(2 : Byte).toNat, (4 : BitVec 24).toNat⟩ := by decide +kernel

/-- Two records in range that fill the last slots of page 0 of block 255 in a header pass. -/
def lastSlots (header : Option HeaderInfo) : PassLane :=
  ⟨255, 0, 6, [ownRecord, ⟨⟨30, 16777215⟩, 3, 0, [7]⟩], header⟩

theorem witness_SlotsReadBack_page :
    let h : HeaderInfo := ⟨4294967295, 30, 16777216⟩
    let c : PageCells := { programPage (lastSlots (some h)) none blankPage with mark := markOf 255 }
    c.tags.get 0 = .erased ∧ c.tags.get 7 = tagOf ⟨30, 16777215⟩ ∧ keyInRange ⟨30, 16777215⟩ = true ∧
    tagOf own = .cells 2 4 (tagCheck 2 4) ∧ (0 : BitVec 16) ≠ tagCheck 2 4 ∧ blankPage.header = .erased ∧
    c.header = headerOf h ∧ HeaderAdmitted h ∧ HeaderAdmitted ⟨0, 1, 1⟩ ∧ blankPage.mark = .erased ∧ c.mark = markOf 255 ∧
    (∀ p ∈ [lastSlots none, lastSlots (some h)], p.first.val + p.records.length ≤ 8 ∧
      (∀ r ∈ p.records, recordInRange r = true) ∧ p.records[1]? = some ⟨⟨30, 16777215⟩, 3, 0, [7]⟩ ∧
      (7 : SlotNo).val = p.first.val + 1 ∧ (5 : SlotNo).val < p.first.val) ∧
    pageAddress 255 0 ≠ pageAddress 255 31 := by
  unfold HeaderAdmitted
  decide +kernel

/-- The last read of a mount whose earlier blocks were FREE. -/
def lastScan : State :=
  { State.reset with
    sequencer := { Sequencer.reset false with inFlight := some (.scanRead 255 31) }
    scanner := { Scanner.reset with block := 255, page := 31, page0 := some (scanReport 255 blankPage) } }

/-- Page 0 of block 3, chained: a header of writer 2 with chain number 5, and the own record in slot 0. -/
def chainedPage : PageCells := programPage ⟨3, 0, 0, [ownRecord], some ⟨5, 2, 4⟩⟩ none blankPage

/-- The finding of block 3. -/
def chainedBlock : BlockFinding :=
  ⟨3, .chained, some ⟨5, 2, 4⟩, scanReport 3 chainedPage, some (scanReport 3 blankPage)⟩

/-- The mount while it reads page 30 of block 3, the last chained block or not. -/
def lastPage (queue : List BlockFinding) : State :=
  { lastScan with
    sequencer := { Sequencer.reset false with inFlight := some (.scanRead 3 30) }
    scanner := { Scanner.reset with
      phase := .pages, block := 3, page := 30, queue := queue, findings := [chainedBlock] } }

theorem witness_ScanReadsGoOn :
    Running State.reset (.scanRead 0 0) ∧ State.reset.scanner.phase = .classify ∧ State.reset.scanner.page0 = none ∧
    (scanReport 0 blankPage).factory = false ∧ (scanReport 0 { blankPage with factory := true }).factory = true ∧
    (255 : BlockId).val = (254 : BlockId).val + 1 ∧ lastScan.scanner.page0 = some (scanReport 255 blankPage) ∧
    (29 : PageNo).val < 30 := ⟨⟨rfl, rfl⟩, by decide +kernel⟩

/-- The PAGES phase begins and goes on: a chained block found stands first in the queue, and page 30 of another is read. -/
theorem witness_ScanReadsGoOn_pages :
    chainedInOrder [chainedBlock, { chainedBlock with block := 9, cls := .dirty }] = [chainedBlock] ∧
    Running (lastPage [chainedBlock]) (.scanRead 3 30) ∧ (lastPage [chainedBlock]).scanner.phase = .pages ∧
    ((lastPage [chainedBlock]).scanner.findings.find? fun f => f.block == 3) = some chainedBlock ∧
    chainedBlock.page31 = some (scanReport 3 blankPage) ∧
    (((lastPage [chainedBlock]).scanner.addPage 3 5 30 (scanReport 3 blankPage)).addPage 3 5 31
      (scanReport 3 blankPage)).queue = [chainedBlock] := ⟨by decide +kernel, ⟨rfl, rfl⟩, by decide +kernel⟩

/-- The classes of R73, R74 and R75, worked from the tables. -/
theorem test_classes_of_blocks_slots_and_pages :
    let blank := scanReport 3 blankPage
    blockClass (scanReport 3 chainedPage) blank = .chained ∧ blockClass blank blank = .free ∧
    blockClass (scanReport 3 chainedPage) (scanReport 3 { blankPage with mark := markOf 3 }) = .retired ∧
    blockClass blank (scanReport 3 { blankPage with mark := markOf 4 }) = .dirty ∧
    blockClass (scanReport 3 (programPage ⟨3, 0, 0, [ownRecord], some ⟨5, 31, 4⟩⟩ none blankPage)) blank = .dirty ∧
    (scanReport 3 chainedPage).slots.map slotFinding = .location own :: List.replicate 7 .empty ∧
    slotFinding ⟨.good 31 1, false⟩ = .torn ∧ slotFinding ⟨.good 2 4, true⟩ = .torn ∧ slotFinding ⟨.erased, false⟩ = .torn ∧
    pageClass 0 (scanReport 3 chainedPage) = .partly ∧ pageClass 30 blank = .blank ∧ pageClass 0 blank = .partly ∧
    pageClass 1 { blank with slots := List.replicate 8 ⟨.good 2 4, false⟩ } = .full ∧
    pageClass 1 { blank with slots := ⟨.torn, false⟩ :: List.replicate 7 ⟨.erased, true⟩ } = .torn := by decide +kernel

/-- What a block classified and a page read add to the scanner's collections. -/
theorem test_collections :
    let r := scanReport 3 chainedPage
    let h : HeaderInfo := ⟨5, 2, 4⟩
    let sc := Scanner.reset.addBlock 3 .chained r (some r)
    r.validHeader = some h ∧ (scanReport 3 blankPage).validHeader = none ∧
    sc.findings = [⟨3, .chained, some h, r, some r⟩] ∧ stationGet sc.floors 2 none = some 4 ∧ stationGet sc.floors 3 none = none ∧
    stationGet (addFloor sc.floors ⟨6, 2, 3⟩) 2 none = some 4 ∧ stationGet (addFloor sc.floors ⟨6, 2, 7⟩) 2 none = some 7 ∧
    sc.counts = { chained := 1 } ∧ r.slots.length = 8 ∧
    (sc.addPage 3 5 0 r).pages = [(3, [.partly])] ∧
    ((sc.addPage 3 5 0 r).addPage 3 5 1 (scanReport 3 blankPage)).pages = [(3, [.partly, .blank])] := by decide +kernel

/-- A later position in chain order wins, and the second location counts one duplicate. -/
theorem test_candidates :
    let r := scanReport 3 chainedPage
    let sc := (Scanner.reset.addPage 3 5 0 r).addPage 9 4 0 r
    r.slots = [] ++ r.slots.head (by decide) :: r.slots.tail ∧
    sc.candidates = [(own, ⟨5, ⟨3, 0, 0⟩, 2⟩)] ∧ sc.counts.duplicates = 1 ∧
    (sc.addPage 8 6 2 r).candidates = [(own, ⟨6, ⟨8, 2, 0⟩, 3⟩)] ∧ (sc.addPage 8 6 2 r).counts.duplicates = 1 := by
  decide +kernel

theorem witness_MountEnds :
    Running lastScan (.scanRead 255 31) ∧
    (∃ sc, ScanEndsWith lastScan 255 31
      (scanReport 255 (readPage (lastScan.cellsChange 255 31 {}).flash (pageAddress 255 31))) sc) ∧
    lastScan.controller.state = .mounting ∧ lastScan.controller.config = none ∧
    Running (lastPage []) (.scanRead 3 30) ∧
    (∃ sc, ScanEndsWith (lastPage []) 3 30
      (scanReport 3 (readPage ((lastPage []).cellsChange 3 30 {}).flash (pageAddress 3 30))) sc) ∧
    (lastPage []).controller.state = .mounting := by
  refine ⟨⟨rfl, rfl⟩, ⟨_, .inl ⟨rfl, rfl, ?_, .inr ⟨_, rfl, rfl⟩⟩⟩, rfl, rfl, ⟨rfl, rfl⟩,
    ⟨_, .inr ⟨rfl, rfl, rfl, chainedBlock, scanReport 3 blankPage, ?_, rfl, rfl⟩⟩, rfl⟩
  · decide +kernel
  · decide +kernel

/-- The last scan read of a BAD block 255 ends the mount at its page 0. -/
theorem witness_MountEnds_bad :
    ∃ sc, ScanEndsWith { lastScan with scanner := { lastScan.scanner with page0 := none } } 255 0
      (scanReport 255 { blankPage with factory := true }) sc :=
  ⟨_, .inl ⟨rfl, rfl, by decide +kernel, .inl ⟨rfl, rfl, rfl⟩⟩⟩

/-- A rebuilt OPEN block, its highest chain number and its row (R75, R77, R78). -/
theorem witness_MountEnds_map :
    let sc := { Scanner.reset with
      findings := [chainedBlock], pages := [(3, .partly :: List.replicate 31 .blank)] }
    (List.replicate 32 PageClass.blank).length = 32 ∧ firstBlank (.partly :: List.replicate 31 .blank) = some 1 ∧
    firstBlank (List.replicate 32 .full) = none ∧ sc.openOf 3 = some chainedBlock ∧ sc.openOf 0 = none ∧
    (sc.findings.map BlockFinding.block).Nodup ∧ sc.blocks.get 3 = .opened 5 none ⟨1, 0, 0⟩ ∧
    sc.highestChain = some 5 ∧ Scanner.reset.highestChain = none := by decide +kernel

theorem witness_OnlyArrayCommandsChangeTheArray :
    let s := State.running (State.holding base) (.hostRead ⟨own, ⟨0, 0, 0⟩⟩)
    (after (.retireMarkComplete .pass) (State.running (State.alone base) (.retireMark 4))).flash ≠ base.flash ∧
    (after (.hostReadComplete (slotNow spoiltSlot)) s).flash ≠ s.flash ∧ (1 : Nat) ≠ pageAddress 0 0 ∧
    slotNow spoiltSlot ≠ {} ∧ (slotNow spoiltSlot).slots.get 0 = some spoiltSlot ∧
    slotData s.flash ⟨0, 0, 0⟩ ≠ .erased ∧ spoiltSlot ≠ .erased ∧
    readSlot (slotData (s.cellsChange 0 0 {}).flash ⟨0, 0, 0⟩) own = some ownRecord := by decide +kernel

/-- A slot that has changed reads DAMAGED for every key. -/
theorem witness_OnlyArrayCommandsChangeTheArray_spoilt : ∀ k, readSlot spoiltSlot k = none :=
  (slotFits_eq_false spoiltSlot).mp (by decide +kernel)

/-- An ACTIVE station with a receipt listed, its key indexed, two own records staged, and no command waiting. -/
def lawful : State :=
  { base.setBlock 0 (.sealed 0) with
    index := [(other, ⟨0, 0, 1⟩)], receipts := [other]
    intake := [⟨ownRecord, .localHost, .waiting⟩, ⟨otherRecord, .evacuation ⟨0, 0, 1⟩, .waiting⟩] }

theorem lawful_intakeLaw : IntakeLaw lawful where
  keysOnce := by decide
  unindexed := by
    intro e he h
    rcases List.mem_cons.mp he with rfl | he
    · rfl
    · obtain rfl := List.mem_singleton.mp he
      exact absurd rfl (h ⟨0, 0, 1⟩)
  configured := nofun
  ownBelow := by
    rintro c ⟨⟩ _
    refine ⟨5, rfl, by decide, fun k l hm ho => ?_⟩
    obtain ⟨rfl, rfl⟩ := Prod.mk.inj (List.mem_singleton.mp hm)
    cases ho
  unused := by
    rintro (h | h) <;> cases h

theorem lawful_originLaw : OriginLaw lawful := by
  intro id
  have h : lawful.originRow id = ⟨none, 0⟩ := by
    show stationGet (Vector.replicate 30 (⟨none, 0⟩ : OriginRow)) id ⟨none, 0⟩ = _
    unfold stationGet
    split <;> simp [Vector.get]
  rw [h]
  exact ⟨Nat.zero_le _, nofun⟩

theorem lawful_blockLaw : BlockLaw lawful where
  located := by
    intro k l h
    obtain ⟨rfl, rfl⟩ := Prod.mk.inj (List.mem_singleton.mp h)
    exact Or.inr (Or.inl ⟨0, rfl⟩)
  oneOpen := by
    have closed : ∀ b, lawful.asOpen b = none := by decide +kernel
    rintro b b' _ ⟨chain, header, position, h⟩ _
    exact absurd (closed b) (by simp [State.asOpen, h])
  passesOnce := List.nodup_nil
  passes := nofun
  erasesOnce := List.nodup_nil
  erases := nofun
  candidates := by
    have none : ∀ l, (lawful.lane l).candidate = none := by decide +kernel
    intro l b h
    exact absurd (none l) (by simp [h])
  unplaced := nofun
  scanner := ⟨List.Pairwise.nil, fun _ => ⟨rfl, nofun⟩, nofun, nofun, nofun⟩

/-- Every law holds together in a state whose next step is a next state. -/
theorem witness_StepKeepsTheLaws :
    MemoryLaw lawful ∧ CapacityLaw lawful ∧ IntakeLaw lawful ∧ OriginLaw lawful ∧ IndexLaw lawful ∧ ReceiptLaw lawful ∧ TrackerLaw lawful ∧
    ModeLaw lawful ∧ BlockLaw lawful ∧ (∃ t, step lawful = .next t) := by
  refine ⟨rfl, ⟨?_, ?_, ?_, ?_, ?_, ?_, ?_, ?_, ?_, ?_, ?_, ?_, ?_⟩, lawful_intakeLaw, lawful_originLaw, ⟨rfl, rfl⟩, ?_, ⟨?_, nofun, ?_, ?_⟩,
    ⟨?_, nofun, ?_, ?_, ?_, ?_, ?_, ?_, ?_, ?_, ?_, ?_⟩, lawful_blockLaw, _, rfl⟩
  all_goals first | (unfold ReceiptLaw; decide +kernel) | decide +kernel

theorem witness_FramesAreJudgedAsBuilt :
    (∀ id ∈ [1, 30], ∀ f ∈ framesOf id, FrameAdmitted f) ∧ LengthAdmitted 1 25 ∧ LengthAdmitted 4 249 ∧ ¬ LengthAdmitted 1 26 := by
  simp [framesOf, FrameAdmitted, RecordAdmitted, LengthAdmitted, own, otherRecord, other]

/-- Bytes with the CRC that fits them. -/
def checked (front : List Byte) : List Byte := front ++ beBytes 2 (crc16 front).toNat

/-- Whole frames that the tests of R96 meet in turn, at the edges of R94: K of 0, a span past the last seq, a RECORD of another
origin and a RECEIPT whose count disagrees are rejected for a field. -/
theorem witness_FramesAreJudgedAsBuilt_rejections :
    (∀ id ∈ [1, 30], ∀ f ∈ framesOf id, judge (frameBytes f) = .valid f) ∧
    judge [0x24] = .rejected .framing ∧ judge (checked [0x24, 5, 1, 2, 0, 0]) = .rejected .framing ∧
    judge (checked [0x04, 0]) = .rejected .kind ∧ judge (checked [0xDF, 0]) = .rejected .kind ∧
    judge (checked [0x3F, 0]) = .rejected .sender ∧ judge (checked [0x24, 26]) = .rejected .framing ∧
    judge (checked (0x24 :: 26 :: List.replicate 26 1)) = .rejected .length ∧
    judge (checked [0xA4, 6, 4, 0, 0, 0, 0, 0]) = .rejected .field ∧
    judge (checked [0x44, 5, 7, 0xFF, 0xFF, 0xFF, 2]) = .rejected .field ∧
    judge (checked [0x84, 10, 5, 0, 0, 1, 0, 0, 0, 0, 0, 9]) = .rejected .field ∧
    judge (checked [0x24, 5, 2, 7, 0, 0, 1]) = .rejected .field ∧
    (∀ c ∈ ([0, 1] : List Byte), judge [0xA4, 0, c, 0] = .rejected .crc) := by decide +kernel

end Sys2Proof.Tests
end

