-- ==== Sys2Proof/Proofs/FlashArray.lean ====
section
/-! PROOFS of the family of 02_the_flash_array.md. First what each operation leaves alone (Untouched, Quiet, Aside), what the
workers can do (WorkerStep) and what a command can do (Effect), each said once; then the laws every step keeps, by the cases
of these; then the statements about single commands. -/

namespace Sys2Proof.Machine

/-! ### What operations leave alone -/

/-- Neither the array, nor a block, a pass, an erase request, an index entry or the scanner is touched, and a key joins the
Receipt List only when it is indexed and the station is not MOUNTING. -/
structure Untouched (s u : State) : Prop where
  flash : u.flash = s.flash
  inFlight : u.sequencer.inFlight = s.sequencer.inFlight
  programs : u.sequencer.programs = s.sequencer.programs
  dirtyErases : u.sequencer.dirtyErases = s.sequencer.dirtyErases
  reclaimErases : u.sequencer.reclaimErases = s.sequencer.reclaimErases
  exclusive : u.sequencer.exclusive = s.sequencer.exclusive
  blocks : u.map.blocks = s.map.blocks
  lanes : u.map.lanes = s.map.lanes
  index : u.index = s.index
  scanner : u.scanner = s.scanner
  receipts : ∀ k ∈ u.receipts, k ∈ s.receipts ∨ (s.locate k).isSome = true ∧ s.controller.state ≠ .mounting

/-- Untouched, and the line, the station state, the configuration and the hold stay as well. -/
structure Quiet (s u : State) : Prop extends Untouched s u where
  line : u.line = s.line
  state : u.controller.state = s.controller.state
  config : u.controller.config = s.controller.config
  held : u.held = s.held

theorem Quiet.refl (s : State) : Quiet s s where
  flash := rfl
  inFlight := rfl
  programs := rfl
  dirtyErases := rfl
  reclaimErases := rfl
  exclusive := rfl
  blocks := rfl
  lanes := rfl
  index := rfl
  scanner := rfl
  receipts := fun _ h => .inl h
  line := rfl
  state := rfl
  config := rfl
  held := rfl

/-- Untouched goes on through a second change, when a station that is MOUNTING after the first was so before it. -/
theorem Untouched.trans {s t u : State} (h : Untouched s t) (k : Untouched t u)
    (mounting : s.controller.state = .mounting → t.controller.state = .mounting) : Untouched s u where
  flash := k.flash.trans h.flash
  inFlight := k.inFlight.trans h.inFlight
  programs := k.programs.trans h.programs
  dirtyErases := k.dirtyErases.trans h.dirtyErases
  reclaimErases := k.reclaimErases.trans h.reclaimErases
  exclusive := k.exclusive.trans h.exclusive
  blocks := k.blocks.trans h.blocks
  lanes := k.lanes.trans h.lanes
  index := k.index.trans h.index
  scanner := k.scanner.trans h.scanner
  receipts := fun x hx => by
    rcases k.receipts x hx with hx | ⟨located, running⟩
    · exact h.receipts x hx
    · refine .inr ⟨?_, fun hm => running (mounting hm)⟩
      unfold State.locate at located ⊢
      rwa [h.index] at located

theorem Quiet.trans {s t u : State} (h : Quiet s t) (k : Quiet t u) : Quiet s u where
  toUntouched := h.toUntouched.trans k.toUntouched fun m => h.state.trans m
  line := k.line.trans h.line
  state := k.state.trans h.state
  config := k.config.trans h.config
  held := k.held.trans h.held

theorem Quiet.foldl {α : Type} (f : State → α → State) (hf : ∀ s a, Quiet s (f s a)) (l : List α) (s : State) :
    Quiet s (l.foldl f s) := by
  induction l generalizing s with
  | nil => exact Quiet.refl s
  | cons a rest ih => exact (hf s a).trans (ih (f s a))

/-- A step of a fold that is quiet only while what the fold rests on, which no quiet step changes, holds. -/
theorem Quiet.foldl_of {α : Type} (f : State → α → State) (l : List α) (s : State)
    (hf : ∀ t, Quiet s t → ∀ a ∈ l, Quiet t (f t a)) : Quiet s (l.foldl f s) := by
  suffices ∀ m : List α, (∀ a ∈ m, a ∈ l) → ∀ t, Quiet s t → Quiet s (m.foldl f t) from
    this l (fun _ h => h) s (Quiet.refl s)
  intro m
  induction m with
  | nil => exact fun _ t h => h
  | cons a rest ih =>
    exact fun hm t h => ih (fun b hb => hm b (List.mem_cons_of_mem _ hb)) _ (h.trans (hf t h a (hm a List.mem_cons_self)))

/-! Quiet operations. -/

theorem State.post_quiet (s : State) (e : Event) : Quiet s (s.post e) := by
  rw [State.post_eq]
  exact { Quiet.refl s with }

theorem State.setBuffer_quiet (s : State) (i : BufferNo) (b : Buffer) : Quiet s (s.setBuffer i b) := { Quiet.refl s with }

theorem State.endClaims_quiet (s : State) (o : BufferOwner) : Quiet s (s.endClaims o) := { Quiet.refl s with }

theorem State.endAllClaims_quiet (s : State) (os : List BufferOwner) : Quiet s (s.endAllClaims os) :=
  Quiet.foldl _ State.endClaims_quiet os s

theorem State.updateEntry_quiet (s : State) (k : Key) (f : TrackerEntry → TrackerEntry) : Quiet s (s.updateEntry k f) :=
  { Quiet.refl s with }

theorem State.finish_quiet (s : State) (e : TrackerEntry) (secured damaged : Bool) :
    Quiet s (s.finish e secured damaged) :=
  ((s.updateEntry_quiet _ _).trans (State.post_quiet _ _)).trans (State.endClaims_quiet _ _)

theorem State.shortDamaged_quiet (s : State) (k : Key) : Quiet s (s.shortDamaged k) := by
  unfold State.shortDamaged
  split
  · split
    · exact s.finish_quiet _ _ _
    · exact Quiet.refl s
  · exact Quiet.refl s

theorem State.removeAnswer_quiet (s : State) (k : Key) : Quiet s (s.removeAnswer k) := by
  unfold State.removeAnswer
  split
  · exact Quiet.refl s
  · exact { Quiet.refl s with }

theorem State.dropSendOnce_quiet (s : State) (k : Key) : Quiet s (s.dropSendOnce k) := { Quiet.refl s with }

theorem State.ownerAbsent_quiet (s : State) : ∀ o, Quiet s (s.ownerAbsent o)
  | .tracker k => s.shortDamaged_quiet k
  | .answer k => s.removeAnswer_quiet k
  | .sendOnce k => s.dropSendOnce_quiet k

theorem State.ownerLoaded_quiet (s : State) : ∀ o, Quiet s (s.ownerLoaded o)
  | .tracker _ => s.updateEntry_quiet _ _
  | .answer _ => { Quiet.refl s with }
  | .sendOnce _ => Quiet.refl s

theorem State.ownerSent_quiet (s : State) : ∀ o, Quiet s (s.ownerSent o)
  | .tracker _ => s.updateEntry_quiet _ _
  | .answer k => s.removeAnswer_quiet k
  | .sendOnce k => s.dropSendOnce_quiet k

theorem State.bufferSent_quiet (s : State) (i : BufferNo) : Quiet s (s.bufferSent i) := by
  unfold State.bufferSent
  split
  · exact (s.setBuffer_quiet _ _).trans (State.ownerSent_quiet _ _)
  · exact s.setBuffer_quiet _ _

theorem State.handSendOnce_quiet (s : State) (k : Key) : Quiet s (s.handSendOnce k) := by
  unfold State.handSendOnce
  split
  · exact Quiet.refl s
  · exact { Quiet.refl s with }

theorem State.offerReceipt_quiet (s : State) (k : Key) (located : (s.locate k).isSome = true)
    (running : s.controller.state ≠ .mounting) : Quiet s (s.offerReceipt k) := by
  unfold State.offerReceipt
  split
  · exact Quiet.refl s
  · exact { Quiet.refl s with
      receipts := fun x hx => by
        rcases List.mem_append.mp hx with hx | hx
        · exact .inl hx
        · exact .inr (List.mem_singleton.mp hx ▸ ⟨located, running⟩) }

theorem State.handLocal_quiet (s : State) (k : Key) : Quiet s (s.handLocal k) := by
  unfold State.handLocal
  split
  · exact Quiet.refl s
  · split
    · split
      · exact ((s.updateEntry_quiet _ _).trans (State.finish_quiet _ _ _ _)).trans (State.handSendOnce_quiet _ _)
      · exact s.updateEntry_quiet _ _
    · exact Quiet.refl s

/-- A station on the bus is not MOUNTING (R107). -/
theorem State.ne_mounting_of_onBus {s : State} (h : s.onBus = true) : s.controller.state ≠ .mounting := by
  intro hm
  simp [State.onBus, hm] at h

theorem State.handOn_quiet (s : State) (e : IntakeEntry)
    (located : ∀ owed, e.source = .bus owed → (s.locate e.record.key).isSome = true) : Quiet s (s.handOn e) := by
  unfold State.handOn
  split
  · exact s.handLocal_quiet _
  · rename_i owed hb
    split
    · rename_i h
      exact s.offerReceipt_quiet _ (located owed hb) (State.ne_mounting_of_onBus (Bool.and_eq_true_iff.mp h).2)
    · exact Quiet.refl s
  · exact Quiet.refl s

theorem State.emptyAnswers_quiet (s : State) : Quiet s s.emptyAnswers :=
  Quiet.trans (t := { s with gap := { s.gap with answers := [] } }) { Quiet.refl s with } (State.endAllClaims_quiet _ _)

theorem State.emptySlot_quiet (s : State) : Quiet s s.emptySlot := { Quiet.refl s with }

theorem State.emptySendOnce_quiet (s : State) : Quiet s s.emptySendOnce :=
  Quiet.trans (t := { s with transmit := { s.transmit with sendOnce := [] } }) { Quiet.refl s with }
    (State.endAllClaims_quiet _ _)

theorem State.shortOnHalt_quiet (s : State) (e : TrackerEntry) : Quiet s (s.shortOnHalt e) := by
  unfold State.shortOnHalt
  split
  · exact Quiet.refl s
  · exact s.finish_quiet _ _ _

theorem State.applyRow_quiet (s : State) (origin : Nat) (c : RowChange) : Quiet s (s.applyRow origin c) := by
  have row : Quiet s (s.setOriginRow origin c.row) := { Quiet.refl s with }
  unfold State.applyRow
  simp only
  split
  · exact row
  · exact row.trans (State.post_quiet _ _)

theorem State.setRosterRow_quiet (s : State) (id : Nat) (r : RosterRow) : Quiet s (s.setRosterRow id r) :=
  { Quiet.refl s with }

theorem State.peerHeard_quiet (s : State) (id : Nat) (leaving : Bool) : Quiet s (s.peerHeard id leaving) := by
  unfold State.peerHeard
  split
  · exact Quiet.refl s
  · exact (s.setRosterRow_quiet _ _).trans (State.post_quiet _ _)
  · exact (s.setRosterRow_quiet _ _).trans (State.post_quiet _ _)
  · exact s.setRosterRow_quiet _ _
  · exact s.setRosterRow_quiet _ _

theorem State.rollHeard_quiet (s : State) (id : Nat) (roll : LastRoll) : Quiet s (s.rollHeard id roll) := by
  unfold State.rollHeard
  split
  · exact Quiet.refl s
  · exact s.setRosterRow_quiet _ _
  · exact (s.setRosterRow_quiet _ _).trans (State.post_quiet _ _)
  · exact (s.setRosterRow_quiet _ _).trans (State.post_quiet _ _)
  · exact s.setRosterRow_quiet _ _

theorem countReceipt_quiet (sender : Nat) (s : State) (k : Key) : Quiet s (countReceipt sender s k) := by
  unfold countReceipt
  split
  · exact Quiet.refl s
  · split
    · simp only
      split
      · exact (s.updateEntry_quiet _ _).trans (State.finish_quiet _ _ _ _)
      · exact s.updateEntry_quiet _ _
    · exact Quiet.refl s

theorem State.countReceipts_quiet (s : State) (sender : Nat) (keys : List Key) : Quiet s (s.countReceipts sender keys) := by
  unfold State.countReceipts
  split
  · exact Quiet.refl s
  · exact Quiet.foldl _ (countReceipt_quiet sender) _ _

theorem answerSeq_quiet (origin due : Nat) (s : State) (seq : Nat) : Quiet s (answerSeq origin due s seq) := by
  unfold answerSeq
  simp only
  split
  · exact { Quiet.refl s with }
  · exact Quiet.refl s

theorem State.takeRequest_quiet (s : State) (origin first span : Nat) : Quiet s (s.takeRequest origin first span) := by
  unfold State.takeRequest
  split
  · exact Quiet.foldl _ (answerSeq_quiet _ _) _ _
  · exact Quiet.refl s

theorem State.suppress_quiet (s : State) (k : Key) : Quiet s (s.suppress k) := by
  unfold State.suppress
  split
  · exact Quiet.refl s
  · exact s.removeAnswer_quiet k

theorem State.stage_quiet (s : State) (r : Record) (src : Source) : Quiet s (s.stage r src) := { Quiet.refl s with }

theorem State.arrival_quiet (s : State) (k : Key) : Quiet s (s.arrival k) :=
  (s.applyRow_quiet _ _).trans { Quiet.refl _ with }

/-- What the cases of R16 rest on: a record that is held is indexed, and the station is on the bus. -/
theorem State.recordCase_held {s : State} {k : Key} (h : s.recordCase k = .held) :
    s.onBus = true ∧ (s.locate k).isSome = true := by
  unfold State.recordCase at h
  split at h
  · cases h
  · rename_i off
    split at h
    · rename_i located
      simp only [Bool.or_eq_true, Bool.not_eq_true', not_or, Bool.not_eq_false] at off
      exact ⟨off.1, located⟩
    · repeat' split at h
      all_goals cases h

theorem State.classify_quiet (s : State) (r : Record) (repair : Bool) : Quiet s (s.classify r repair) := by
  unfold State.classify
  split
  · exact Quiet.refl s
  · rename_i h
    obtain ⟨onBus, located⟩ := State.recordCase_held h
    split
    · exact Quiet.refl s
    · exact s.offerReceipt_quiet _ located (State.ne_mounting_of_onBus onBus)
  · split
    · exact Quiet.refl s
    · exact { Quiet.refl s with }
  · exact Quiet.refl s
  · exact s.applyRow_quiet _ _
  · exact (s.stage_quiet _ _).trans (State.arrival_quiet _ _)

theorem State.takeTop_quiet (s : State) (id top : Nat) : Quiet s (s.takeTop id top) := by
  unfold State.takeTop
  split
  · simp only
    split
    · exact { Quiet.refl s with }
    · exact s.applyRow_quiet _ _
  · exact Quiet.refl s

theorem State.settleRequest_quiet (s : State) : Quiet s s.settleRequest := by
  unfold State.settleRequest
  split
  · exact Quiet.trans (t := { s with gap := { s.gap with slot := .empty } }) { Quiet.refl s with } (State.applyRow_quiet _ _ _)
  · exact { Quiet.refl s with }

theorem State.chooseRequest_quiet (s : State) : Quiet s s.chooseRequest := by
  unfold State.chooseRequest
  split
  · exact Quiet.refl s
  · exact { Quiet.refl s with }

theorem State.accept_quiet (s : State) (r : Submission) : Quiet s (s.accept r) := { Quiet.refl s with }

theorem State.evacuate_quiet (n : Nat) (s : State) : Quiet s (State.evacuate n s) := by
  induction n generalizing s with
  | zero => exact Quiet.refl s
  | succ n ih =>
    unfold State.evacuate
    split
    · exact Quiet.refl s
    · split
      · split
        · exact Quiet.refl s
        · rename_i r _
          exact Quiet.trans (t := s.placeEvacuationRead r) { Quiet.refl s with } (ih _)
      · exact Quiet.refl s

theorem State.giveBuffer_quiet (s : State) (i : BufferNo) (o : BufferOwner) : Quiet s (s.giveBuffer i o) := by
  unfold State.giveBuffer
  split
  · exact s.ownerAbsent_quiet o
  · exact { Quiet.refl s with }

theorem State.giveBuffers_quiet (n : Nat) (s : State) : Quiet s (State.giveBuffers n s) := by
  induction n generalizing s with
  | zero => exact Quiet.refl s
  | succ n ih =>
    unfold State.giveBuffers
    split
    · exact Quiet.refl s
    · exact (s.giveBuffer_quiet _ _).trans (ih _)

theorem State.drainTest_quiet (s : State) : Quiet s s.drainTest := by
  unfold State.drainTest
  split
  · exact { Quiet.refl s with }
  · exact Quiet.refl s

theorem State.evacuatorNext_quiet (s : State) : Quiet s s.evacuatorNext := by
  unfold State.evacuatorNext
  split
  · exact { Quiet.refl s with }
  · exact Quiet.refl s

theorem State.joinEvacuator_quiet (s : State) (b : BlockId) : Quiet s (s.joinEvacuator b) :=
  Quiet.trans (t := { s with map := { s.map with evacuator := { s.map.evacuator with
    retiring := s.insertRetiring b s.map.evacuator.retiring } } }) { Quiet.refl s with } (State.evacuatorNext_quiet _)

theorem State.evacuatorNext_eq (s : State) :
    s.evacuatorNext = { s with map := { s.map with evacuator := s.evacuatorNext.map.evacuator } } := by
  unfold State.evacuatorNext
  split <;> rfl

/-- All that retiring a block changes: its row, the evacuator, the marks requested and the events (R69). -/
theorem State.retire_eq (s : State) (b : BlockId) (cause : RetireCause) : s.retire b cause = { s with
    map := { s.map with blocks := s.map.blocks.set b.val .retired b.isLt, evacuator := (s.retire b cause).map.evacuator }
    sequencer := { s.sequencer with retireMarks := s.sequencer.retireMarks ++ [b] }
    port := (s.post (.blockRetired b (laneOf b) cause)).port } := by
  unfold State.retire State.leaveEvacuator State.evacuatorNext State.post
  by_cases room : s.port.events.length < Config.eventPlaces
  · simp only [room, State.setBlock, if_true]
    split <;> rfl
  · simp only [room, State.setBlock, if_false]
    split <;> rfl

/-- Retiring a block is the change of its row; all else is quiet (R69). -/
theorem State.retire_quiet (s : State) (b : BlockId) (cause : RetireCause) :
    Quiet (s.setBlock b .retired) (s.retire b cause) := by
  rw [State.retire_eq]
  exact { Quiet.refl (s.setBlock b .retired) with }

@[simp] theorem State.retire_intake (s : State) (b : BlockId) (cause : RetireCause) :
    (s.retire b cause).intake = s.intake := by rw [State.retire_eq]

theorem State.postIf_quiet (s : State) (e : Option Event) : Quiet s (s.postIf e) := by
  cases e
  · exact Quiet.refl s
  · exact s.post_quiet _

theorem State.postLaneEvents_quiet (before s : State) : Quiet s (State.postLaneEvents before s) :=
  Quiet.foldl (fun t l => t.postIf (laneEvent before s l)) (fun t _ => t.postIf_quiet _) _ s

end Sys2Proof.Machine
end


section
namespace Sys2Proof.Machine

/-! ### Blocks and lanes -/

theorem mem_laneBlocks {l : Lane} {b : BlockId} : b ∈ laneBlocks l ↔ laneOf b = l := by
  simp only [laneBlocks, laneOf, List.mem_map, List.mem_finRange, true_and, Fin.ext_iff]
  constructor
  · rintro ⟨i, hi⟩
    omega
  · intro h
    exact ⟨⟨b.val / 4, by omega⟩, by simp only; omega⟩

theorem laneBlocks_nodup (l : Lane) : (laneBlocks l).Nodup := by
  refine (List.nodup_finRange 64).map fun i j h => ?_
  simp only [Fin.mk.injEq] at h
  omega

@[simp] theorem State.block_setBlock (s : State) (b c : BlockId) (r : BlockRow) :
    (s.setBlock b r).block c = if c = b then r else s.block c := by
  simp only [State.block, State.setBlock, Vector.get_eq_getElem, Vector.getElem_set, Fin.ext_iff, eq_comm]

@[simp] theorem State.lane_setLane (s : State) (l m : Lane) (r : LaneRow) :
    (s.setLane l r).lane m = if m = l then r else s.lane m := by
  simp only [State.lane, State.setLane, Vector.get_eq_getElem, Vector.getElem_set, Fin.ext_iff, eq_comm]

@[simp] theorem State.lane_setBlock (s : State) (b : BlockId) (r : BlockRow) (l : Lane) :
    (s.setBlock b r).lane l = s.lane l := rfl

@[simp] theorem State.block_setLane (s : State) (l : Lane) (r : LaneRow) (b : BlockId) :
    (s.setLane l r).block b = s.block b := rfl

theorem Untouched.block {s u : State} (h : Untouched s u) (b : BlockId) : u.block b = s.block b := by
  simp only [State.block, h.blocks]

theorem Untouched.lane {s u : State} (h : Untouched s u) (l : Lane) : u.lane l = s.lane l := by
  simp only [State.lane, h.lanes]

theorem Untouched.locate {s u : State} (h : Untouched s u) (k : Key) : u.locate k = s.locate k := by
  simp only [State.locate, h.index]

/-- The OPEN block of a lane is one of its blocks, and OPEN. -/
theorem State.openBlock_some {s : State} {l : Lane} {o : OpenBlock} (h : s.openBlock l = some o) :
    laneOf o.block = l ∧ s.block o.block = .opened o.chain o.header o.position := by
  obtain ⟨b, hb, ho⟩ := List.exists_of_findSome?_eq_some h
  unfold State.asOpen at ho
  split at ho
  · rename_i hrow
    cases ho
    exact ⟨mem_laneBlocks.mp hb, hrow⟩
  · cases ho

/-- A lane without an OPEN block has no block that is OPEN. -/
theorem State.openBlock_none {s : State} {l : Lane} : s.openBlock l = none ↔ ∀ b, laneOf b = l → ¬ s.isOpen b := by
  unfold State.openBlock
  rw [List.findSome?_eq_none_iff]
  constructor
  · rintro h b hb ⟨chain, header, position, hrow⟩
    have := h b (mem_laneBlocks.mpr hb)
    simp [State.asOpen, hrow] at this
  · intro h b hb
    unfold State.asOpen
    split
    · rename_i hrow
      exact absurd ⟨_, _, _, hrow⟩ (h b (mem_laneBlocks.mp hb))
    · rfl

theorem State.mem_freePool {s : State} {l : Lane} {b : BlockId} : b ∈ s.freePool l ↔ laneOf b = l ∧ s.block b = .free := by
  simp [State.freePool, mem_laneBlocks]

/-- The oldest SEALED block of a lane is one of its blocks, and SEALED (R60). -/
theorem State.oldestSealed_some {s : State} {l : Lane} {b : BlockId} (h : s.oldestSealed l = some b) :
    laneOf b = l ∧ s.isSealed b := by
  suffices found : ∀ b, s.oldestSealed l = some b → laneOf b = l ∧ s.isSealed b from found b h
  unfold State.oldestSealed
  refine List.foldlRecOn (motive := fun best : Option BlockId => ∀ b, best = some b → laneOf b = l ∧ s.isSealed b)
    (laneBlocks l) _ (by simp) fun best hbest a ha b hb => ?_
  split at hb
  · rename_i chain hrow
    have sealed : laneOf a = l ∧ s.isSealed a := ⟨mem_laneBlocks.mp ha, chain, hrow⟩
    split at hb
    · exact Option.some.inj hb ▸ sealed
    · split at hb
      · exact Option.some.inj hb ▸ sealed
      · exact hbest b hb
  · exact hbest b hb

/-- A row that keeps its lane from being DEAD (R46). -/
def BlockRow.alive : BlockRow → Bool
  | .opened _ _ _ => true
  | .free => true
  | r => r.keepsFull

/-- A lane is DEAD exactly when none of its blocks is OPEN, FREE, SEALED, ERASING or DIRTY (R46). -/
theorem State.condition_dead_iff (s : State) (l : Lane) :
    s.condition l = .dead ↔ ∀ b, laneOf b = l → (s.block b).alive = false := by
  unfold State.condition
  constructor
  · intro h b hb
    split at h
    · cases h
    · rename_i hopen
      split at h
      · cases h
      · rename_i hfree
        split at h
        · cases h
        · rename_i hfull
          rw [Option.not_isSome_iff_eq_none, State.openBlock_none] at hopen
          simp only [Bool.not_eq_true', Bool.not_eq_false, List.isEmpty_iff] at hfree
          simp only [List.any_eq_true, not_exists, not_and, Bool.not_eq_true] at hfull
          cases hrow : s.block b with
          | opened chain header position => exact absurd ⟨_, _, _, hrow⟩ (hopen b hb)
          | free => exact absurd (State.mem_freePool.mpr ⟨hb, hrow⟩) (by simp [hfree])
          | _ => simpa [hrow, BlockRow.alive] using hfull b (mem_laneBlocks.mpr hb)
  · intro h
    have none_open : s.openBlock l = none := State.openBlock_none.mpr fun b hb ⟨_, _, _, hrow⟩ => by
      simpa [hrow, BlockRow.alive] using h b hb
    have none_free : s.freePool l = [] := List.eq_nil_iff_forall_not_mem.mpr fun b hb => by
      obtain ⟨hl, hrow⟩ := State.mem_freePool.mp hb
      simpa [hrow, BlockRow.alive] using h b hl
    have none_full : ((laneBlocks l).any fun b => (s.block b).keepsFull) = false := by
      rw [List.any_eq_false]
      intro b hb
      have := h b (mem_laneBlocks.mp hb)
      cases hrow : s.block b <;> simp_all [BlockRow.alive, BlockRow.keepsFull]
    simp [none_open, none_free, none_full]

/-- Every lane is DEAD exactly when no block is alive. -/
theorem State.allDead_iff (s : State) : s.allDead = true ↔ ∀ b, (s.block b).alive = false := by
  simp only [State.allDead, List.all_eq_true, List.mem_finRange, true_implies, beq_iff_eq, State.condition_dead_iff]
  exact ⟨fun h b => h _ b rfl, fun h _ b _ => h b⟩

/-- A block that is alive keeps the station from being all DEAD. -/
theorem State.allDead_of_alive {s : State} {b : BlockId} (h : (s.block b).alive = true) : s.allDead = false := by
  rw [Bool.eq_false_iff, ne_eq, State.allDead_iff]
  intro hd
  simp [hd b] at h

/-- Stations whose blocks are alive alike are all DEAD alike. -/
theorem State.allDead_congr {s u : State} (h : ∀ b, (u.block b).alive = (s.block b).alive) : u.allDead = s.allDead := by
  rw [Bool.eq_iff_iff, State.allDead_iff, State.allDead_iff]
  simp only [h]

/-! ### The law of the modes, in parts -/

/-- The parts of ModeLaw that speak of the line alone (R87, R92). -/
structure LineUnit.Law (line : LineUnit) : Prop where
  sending : line.state = .sending ↔ line.inFlight.isSome
  failureRun : line.failureRun ≤ 16
  silenced : line.silenced.isSome ↔ line.failureRun = 16
  quietWhenSilenced : line.silenced.isSome → line.state ≠ .sending
  failureTotal : line.failureTotal ≤ 65535
  rejectedTotal : line.rejectedTotal ≤ 65535

/-- ModeLaw but for the drain, which the workers test when all else is done. -/
structure ModeCore (s : State) : Prop where
  exclusive : s.sequencer.exclusive = true ↔ s.controller.state = .mounting
  scanning : ∀ b p, s.sequencer.inFlight = some (.scanRead b p) → s.sequencer.exclusive = true
  unconfigured : s.controller.state = .idle → s.controller.config = none
  following : s.line.state ≠ .off → s.controller.config.isSome ∧ s.controller.state ≠ .mounting
  line : s.line.Law
  halted : s.allDead = true → s.controller.state = .mounting ∨ s.controller.state = .halted

/-- A LEAVING station found drained has its last roll due (R114). -/
def DrainLaw (s : State) : Prop :=
  s.controller.state = .leaving → s.drained = true → s.controller.rollDue = some .leaving

theorem modeLaw_iff {s : State} : ModeLaw s ↔ ModeCore s ∧ DrainLaw s :=
  ⟨fun h => ⟨⟨h.exclusive, h.scanning, h.unconfigured, h.following,
      ⟨h.sending, h.failureRun, h.silenced, h.quietWhenSilenced, h.failureTotal, h.rejectedTotal⟩, h.halted⟩, h.drained⟩,
    fun ⟨h, d⟩ => ⟨h.exclusive, h.scanning, h.unconfigured, h.following, h.line.sending, h.line.failureRun,
      h.line.silenced, h.line.quietWhenSilenced, h.line.failureTotal, h.line.rejectedTotal, h.halted, d⟩⟩

theorem Untouched.allDead {s u : State} (h : Untouched s u) : u.allDead = s.allDead :=
  State.allDead_congr fun b => by rw [h.block]

theorem Quiet.modeCore {s u : State} (h : Quiet s u) (m : ModeCore s) : ModeCore u where
  exclusive := by rw [h.exclusive, h.state]; exact m.exclusive
  scanning := by rw [h.inFlight, h.exclusive]; exact m.scanning
  unconfigured := by rw [h.state, h.config]; exact m.unconfigured
  following := by rw [h.line, h.config, h.state]; exact m.following
  line := h.line ▸ m.line
  halted := by rw [h.allDead, h.state]; exact m.halted

/-- What a command does that touches neither the array nor what R28 to R64 keep of it: the line and the station state may
change, and stay legal. -/
structure Aside (s u : State) : Prop extends Untouched s u where
  mounting : u.controller.state = .mounting ↔ s.controller.state = .mounting
  mode : ModeCore s → ModeCore u

theorem Quiet.aside {s u : State} (h : Quiet s u) : Aside s u :=
  { h.toUntouched with mounting := by rw [h.state], mode := h.modeCore }

theorem Aside.refl (s : State) : Aside s s := (Quiet.refl s).aside

theorem Aside.trans {s t u : State} (h : Aside s t) (k : Aside t u) : Aside s u :=
  { h.toUntouched.trans k.toUntouched h.mounting.mpr with
    mounting := k.mounting.trans h.mounting
    mode := fun m => k.mode (h.mode m) }

/-- A change of the line that keeps its law, and follows the line only where it was followed (R97). -/
theorem Aside.of_line (s : State) (line : LineUnit) (follows : line.state ≠ .off → s.line.state ≠ .off)
    (law : s.line.Law → line.Law) : Aside s { s with line := line } :=
  { Quiet.refl s with
    mounting := Iff.rfl
    mode := fun m => ⟨m.exclusive, m.scanning, m.unconfigured, fun h => m.following (follows h), law m.line, m.halted⟩ }

/-- A change of the station state between the states outside the mount, IDLE and HALTED (R107). -/
theorem Aside.of_controller (s : State) (c : Controller) (config : c.config = s.controller.config)
    (before : s.controller.state ≠ .mounting ∧ s.controller.state ≠ .halted)
    (after : c.state ≠ .mounting ∧ c.state ≠ .idle) : Aside s { s with controller := c } :=
  { Quiet.refl s with
    mounting := by simp [before.1, after.1]
    mode := fun m => {
      exclusive := m.exclusive.trans (by simp [before.1, after.1])
      scanning := m.scanning
      unconfigured := fun h => absurd h after.2
      following := fun h => ⟨by rw [config]; exact (m.following h).1, after.1⟩
      line := m.line
      halted := fun h => by
        have := m.halted h
        simp [before.1, before.2] at this } }

end Sys2Proof.Machine
end


section
namespace Sys2Proof.Machine

/-! ### What the workers can do -/

open Relation (ReflTransGen)

/-- One thing a worker does (R29, R51 to R55, R60 to R62, R67, R102). -/
inductive WorkerStep (s : State) : State → Prop
  | quiet {u} (h : Quiet s u) : WorkerStep s u
  | purge (l : Lane) (b : BlockId) (h : (s.lane l).candidate = some b ∨ s.oldestSealed l = some b) :
      WorkerStep s (s.purge l b)
  | choose (l : Lane) (b : BlockId) (n : Nat) (h : s.oldestSealed l = some b) :
      WorkerStep s (s.setLane l { s.lane l with candidate := some b, freeThen := n })
  | drop (l : Lane) : WorkerStep s (s.setLane l { s.lane l with candidate := none })
  | form : WorkerStep s s.formPass
  | start (free : s.sequencer.isFree = true) : WorkerStep s { s with sequencer := s.sequencer.start }

/-- What the workers do one thing after another. -/
abbrev WorkerSteps : State → State → Prop := ReflTransGen WorkerStep

theorem WorkerSteps.foldl {α : Type} (f : State → α → State) (hf : ∀ s a, WorkerSteps s (f s a)) (l : List α) (s : State) :
    WorkerSteps s (l.foldl f s) := by
  induction l generalizing s with
  | nil => exact .refl
  | cons a rest ih => exact (hf s a).trans (ih (f s a))

theorem State.reclaimNew_steps (n : Nat) (s : State) (l : Lane) : WorkerSteps s (State.reclaimNew n s l) := by
  induction n generalizing s with
  | zero => exact .refl
  | succ n ih =>
    unfold State.reclaimNew
    split
    · split
      · exact .refl
      · rename_i b oldest
        split
        · exact .single (.choose l b _ oldest)
        · exact .head (.purge l b (.inr oldest)) (ih _)
    · exact .refl

theorem State.retest_steps (s : State) (l : Lane) : WorkerSteps s (s.retest l) := by
  unfold State.retest
  split
  · exact .refl
  · rename_i b candidate
    split
    · exact .single (.drop l)
    · split
      · exact .refl
      · exact .single (.purge l b (.inl candidate))

theorem reclaimLane_steps (released : Bool) (before s : State) (l : Lane) :
    WorkerSteps s (reclaimLane released before s l) := by
  unfold reclaimLane
  split
  · exact s.retest_steps l
  · split
    · split
      · exact (s.retest_steps l).trans (State.reclaimNew_steps _ _ _)
      · exact State.reclaimNew_steps _ _ _
    · exact .refl

theorem State.reclaim_steps (s : State) (released : Bool) (before : State) : WorkerSteps s (s.reclaim released before) := by
  have round : ∀ r t, WorkerSteps t (t.reclaimRound r before) := fun r t =>
    WorkerSteps.foldl _ (reclaimLane_steps r before) _ t
  rcases s.reclaim_cases released before with ⟨once, -⟩ | ⟨-, -, twice⟩
  · exact once ▸ round released s
  · exact twice ▸ (round false s).trans (round true _)

theorem State.formAndReclaim_steps (s : State) : WorkerSteps s s.formAndReclaim :=
  .head .form (State.reclaim_steps _ _ _)

theorem State.startNext_steps (s : State) : WorkerSteps s s.startNext := by
  unfold State.startNext
  split
  · rename_i free
    exact .single (.start free)
  · exact .refl

/-- The workers do such things, and end with the test of the drain (R114). -/
theorem State.workers_steps (before s : State) :
    ∃ t, WorkerSteps s t ∧ State.workers before s = t.drainTest :=
  ⟨_, .head (.quiet (State.evacuate_quiet _ s)) (.head (.quiet (State.giveBuffers_quiet _ _))
    ((((State.reclaim_steps _ _ before).trans (State.formAndReclaim_steps _)).trans (State.startNext_steps _)).trans
      (State.formAndReclaim_steps _))), rfl⟩

/-- No worker changes the station state. -/
theorem WorkerStep.state {s u : State} (h : WorkerStep s u) : u.controller.state = s.controller.state := by
  cases h with
  | quiet h => exact h.state
  | form => exact s.formPass_keep.state
  | _ => rfl

/-- Whatever each thing a worker does outside the mount keeps, the workers keep. -/
theorem State.settle_preserves (P : State → Prop)
    (step : ∀ s u, s.controller.state ≠ .mounting → WorkerStep s u → P s → P u) (before : State) {s : State} (h : P s) :
    P (State.settle before s) := by
  unfold State.settle
  split
  · exact h
  · rename_i running
    simp only [Bool.or_eq_true, beq_iff_eq, not_or] at running
    obtain ⟨t, steps, ht⟩ := State.workers_steps before s
    have keeps : t.controller.state ≠ .mounting ∧ P t := by
      clear ht
      induction steps with
      | refl => exact ⟨running.2, h⟩
      | tail _ hstep ih => exact ⟨hstep.state ▸ ih.1, step _ _ ih.1 hstep ih.2⟩
    rw [ht]
    exact step _ _ keeps.1 (.quiet t.drainTest_quiet) keeps.2

/-! ### What a request started leaves of the sequencer's lists -/

/-- A slot read or a retire mark: what is neither the scanner's nor names a pass or an erase. -/
def Operation.plain : Operation → Bool
  | .scanRead _ _ => false
  | .program _ => false
  | .erase _ => false
  | _ => true

/-- All that a request started can be: nothing, a slot read or a mark, the oldest pass, or a gang of erases that leaves its
lists (R29, R30). -/
theorem Sequencer.start_cases (q : Sequencer) :
    q.start = q ∨
    (∃ o, o.plain = true ∧ q.start.inFlight = some o ∧ q.start.programs = q.programs ∧
      q.start.dirtyErases = q.dirtyErases ∧ q.start.reclaimErases = q.reclaimErases) ∨
    (∃ p rest, q.programs = p :: rest ∧ q.start = { q with inFlight := some (.program p), programs := rest }) ∨
    ∃ lead rest, q.erases = lead :: rest ∧ q.start = { q with
      inFlight := some (.erase (eraseGang lead q.erases))
      dirtyErases := q.dirtyErases.filter fun o => !(eraseGang lead q.erases).contains o
      reclaimErases := q.reclaimErases.filter fun o => !(eraseGang lead q.erases).contains o } := by
  unfold Sequencer.start
  split
  · exact .inr (.inl ⟨_, rfl, rfl, rfl, rfl, rfl⟩)
  · exact .inr (.inl ⟨_, rfl, rfl, rfl, rfl, rfl⟩)
  · split
    · exact .inr (.inr (.inl ⟨_, _, by assumption, rfl⟩))
    · exact .inr (.inr (.inr ⟨_, _, by assumption, rfl⟩))
    · exact .inr (.inl ⟨_, rfl, rfl, rfl, rfl, rfl⟩)
    · exact .inr (.inl ⟨_, rfl, rfl, rfl, rfl, rfl⟩)
    · exact .inl rfl

/-! ### The workers keep the modes -/

/-- Opening a block leaves the station with one that is alive, and all others as they were (R53). -/
theorem State.openIfNeeded_cases (s : State) (l : Lane) :
    s.openIfNeeded l = s ∨ s.openBlock l = none ∧ ∃ b chain header next draws, laneOf b = l ∧ s.block b = .free ∧
      s.openIfNeeded l = { s.setBlock b (.opened chain (some header) ⟨0, 0, 0⟩) with
        map := { (s.setBlock b (.opened chain (some header) ⟨0, 0, 0⟩)).map with nextChain := next }
        freeDraws := draws } := by
  unfold State.openIfNeeded
  split
  · exact .inl rfl
  · rename_i closed
    split
    · exact .inl rfl
    · rename_i b rest hpool
      obtain ⟨hl, hrow⟩ := State.mem_freePool.mp (hpool ▸ List.mem_cons_self : b ∈ s.freePool l)
      exact .inr ⟨closed, b, _, _, _, _, hl, hrow, rfl⟩

/-- All that the builder can do: nothing, open a block of the lead lane and no more, or place a pass as well (R51 to R55). -/
theorem State.formPass_cases (s : State) :
    s.formPass = s ∨ ∃ lead, s.canTake lead = true ∧ (s.formPass = s.openIfNeeded lead ∨
      ∃ o, (s.openIfNeeded lead).openBlock lead = some o ∧ s.formPass = (s.openIfNeeded lead).placePass lead
        (formLane o (s.waiting.take o.position.free) :: (s.openIfNeeded lead).joinLanes o.position.page
          [lead + 1, lead + 2, lead + 3] (s.waiting.drop o.position.free))) := by
  unfold State.formPass
  split
  · exact .inl rfl
  · split
    · exact .inl rfl
    · rename_i lead hlead
      refine .inr ⟨lead, by simpa using List.find?_some hlead, ?_⟩
      have waiting : (s.openIfNeeded lead).waiting = s.waiting := by
        rcases s.openIfNeeded_cases lead with h | ⟨_, b, chain, header, next, draws, _, _, h⟩ <;> rw [h]
        rfl
      simp only [waiting]
      split
      · exact .inl rfl
      · rename_i o ho
        exact .inr ⟨o, ho, rfl⟩

/-- Setting the rows of lanes changes nothing but the lane rows. -/
theorem State.foldl_setLane_eq (row : State → PassLane → LaneRow) (lanes : List PassLane) (s : State) :
    lanes.foldl (fun s p => s.setLane (laneOf p.block) (row s p)) s = { s with map := { s.map with
      lanes := (lanes.foldl (fun s p => s.setLane (laneOf p.block) (row s p)) s).map.lanes } } := by
  induction lanes generalizing s with
  | nil => rfl
  | cons p rest ih =>
    rw [List.foldl_cons, ih]
    rfl

/-- All that placing a pass changes (R11, R55). -/
theorem State.placePass_eq (s : State) (lead : Lane) (lanes : List PassLane) : s.placePass lead lanes = { s with
    intake := s.intake.map (assign (lanes.flatMap PassLane.assignments))
    sequencer := { s.sequencer with programs := s.sequencer.programs ++ [lanes] }
    map := { s.map with rotation := lead, lanes := (s.placePass lead lanes).map.lanes } } :=
  State.foldl_setLane_eq (fun s p => { s.lane (laneOf p.block) with engaged := true }) lanes _

theorem State.block_placePass (s : State) (lead : Lane) (lanes : List PassLane) (b : BlockId) :
    (s.placePass lead lanes).block b = s.block b := by rw [State.placePass_eq]; rfl

/-- The builder leaves a block alive that was (R53). -/
theorem State.formPass_alive {s : State} {b : BlockId} (h : (s.block b).alive = true) :
    (s.formPass.block b).alive = true := by
  have opened : ∀ l, ((s.openIfNeeded l).block b).alive = true := by
    intro l
    rcases s.openIfNeeded_cases l with e | ⟨_, c, _, _, _, _, _, _, e⟩ <;> rw [e]
    · exact h
    · show (((s.setBlock c _).block b)).alive = true
      rw [State.block_setBlock]
      split
      · rfl
      · exact h
  rcases s.formPass_cases with e | ⟨lead, _, e | ⟨o, _, e⟩⟩ <;> rw [e]
  · exact h
  · exact opened lead
  · rw [State.block_placePass]
    exact opened lead

theorem State.openIfNeeded_sequencer (s : State) (l : Lane) : (s.openIfNeeded l).sequencer = s.sequencer := by
  rcases s.openIfNeeded_cases l with h | ⟨_, _, _, _, _, _, _, _, h⟩ <;> rw [h]
  rfl

theorem State.placePass_sequencer (s : State) (lead : Lane) (lanes : List PassLane) :
    (s.placePass lead lanes).sequencer = { s.sequencer with programs := s.sequencer.programs ++ [lanes] } := by
  rw [State.placePass_eq]

theorem State.formPass_inFlight (s : State) : s.formPass.sequencer.inFlight = s.sequencer.inFlight := by
  rcases s.formPass_cases with h | ⟨lead, _, h | ⟨o, _, h⟩⟩ <;> rw [h]
  · rw [State.openIfNeeded_sequencer]
  · rw [State.placePass_sequencer, State.openIfNeeded_sequencer]

/-- The builder leaves the index and the Receipt List as they are. -/
theorem State.formPass_index (s : State) : s.formPass.index = s.index ∧ s.formPass.receipts = s.receipts := by
  have opened : ∀ l, (s.openIfNeeded l).index = s.index ∧ (s.openIfNeeded l).receipts = s.receipts := fun l => by
    rcases s.openIfNeeded_cases l with h | ⟨_, _, _, _, _, _, _, _, h⟩ <;> rw [h] <;> exact ⟨rfl, rfl⟩
  rcases s.formPass_cases with h | ⟨lead, _, h | ⟨o, _, h⟩⟩ <;> rw [h]
  · exact ⟨rfl, rfl⟩
  · exact opened lead
  · rw [State.placePass_eq]
    exact opened lead

/-- A change that starts no scan read, leaves the line and the station state, and leaves a block alive where one was. -/
theorem ModeCore.of_keep {s u : State} (h : ModeCore s) (keep : WorkersKeep s u)
    (scan : ∀ b p, u.sequencer.inFlight = some (.scanRead b p) → s.sequencer.inFlight = some (.scanRead b p))
    (alive : s.allDead = false → u.allDead = false) : ModeCore u where
  exclusive := by rw [keep.exclusive, keep.state]; exact h.exclusive
  scanning := fun b p hs => by rw [keep.exclusive]; exact h.scanning b p (scan b p hs)
  unconfigured := by rw [keep.state, keep.config]; exact h.unconfigured
  following := by rw [keep.line, keep.state, keep.config]; exact h.following
  line := keep.line ▸ h.line
  halted := fun hd => by
    rw [keep.state]
    refine h.halted ?_
    by_contra hs
    simp [alive (by simpa using hs)] at hd

/-- No worker starts a scan read (R27, R71). -/
theorem WorkerStep.reading {s u : State} (h : WorkerStep s u) {b : BlockId} {p : PageNo}
    (hu : u.sequencer.inFlight = some (.scanRead b p)) : s.sequencer.inFlight = some (.scanRead b p) := by
  cases h with
  | quiet h => exact h.inFlight ▸ hu
  | purge => exact hu
  | choose => exact hu
  | drop => exact hu
  | form => exact s.formPass_inFlight ▸ hu
  | start free =>
    rcases s.sequencer.start_cases with e | ⟨o, plain, e, _⟩ | ⟨_, _, _, e⟩ | ⟨_, _, _, e⟩
    · exact e ▸ hu
    · rw [e] at hu
      cases hu
      cases plain
    · rw [e] at hu
      cases hu
    · rw [e] at hu
      cases hu

theorem WorkerStep.modeCore {s u : State} (h : WorkerStep s u) (m : ModeCore s) : ModeCore u := by
  have scan := fun b p => h.reading (b := b) (p := p)
  cases h with
  | quiet h => exact h.modeCore m
  | purge l b =>
    refine m.of_keep (s.purge_keep l b) scan fun _ => State.allDead_of_alive (b := b) ?_
    show (((s.setBlock b .erasing).block b)).alive = true
    rw [State.block_setBlock, if_pos rfl]
    rfl
  | choose l b n => exact m.of_keep (s.setLane_keep _ _) scan fun h => h
  | drop l => exact m.of_keep (s.setLane_keep _ _) scan fun h => h
  | form =>
    refine m.of_keep s.formPass_keep scan fun h => ?_
    rw [Bool.eq_false_iff, ne_eq, State.allDead_iff, not_forall] at h
    obtain ⟨b, hb⟩ := h
    exact State.allDead_of_alive (State.formPass_alive (by simpa using hb))
  | start free =>
    have keep : WorkersKeep s { s with sequencer := s.sequencer.start } :=
      { WorkersKeep.refl s with
        exclusive := Sequencer.start_exclusive _
        protect := Sequencer.start_protect _ }
    exact m.of_keep keep scan fun h => h

/-- The workers leave the modes legal, and the drain tested (R114). -/
theorem State.settle_modeLaw (before : State) {s : State} (h : ModeCore s) (awake : s.held = false) :
    ModeLaw (State.settle before s) := by
  refine modeLaw_iff.mpr ⟨State.settle_preserves ModeCore (fun _ _ _ step => step.modeCore) before h, ?_⟩
  unfold State.settle
  split
  · rename_i idle
    simp only [awake, Bool.false_or, beq_iff_eq] at idle
    intro hl
    rw [idle] at hl
    cases hl
  · obtain ⟨t, -, ht⟩ := State.workers_steps before s
    rw [ht]
    unfold DrainLaw State.drainTest
    split
    · exact fun _ _ => rfl
    · rename_i h
      exact fun hl hd => absurd ⟨hl, hd⟩ h

end Sys2Proof.Machine
end


section
namespace Sys2Proof.Machine

/-! ### One of each lane -/

/-- The first of each of these lanes, in the order of the lanes (R30; log 9). -/
def firstOfLanes {α : Type} (lane : α → Lane) (lanes : List Lane) (l : List α) : List α :=
  lanes.filterMap fun m => l.find? fun a => lane a == m

theorem passesInOrder_eq (lanes : List PassLane) :
    passesInOrder lanes = firstOfLanes (fun p => laneOf p.block) (List.finRange 4) lanes := rfl

theorem blocksInOrder_eq (blocks : List BlockId) : blocksInOrder blocks = firstOfLanes laneOf (List.finRange 4) blocks := rfl

theorem eraseGang_eq (lead : BlockId) (waiting : List BlockId) : eraseGang lead waiting =
    lead :: firstOfLanes laneOf ((List.finRange 4).filter fun l => l ≠ laneOf lead) waiting := rfl

theorem mem_firstOfLanes {α : Type} {lane : α → Lane} {lanes : List Lane} {l : List α} {a : α} :
    a ∈ firstOfLanes lane lanes l ↔ lane a ∈ lanes ∧ (l.find? fun x => lane x == lane a) = some a := by
  rw [firstOfLanes, List.mem_filterMap]
  constructor
  · rintro ⟨m, hm, hfind⟩
    obtain rfl : lane a = m := by simpa using List.find?_some hfind
    exact ⟨hm, hfind⟩
  · rintro ⟨hm, hfind⟩
    exact ⟨_, hm, hfind⟩

theorem firstOfLanes_subset {α : Type} {lane : α → Lane} {lanes : List Lane} {l : List α} {a : α}
    (h : a ∈ firstOfLanes lane lanes l) : a ∈ l := List.mem_of_find?_eq_some (mem_firstOfLanes.mp h).2

/-- The lanes of the elements taken are some of the lanes asked for, in their order. -/
theorem firstOfLanes_sublist {α : Type} (lane : α → Lane) (lanes : List Lane) (l : List α) :
    ((firstOfLanes lane lanes l).map lane).Sublist lanes := by
  induction lanes with
  | nil => exact List.Sublist.slnil
  | cons m rest ih =>
    unfold firstOfLanes
    rw [List.filterMap_cons]
    split
    · exact ih.cons m
    · rename_i a hfind
      obtain rfl : lane a = m := by simpa using List.find?_some hfind
      exact ih.cons_cons _

theorem firstOfLanes_ascending {α : Type} (lane : α → Lane) {lanes : List Lane} (h : lanes.Pairwise (· < ·)) (l : List α) :
    ((firstOfLanes lane lanes l).map lane).Pairwise (· < ·) := h.sublist (firstOfLanes_sublist lane lanes l)

/-- Where every element has a lane of its own, each is the first of its lane. -/
theorem find?_of_lanes_nodup {α : Type} {lane : α → Lane} {l : List α} (h : (l.map lane).Nodup) {a : α} (ha : a ∈ l) :
    (l.find? fun x => lane x == lane a) = some a := by
  induction l with
  | nil => cases ha
  | cons x rest ih =>
    rw [List.map_cons, List.nodup_cons] at h
    rw [List.find?_cons]
    split
    · rename_i hx
      rcases List.mem_cons.mp ha with rfl | ha
      · rfl
      · exact absurd (List.mem_map_of_mem (f := lane) ha) (by rw [← eq_of_beq hx]; exact h.1)
    · rename_i hx
      rcases List.mem_cons.mp ha with rfl | ha
      · simp at hx
      · exact ih h.2 ha

/-! ### What a completion keeps -/

/-- What the end of an operation of the array keeps: requests of class 3 and reclaim requests, lanes, scanner, line and station
state; it keeps the array canonical and the index sorted, and no key leaves the index. -/
structure Completing (s u : State) : Prop where
  inFlight : u.sequencer.inFlight = s.sequencer.inFlight
  exclusive : u.sequencer.exclusive = s.sequencer.exclusive
  programs : u.sequencer.programs = s.sequencer.programs
  reclaimErases : u.sequencer.reclaimErases = s.sequencer.reclaimErases
  scanner : u.scanner = s.scanner
  line : u.line = s.line
  state : u.controller.state = s.controller.state
  config : u.controller.config = s.controller.config
  held : u.held = s.held
  flash : Memory.wf s.flash = true → Memory.wf u.flash = true
  sorted : mapSorted keyLt s.index = true → mapSorted keyLt u.index = true
  located : ∀ k, (s.locate k).isSome = true → (u.locate k).isSome = true
  receipts : ∀ k ∈ u.receipts, k ∈ s.receipts ∨ (u.locate k).isSome = true ∧ s.controller.state ≠ .mounting

theorem Completing.refl (s : State) : Completing s s where
  inFlight := rfl
  exclusive := rfl
  programs := rfl
  reclaimErases := rfl
  scanner := rfl
  line := rfl
  state := rfl
  config := rfl
  held := rfl
  flash := id
  sorted := id
  located := fun _ => id
  receipts := fun _ => .inl

theorem Completing.trans {s t u : State} (h : Completing s t) (k : Completing t u) : Completing s u where
  inFlight := k.inFlight.trans h.inFlight
  exclusive := k.exclusive.trans h.exclusive
  programs := k.programs.trans h.programs
  reclaimErases := k.reclaimErases.trans h.reclaimErases
  scanner := k.scanner.trans h.scanner
  line := k.line.trans h.line
  state := k.state.trans h.state
  config := k.config.trans h.config
  held := k.held.trans h.held
  flash := fun w => k.flash (h.flash w)
  sorted := fun w => k.sorted (h.sorted w)
  located := fun x hx => k.located x (h.located x hx)
  receipts := fun x hx => by
    rcases k.receipts x hx with hx | ⟨located, running⟩
    · exact (h.receipts x hx).imp_right fun ⟨located, running⟩ => ⟨k.located x located, running⟩
    · exact .inr ⟨located, h.state ▸ running⟩

theorem Completing.foldl {α : Type} (f : State → α → State) (hf : ∀ s a, Completing s (f s a)) (l : List α) (s : State) :
    Completing s (l.foldl f s) := by
  induction l generalizing s with
  | nil => exact Completing.refl s
  | cons a rest ih => exact (hf s a).trans (ih (f s a))

theorem Quiet.completing {s u : State} (h : Quiet s u) : Completing s u where
  inFlight := h.inFlight
  exclusive := h.exclusive
  programs := h.programs
  reclaimErases := h.reclaimErases
  scanner := h.scanner
  line := h.line
  state := h.state
  config := h.config
  held := h.held
  flash := fun w => h.flash ▸ w
  sorted := fun w => h.index ▸ w
  located := fun k hk => by rw [h.locate]; exact hk
  receipts := fun k hk => by rw [h.locate]; exact h.receipts k hk

theorem State.setBlock_completing (s : State) (b : BlockId) (r : BlockRow) : Completing s (s.setBlock b r) :=
  { Completing.refl s with }

theorem State.retire_completing (s : State) (b : BlockId) (cause : RetireCause) : Completing s (s.retire b cause) :=
  (s.setBlock_completing _ _).trans (s.retire_quiet b cause).completing

/-- What a block does whose index entries may all have gone (R49, R69). -/
theorem State.retireIfEmptied_cases (s : State) (b : BlockId) :
    s.retireIfEmptied b = s ∨ ∃ chain, s.block b = .retiring chain ∧ s.liveCount b = 0 ∧
      s.retireIfEmptied b = s.retire b .program := by
  unfold State.retireIfEmptied
  split
  · rename_i chain hrow
    split
    · rename_i hlive
      exact .inr ⟨chain, hrow, hlive, rfl⟩
    · exact .inl rfl
  · exact .inl rfl

theorem State.retireIfEmptied_completing (s : State) (b : BlockId) : Completing s (s.retireIfEmptied b) := by
  rcases s.retireIfEmptied_cases b with h | ⟨_, _, _, h⟩ <;> rw [h]
  · exact Completing.refl s
  · exact s.retire_completing b _

@[simp] theorem State.locate_indexPut (s : State) (k j : Key) (l : Loc) :
    (s.indexPut k l).locate j = if j = k then some l else s.locate j := mapGet_mapPut _ _ _ _ _

theorem State.indexPut_completing (s : State) (k : Key) (l : Loc) : Completing s (s.indexPut k l) :=
  { Completing.refl s with
    sorted := mapSorted_mapPut keyLt keyLt_trans keyLt_total _ _ _
    located := fun j hj => by
      rw [State.locate_indexPut]
      split
      · rfl
      · exact hj
    receipts := fun _ => .inl }

/-- What indexing an entry can do: nothing, or its key takes its slot, and the block an evacuated key has left is retired when
it is empty (R12, R14). -/
theorem State.indexEntry_cases (s : State) (e : IntakeEntry) :
    s.indexEntry e = s ∨ ∃ l, e.state = .inPass l ∧ (s.indexEntry e = s.indexPut e.record.key l ∨
      ∃ former, s.locate e.record.key = some former ∧
        s.indexEntry e = (s.indexPut e.record.key l).retireIfEmptied former.block) := by
  unfold State.indexEntry
  split
  · exact .inl rfl
  · rename_i l hl
    split
    · split
      · exact .inl rfl
      · rename_i former hf
        exact .inr ⟨l, hl, .inr ⟨former, hf, rfl⟩⟩
    · exact .inr ⟨l, hl, .inl rfl⟩

theorem State.indexEntry_completing (s : State) (e : IntakeEntry) : Completing s (s.indexEntry e) := by
  rcases s.indexEntry_cases e with h | ⟨l, _, h | ⟨former, _, h⟩⟩ <;> rw [h]
  · exact Completing.refl s
  · exact s.indexPut_completing _ _
  · exact (s.indexPut_completing _ _).trans (State.retireIfEmptied_completing _ _)

theorem State.completeEntries_completing (s : State) (b : BlockId) : Completing s (s.completeEntries b) :=
  (Completing.foldl _ State.indexEntry_completing _ s).trans { Completing.refl _ with }

theorem State.lanePass_completing (s : State) (p : PassLane) : Completing s (s.lanePass p) := by
  have entries := s.completeEntries_completing p.block
  unfold State.lanePass
  simp only
  split
  · exact entries.trans (State.setBlock_completing _ _ _)
  · exact entries

theorem State.laneFail_completing (s : State) (p : PassLane) : Completing s (s.laneFail p) := by
  have entries : Completing s (s.returnEntries p.block) := { Completing.refl s with }
  unfold State.laneFail
  simp only
  split
  · split
    · exact entries.trans (State.retire_completing _ _ _)
    · exact (entries.trans (State.setBlock_completing _ _ _)).trans (State.joinEvacuator_quiet _ _).completing
  · exact entries

theorem State.laneAbort_completing (s : State) (p : PassLane) : Completing s (s.laneAbort p) := by
  have entries : Completing s (s.returnEntries p.block) := { Completing.refl s with }
  unfold State.laneAbort
  simp only
  split
  · exact entries.trans (State.setBlock_completing _ _ _)
  · exact entries

theorem State.programCells_completing (s : State) (p : PassLane) (fate : Option PassFate) :
    Completing s (s.programCells p fate) :=
  { Completing.refl s with flash := programFlash_wf _ _ _ }

theorem State.laneResult_completing (outcome : PassLane → PassResult) (s : State) (p : PassLane) :
    Completing s (s.laneResult outcome p) := by
  unfold State.laneResult
  split
  · exact (s.programCells_completing _ _).trans (State.lanePass_completing _ _)
  · exact (s.programCells_completing _ _).trans (State.laneFail_completing _ _)
  · exact (s.programCells_completing _ _).trans (State.laneAbort_completing _ _)

theorem State.disengage_completing (s : State) (lanes : List PassLane) : Completing s (s.disengage lanes) :=
  Completing.foldl (fun s (p : PassLane) => s.setLane (laneOf p.block) { s.lane (laneOf p.block) with engaged := false })
    (fun s _ => { Completing.refl s with }) lanes s

theorem State.blockErased_completing (results : Lane → EraseResult) (s : State) (b : BlockId) :
    Completing s (s.blockErased results b) := by
  have cells : ∀ fate, Completing s (s.eraseCells b fate) := fun fate =>
    { Completing.refl s with flash := eraseFlash_wf _ _ _ }
  unfold State.blockErased
  split
  · exact (cells _).trans (State.setBlock_completing _ _ _)
  · exact (cells _).trans (State.retire_completing _ _ _)
  · exact (cells _).trans { Completing.refl _ with }

/-! ### The halt -/

/-- The halt is the change of the station state, with the Receipt List emptied; all else of it is quiet (R116). -/
theorem State.halt_quiet (s : State) : Quiet { s with
    controller := { s.controller with
      state := .halted
      rollDue := if s.onBus then some .leaving else none
      rollTimer := none }
    receipts := [] } s.halt := by
  unfold State.halt
  simp only
  refine Quiet.trans (Quiet.trans ?_ (State.post_quiet _ _)) (Quiet.foldl _ State.shortOnHalt_quiet _ _)
  exact ((State.emptyAnswers_quiet _).trans (State.emptySlot_quiet _)).trans (State.emptySendOnce_quiet _)

/-- The halt leaves what Untouched names. -/
theorem State.haltIfDead_untouched (s : State) : Untouched s s.haltIfDead := by
  unfold State.haltIfDead
  split
  · refine Untouched.trans (t := { s with
      controller := { s.controller with
        state := .halted
        rollDue := if s.onBus then some .leaving else none
        rollTimer := none }
      receipts := [] }) ?_ s.halt_quiet.toUntouched ?_
    · exact { Quiet.refl s with receipts := by simp }
    · rename_i h
      simp only [Bool.and_eq_true, bne_iff_ne] at h
      exact fun hm => absurd hm h.2
  · exact (Quiet.refl s).toUntouched

/-- A station halts, or stays in its state and is not all DEAD (R47, R116). -/
theorem State.haltIfDead_state (s : State) :
    s.haltIfDead.controller.state = .halted ∨ s.haltIfDead = s ∧
      (s.allDead = true → s.controller.state = .mounting ∨ s.controller.state = .halted) := by
  unfold State.haltIfDead
  split
  · exact .inl s.halt_quiet.state
  · rename_i h
    refine .inr ⟨rfl, fun hd => ?_⟩
    simp only [hd, Bool.true_and, Bool.and_eq_true, bne_iff_ne, not_and, not_not] at h
    by_cases hh : s.controller.state = .halted
    · exact .inr hh
    · exact .inl (h hh)

theorem State.haltIfDead_line (s : State) : s.haltIfDead.line = s.line := by
  unfold State.haltIfDead
  split
  · exact s.halt_quiet.line
  · rfl

theorem State.haltIfDead_config (s : State) : s.haltIfDead.controller.config = s.controller.config := by
  unfold State.haltIfDead
  split
  · exact s.halt_quiet.config
  · rfl

theorem State.haltIfDead_held (s : State) : s.haltIfDead.held = s.held := by
  unfold State.haltIfDead
  split
  · exact s.halt_quiet.held
  · rfl

theorem State.haltIfDead_mounting (s : State) :
    s.haltIfDead.controller.state = .mounting ↔ s.controller.state = .mounting := by
  unfold State.haltIfDead
  split
  · rename_i h
    simp only [Bool.and_eq_true, bne_iff_ne] at h
    simp [s.halt_quiet.state, h.2]
  · rfl

/-- After the halt that it may call for, a completion leaves the modes legal (R47). -/
theorem ModeCore.haltIfDead {s u : State} (m : ModeCore s) (c : Completing s u) : ModeCore u.haltIfDead where
  exclusive := by
    rw [u.haltIfDead_untouched.exclusive, u.haltIfDead_mounting, c.exclusive, c.state]
    exact m.exclusive
  scanning := by
    rw [u.haltIfDead_untouched.inFlight, u.haltIfDead_untouched.exclusive, c.inFlight, c.exclusive]
    exact m.scanning
  unconfigured := fun h => by
    rcases u.haltIfDead_state with hh | ⟨hu, _⟩
    · rw [hh] at h
      cases h
    · rw [hu, c.config]
      rw [hu, c.state] at h
      exact m.unconfigured h
  following := by
    rw [u.haltIfDead_line, u.haltIfDead_config, ne_eq (u.haltIfDead.controller.state), u.haltIfDead_mounting, c.line,
      c.config, c.state]
    exact m.following
  line := by rw [u.haltIfDead_line, c.line]; exact m.line
  halted := fun h => by
    rcases u.haltIfDead_state with hh | ⟨hu, hd⟩
    · exact .inr hh
    · rw [hu] at h ⊢
      exact hd h

end Sys2Proof.Machine
end


section
namespace Sys2Proof.Machine

/-! ### The completions -/

/-- The operation in flight has ended so, and the array is free: the completion but for the workers (R31, R33, R36). -/
inductive Completion (s : State) : State → Prop
  | program (lanes : List PassLane) (results : Lane → PassResult) (running : s.sequencer.inFlight = some (.program lanes)) :
      Completion s (s.programCompletion lanes results)
  | erase (blocks : List BlockId) (results : Lane → EraseResult) (running : s.sequencer.inFlight = some (.erase blocks)) :
      Completion s (s.eraseCompletion blocks results)
  | mark (b : BlockId) (fate : Landed MarkCells) (running : s.sequencer.inFlight = some (.retireMark b)) :
      Completion s (s.markCompletion b fate)

/-- The state in which the lanes of a pass have their results, before the lane events. -/
def State.passEnded (s : State) (lanes : List PassLane) (results : Lane → PassResult) : State :=
  ((passesInOrder lanes).foldl (State.laneResult (passOutcome s.flash results)) s.freeArray).disengage lanes

/-- The state in which the blocks of an erase have their results, before the lane events. -/
def State.eraseEnded (s : State) (blocks : List BlockId) (results : Lane → EraseResult) : State :=
  (blocksInOrder blocks).foldl (State.blockErased results) s.freeArray

theorem State.passEnded_completing (s : State) (lanes : List PassLane) (results : Lane → PassResult) :
    Completing s.freeArray (s.passEnded lanes results) :=
  (Completing.foldl _ (State.laneResult_completing _) _ _).trans (State.disengage_completing _ _)

theorem State.eraseEnded_completing (s : State) (blocks : List BlockId) (results : Lane → EraseResult) :
    Completing s.freeArray (s.eraseEnded blocks results) :=
  Completing.foldl _ (State.blockErased_completing results) _ _

/-! An entry whose lane passes is indexed. -/

/-- R12: the key of a LOCAL or BUS entry is inserted at its assignment. -/
theorem State.indexEntry_of_stays {e : IntakeEntry} {l : Loc} (assigned : e.state = .inPass l)
    (stays : ∀ former, e.source ≠ .evacuation former) (s : State) : s.indexEntry e = s.indexPut e.record.key l := by
  cases hs : e.source with
  | evacuation former => exact absurd hs (stays former)
  | _ => simp only [State.indexEntry, assigned, hs]

/-- A fold that indexes such an entry among others leaves its key indexed. -/
theorem foldl_indexEntry_located {e : IntakeEntry} {entries : List IntakeEntry} (he : e ∈ entries) {l : Loc}
    (assigned : e.state = .inPass l) (stays : ∀ former, e.source ≠ .evacuation former) (s : State) :
    ((entries.foldl State.indexEntry s).locate e.record.key).isSome = true := by
  obtain ⟨before, after, rfl⟩ := List.append_of_mem he
  rw [List.foldl_append, List.foldl_cons]
  refine (Completing.foldl _ State.indexEntry_completing after _).located _ ?_
  rw [State.indexEntry_of_stays assigned stays, State.locate_indexPut, if_pos rfl]
  rfl

@[simp] theorem State.retireIfEmptied_intake (s : State) (b : BlockId) : (s.retireIfEmptied b).intake = s.intake := by
  rcases s.retireIfEmptied_cases b with h | ⟨_, _, _, h⟩ <;> rw [h]
  exact s.retire_intake _ _

@[simp] theorem State.indexEntry_intake (s : State) (e : IntakeEntry) : (s.indexEntry e).intake = s.intake := by
  rcases s.indexEntry_cases e with h | ⟨l, _, h | ⟨former, _, h⟩⟩ <;> rw [h]
  · rfl
  · rw [State.retireIfEmptied_intake]
    rfl

@[simp] theorem State.joinEvacuator_intake (s : State) (b : BlockId) : (s.joinEvacuator b).intake = s.intake := by
  unfold State.joinEvacuator
  rw [State.evacuatorNext_eq]

/-- What a lane's result leaves of the intake queue: an entry of another block stands as it was. -/
theorem State.mem_laneResult_intake {outcome : PassLane → PassResult} {s : State} {p : PassLane} {e : IntakeEntry}
    (he : e ∈ s.intake) (other : e.inPassOn p.block = false) : e ∈ (s.laneResult outcome p).intake := by
  have returned : ∀ t : State, e ∈ t.intake → e ∈ (t.returnEntries p.block).intake := fun t ht =>
    List.mem_map.mpr ⟨e, ht, by simp [other]⟩
  have completed : ∀ t : State, e ∈ t.intake → e ∈ (t.completeEntries p.block).intake := fun t ht => by
    refine List.mem_filter.mpr ⟨?_, by simp [other]⟩
    rw [foldl_field State.intake _ State.indexEntry_intake]
    exact ht
  unfold State.laneResult
  split
  · unfold State.lanePass
    simp only
    split <;> exact completed _ he
  · unfold State.laneFail
    simp only
    split
    · split
      · rw [State.retire_intake]
        exact returned _ he
      · rw [State.joinEvacuator_intake]
        exact returned _ he
    · exact returned _ he
  · unfold State.laneAbort
    simp only
    split <;> exact returned _ he

theorem IntakeEntry.inPassOn_iff {e : IntakeEntry} {b : BlockId} :
    e.inPassOn b = true ↔ ∃ l, e.state = .inPass l ∧ l.block = b := by
  unfold IntakeEntry.inPassOn
  split <;> simp_all

/-- The entries of a block whose lane passes are indexed (R12). -/
theorem State.laneResult_located {outcome : PassLane → PassResult} {s : State} {p : PassLane} {e : IntakeEntry}
    (he : e ∈ s.intake) (inPass : e.inPassOn p.block = true) (ok : hasPassed (outcome p) = true)
    (stays : ∀ former, e.source ≠ .evacuation former) :
    ((s.laneResult outcome p).locate e.record.key).isSome = true := by
  obtain ⟨l, assigned, -⟩ := IntakeEntry.inPassOn_iff.mp inPass
  have indexed : ∀ t : State, e ∈ t.intake → ((t.completeEntries p.block).locate e.record.key).isSome = true :=
    fun t ht => foldl_indexEntry_located (List.mem_filter.mpr ⟨ht, inPass⟩) assigned stays t
  unfold State.laneResult
  split
  · unfold State.lanePass
    simp only
    split <;> exact indexed _ he
  · rename_i h
    simp [h, hasPassed] at ok
  · rename_i h
    simp [h, hasPassed] at ok

/-- The lanes of a pass in order are each another. -/
theorem passesInOrder_lanes_nodup (lanes : List PassLane) :
    ((passesInOrder lanes).map fun p => laneOf p.block).Nodup :=
  (firstOfLanes_ascending (fun p : PassLane => laneOf p.block) (List.pairwise_lt_finRange 4) lanes).imp ne_of_lt

/-- R12: the key of an entry whose lane passed is indexed when the lanes have their results, if it is not an evacuated one. -/
theorem State.passEnded_located {s : State} {lanes : List PassLane} {results : Lane → PassResult} {e : IntakeEntry}
    (he : e ∈ s.intake) (passed : entryPassed (passesInOrder lanes) (passOutcome s.flash results) e = true)
    (stays : ∀ former, e.source ≠ .evacuation former) :
    ((s.passEnded lanes results).locate e.record.key).isSome = true := by
  obtain ⟨p, hp, hon⟩ := List.any_eq_true.mp passed
  obtain ⟨inPass, ok⟩ := Bool.and_eq_true_iff.mp hon
  obtain ⟨before, after, split⟩ := List.append_of_mem hp
  unfold State.passEnded
  refine (State.disengage_completing _ lanes).located _ ?_
  rw [split, List.foldl_append, List.foldl_cons]
  refine (Completing.foldl _ (State.laneResult_completing _) after _).located _ ?_
  have others : ∀ q ∈ before, e.inPassOn q.block = false := fun q hq => by
    by_contra h
    obtain ⟨l, hl, hp⟩ := IntakeEntry.inPassOn_iff.mp inPass
    obtain ⟨l', hl', hq'⟩ := IntakeEntry.inPassOn_iff.mp (by simpa using h)
    cases hl.symm.trans hl'
    have once := passesInOrder_lanes_nodup lanes
    rw [split, List.map_append, List.map_cons] at once
    exact (List.pairwise_append.mp once).2.2 _ (List.mem_map_of_mem hq) _ List.mem_cons_self (by rw [← hp, hq'])
  have waits : ∀ t : State, e ∈ t.intake → e ∈ (before.foldl (State.laneResult (passOutcome s.flash results)) t).intake := by
    clear split
    induction before with
    | nil => exact fun _ h => h
    | cons q rest ih =>
      exact fun t ht => ih (fun r hr => others r (List.mem_cons_of_mem _ hr)) _
        (State.mem_laneResult_intake ht (others q List.mem_cons_self))
  exact State.laneResult_located (waits _ he) inPass ok stays

/-- Handing the entries on is quiet: a receipt is offered for an indexed key (R12, R143). -/
theorem State.programCompletion_quiet (s : State) (lanes : List PassLane) (results : Lane → PassResult) :
    Quiet (State.postLaneEvents s (s.passEnded lanes results)).haltIfDead (s.programCompletion lanes results) := by
  refine Quiet.foldl_of State.handOn _ _ fun t ht e he => t.handOn_quiet e fun owed bus => ?_
  obtain ⟨he, passed⟩ := List.mem_filter.mp he
  rw [ht.locate, (State.haltIfDead_untouched _).locate, (State.postLaneEvents_quiet s _).locate]
  exact State.passEnded_located he passed (by simp [bus])

/-- All that a completion does: what the lanes, the blocks or the mark end with on the free array, the halt it may call for,
and what is quiet. -/
theorem Completion.cases {s v : State} (h : Completion s v) :
    (∃ u, Completing s.freeArray u ∧ Quiet u.haltIfDead v) ∨
      ∃ b fate, v = { s.freeArray with flash := markFlash s.flash b fate } := by
  cases h with
  | program lanes results =>
    exact .inl ⟨_, (s.passEnded_completing lanes results).trans (State.postLaneEvents_quiet s _).completing,
      s.programCompletion_quiet lanes results⟩
  | erase blocks results =>
    exact .inl ⟨_, (s.eraseEnded_completing blocks results).trans (State.postLaneEvents_quiet s _).completing, Quiet.refl _⟩
  | mark b fate => exact .inr ⟨b, fate, rfl⟩

theorem ModeCore.freeArray {s : State} (m : ModeCore s) : ModeCore s.freeArray :=
  ⟨m.exclusive, by simp, m.unconfigured, m.following, m.line, m.halted⟩

theorem Completion.modeCore {s v : State} (h : Completion s v) (m : ModeCore s) : ModeCore v := by
  rcases h.cases with ⟨u, completing, quiet⟩ | ⟨b, fate, rfl⟩
  · exact quiet.modeCore (m.freeArray.haltIfDead completing)
  · exact ⟨m.exclusive, by simp, m.unconfigured, m.following, m.line, m.halted⟩

theorem Completion.memory {s v : State} (h : Completion s v) (m : MemoryLaw s) : MemoryLaw v := by
  unfold MemoryLaw at *
  rcases h.cases with ⟨u, completing, quiet⟩ | ⟨b, fate, rfl⟩
  · rw [quiet.flash, u.haltIfDead_untouched.flash]
    exact completing.flash m
  · exact markFlash_wf _ _ _ m

theorem Untouched.indexLaw {s u : State} (h : Untouched s u) (i : IndexLaw s) : IndexLaw u :=
  ⟨h.index ▸ i.index, h.scanner ▸ i.candidates⟩

theorem Completion.indexLaw {s v : State} (h : Completion s v) (i : IndexLaw s) : IndexLaw v := by
  rcases h.cases with ⟨u, completing, quiet⟩ | ⟨b, fate, rfl⟩
  · exact quiet.indexLaw (u.haltIfDead_untouched.indexLaw
      ⟨completing.sorted i.index, completing.scanner ▸ i.candidates⟩)
  · exact ⟨i.index, i.candidates⟩

theorem Untouched.receiptLaw {s u : State} (h : Untouched s u)
    (mounting : u.controller.state = .mounting → s.controller.state = .mounting) (r : ReceiptLaw s) : ReceiptLaw u := by
  intro k hk
  rw [h.locate]
  rcases h.receipts k hk with hk | ⟨located, running⟩
  · exact ⟨(r k hk).1, fun hm => (r k hk).2 (mounting hm)⟩
  · exact ⟨located, fun hm => running (mounting hm)⟩

theorem Completion.receiptLaw {s v : State} (h : Completion s v) (r : ReceiptLaw s) : ReceiptLaw v := by
  rcases h.cases with ⟨u, completing, quiet⟩ | ⟨b, fate, rfl⟩
  · refine quiet.receiptLaw (fun hm => quiet.state ▸ hm) (u.haltIfDead_untouched.receiptLaw (State.haltIfDead_mounting u).mp ?_)
    intro k hk
    rw [completing.state]
    rcases completing.receipts k hk with hk | located
    · exact ⟨completing.located k (r k hk).1, (r k hk).2⟩
    · exact located
  · exact r

end Sys2Proof.Machine
end


section
namespace Sys2Proof.Machine

/-! ### Damaged reads -/

/-- A key leaves the index and the Receipt List, and the block it leaves empty is retired (R49, R50, R69). -/
def State.loseKey (s : State) (k : Key) (b : BlockId) : State := ((s.indexDrop k).retireIfEmptied b).dropReceipt k

/-- A damaged read does nothing, or loses a key that still stood at the slot read; the rest of it is quiet (R50). -/
theorem State.damagedRead_cases (s : State) (k : Key) (l : Loc) :
    s.damagedRead k l = s ∨ s.locate k = some l ∧ Quiet (s.loseKey k l.block) (s.damagedRead k l) := by
  unfold State.damagedRead
  split
  · rename_i located
    exact .inr ⟨located, ((State.post_quiet _ _).trans (State.shortDamaged_quiet _ _)).trans (State.removeAnswer_quiet _ _)⟩
  · exact .inl rfl

/-- A slot read of the station `t` has ended: what follows is quiet, but that a key may have been lost. -/
def ReadEnd (t : State) (l : Loc) (u : State) : Prop :=
  Quiet t u ∨ ∃ k, t.locate k = some l ∧ Quiet (t.loseKey k l.block) u

theorem State.damagedRead_ends (s : State) (k : Key) (l : Loc) {u : State} (h : Quiet (s.damagedRead k l) u) :
    ReadEnd s l u := by
  rcases s.damagedRead_cases k l with e | ⟨located, quiet⟩
  · exact .inl (e ▸ h)
  · exact .inr ⟨k, located, quiet.trans h⟩

theorem State.transmitRead_ends (s : State) (r : TransmitRead) (result : Option Record) :
    ReadEnd s r.loc (s.transmitRead r result) := by
  unfold State.transmitRead
  split
  · exact .inl ((s.setBuffer_quiet _ _).trans (State.ownerLoaded_quiet _ _))
  · exact .inl (s.setBuffer_quiet _ _)
  · exact s.damagedRead_ends r.key r.loc (State.setBuffer_quiet _ _ _)
  · exact s.damagedRead_ends r.key r.loc ((State.setBuffer_quiet _ _ _).trans (State.ownerAbsent_quiet _ _))

theorem State.hostRead_ends (s : State) (r : SlotRead) (result : Option Record) : ReadEnd s r.loc (s.hostRead r result) := by
  unfold State.hostRead
  split
  · exact .inl { Quiet.refl s with }
  · exact s.damagedRead_ends r.key r.loc { Quiet.refl _ with }

theorem State.evacuationRead_ends (s : State) (r : SlotRead) (result : Option Record) :
    ReadEnd s r.loc (s.evacuationRead r result) := by
  unfold State.evacuationRead
  split
  · split
    · exact .inl (s.stage_quiet _ _)
    · exact .inl (Quiet.refl s)
  · exact s.damagedRead_ends r.key r.loc (Quiet.refl _)

theorem State.locate_indexDrop (s : State) (k j : Key) : (s.indexDrop k).locate j = if j = k then none else s.locate j :=
  mapGet_mapDrop _ _ _

/-- Retiring an emptied block changes its row, from RETIRING, at most; all else is quiet. -/
theorem State.retireIfEmptied_quiet (s : State) (b : BlockId) :
    Quiet s (s.retireIfEmptied b) ∨ ∃ chain, s.block b = .retiring chain ∧ s.liveCount b = 0 ∧
      Quiet (s.setBlock b .retired) (s.retireIfEmptied b) := by
  rcases s.retireIfEmptied_cases b with h | ⟨chain, hrow, hlive, h⟩ <;> rw [h]
  · exact .inl (Quiet.refl s)
  · exact .inr ⟨chain, hrow, hlive, s.retire_quiet b .program⟩

/-- A RETIRING block is not alive, and a RETIRED one no more so. -/
theorem State.setBlock_retired_allDead {s : State} {b : BlockId} (h : (s.block b).alive = false) :
    (s.setBlock b .retired).allDead = s.allDead :=
  State.allDead_congr fun c => by
    rw [State.block_setBlock]
    split
    · rename_i hc
      rw [hc, h]
      rfl
    · rfl

theorem ModeCore.loseKey {s : State} (m : ModeCore s) (k : Key) (b : BlockId) : ModeCore (s.loseKey k b) := by
  have drop : ModeCore (s.indexDrop k) := ⟨m.exclusive, m.scanning, m.unconfigured, m.following, m.line, m.halted⟩
  have lost : ModeCore ((s.indexDrop k).retireIfEmptied b) := by
    rcases (s.indexDrop k).retireIfEmptied_quiet b with quiet | ⟨chain, hrow, -, quiet⟩
    · exact quiet.modeCore drop
    · refine quiet.modeCore ⟨m.exclusive, m.scanning, m.unconfigured, m.following, m.line, ?_⟩
      rw [State.setBlock_retired_allDead (by rw [hrow]; rfl)]
      exact m.halted
  exact ⟨lost.exclusive, lost.scanning, lost.unconfigured, lost.following, lost.line, lost.halted⟩

theorem ReadEnd.modeCore {t u : State} {l : Loc} (h : ReadEnd t l u) (m : ModeCore t) : ModeCore u := by
  rcases h with quiet | ⟨k, -, quiet⟩
  · exact quiet.modeCore m
  · exact quiet.modeCore (m.loseKey k l.block)

/-- A read leaves the array as it stands. -/
theorem ReadEnd.flash {t u : State} {l : Loc} (h : ReadEnd t l u) : u.flash = t.flash := by
  rcases h with quiet | ⟨k, -, quiet⟩
  · exact quiet.flash
  · rw [quiet.flash]
    rcases (t.indexDrop k).retireIfEmptied_quiet l.block with q | ⟨_, _, _, q⟩ <;> exact q.flash

theorem ReadEnd.held {t u : State} {l : Loc} (h : ReadEnd t l u) : u.held = t.held := by
  rcases h with quiet | ⟨k, -, quiet⟩
  · exact quiet.held
  · rw [quiet.held]
    rcases (t.indexDrop k).retireIfEmptied_quiet l.block with q | ⟨_, _, _, q⟩ <;> exact q.held

/-! ### What the drain rests on -/

/-- The station state, the roll due, the tracker entries, the LOCAL entries and the send-once list stay (R114). -/
structure SameDrain (s u : State) : Prop where
  state : u.controller.state = s.controller.state
  rollDue : u.controller.rollDue = s.controller.rollDue
  entries : u.tracker.entries = s.tracker.entries
  locals : u.localEntries = s.localEntries
  sendOnce : u.transmit.sendOnce = s.transmit.sendOnce

theorem SameDrain.refl (s : State) : SameDrain s s := ⟨rfl, rfl, rfl, rfl, rfl⟩

theorem SameDrain.trans {s t u : State} (h : SameDrain s t) (k : SameDrain t u) : SameDrain s u :=
  ⟨k.state.trans h.state, k.rollDue.trans h.rollDue, k.entries.trans h.entries, k.locals.trans h.locals,
    k.sendOnce.trans h.sendOnce⟩

theorem SameDrain.foldl {α : Type} (f : State → α → State) (hf : ∀ s a, SameDrain s (f s a)) (l : List α) (s : State) :
    SameDrain s (l.foldl f s) := by
  induction l generalizing s with
  | nil => exact SameDrain.refl s
  | cons a rest ih => exact (hf s a).trans (ih (f s a))

theorem SameDrain.drainLaw {s u : State} (h : SameDrain s u) (d : DrainLaw s) : DrainLaw u := by
  unfold DrainLaw State.drained
  rw [h.state, h.rollDue, h.entries, h.locals, h.sendOnce]
  exact d

theorem State.post_sameDrain (s : State) (e : Event) : SameDrain s (s.post e) := by
  rw [State.post_eq]
  exact { SameDrain.refl s with }

theorem State.peerHeard_sameDrain (s : State) (id : Nat) (leaving : Bool) : SameDrain s (s.peerHeard id leaving) := by
  have row : ∀ r, SameDrain s (s.setRosterRow id r) := fun _ => { SameDrain.refl s with }
  unfold State.peerHeard
  split
  · exact SameDrain.refl s
  · exact (row _).trans (State.post_sameDrain _ _)
  · exact (row _).trans (State.post_sameDrain _ _)
  · exact row _
  · exact row _

theorem State.rollHeard_sameDrain (s : State) (id : Nat) (roll : LastRoll) : SameDrain s (s.rollHeard id roll) := by
  have row : ∀ r, SameDrain s (s.setRosterRow id r) := fun _ => { SameDrain.refl s with }
  unfold State.rollHeard
  split
  · exact SameDrain.refl s
  · exact row _
  · exact (row _).trans (State.post_sameDrain _ _)
  · exact (row _).trans (State.post_sameDrain _ _)
  · exact row _

theorem State.applyRow_sameDrain (s : State) (origin : Nat) (c : RowChange) : SameDrain s (s.applyRow origin c) := by
  have row : SameDrain s (s.setOriginRow origin c.row) := { SameDrain.refl s with }
  unfold State.applyRow
  simp only
  split
  · exact row
  · exact row.trans (State.post_sameDrain _ _)

theorem State.takeTop_sameDrain (s : State) (id top : Nat) : SameDrain s (s.takeTop id top) := by
  unfold State.takeTop
  split
  · simp only
    split
    · exact { SameDrain.refl s with }
    · exact s.applyRow_sameDrain _ _
  · exact SameDrain.refl s

theorem State.takeRequest_sameDrain (s : State) (origin first span : Nat) :
    SameDrain s (s.takeRequest origin first span) := by
  unfold State.takeRequest
  split
  · refine SameDrain.foldl _ (fun t seq => ?_) _ _
    unfold answerSeq
    simp only
    split
    · exact { SameDrain.refl t with }
    · exact SameDrain.refl t
  · exact SameDrain.refl s

theorem State.settleRequest_sameDrain (s : State) : SameDrain s s.settleRequest := by
  unfold State.settleRequest
  split
  · exact SameDrain.trans (t := { s with gap := { s.gap with slot := .empty } }) { SameDrain.refl s with }
      (State.applyRow_sameDrain _ _ _)
  · exact { SameDrain.refl s with }

theorem State.chooseRequest_sameDrain (s : State) : SameDrain s s.chooseRequest := by
  unfold State.chooseRequest
  split
  · exact SameDrain.refl s
  · exact { SameDrain.refl s with }

/-- A lane or a block whose operation was aborted leaves what the drain rests on (R13, R58). -/
theorem State.laneAbort_sameDrain (s : State) (p : PassLane) : SameDrain s (s.laneAbort p) := by
  have sources : (s.returnEntries p.block).localEntries = s.localEntries := by
    simp only [State.localEntries, State.returnEntries, List.filter_map, List.length_map]
    congr 2
    funext e
    simp only [Function.comp_apply]
    split <;> rfl
  have returned : SameDrain s (s.returnEntries p.block) := { SameDrain.refl s with locals := sources }
  unfold State.laneAbort
  simp only
  split
  · exact returned.trans { SameDrain.refl _ with }
  · exact returned

theorem State.postLaneEvents_sameDrain (before s : State) : SameDrain s (State.postLaneEvents before s) := by
  refine SameDrain.foldl (fun t l => t.postIf (laneEvent before s l)) (fun t l => ?_) _ s
  cases laneEvent before s l
  · exact SameDrain.refl t
  · exact t.post_sameDrain _

theorem State.haltIfDead_drainLaw {s : State} (d : DrainLaw s) : DrainLaw s.haltIfDead := by
  rcases s.haltIfDead_state with h | ⟨h, _⟩
  · intro hl
    rw [h] at hl
    cases hl
  · rwa [h]

/-- The abort of the operation in flight leaves what the drain rests on, or halts the station (R37, R114). -/
theorem State.abortInFlight_drainLaw {s : State} (w : Interruption) (d : DrainLaw s) : DrainLaw (s.abortInFlight w) := by
  unfold State.abortInFlight
  split
  · rename_i lanes _
    have none_passed : s.intake.filter (entryPassed (passesInOrder lanes)
        (passOutcome s.flash fun l => .aborted (w.passes.get l))) = [] := by
      simp [entryPassed, hasPassed]
    unfold State.programCompletion
    simp only [none_passed, List.foldl_nil]
    refine State.haltIfDead_drainLaw (SameDrain.drainLaw (SameDrain.trans ?_ (State.postLaneEvents_sameDrain s _)) d)
    refine SameDrain.trans (SameDrain.trans (t := s.freeArray) { SameDrain.refl s with }
      (SameDrain.foldl _ (fun t p => ?_) _ _)) (SameDrain.foldl (fun s (p : PassLane) =>
        s.setLane (laneOf p.block) { s.lane (laneOf p.block) with engaged := false }) (fun t _ => { SameDrain.refl t with }) _ _)
    exact SameDrain.trans (t := t.programCells p (some (w.passes.get (laneOf p.block)))) { SameDrain.refl t with }
      (State.laneAbort_sameDrain _ p)
  · refine State.haltIfDead_drainLaw (SameDrain.drainLaw (SameDrain.trans ?_ (State.postLaneEvents_sameDrain s _)) d)
    exact SameDrain.trans (t := s.freeArray) { SameDrain.refl s with }
      (SameDrain.foldl (State.blockErased fun l => .aborted (w.erases.get l)) (fun t _ => { SameDrain.refl t with }) _ _)
  · exact SameDrain.drainLaw { SameDrain.refl s with } d
  · exact d

/-! ### What a command can do -/

/-- The command interrupts the operation in flight, and leaves this of it (R39 to R42). -/
def Interrupts (left : Interruption) (c : Instr) : Prop :=
  c = .powerOnReset left ∨ c = .nresetAssert left ∨ c = .powerLoss left ∨ ∃ fields, c = .restart fields left

/-- What a command can do in a state, by what it touches of the array and the Journal Map (R27 to R37). -/
inductive Effect (s : State) : Instr → State → Prop
  | aside {c u} (h : Aside s u) (drain : DrainLaw s → DrainLaw u) : Effect s c u
  | worked {c u} (before : State) (h : Aside s u) (awake : u.held = false) : Effect s c (State.settle before u)
  | started {c u} (h : Quiet s u) (drain : DrainLaw s → DrainLaw u) : Effect s c u.startNext
  | reset {c v} (u : State) (keep : Option Configuration)
      (cells : u.flash = s.flash ∨ ∃ left, Interrupts left c ∧ u.flash = interruptedFlash s left)
      (h : v = u.afterReset keep ∨ v = (u.afterReset keep).freeArray) : Effect s c v
  | hold {c left} (low power : Bool) (h : Interrupts left c) :
      Effect s c { s.beginHold left with nresetLow := low, power := power }
  | aborted {left v} (h : Completion (s.setProtect true) v) (drain : DrainLaw s → DrainLaw v) :
      Effect s (.protAssert left) (State.settle s (v.post .protOn))
  | completed {c v} (h : Completion s v) (awake : s.held = false)
      (completion : (∃ results, c = .programComplete results) ∨ (∃ results, c = .eraseComplete results) ∨
        ∃ result, c = .retireMarkComplete result) : Effect s c (State.settle s v)
  | read {c l changed t u} (h : Senses s c l.block l.page changed) (sensed : Quiet (s.slotSensed l changed) t)
      (ends : ReadEnd t l u) : Effect s c (State.settle s u)
  | scanned {b p changed} (h : Running s (.scanRead b p)) :
      Effect s (.scanReadComplete changed) ((s.cellsChange b p changed).scanned b p)

/-- A command that changes nothing. -/
theorem Effect.same (s : State) (c : Instr) : Effect s c s := .aside (Aside.refl s) id

/-- A command with a quiet effect after which no worker acts. -/
theorem Effect.quiet {s u : State} {c : Instr} (h : Quiet s u) (drain : DrainLaw s → DrainLaw u) : Effect s c u :=
  .aside h.aside drain

/-- A command with a quiet effect after which the workers act. -/
theorem Effect.settled {s u : State} {c : Instr} (h : Quiet s u) (awake : s.held = false) :
    Effect s c (State.settle s u) :=
  .worked s h.aside (h.held.trans awake)

/-- A command without effect while the station is held (R188). -/
theorem Effect.of_awake {s t : State} {c : Instr} {f : State → State} (h : s.awake f = .next t)
    (effect : s.held = false → Effect s c (f s)) : Effect s c t := by
  cases held : s.held with
  | true =>
    rw [State.awake_held held] at h
    cases h
    exact .same s c
  | false =>
    rw [State.awake_free held] at h
    cases h
    exact effect held

/-- A request is refused, or handled (R173). -/
theorem Effect.of_taken {α : Type} {s : State} {c : Instr} {parsed : Option α} {handle : State → α → State}
    (effect : ∀ x, s.controller.state ≠ .mounting → Effect s c (handle s x)) : Effect s c (s.taken parsed handle) := by
  have refused : ∀ name, Effect s c (s.refuse name) := fun _ => .quiet { Quiet.refl s with } id
  unfold State.taken
  split
  · split
    · exact refused _
    · split
      · exact refused _
      · rename_i running
        exact effect _ running
  · exact .same s c

/-! Commands of the port and requests. -/

theorem State.refuse_effect (s : State) (c : Instr) (name : RefusalName) : Effect s c (s.refuse name) :=
  .quiet { Quiet.refl s with } id

theorem State.respond_effect (s : State) (c : Instr) (r : Response) : Effect s c (s.respond r) :=
  .quiet { Quiet.refl s with } id

theorem State.drive_effect (s : State) (c : Instr) (bytes : List Byte) : Effect s c (s.drive bytes) :=
  .quiet { Quiet.refl s with } id

theorem execPut_effect (s : State) (c : Instr) {t : State} (h : execPut s = .next t) : Effect s c t :=
  .of_awake h fun _ => by
    split
    · exact .quiet { Quiet.refl s with } id
    · exact s.drive_effect c _

theorem execGet_effect (s : State) (c : Instr) {t : State} (h : execGet s = .next t) : Effect s c t :=
  .of_awake h fun _ => by
    split
    · exact .quiet { Quiet.refl s with } id
    · exact s.drive_effect c _

theorem execEvent_effect (s : State) (c : Instr) {t : State} (h : execEvent s = .next t) : Effect s c t :=
  .of_awake h fun _ => .quiet { Quiet.refl s with } id

theorem execPeek_effect (s : State) (c : Instr) {t : State} (h : execPeek s = .next t) : Effect s c t :=
  .of_awake h fun _ => s.drive_effect c _

theorem execVoidTransaction_effect (s : State) (c : Instr) (kind : Byte) {t : State}
    (h : execVoidTransaction kind s = .next t) : Effect s c t :=
  .of_awake h fun _ => by
    split
    · exact .same s c
    · exact s.drive_effect c _

theorem execUnknownRequest_effect (s : State) (c : Instr) (message : List Byte) {t : State}
    (h : execUnknownRequest message s = .next t) : Effect s c t :=
  .of_awake h fun _ => by
    split
    · split
      · exact s.refuse_effect c _
      · split
        · exact .same s c
        · exact s.refuse_effect c _
    · exact .same s c

theorem execConfigure_effect (s : State) (c : Instr) (fields : List Byte) {t : State}
    (h : execConfigure fields s = .next t) : Effect s c t :=
  .of_awake h fun _ => .of_taken fun configuration _ => by
    split
    · exact s.refuse_effect c _
    · rename_i idle
      have idle : s.controller.state = .idle := by simpa using idle
      split
      · refine .aside { Quiet.refl s with mounting := ?_, mode := fun m => ?_ } fun _ hl => ?_
        · simp [State.configured, State.respond, idle]
        · have off : s.line.state = .off := by
            by_contra following
            simpa [m.unconfigured idle] using (m.following following).1
          have resting : s.line.inFlight = none := by
            simpa [off] using m.line.sending
          exact {
            exclusive := m.exclusive.trans (by simp [State.configured, State.respond, idle])
            scanning := m.scanning
            unconfigured := fun h => by simp [State.configured, State.respond] at h
            following := fun _ => by simp [State.configured, State.respond]
            line := ⟨by simp [State.configured, State.respond, resting], m.line.failureRun, m.line.silenced,
              fun _ => by simp [State.configured, State.respond], m.line.failureTotal, m.line.rejectedTotal⟩
            halted := fun h => by
              have := m.halted h
              simp [idle] at this }
        · simp [State.configured, State.respond] at hl
      · exact s.refuse_effect c _

theorem execJoin_effect (s : State) (c : Instr) (fields : List Byte) {t : State} (h : execJoin fields s = .next t) :
    Effect s c t :=
  .of_awake h fun _ => .of_taken fun _ _ => by
    split
    · rename_i ready
      refine .aside ((Aside.of_controller s { s.controller with
        state := .joining, rollTimer := some (s.now + s.scaled Config.rollPeriod), rollDue := none } rfl
        (by simp [ready]) (by simp)).trans (Quiet.aside { Quiet.refl _ with })) fun _ hl => ?_
      simp [State.joinBus, State.respond] at hl
    · exact s.refuse_effect c _

theorem execLeave_effect (s : State) (c : Instr) (fields : List Byte) {t : State} (h : execLeave fields s = .next t) :
    Effect s c t :=
  .of_awake h fun _ => .of_taken fun _ _ => by
    split
    · rename_i active
      refine .aside (((Aside.of_controller s { s.controller with state := .leaving } rfl (by simp [active]) (by simp)).trans
        (State.drainTest_quiet _).aside).trans (Quiet.aside { Quiet.refl _ with })) fun _ => ?_
      unfold State.drainTest
      split
      · exact fun _ _ => rfl
      · rename_i full
        exact fun hl hd => absurd ⟨hl, hd⟩ full
    · exact s.refuse_effect c _

theorem execSubmit_effect (s : State) (c : Instr) (fields : List Byte) {t : State} (h : execSubmit fields s = .next t) :
    Effect s c t :=
  .of_awake h fun awake => .of_taken fun r _ => by
    split
    · exact s.refuse_effect c _
    · exact .settled (s.accept_quiet r) awake

/-- One element fewer of those that fit does not tell whether all fit. -/
theorem all_eraseP {α : Type} (p : α → Bool) (l : List α) : (l.eraseP p).all p = l.all p := by
  induction l with
  | nil => rfl
  | cons a rest ih => cases h : p a <;> simp [h, ih]

theorem execTakeOutcome_effect (s : State) (c : Instr) (fields : List Byte) {t : State}
    (h : execTakeOutcome fields s = .next t) : Effect s c t :=
  .of_awake h fun _ => .of_taken fun _ _ => by
    split
    · exact s.refuse_effect c _
    · refine .quiet { Quiet.refl s with } fun d hl hd => d hl ?_
      rw [← hd]
      exact congrArg (· && s.localEntries == 0 && s.transmit.sendOnce.isEmpty) (all_eraseP _ _).symm

theorem execReadRecord_effect (s : State) (c : Instr) (fields : List Byte) {t : State}
    (h : execReadRecord fields s = .next t) : Effect s c t :=
  .of_awake h fun _ => .of_taken fun _ _ => by
    split
    · split
      · exact s.respond_effect c _
      · exact .started { Quiet.refl s with } id
      · exact s.respond_effect c _
    · exact s.refuse_effect c _

theorem execFindNext_effect (s : State) (c : Instr) (fields : List Byte) {t : State}
    (h : execFindNext fields s = .next t) : Effect s c t :=
  .of_awake h fun _ => .of_taken fun _ _ => by
    split
    · split
      · exact s.respond_effect c _
      · exact s.respond_effect c _
    · exact s.refuse_effect c _

theorem execStatus_effect (s : State) (c : Instr) (fields : List Byte) {t : State} (h : execStatus fields s = .next t) :
    Effect s c t :=
  .of_awake h fun _ => by
    split
    · split
      · exact s.refuse_effect c _
      · exact s.respond_effect c _
    · exact .same s c

theorem execRoster_effect (s : State) (c : Instr) (fields : List Byte) {t : State} (h : execRoster fields s = .next t) :
    Effect s c t :=
  .of_awake h fun _ => .of_taken fun _ _ => s.respond_effect c _

theorem execOriginRow_effect (s : State) (c : Instr) (fields : List Byte) {t : State}
    (h : execOriginRow fields s = .next t) : Effect s c t :=
  .of_awake h fun _ => .of_taken fun _ _ => by
    split
    · exact s.respond_effect c _
    · exact s.refuse_effect c _

/-! The line, and frames heard. -/

/-- A line state and an idle count change while the station drives nothing (R87, R92). -/
theorem LineUnit.Law.move {line : LineUnit} (h : line.Law) {state : LineState} (idle : Nat)
    (before : line.state ≠ .sending) (after : state ≠ .sending) : ({ line with state := state, idle := idle } : LineUnit).Law where
  sending := by simpa [after, before] using h.sending
  failureRun := h.failureRun
  silenced := h.silenced
  quietWhenSilenced := fun _ => after
  failureTotal := h.failureTotal
  rejectedTotal := h.rejectedTotal

theorem LineUnit.Law.afterReading {line : LineUnit} (h : line.Law) {state : LineState} (idle : Nat)
    (after : state ≠ .sending) : (line.afterReading state idle).Law := by
  by_cases hs : line.state = .sending
  · rw [LineUnit.afterReading_of_sending hs]
    exact h
  · rw [LineUnit.afterReading_of_not_sending hs]
    exact h.move idle hs after

theorem State.readingEnded_aside {s : State} (reads : s.line.state.reads = true) {state : LineState} (idle : Nat)
    (after : state ≠ .sending) : Aside s (s.readingEnded state idle) :=
  .of_line s _ (fun _ off => by simp [off, LineState.reads] at reads) fun law => law.afterReading idle after

theorem State.countRejected_aside (s : State) : Aside s s.countRejected :=
  .of_line s _ id fun law =>
    ⟨law.sending, law.failureRun, law.silenced, law.quietWhenSilenced, law.failureTotal, Nat.min_le_left _ _⟩

/-- A frame heard ends the reading, is counted as rejected, or is delivered (R93, R96). -/
theorem Effect.of_hear {s : State} {c : Instr} {f : Frame} {deliver : State → State}
    (effect : ∀ t, Aside s t → t.held = s.held → (DrainLaw s → DrainLaw t) → Effect s c (deliver t)) :
    Effect s c (s.hear f deliver) := by
  unfold State.hear
  split
  · rename_i reads
    have ended : Aside s (s.frameEnded (frameBytes f)) := State.readingEnded_aside reads _ (by simp)
    split
    · split
      · exact .aside ended id
      · exact effect _ ended rfl id
    · exact .aside (ended.trans (State.countRejected_aside _)) id
  · exact .same s c

theorem execFrameRejected_effect (s : State) (c : Instr) (read : Reception) {t : State}
    (h : execFrameRejected read s = .next t) : Effect s c t :=
  .of_awake h fun _ => by
    split
    · rename_i reads
      have rejected : ∀ {state} idle, state ≠ LineState.sending →
          Effect s c (s.readingEnded state idle).countRejected := fun idle after =>
        .aside ((State.readingEnded_aside reads idle after).trans (State.countRejected_aside _)) id
      split
      · exact rejected _ (by simp)
      · split
        · exact .same s c
        · exact rejected _ (by simp)
        · exact rejected _ (by simp)
    · exact .same s c

theorem execReceiptReceived_effect (s : State) (c : Instr) (sender : Nat) (keys : List Key) {t : State}
    (h : execReceiptReceived sender keys s = .next t) : Effect s c t :=
  .of_awake h fun awake => .of_hear fun t aside held _ =>
    have quiet := (t.peerHeard_quiet sender false).trans (State.countReceipts_quiet _ sender keys)
    .worked s (aside.trans quiet.aside) (quiet.held.trans (held.trans awake))

theorem execRequestReceived_effect (s : State) (c : Instr) (sender origin first span : Nat) {t : State}
    (h : execRequestReceived sender origin first span s = .next t) : Effect s c t :=
  .of_awake h fun _ => .of_hear fun t aside _ drain =>
    .aside (aside.trans ((t.peerHeard_quiet sender false).trans (State.takeRequest_quiet _ _ _ _)).aside) fun d =>
      ((t.peerHeard_sameDrain sender false).trans (State.takeRequest_sameDrain _ _ _ _)).drainLaw (drain d)

/-- A RECORD frame, with or without the repair flag, is quiet but for the line (R16, R167). -/
theorem State.recordHeard_quiet (t : State) (sender : Nat) (record : Record) (repair : Bool) :
    Quiet t (((t.peerHeard sender false).suppress record.key).classify record repair) :=
  ((t.peerHeard_quiet sender false).trans (State.suppress_quiet _ _)).trans (State.classify_quiet _ _ _)

theorem execRecordReceived_effect (s : State) (c : Instr) (sender : Nat) (record : Record) {t : State}
    (h : execRecordReceived sender record s = .next t) : Effect s c t :=
  .of_awake h fun awake => .of_hear fun t aside held _ =>
    have quiet := t.recordHeard_quiet sender record false
    .worked s (aside.trans quiet.aside) (quiet.held.trans (held.trans awake))

theorem execRepairRecordReceived_effect (s : State) (c : Instr) (sender : Nat) (record : Record) {t : State}
    (h : execRepairRecordReceived sender record s = .next t) : Effect s c t :=
  .of_awake h fun awake => .of_hear fun t aside held _ =>
    have quiet := t.recordHeard_quiet sender record true
    .worked s (aside.trans quiet.aside) (quiet.held.trans (held.trans awake))

theorem execRollReceived_effect (s : State) (c : Instr) (sender : Nat) (state : RollState) (k timingClass topSeq : Nat)
    {t : State} (h : execRollReceived sender state k timingClass topSeq s = .next t) : Effect s c t :=
  .of_awake h fun _ => .of_hear fun t aside _ drain => by
    simp only
    have peer := t.peerHeard_quiet sender (state == .leaving)
    have peerDrain := t.peerHeard_sameDrain sender (state == .leaving)
    split
    · exact .aside (aside.trans (peer.trans (State.takeTop_quiet _ _ _)).aside) fun d =>
        (peerDrain.trans (State.takeTop_sameDrain _ _ _)).drainLaw (drain d)
    · exact .aside (aside.trans ((peer.trans (State.rollHeard_quiet _ _ _)).trans (State.takeTop_quiet _ _ _)).aside)
        fun d => ((peerDrain.trans (State.rollHeard_sameDrain _ _ _)).trans (State.takeTop_sameDrain _ _ _)).drainLaw (drain d)

theorem execFrameStartHeard_effect (s : State) (c : Instr) {t : State} (h : execFrameStartHeard s = .next t) :
    Effect s c t :=
  .of_awake h fun _ => by
    have receive : ∀ st, s.line.state = st → st ≠ .off → st ≠ .sending → Effect s c (s.lineAfter .receiving 0) :=
      fun st hst following driving => .aside (.of_line s _ (fun _ => hst ▸ following) fun law =>
        law.move 0 (hst ▸ driving) (by simp)) id
    split
    · exact .same s c
    · rename_i hst
      exact receive _ hst (by simp) (by simp)
    · rename_i hst
      exact receive _ hst (by simp) (by simp)
    · exact .aside (.of_line s { s.line with idle := 0 } id fun law =>
        ⟨law.sending, law.failureRun, law.silenced, law.quietWhenSilenced, law.failureTotal, law.rejectedTotal⟩) id

theorem execGapEnd_effect (s : State) (c : Instr) {t : State} (h : execGapEnd s = .next t) : Effect s c t :=
  .of_awake h fun _ => by
    have quiets : ∀ st, s.line.state = st → st ≠ .off → st ≠ .sending → Effect s c (s.lineAfter .quiet Config.gapBits) :=
      fun st hst following driving => .aside (.of_line s _ (fun _ => hst ▸ following) fun law =>
        law.move _ (hst ▸ driving) (by simp)) id
    split
    · rename_i hst
      exact quiets _ hst (by simp) (by simp)
    · rename_i hst
      exact quiets _ hst (by simp) (by simp)
    · exact .same s c

theorem execOfferPoint_effect (s : State) (c : Instr) {t : State} (h : execOfferPoint s = .next t) : Effect s c t :=
  .of_awake h fun _ => by
    split
    · rename_i hquiet
      split
      · exact .same s c
      · rename_i f hf
        have silent : s.line.silenced.isSome = false := by
          unfold State.offered at hf
          split at hf
          · cases hf
          · rename_i h
            simpa using h
        refine .aside (.of_line s _ (fun _ => by simp [hquiet]) fun law => ?_) id
        exact ⟨by simp, law.failureRun, law.silenced, fun h => by simp [silent] at h, law.failureTotal, law.rejectedTotal⟩
    · exact .same s c

/-- The frame in flight leaves the line, and a buffer without a claimant is emptied (R90, R91, R105). -/
theorem State.dropFrame_effect {s u : State} {c : Instr} (aside : Aside s { u with line := { u.line with inFlight := none } })
    (awake : u.held = false) (same : SameDrain s u) : Effect s c (s.dropFrame u) := by
  unfold State.dropFrame
  simp only
  split
  · exact .worked s (aside.trans (State.setBuffer_quiet _ _ _).aside) awake
  · exact .aside aside fun d => (same.trans { SameDrain.refl u with }).drainLaw d

theorem execArbitrationLost_effect (s : State) (c : Instr) {t : State} (h : execArbitrationLost s = .next t) :
    Effect s c t :=
  .of_awake h fun awake => by
    split
    · rename_i driving
      refine State.dropFrame_effect (.of_line s _ (fun _ => by simp [driving]) fun law => ?_) awake { SameDrain.refl s with }
      exact ⟨by simp, law.failureRun, law.silenced, fun _ => by simp, law.failureTotal, law.rejectedTotal⟩
    · exact .same s c

/-- What counting a transmit failure changes: the line, and the events (R91, R92). -/
theorem State.countFailure_eq (s : State) : s.countFailure = { s with
    line := { s.line with
      failureRun := min 16 (s.line.failureRun + 1)
      failureTotal := min 65535 (s.line.failureTotal + 1)
      silenced := if min 16 (s.line.failureRun + 1) = 16 then some (s.now + s.scaled Config.rollPeriod)
        else s.line.silenced }
    port := s.countFailure.port } := by
  unfold State.countFailure
  simp only [Config.silenceRun, Config.countStop]
  by_cases run : min 16 (s.line.failureRun + 1) = 16
  · simp only [run, if_true]
    exact State.post_eq _ _
  · simp only [run, if_false]

theorem execTransmitFailure_effect (s : State) (c : Instr) (idle : Nat) {t : State}
    (h : execTransmitFailure idle s = .next t) : Effect s c t :=
  .of_awake h fun awake => by
    split
    · rename_i driving
      rw [State.countFailure_eq]
      refine State.dropFrame_effect ((Aside.of_line s { s.line with
        state := .seeking
        idle := min Config.gapBits idle
        inFlight := none
        failureRun := min 16 (s.line.failureRun + 1)
        failureTotal := min 65535 (s.line.failureTotal + 1)
        silenced := if min 16 (s.line.failureRun + 1) = 16 then some (s.now + s.scaled Config.rollPeriod)
          else s.line.silenced } (fun _ => by simp [driving]) fun law => ?_).trans (Quiet.aside { Quiet.refl _ with }))
        awake { SameDrain.refl s with }
      have talking : s.line.silenced = none := by
        by_contra silenced
        exact law.quietWhenSilenced (Option.isSome_iff_ne_none.mpr silenced) driving
      have run := law.silenced
      rw [talking] at run
      exact {
        sending := by simp
        failureRun := Nat.min_le_left _ _
        silenced := by split <;> simp_all
        quietWhenSilenced := fun _ => by simp
        failureTotal := Nat.min_le_left _ _
        rejectedTotal := law.rejectedTotal }
    · exact .same s c

theorem State.reach_quiet (s : State) (t : Nat) : Quiet s (s.reach t) := { Quiet.refl s with }

theorem State.reach_sameDrain (s : State) (t : Nat) : SameDrain s (s.reach t) := { SameDrain.refl s with }

theorem execSilencedExpiry_effect (s : State) (c : Instr) {t : State} (h : execSilencedExpiry s = .next t) :
    Effect s c t :=
  .of_awake h fun _ => by
    split
    · exact .same s c
    · rename_i until_ _
      have resumed : Aside (s.reach until_) { s.reach until_ with line := { s.line with silenced := none, failureRun := 0 } } :=
        Aside.of_line (s.reach until_) _ id fun law =>
          ⟨law.sending, by simp, by simp, by simp, law.failureTotal, law.rejectedTotal⟩
      exact .aside (((s.reach_quiet until_).aside.trans resumed).trans (State.post_quiet _ _).aside) fun d =>
        (State.post_sameDrain _ _).drainLaw d

/-! Frames sent. -/

theorem State.driven_some {s : State} {f : FrameInFlight} (h : s.driven = some f) :
    s.line.state = .sending ∧ s.line.inFlight = some f := by
  unfold State.driven at h
  split at h
  · rename_i driving
    exact ⟨driving, h⟩
  · cases h

theorem State.sent_aside {s : State} {f : FrameInFlight} (h : s.driven = some f) (g : Frame) : Aside s (s.sent g) := by
  obtain ⟨driving, -⟩ := State.driven_some h
  refine .of_line s _ (fun _ => by simp [driving]) fun law => ?_
  have talking : s.line.silenced = none := by
    by_contra silenced
    exact law.quietWhenSilenced (Option.isSome_iff_ne_none.mpr silenced) driving
  exact ⟨by simp, by simp, by simp [talking], fun _ => by simp, law.failureTotal, law.rejectedTotal⟩

theorem execReceiptTransmitted_effect (s : State) (c : Instr) {t : State} (h : execReceiptTransmitted s = .next t) :
    Effect s c t :=
  .of_awake h fun _ => by
    split
    · rename_i sender keys owner driven
      refine .aside ((State.sent_aside driven ⟨sender, .receipt keys⟩).trans (Quiet.aside ?_)) id
      exact { Quiet.refl _ with receipts := fun k hk => .inl (List.mem_of_mem_filter hk) }
    · exact .same s c

theorem execRequestTransmitted_effect (s : State) (c : Instr) {t : State} (h : execRequestTransmitted s = .next t) :
    Effect s c t :=
  .of_awake h fun _ => by
    split
    · rename_i sender origin first span owner driven
      exact .aside ((State.sent_aside driven ⟨sender, .request origin first span⟩).trans
        (Quiet.aside { Quiet.refl _ with })) id
    · exact .same s c

theorem State.bufferSent_effect {s : State} {c : Instr} {f : FrameInFlight} (driven : s.driven = some f) (g : Frame)
    (i : BufferNo) (awake : s.held = false) : Effect s c (State.settle s ((s.sent g).bufferSent i)) :=
  .worked s ((State.sent_aside driven g).trans (State.bufferSent_quiet _ i).aside)
    ((State.bufferSent_quiet (s.sent g) i).held.trans awake)

theorem execRepairRecordTransmitted_effect (s : State) (c : Instr) {t : State}
    (h : execRepairRecordTransmitted s = .next t) : Effect s c t :=
  .of_awake h fun awake => by
    split
    · rename_i driven
      exact State.bufferSent_effect driven _ _ awake
    · exact .same s c

theorem execRecordTransmitted_effect (s : State) (c : Instr) {t : State} (h : execRecordTransmitted s = .next t) :
    Effect s c t :=
  .of_awake h fun awake => by
    split
    · rename_i driven
      exact State.bufferSent_effect driven _ _ awake
    · exact .same s c

/-- What leaving the bus is, but for what is quiet (R115). -/
theorem State.leaveBus_aside {s : State} (leaving : s.controller.state = .leaving) :
    Aside s s.leaveBus ∧ s.leaveBus.held = s.held := by
  have emptied : Quiet { s with controller := { s.controller with state := .ready, rollDue := none, rollTimer := none } }
      s.leaveBus := by
    unfold State.leaveBus
    simp only
    refine Quiet.trans (Quiet.trans (Quiet.trans ?_ (State.emptyAnswers_quiet _)) (State.emptySlot_quiet _)) (State.post_quiet _ _)
    exact { Quiet.refl _ with receipts := by simp }
  have left := Aside.of_controller s { s.controller with state := .ready, rollDue := none, rollTimer := none } rfl
    (by simp [leaving]) (by simp)
  exact ⟨left.trans emptied.aside, emptied.held⟩

theorem State.rollSent_effect {s u : State} {c : Instr} (aside : Aside s u) (same : SameDrain s u) (awake : u.held = false)
    (carried : RollState) : Effect s c (u.rollSent carried) := by
  unfold State.rollSent
  split
  · rename_i joining
    refine .aside (aside.trans ((Aside.of_controller u { u.controller with
      state := .active, rollDue := none, rollTimer := some (u.now + u.scaled Config.rollPeriod) } rfl
      (by simp [joining]) (by simp)).trans (State.post_quiet _ _).aside)) fun _ hl => ?_
    simp [State.nextRoll, State.setRoll] at hl
  · rename_i active
    refine .aside (aside.trans (Quiet.aside { Quiet.refl u with })) fun _ hl => ?_
    simp [State.nextRoll, active] at hl
  · rename_i leaving
    split
    · rename_i due
      refine .aside (aside.trans (Quiet.aside { Quiet.refl u with })) fun d _ hd => ?_
      have := same.drainLaw d leaving hd
      simp [due] at this
    · exact .aside aside same.drainLaw
  · rename_i leaving
    obtain ⟨left, held⟩ := State.leaveBus_aside leaving
    exact .worked u (aside.trans left) (held.trans awake)
  · rename_i halted
    refine .aside (aside.trans (Quiet.aside { Quiet.refl u with })) fun _ hl => ?_
    simp [halted] at hl
  · exact .aside aside same.drainLaw

theorem execRollTransmitted_effect (s : State) (c : Instr) {t : State} (h : execRollTransmitted s = .next t) :
    Effect s c t :=
  .of_awake h fun awake => by
    split
    · rename_i driven
      exact State.rollSent_effect (State.sent_aside driven _) { SameDrain.refl s with } awake _
    · exact .same s c

/-! Timers. -/

theorem execHolderWindowExpiry_effect (s : State) (c : Instr) (seq : Nat) {t : State}
    (h : execHolderWindowExpiry seq s = .next t) : Effect s c t :=
  .of_awake h fun awake => by
    split
    · exact .same s c
    · split
      · simp only
        split
        · exact .settled ((s.reach_quiet _).trans (State.updateEntry_quiet _ _ _)) awake
        · exact .settled ((s.reach_quiet _).trans (State.finish_quiet _ _ _ _)) awake
      · exact .same s c

theorem execRollTimerExpiry_effect (s : State) (c : Instr) {t : State} (h : execRollTimerExpiry s = .next t) :
    Effect s c t :=
  .of_awake h fun _ => by
    split
    · exact .same s c
    · split
      · refine .quiet { Quiet.refl s with } fun d hl hd => ?_
        have leaving : s.controller.state = .leaving := hl
        simp [State.rollOnExpiry, leaving, d leaving hd]
      · exact .same s c

theorem execRepairTimerExpiry_effect (s : State) (c : Instr) {t : State} (h : execRepairTimerExpiry s = .next t) :
    Effect s c t :=
  .of_awake h fun _ => by
    split
    · exact .same s c
    · exact .quiet ((((s.reach_quiet _).trans (State.settleRequest_quiet _)).trans (State.chooseRequest_quiet _)).trans
        { Quiet.refl _ with }) ((((s.reach_sameDrain _).trans (State.settleRequest_sameDrain _)).trans
          (State.chooseRequest_sameDrain _)).trans { SameDrain.refl _ with }).drainLaw

theorem execAnswerDue_effect (s : State) (c : Instr) (key : Key) {t : State} (h : execAnswerDue key s = .next t) :
    Effect s c t :=
  .of_awake h fun awake => by
    split
    · exact .same s c
    · exact .settled { Quiet.refl s with } awake

theorem execSilenceDeadlineExpiry_effect (s : State) (c : Instr) (peer : Nat) {t : State}
    (h : execSilenceDeadlineExpiry peer s = .next t) : Effect s c t :=
  .of_awake h fun _ => by
    split
    · exact .same s c
    · exact .quiet (((s.reach_quiet _).trans (State.setRosterRow_quiet _ _ _)).trans (State.post_quiet _ _))
        fun d => (State.post_sameDrain _ _).drainLaw d

/-! Completions. -/

theorem execProgramComplete_effect (s : State) (results : Vector PassResult 4) {t : State}
    (h : execProgramComplete results s = .next t) : Effect s (.programComplete results) t :=
  .of_awake h fun awake => by
    split
    · rename_i lanes running
      exact .completed (.program lanes _ running) awake (.inl ⟨results, rfl⟩)
    · exact .same s _

theorem execEraseComplete_effect (s : State) (results : Vector EraseResult 4) {t : State}
    (h : execEraseComplete results s = .next t) : Effect s (.eraseComplete results) t :=
  .of_awake h fun awake => by
    split
    · rename_i blocks running
      exact .completed (.erase blocks _ running) awake (.inr (.inl ⟨results, rfl⟩))
    · exact .same s _

theorem execRetireMarkComplete_effect (s : State) (result : MarkResult) {t : State}
    (h : execRetireMarkComplete result s = .next t) : Effect s (.retireMarkComplete result) t :=
  .of_awake h fun awake => by
    split
    · rename_i b running
      exact .completed (.mark b _ running) awake (.inr (.inr ⟨result, rfl⟩))
    · exact .same s _

theorem execTransmitReadComplete_effect (s : State) (changed : PageChange) {t : State}
    (h : execTransmitReadComplete changed s = .next t) : Effect s (.transmitReadComplete changed) t :=
  .of_awake h fun awake => by
    split
    · rename_i r running
      exact .read (.inl ⟨r, ⟨awake, running⟩, rfl, rfl, rfl⟩) (Quiet.refl _) (State.transmitRead_ends _ r _)
    · exact .same s _

theorem execHostReadComplete_effect (s : State) (changed : PageChange) {t : State}
    (h : execHostReadComplete changed s = .next t) : Effect s (.hostReadComplete changed) t :=
  .of_awake h fun awake => by
    split
    · rename_i r running
      exact .read (.inr (.inl ⟨r, ⟨awake, running⟩, rfl, rfl, rfl⟩)) (Quiet.refl _) (State.hostRead_ends _ r _)
    · exact .same s _

theorem execEvacuationReadComplete_effect (s : State) (changed : PageChange) {t : State}
    (h : execEvacuationReadComplete changed s = .next t) : Effect s (.evacuationReadComplete changed) t :=
  .of_awake h fun awake => by
    split
    · rename_i r running
      exact .read (t := (s.slotSensed r.loc changed).evacuationReadDone r)
        (.inr (.inr (.inl ⟨r, ⟨awake, running⟩, rfl, rfl, rfl⟩))) { Quiet.refl _ with }
        (State.evacuationRead_ends _ r _)
    · exact .same s _

theorem execScanReadComplete_effect (s : State) (changed : PageChange) {t : State}
    (h : execScanReadComplete changed s = .next t) : Effect s (.scanReadComplete changed) t :=
  .of_awake h fun awake => by
    split
    · rename_i b p running
      exact .scanned ⟨awake, running⟩
    · exact .same s _

/-! Resets, and PROT. -/

theorem execPowerOnReset_effect (s : State) (left : Interruption) {t : State}
    (h : execPowerOnReset left s = .next t) : Effect s (.powerOnReset left) t := by
  cases h
  refine .reset { s.interrupt left with power := true } none (.inr ⟨left, .inl rfl, rfl⟩) ?_
  split
  · exact .inr rfl
  · exact .inl rfl

theorem execNresetAssert_effect (s : State) (left : Interruption) {t : State}
    (h : execNresetAssert left s = .next t) : Effect s (.nresetAssert left) t := by
  cases h
  split
  · exact .same s _
  · exact .hold true s.power (.inr (.inl rfl))

theorem execPowerLoss_effect (s : State) (left : Interruption) {t : State}
    (h : execPowerLoss left s = .next t) : Effect s (.powerLoss left) t := by
  cases h
  split
  · exact .hold s.nresetLow false (.inr (.inr (.inl rfl)))
  · exact .same s _

theorem execNresetRelease_effect (s : State) (c : Instr) {t : State} (h : execNresetRelease s = .next t) :
    Effect s c t := by
  cases h
  split
  · split
    · exact .reset { s with nresetLow := false } none (.inl rfl) (.inl rfl)
    · exact .aside { Quiet.refl s with
        mounting := Iff.rfl
        mode := fun m => ⟨m.exclusive, m.scanning, m.unconfigured, m.following, m.line, m.halted⟩ } id
  · exact .same s c

theorem execRestart_effect (s : State) (fields : List Byte) (left : Interruption) {t : State}
    (h : execRestart fields left s = .next t) : Effect s (.restart fields left) t :=
  .of_awake h fun _ => .of_taken fun _ _ =>
    .reset (s.interrupt left) _ (.inr ⟨left, .inr (.inr (.inr ⟨fields, rfl⟩)), rfl⟩) (.inl rfl)

theorem State.setProtect_quiet (s : State) (level : Bool) : Quiet s (s.setProtect level) := { Quiet.refl s with }

theorem State.setProtect_sameDrain (s : State) (level : Bool) : SameDrain s (s.setProtect level) :=
  { SameDrain.refl s with }

/-- The workers of a station that is held do nothing (R188). -/
theorem State.settle_held {before s : State} (h : s.held = true) : State.settle before s = s := by
  simp [State.settle, h]

theorem execProtAssert_effect (s : State) (left : Interruption) {t : State}
    (h : execProtAssert left s = .next t) : Effect s (.protAssert left) t := by
  cases h
  split
  · exact .same s _
  · split
    · rename_i abortable
      refine .aborted ?_ fun d => State.abortInFlight_drainLaw left ((s.setProtect_sameDrain true).drainLaw d)
      unfold State.abortable at abortable
      unfold State.abortInFlight
      rw [State.setProtect_sequencer_inFlight]
      split at abortable
      · rename_i lanes running
        exact .program lanes _ running
      · rename_i blocks running
        exact .erase blocks _ running
      · rename_i b running
        exact .mark b _ running
      · cases abortable
    · exact .quiet ((s.setProtect_quiet true).trans (State.post_quiet _ _))
        ((s.setProtect_sameDrain true).trans (State.post_sameDrain _ _)).drainLaw

theorem execProtRelease_effect (s : State) (c : Instr) {t : State} (h : execProtRelease s = .next t) :
    Effect s c t := by
  cases h
  split
  · have quiet := (s.setProtect_quiet false).trans (State.post_quiet _ .protOff)
    cases held : s.held with
    | true =>
      rw [State.settle_held (quiet.held.trans held)]
      exact .quiet quiet ((s.setProtect_sameDrain false).trans (State.post_sameDrain _ _)).drainLaw
    | false => exact .settled quiet held
  · exact .same s c

/-- What every command can do, said once. -/
theorem exec_effect {c : Instr} {s t : State} (h : exec c s = .next t) : Effect s c t := by
  cases c with
  | powerOnReset left => exact execPowerOnReset_effect s left h
  | nresetAssert left => exact execNresetAssert_effect s left h
  | nresetRelease => exact execNresetRelease_effect s _ h
  | protAssert left => exact execProtAssert_effect s left h
  | protRelease => exact execProtRelease_effect s _ h
  | put => exact execPut_effect s _ h
  | get => exact execGet_effect s _ h
  | event => exact execEvent_effect s _ h
  | peek => exact execPeek_effect s _ h
  | voidTransaction kind => exact execVoidTransaction_effect s _ kind h
  | unknownRequest message => exact execUnknownRequest_effect s _ message h
  | configure fields => exact execConfigure_effect s _ fields h
  | join fields => exact execJoin_effect s _ fields h
  | leave fields => exact execLeave_effect s _ fields h
  | restart fields left => exact execRestart_effect s fields left h
  | submit fields => exact execSubmit_effect s _ fields h
  | takeOutcome fields => exact execTakeOutcome_effect s _ fields h
  | readRecord fields => exact execReadRecord_effect s _ fields h
  | findNext fields => exact execFindNext_effect s _ fields h
  | status fields => exact execStatus_effect s _ fields h
  | roster fields => exact execRoster_effect s _ fields h
  | originRow fields => exact execOriginRow_effect s _ fields h
  | frameRejected read => exact execFrameRejected_effect s _ read h
  | receiptReceived sender keys => exact execReceiptReceived_effect s _ sender keys h
  | requestReceived sender origin first span => exact execRequestReceived_effect s _ sender origin first span h
  | recordReceived sender record => exact execRecordReceived_effect s _ sender record h
  | repairRecordReceived sender record => exact execRepairRecordReceived_effect s _ sender record h
  | rollReceived sender state k timingClass topSeq => exact execRollReceived_effect s _ sender state k timingClass topSeq h
  | gapEnd => exact execGapEnd_effect s _ h
  | offerPoint => exact execOfferPoint_effect s _ h
  | arbitrationLost => exact execArbitrationLost_effect s _ h
  | transmitFailure idle => exact execTransmitFailure_effect s _ idle h
  | silencedExpiry => exact execSilencedExpiry_effect s _ h
  | receiptTransmitted => exact execReceiptTransmitted_effect s _ h
  | requestTransmitted => exact execRequestTransmitted_effect s _ h
  | repairRecordTransmitted => exact execRepairRecordTransmitted_effect s _ h
  | recordTransmitted => exact execRecordTransmitted_effect s _ h
  | rollTransmitted => exact execRollTransmitted_effect s _ h
  | holderWindowExpiry seq => exact execHolderWindowExpiry_effect s _ seq h
  | rollTimerExpiry => exact execRollTimerExpiry_effect s _ h
  | repairTimerExpiry => exact execRepairTimerExpiry_effect s _ h
  | answerDue key => exact execAnswerDue_effect s _ key h
  | silenceDeadlineExpiry peer => exact execSilenceDeadlineExpiry_effect s _ peer h
  | programComplete results => exact execProgramComplete_effect s results h
  | eraseComplete results => exact execEraseComplete_effect s results h
  | transmitReadComplete changed => exact execTransmitReadComplete_effect s changed h
  | hostReadComplete changed => exact execHostReadComplete_effect s changed h
  | evacuationReadComplete changed => exact execEvacuationReadComplete_effect s changed h
  | retireMarkComplete result => exact execRetireMarkComplete_effect s result h
  | scanReadComplete changed => exact execScanReadComplete_effect s changed h
  | frameStartHeard => exact execFrameStartHeard_effect s _ h
  | powerLoss left => exact execPowerLoss_effect s left h

end Sys2Proof.Machine
end


section
namespace Sys2Proof.Machine

/-! ### The mount -/

/-- All that the end of a page or of the CLASSIFY phase does: the mount ends, or the next chained block begins (R74). -/
theorem State.nextChained_cases (s : State) (sc : Scanner) :
    (sc.queue = [] ∧ s.nextChained sc = State.endMount { s with scanner := sc }) ∨
      ∃ f rest, sc.queue = f :: rest ∧
        s.nextChained sc = s.placeScan ({ sc with queue := rest }.addPage f.block f.chain 0 f.page0) f.block 1 := by
  unfold State.nextChained
  cases h : sc.queue with
  | nil => exact .inl ⟨rfl, rfl⟩
  | cons f rest => exact .inr ⟨f, rest, rfl, rfl⟩

/-- The scanner when the CLASSIFY phase has ended (R72, R74). -/
def Scanner.classified (sc : Scanner) : Scanner := { sc with phase := .pages, queue := chainedInOrder sc.findings }

/-- All that a scan read completed can do (R72, R74). -/
theorem State.scanned_cases (s : State) (b : BlockId) (p : PageNo) :
    s.scanned b p = s ∨
    (s.scanner.phase = .classify ∧
      ((∃ r, s.scanned b p = s.placeScan { s.scanner with page0 := some r } b 31) ∨
        ∃ cls page0 page31, (∃ next : BlockId, next.val = b.val + 1 ∧
            s.scanned b p = s.placeScan (s.scanner.addBlock b cls page0 page31) next 0) ∨
          s.scanned b p = s.nextChained (s.scanner.addBlock b cls page0 page31).classified)) ∨
    (s.scanner.phase = .pages ∧ ∃ f r, f ∈ s.scanner.findings ∧ f.block = b ∧
      (s.scanned b p = s.placeScan (s.scanner.addPage b f.chain p r) b (p + 1) ∨
        s.scanned b p = s.nextChained (s.scanner.addPage b f.chain p r) ∨
        ∃ last, s.scanned b p = s.nextChained ((s.scanner.addPage b f.chain p r).addPage b f.chain 31 last))) := by
  have next : ∀ sc : Scanner, (∃ next : BlockId, next.val = b.val + 1 ∧ s.nextBlock sc b = s.placeScan sc next 0) ∨
      s.nextBlock sc b = s.nextChained sc.classified := by
    intro sc
    unfold State.nextBlock
    split
    · exact .inl ⟨_, rfl, rfl⟩
    · exact .inr rfl
  unfold State.scanned
  split
  · rename_i phase
    refine .inr (.inl ⟨phase, ?_⟩)
    unfold State.classifyRead
    split
    · split
      · exact .inr ⟨_, _, _, next _⟩
      · exact .inl ⟨_, rfl⟩
    · exact .inr ⟨_, _, _, next _⟩
  · rename_i phase
    unfold State.pageRead
    split
    · exact .inl rfl
    · rename_i f hf
      refine .inr (.inr ⟨phase, f, s.scanResult b p, List.mem_of_find?_eq_some hf, by simpa using List.find?_some hf, ?_⟩)
      simp only
      split
      · exact .inl rfl
      · split
        · exact .inr (.inl rfl)
        · exact .inr (.inr ⟨_, rfl⟩)
  · exact .inl rfl

/-- What a scan read completed does to the station beside the scanner: it places the next read, or ends the mount. -/
theorem State.scanned_shape (s : State) (b : BlockId) (p : PageNo) :
    s.scanned b p = s ∨ (∃ sc b' p', s.scanned b p = s.placeScan sc b' p') ∨
      ∃ sc, s.scanned b p = State.endMount { s with scanner := sc } := by
  have chained : ∀ sc, (∃ sc' b' p', s.nextChained sc = s.placeScan sc' b' p') ∨
      ∃ sc', s.nextChained sc = State.endMount { s with scanner := sc' } := by
    intro sc
    rcases s.nextChained_cases sc with ⟨_, h⟩ | ⟨f, rest, _, h⟩
    · exact .inr ⟨_, h⟩
    · exact .inl ⟨_, _, _, h⟩
  rcases s.scanned_cases b p with h | ⟨_, ⟨r, h⟩ | ⟨cls, page0, page31, ⟨_, _, h⟩ | h⟩⟩ | ⟨_, f, r, _, _, h | h | ⟨_, h⟩⟩
  · exact .inl h
  · exact .inr (.inl ⟨_, _, _, h⟩)
  · exact .inr (.inl ⟨_, _, _, h⟩)
  · exact .inr (h ▸ chained _)
  · exact .inr (.inl ⟨_, _, _, h⟩)
  · exact .inr (h ▸ chained _)
  · exact .inr (h ▸ chained _)

/-- The station when the mount has ended, before the workers act (R80). -/
def State.mountEnded (s : State) : State := ((s.takeMap.takeNextSeq).releaseArray).enterMounted s.scanner.counts

theorem State.endMount_eq (s : State) : s.endMount = State.settle s s.mountEnded := rfl

/-- What the end of the mount makes of the station (R76 to R81, R87). -/
structure MountEnded (s v : State) : Prop where
  flash : v.flash = s.flash
  receipts : v.receipts = s.receipts
  held : v.held = s.held
  config : v.controller.config = s.controller.config
  index : v.index = s.scanner.index
  scanner : v.scanner = { Scanner.reset with phase := .ended, floors := s.scanner.floors }
  blocks : v.map.blocks = s.scanner.blocks
  lanes : v.map.lanes = JournalMap.reset.lanes
  inFlight : v.sequencer.inFlight = none
  exclusive : v.sequencer.exclusive = false
  programs : v.sequencer.programs = s.sequencer.programs
  reclaimErases : v.sequencer.reclaimErases = s.sequencer.reclaimErases
  dirtyErases : v.sequencer.dirtyErases = (List.finRange 256).filter fun b => v.block b == .dirty
  line : v.line = if s.controller.config.isSome then { s.line with state := .seeking, idle := 0 } else s.line
  state : v.controller.state = if v.allDead then .halted else if s.controller.config.isSome then .ready else .idle

theorem State.takeNextSeq_eq (s : State) : s.takeNextSeq = { s with tracker := s.takeNextSeq.tracker } := by
  unfold State.takeNextSeq
  split <;> rfl

theorem State.mountEnded_spec (s : State) : MountEnded s s.mountEnded := by
  unfold State.mountEnded
  rw [State.takeNextSeq_eq]
  generalize s.takeMap.takeNextSeq.tracker = tracker
  unfold State.enterMounted
  simp only
  split
  · rename_i dead
    rw [State.post_eq]
    exact ⟨rfl, rfl, rfl, rfl, rfl, rfl, rfl, rfl, rfl, rfl, rfl, rfl, rfl, rfl, (if_pos dead).symm⟩
  · rename_i alive
    rw [State.post_eq]
    exact ⟨rfl, rfl, rfl, rfl, rfl, rfl, rfl, rfl, rfl, rfl, rfl, rfl, rfl, rfl, (if_neg alive).symm⟩

theorem State.mountEnded_running (s : State) : s.mountEnded.controller.state ≠ .mounting := by
  rw [s.mountEnded_spec.state]
  split
  · simp
  · split <;> simp

/-- The end of the mount leaves the modes legal (R80, R81, R97). -/
theorem State.mountEnded_modeCore {s : State} (m : ModeCore s) (mounting : s.controller.state = .mounting) :
    ModeCore s.mountEnded := by
  have ended := s.mountEnded_spec
  have off : s.line.state = .off := by
    by_contra following
    exact (m.following following).2 mounting
  have resting : s.line.inFlight = none := by simpa [off] using m.line.sending
  exact {
    exclusive := by simp [ended.exclusive, s.mountEnded_running]
    scanning := by simp [ended.inFlight]
    unconfigured := fun h => by
      rw [ended.state] at h
      split at h
      · cases h
      · split at h
        · cases h
        · rename_i none_
          simpa [ended.config] using none_
    following := fun h => by
      refine ⟨?_, s.mountEnded_running⟩
      rw [ended.line] at h
      rw [ended.config]
      split at h
      · assumption
      · exact absurd off h
    line := by
      rw [ended.line]
      split
      · exact m.line.move 0 (by simp [off]) (by simp)
      · exact m.line
    halted := fun h => .inr (by rw [ended.state, if_pos h]) }

/-- A scan read completed keeps the modes legal. -/
theorem State.scanned_modeLaw {s : State} {b : BlockId} {p : PageNo} (running : Running s (.scanRead b p)) (m : ModeLaw s) :
    ModeLaw (s.scanned b p) := by
  obtain ⟨core, drain⟩ := modeLaw_iff.mp m
  have mounting := core.exclusive.mp (core.scanning b p running.2)
  rcases s.scanned_shape b p with h | ⟨sc, b', p', h⟩ | ⟨sc, h⟩ <;> rw [h]
  · exact m
  · exact modeLaw_iff.mpr ⟨⟨core.exclusive, fun _ _ _ => core.exclusive.mpr mounting, core.unconfigured, core.following,
      core.line, core.halted⟩, drain⟩
  · rw [State.endMount_eq]
    refine State.settle_modeLaw _ (State.mountEnded_modeCore (s := { s with scanner := sc })
      ⟨core.exclusive, core.scanning, core.unconfigured, core.following, core.line, core.halted⟩ mounting) ?_
    rw [(State.mountEnded_spec _).held]
    exact running.1

theorem State.scanned_flash (s : State) (b : BlockId) (p : PageNo) : (s.scanned b p).flash = s.flash := by
  rcases s.scanned_shape b p with h | ⟨sc, b', p', h⟩ | ⟨sc, h⟩ <;> rw [h]
  · rfl
  · rw [State.endMount_eq, (State.settle_keep _ _).flash, (State.mountEnded_spec _).flash]

theorem State.endMount_receipts {s : State} (h : s.receipts = []) : s.endMount.receipts = [] := by
  have lost := (State.settle_keep s s.mountEnded).receipts
  rwa [s.mountEnded_spec.receipts, h, List.sublist_nil] at lost

/-- A key joins no Receipt List in the mount, where the list is empty (R142). -/
theorem State.scanned_receiptLaw {s : State} {b : BlockId} {p : PageNo} (mounting : s.controller.state = .mounting)
    (r : ReceiptLaw s) : ReceiptLaw (s.scanned b p) := by
  have none_ : s.receipts = [] := List.eq_nil_iff_forall_not_mem.mpr fun k hk => (r k hk).2 mounting
  rcases s.scanned_shape b p with h | ⟨sc, b', p', h⟩ | ⟨sc, h⟩ <;> rw [h]
  · exact r
  · exact r
  · intro k hk
    rw [State.endMount_receipts (s := { s with scanner := sc }) none_] at hk
    cases hk

/-! The candidates stay sorted (R74, R76). -/

theorem Scanner.offer_sorted {sc : Scanner} (h : mapSorted keyLt sc.candidates = true) (k : Key) (chain : Nat) (l : Loc) :
    mapSorted keyLt (sc.offer k chain l).candidates = true := by
  unfold Scanner.offer
  split <;> exact mapSorted_mapPut keyLt keyLt_trans keyLt_total _ _ _ h

theorem Scanner.addPage_sorted {sc : Scanner} (h : mapSorted keyLt sc.candidates = true) (b : BlockId) (chain : Nat)
    (page : PageNo) (r : PageReport) : mapSorted keyLt (sc.addPage b chain page r).candidates = true := by
  refine foldl_keeps (fun sc : Scanner => mapSorted keyLt sc.candidates = true) (Scanner.addSlot b chain page)
    (fun sc rn h => ?_) _ _ h
  unfold Scanner.addSlot
  split
  · exact Scanner.offer_sorted h _ _ _
  · exact h

theorem mapSorted_iff_pairwise {κ α : Type} (lt : κ → κ → Bool) (m : List (κ × α)) :
    mapSorted lt m = true ↔ m.Pairwise fun a b => lt a.1 b.1 = true := by
  induction m with
  | nil => simp [mapSorted]
  | cons e rest ih => simp [mapSorted, ih]

theorem Scanner.index_sorted {sc : Scanner} (h : mapSorted keyLt sc.candidates = true) : mapSorted keyLt sc.index = true := by
  rw [mapSorted_iff_pairwise] at h ⊢
  exact List.pairwise_map.mpr h

/-- What only loses entries stays sorted. -/
theorem mapSorted_sublist {κ α : Type} {lt : κ → κ → Bool} {m n : List (κ × α)} (h : mapSorted lt n = true)
    (sub : m.Sublist n) : mapSorted lt m = true := by
  rw [mapSorted_iff_pairwise] at h ⊢
  exact h.sublist sub

/-- The workers keep the index sorted: it only loses entries. -/
theorem WorkersKeep.indexLaw {s u : State} (h : WorkersKeep s u) (i : IndexLaw s) : IndexLaw u :=
  ⟨mapSorted_sublist i.index h.index, h.scanner ▸ i.candidates⟩

theorem State.endMount_indexLaw {s : State} (h : mapSorted keyLt s.scanner.candidates = true) : IndexLaw s.endMount := by
  rw [State.endMount_eq]
  refine (State.settle_keep _ _).indexLaw ⟨?_, ?_⟩
  · rw [s.mountEnded_spec.index]
    exact Scanner.index_sorted h
  · rw [s.mountEnded_spec.scanner]
    rfl

theorem State.scanned_indexLaw {s : State} (i : IndexLaw s) (b : BlockId) (p : PageNo) : IndexLaw (s.scanned b p) := by
  have chained : ∀ sc : Scanner, mapSorted keyLt sc.candidates = true → IndexLaw (s.nextChained sc) := by
    intro sc h
    rcases s.nextChained_cases sc with ⟨_, e⟩ | ⟨f, rest, _, e⟩ <;> rw [e]
    · exact State.endMount_indexLaw h
    · exact ⟨i.index, Scanner.addPage_sorted (sc := { sc with queue := rest }) h _ _ _ _⟩
  rcases s.scanned_cases b p with h | ⟨_, ⟨r, h⟩ | ⟨cls, page0, page31, ⟨_, _, h⟩ | h⟩⟩ | ⟨_, f, r, _, _, h | h | ⟨last, h⟩⟩ <;>
    rw [h]
  · exact i
  · exact ⟨i.index, i.candidates⟩
  · exact ⟨i.index, i.candidates⟩
  · exact chained _ i.candidates
  · exact ⟨i.index, Scanner.addPage_sorted i.candidates _ _ _ _⟩
  · exact chained _ (Scanner.addPage_sorted i.candidates _ _ _ _)
  · exact chained _ (Scanner.addPage_sorted (Scanner.addPage_sorted i.candidates _ _ _ _) _ _ _ _)

/-! ### The laws every step keeps -/

/-- A law that no time and no queue of commands enters is kept by every step, if every command keeps it. -/
theorem step_keeps {P : State → Prop} (free : ∀ s now pending, P s → P { s with now := now, pending := pending })
    (exec_keeps : ∀ c s t, P s → Effect s c t → P t) {s t : State} (h : P s) (hs : step s = .next t) : P t := by
  unfold step at hs
  split at hs
  · cases hs
    exact free s _ s.pending h
  · rename_i c rest _
    exact exec_keeps c _ t (free s s.now rest h) (exec_effect hs)

theorem MemoryLaw.of_flash {s u : State} (h : u.flash = s.flash) (m : MemoryLaw s) : MemoryLaw u := by
  unfold MemoryLaw
  rwa [h]

/-- R20: every command keeps the array in its canonical form. -/
theorem Effect.memoryLaw {c : Instr} {s t : State} (h : Effect s c t) (m : MemoryLaw s) : MemoryLaw t := by
  have settled : ∀ before u, MemoryLaw u → MemoryLaw (State.settle before u) := fun before u =>
    MemoryLaw.of_flash (State.settle_keep before u).flash
  cases h with
  | aside h _ => exact m.of_flash h.flash
  | worked before h _ => exact settled _ _ (m.of_flash h.flash)
  | started h _ => exact m.of_flash ((State.startNext_keep _).flash.trans h.flash)
  | reset u keep cells h =>
    have wf : MemoryLaw u := by
      rcases cells with same | ⟨left, _, cut⟩
      · exact m.of_flash same
      · exact MemoryLaw.of_flash (s := s.interrupt left) cut (interruptedFlash_wf s left m)
    rcases h with rfl | rfl <;> exact wf
  | hold low power h => exact interruptedFlash_wf s _ m
  | aborted h _ => exact settled _ _ ((h.memory m).of_flash (State.post_flash _ _))
  | completed h _ _ => exact settled _ _ (h.memory m)
  | read _ sensed ends =>
    exact settled _ _ (MemoryLaw.of_flash (ends.flash.trans sensed.flash) (changedFlash_wf _ _ _ (pageAddress_lt _ _) m))
  | scanned _ => exact MemoryLaw.of_flash (State.scanned_flash _ _ _) (changedFlash_wf _ _ _ (pageAddress_lt _ _) m)

/-- Settles O54: by the cases of what a command can do, every write of the array being a writePage. -/
theorem stepKeepsMemoryLaw : Obligations.StepKeepsMemoryLaw := by
  unfold Obligations.StepKeepsMemoryLaw
  exact fun s t m hs => step_keeps (fun _ _ _ h => h) (fun _ _ _ m h => h.memoryLaw m) m hs

/-- A reset leaves the modes legal: MOUNTING, with the scanner's read placed or the array free (R27, R71, R87). -/
theorem State.afterReset_modeLaw (s : State) (keep : Option Configuration) : ModeLaw (s.afterReset keep) :=
  modeLaw_iff.mpr ⟨⟨iff_of_true rfl rfl, fun _ _ _ => rfl, nofun, nofun, ⟨by simp [State.afterReset, State.reset, LineUnit.reset],
    Nat.zero_le _, by simp [State.afterReset, State.reset, LineUnit.reset], nofun, Nat.zero_le _, Nat.zero_le _⟩,
    fun _ => .inl rfl⟩, nofun⟩

theorem Completion.held {s v : State} (h : Completion s v) : v.held = s.held := by
  rcases h.cases with ⟨u, completing, quiet⟩ | ⟨b, fate, rfl⟩
  · exact quiet.held.trans (u.haltIfDead_held.trans completing.held)
  · rfl

theorem State.startNext_modeLaw {s : State} (m : ModeLaw s) : ModeLaw s.startNext := by
  obtain ⟨core, drain⟩ := modeLaw_iff.mp m
  unfold State.startNext
  split
  · rename_i free
    exact modeLaw_iff.mpr ⟨(WorkerStep.start free).modeCore core, drain⟩
  · exact m

/-- The LOCAL entries are those of the sources. -/
theorem State.localEntries_eq (s : State) :
    s.localEntries = ((s.intake.map IntakeEntry.source).filter (· == .localHost)).length := by
  simp [State.localEntries, List.filter_map, Function.comp_def]

theorem State.beginHold_modeLaw {s : State} (m : ModeLaw s) (left : Interruption) (low power : Bool) :
    ModeLaw { s.beginHold left with nresetLow := low, power := power } := by
  obtain ⟨core, drain⟩ := modeLaw_iff.mp m
  have same : SameDrain s { s.beginHold left with nresetLow := low, power := power } := { SameDrain.refl s with
    locals := by
      rw [State.localEntries_eq, State.localEntries_eq, ← (interruptedIntake_records s).2]
      rfl }
  refine modeLaw_iff.mpr ⟨⟨core.exclusive, nofun, core.unconfigured, fun h => absurd rfl h, ?_, core.halted⟩, same.drainLaw drain⟩
  exact ⟨by simp [State.beginHold], core.line.failureRun, core.line.silenced, fun _ => by simp [State.beginHold],
    core.line.failureTotal, core.line.rejectedTotal⟩

/-- R27, R47, R87, R92, R97, R114: every command keeps the modes legal. -/
theorem Effect.modeLaw {c : Instr} {s t : State} (h : Effect s c t) (m : ModeLaw s) : ModeLaw t := by
  obtain ⟨core, drain⟩ := modeLaw_iff.mp m
  cases h with
  | aside h d => exact modeLaw_iff.mpr ⟨h.mode core, d drain⟩
  | worked before h awake => exact State.settle_modeLaw before (h.mode core) awake
  | started h d => exact State.startNext_modeLaw (modeLaw_iff.mpr ⟨h.modeCore core, d drain⟩)
  | reset u keep cells h =>
    rcases h with rfl | rfl
    · exact u.afterReset_modeLaw keep
    · obtain ⟨core, drain⟩ := modeLaw_iff.mp (u.afterReset_modeLaw keep)
      exact modeLaw_iff.mpr ⟨core.freeArray, drain⟩
  | hold low power _ => exact State.beginHold_modeLaw m _ low power
  | @aborted left v h d =>
    have ended : ModeCore (v.post .protOn) := (v.post_quiet _).modeCore (h.modeCore ((s.setProtect_quiet true).modeCore core))
    cases held : (v.post .protOn).held with
    | true =>
      rw [State.settle_held held]
      exact modeLaw_iff.mpr ⟨ended, (v.post_sameDrain _).drainLaw (d drain)⟩
    | false => exact State.settle_modeLaw s ended held
  | completed h awake _ => exact State.settle_modeLaw s (h.modeCore core) (h.held.trans awake)
  | @read _ l changed _ _ senses sensed ends =>
    have found : ModeCore (s.slotSensed l changed) :=
      ⟨core.exclusive, nofun, core.unconfigured, core.following, core.line, core.halted⟩
    refine State.settle_modeLaw s (ends.modeCore (sensed.modeCore found)) (ends.held.trans (sensed.held.trans ?_))
    rcases senses with ⟨_, running, _⟩ | ⟨_, running, _⟩ | ⟨_, running, _⟩ | ⟨running, _⟩ <;> exact running.1
  | scanned running =>
    refine State.scanned_modeLaw running (modeLaw_iff.mpr ⟨?_, drain⟩)
    exact ⟨core.exclusive, core.scanning, core.unconfigured, core.following, core.line, core.halted⟩

/-- Settles O59: by the cases of what a command can do; a completion that leaves every lane DEAD halts the station, and the
workers end with the test of the drain. -/
theorem stepKeepsModeLaw : Obligations.StepKeepsModeLaw := by
  unfold Obligations.StepKeepsModeLaw
  refine fun s t m hs => step_keeps (fun s now pending m => ?_) (fun _ _ _ m h => h.modeLaw m) m hs
  obtain ⟨core, drain⟩ := modeLaw_iff.mp m
  exact modeLaw_iff.mpr ⟨⟨core.exclusive, core.scanning, core.unconfigured, core.following, core.line, core.halted⟩, drain⟩

/-! The index and the Receipt List. -/

theorem State.loseKey_indexLaw {s : State} (i : IndexLaw s) (k : Key) (b : BlockId) : IndexLaw (s.loseKey k b) := by
  have drop : IndexLaw (s.indexDrop k) := ⟨mapSorted_filter _ _ _ i.index, i.candidates⟩
  have lost : IndexLaw ((s.indexDrop k).retireIfEmptied b) := by
    rcases (s.indexDrop k).retireIfEmptied_quiet b with q | ⟨_, _, _, q⟩
    · exact q.indexLaw drop
    · exact q.indexLaw ⟨drop.index, drop.candidates⟩
  exact ⟨lost.index, lost.candidates⟩

/-- R48: every command keeps one location at most for any key. -/
theorem Effect.indexLaw {c : Instr} {s t : State} (h : Effect s c t) (i : IndexLaw s) : IndexLaw t := by
  cases h with
  | aside h _ => exact h.indexLaw i
  | worked before h _ => exact (State.settle_keep _ _).indexLaw (h.indexLaw i)
  | started h _ => exact (State.startNext_keep _).indexLaw (h.indexLaw i)
  | reset u keep cells h => rcases h with rfl | rfl <;> exact ⟨rfl, rfl⟩
  | hold low power _ => exact ⟨i.index, i.candidates⟩
  | aborted h _ =>
    exact (State.settle_keep _ _).indexLaw ((State.post_quiet _ _).indexLaw (h.indexLaw ((s.setProtect_quiet true).indexLaw i)))
  | completed h _ _ => exact (State.settle_keep _ _).indexLaw (h.indexLaw i)
  | @read _ l changed t _ _ sensed ends =>
    have found : IndexLaw t := sensed.indexLaw ⟨i.index, i.candidates⟩
    refine (State.settle_keep _ _).indexLaw ?_
    rcases ends with q | ⟨k, _, q⟩
    · exact q.indexLaw found
    · exact q.indexLaw (State.loseKey_indexLaw found k l.block)
  | @scanned b p changed _ =>
    exact State.scanned_indexLaw (s := s.cellsChange b p changed) ⟨i.index, i.candidates⟩ b p

/-- What is left of a purge is indexed still: the Receipt List loses the keys the index loses (R62). -/
theorem State.purge_receiptLaw {s : State} (r : ReceiptLaw s) (l : Lane) (b : BlockId) : ReceiptLaw (s.purge l b) := by
  intro k hk
  obtain ⟨hk, stays⟩ := List.mem_filter.mp hk
  refine ⟨?_, (r k hk).2⟩
  obtain ⟨v, hv⟩ := Option.isSome_iff_exists.mp (r k hk).1
  by_contra lost
  obtain ⟨e, he, hke, hb⟩ := mapGet_filter_value s.index (fun e => e.2.block != b) k (Option.not_isSome_iff_eq_none.mp lost) v hv
  simp only [List.contains_eq_mem, List.mem_map, List.mem_filter, Bool.not_eq_true', decide_eq_false_iff_not, not_exists,
    not_and, and_imp] at stays
  exact stays e he (by simpa using hb) hke

theorem WorkerStep.receiptLaw {s u : State} (h : WorkerStep s u) (r : ReceiptLaw s) : ReceiptLaw u := by
  cases h with
  | quiet h => exact h.receiptLaw (fun m => h.state ▸ m) r
  | purge l b => exact State.purge_receiptLaw r l b
  | choose => exact r
  | drop => exact r
  | form =>
    obtain ⟨index, receipts⟩ := s.formPass_index
    intro k hk
    rw [receipts] at hk
    unfold State.locate
    rw [index, s.formPass_keep.state]
    exact r k hk
  | start => exact r

theorem State.settle_receiptLaw (before : State) {s : State} (r : ReceiptLaw s) : ReceiptLaw (State.settle before s) :=
  State.settle_preserves ReceiptLaw (fun _ _ _ step => step.receiptLaw) before r

theorem State.loseKey_receiptLaw {s : State} (r : ReceiptLaw s) (k : Key) (b : BlockId) : ReceiptLaw (s.loseKey k b) := by
  have dropped : ∀ v w : State, (∀ x, v.locate x = (s.indexDrop k).locate x) → v.receipts = s.receipts →
      v.controller.state = s.controller.state → Quiet v w → ReceiptLaw (w.dropReceipt k) := by
    intro v w located receipts state quiet x hx
    obtain ⟨hx, hne⟩ := List.mem_filter.mp hx
    show (w.locate x).isSome = true ∧ w.controller.state ≠ .mounting
    rw [quiet.locate, quiet.state, state, located, State.locate_indexDrop, if_neg (by simpa using hne)]
    rcases quiet.receipts x hx with hx | ⟨hl, hm⟩
    · exact r x (receipts ▸ hx)
    · rw [located, State.locate_indexDrop, if_neg (by simpa using hne)] at hl
      exact ⟨hl, state ▸ hm⟩
  rcases (s.indexDrop k).retireIfEmptied_quiet b with quiet | ⟨_, _, _, quiet⟩
  · exact dropped _ _ (fun _ => rfl) rfl rfl quiet
  · exact dropped ((s.indexDrop k).setBlock b .retired) _ (fun _ => rfl) rfl rfl quiet

/-- R142: every command in a legal mode keeps every key of the Receipt List indexed. -/
theorem Effect.receiptLaw {c : Instr} {s t : State} (h : Effect s c t) (m : ModeLaw s) (r : ReceiptLaw s) : ReceiptLaw t := by
  cases h with
  | aside h _ => exact h.receiptLaw h.mounting.mp r
  | worked before h _ => exact State.settle_receiptLaw before (h.receiptLaw h.mounting.mp r)
  | started h _ =>
    have started := h.receiptLaw (fun m => h.state ▸ m) r
    unfold State.startNext
    split
    · exact started
    · exact started
  | reset u keep cells h => rcases h with rfl | rfl <;> exact fun _ hk => nomatch hk
  | hold low power _ => exact r
  | @aborted left v h _ =>
    have ended := h.receiptLaw ((s.setProtect_quiet true).receiptLaw (fun m => m) r)
    exact State.settle_receiptLaw s ((v.post_quiet _).receiptLaw (fun m => (v.post_quiet _).state ▸ m) ended)
  | completed h _ _ => exact State.settle_receiptLaw s (h.receiptLaw r)
  | @read _ l changed t _ _ sensed ends =>
    have found : ReceiptLaw t := sensed.receiptLaw (fun m => sensed.state ▸ m) r
    refine State.settle_receiptLaw s ?_
    rcases ends with q | ⟨k, _, q⟩
    · exact q.receiptLaw (fun m => q.state ▸ m) found
    · exact q.receiptLaw (fun m => q.state ▸ m) (State.loseKey_receiptLaw found k l.block)
  | @scanned b p changed running =>
    exact State.scanned_receiptLaw (s := s.cellsChange b p changed) (m.exclusive.mp (m.scanning b p running.2)) r

end Sys2Proof.Machine
end


section
namespace Sys2Proof.Machine

/-! ### The law of the block table -/

/-- A row that a location of the index may lie in: OPEN, SEALED or RETIRING (R48). -/
def BlockRow.holds : BlockRow → Bool
  | .opened _ _ _ => true
  | .sealed _ => true
  | .retiring _ => true
  | _ => false

theorem State.isOpen_or_iff (s : State) (b : BlockId) :
    s.isOpen b ∨ s.isSealed b ∨ s.isRetiring b ↔ (s.block b).holds = true := by
  unfold State.isOpen State.isSealed State.isRetiring
  cases s.block b <;> simp [BlockRow.holds]

theorem State.not_open_of_sealed {s : State} {b : BlockId} (h : s.isSealed b) : ¬ s.isOpen b := by
  rintro ⟨_, _, _, ho⟩
  obtain ⟨_, hs⟩ := h
  rw [hs] at ho
  cases ho

/-- What BlockLaw says of the rest of the station but for the scanner, in parts: the rows and lanes, the passes, the erases. -/
structure RowLaw (s : State) : Prop where
  located : ∀ k l, (k, l) ∈ s.index → (s.block l.block).holds = true
  oneOpen : ∀ b b', laneOf b = laneOf b' → s.isOpen b → s.isOpen b' → b = b'
  passesOnce : (s.sequencer.passLanes.map fun p => laneOf p.block).Nodup
  passes : ∀ p ∈ s.sequencer.passLanes, (s.lane (laneOf p.block)).engaged = true ∧ s.isOpen p.block
  erasesOnce : s.sequencer.erasing.Nodup
  erases : ∀ b ∈ s.sequencer.erasing, s.block b = .erasing ∨ s.block b = .dirty
  candidates : ∀ l b, (s.lane l).candidate = some b → laneOf b = l ∧ s.isSealed b

/-- The placed requests of class 3 and the reclaim requests are none while MOUNTING (R44). -/
def UnplacedLaw (s : State) : Prop :=
  s.controller.state = .mounting → s.sequencer.programs = [] ∧ s.sequencer.reclaimErases = []

theorem blockLaw_iff {s : State} : BlockLaw s ↔ RowLaw s ∧ UnplacedLaw s ∧ ScannerLaw s := by
  constructor
  · exact fun h => ⟨⟨fun k l hl => (s.isOpen_or_iff _).mp (h.located k l hl), h.oneOpen, h.passesOnce, h.passes,
      h.erasesOnce, h.erases, h.candidates⟩, h.unplaced, h.scanner⟩
  · exact fun ⟨h, u, sc⟩ => ⟨fun k l hl => (s.isOpen_or_iff _).mpr (h.located k l hl), h.oneOpen, h.passesOnce, h.passes,
      h.erasesOnce, h.erases, h.candidates, u, sc⟩

theorem State.isOpen_congr {s u : State} {b : BlockId} (h : u.block b = s.block b) : u.isOpen b ↔ s.isOpen b := by
  unfold State.isOpen
  rw [h]

theorem State.isSealed_congr {s u : State} {b : BlockId} (h : u.block b = s.block b) : u.isSealed b ↔ s.isSealed b := by
  unfold State.isSealed
  rw [h]

/-- The law of the rows stays when the rows and the lanes stay, and no location, pass or erase comes in. -/
theorem RowLaw.of_less {s u : State} (h : RowLaw s) (index : ∀ e ∈ u.index, e ∈ s.index)
    (block : ∀ b, u.block b = s.block b) (lane : ∀ l, u.lane l = s.lane l)
    (passLanes : u.sequencer.passLanes.Sublist s.sequencer.passLanes)
    (erasesOnce : u.sequencer.erasing.Nodup) (erasing : ∀ b ∈ u.sequencer.erasing, b ∈ s.sequencer.erasing) : RowLaw u where
  located := fun k l hl => by rw [block]; exact h.located k l (index _ hl)
  oneOpen := fun b b' hl ho ho' =>
    h.oneOpen b b' hl ((State.isOpen_congr (block b)).mp ho) ((State.isOpen_congr (block b')).mp ho')
  passesOnce := h.passesOnce.sublist (passLanes.map _)
  passes := fun p hp => by
    rw [lane, State.isOpen_congr (block _)]
    exact h.passes p (passLanes.subset hp)
  erasesOnce := erasesOnce
  erases := fun b hb => by
    rw [block]
    exact h.erases b (erasing b hb)
  candidates := fun l b hc => by
    rw [lane] at hc
    rw [State.isSealed_congr (block b)]
    exact h.candidates l b hc

theorem RowLaw.congr {s u : State} (h : RowLaw s) (index : ∀ e ∈ u.index, e ∈ s.index) (block : ∀ b, u.block b = s.block b)
    (lane : ∀ l, u.lane l = s.lane l) (passLanes : u.sequencer.passLanes = s.sequencer.passLanes)
    (erasing : u.sequencer.erasing = s.sequencer.erasing) : RowLaw u :=
  h.of_less index block lane (passLanes ▸ List.Sublist.refl _) (erasing ▸ h.erasesOnce) fun _ hb => erasing ▸ hb

theorem Sequencer.passLanes_congr {q r : Sequencer} (inFlight : q.inFlight = r.inFlight) (programs : q.programs = r.programs) :
    q.passLanes = r.passLanes := by
  unfold Sequencer.passLanes
  rw [inFlight, programs]

theorem Sequencer.erasing_congr {q r : Sequencer} (inFlight : q.inFlight = r.inFlight)
    (dirtyErases : q.dirtyErases = r.dirtyErases) (reclaimErases : q.reclaimErases = r.reclaimErases) :
    q.erasing = r.erasing := by
  unfold Sequencer.erasing Sequencer.erases
  rw [inFlight, dirtyErases, reclaimErases]

theorem Untouched.rowLaw {s u : State} (h : Untouched s u) (r : RowLaw s) : RowLaw u :=
  r.congr (fun _ he => h.index ▸ he) h.block h.lane (Sequencer.passLanes_congr h.inFlight h.programs)
    (Sequencer.erasing_congr h.inFlight h.dirtyErases h.reclaimErases)

/-- The scanner's law speaks of the scanner and of the scan read in flight alone. -/
theorem ScannerLaw.congr {s u : State} (h : ScannerLaw s) (scanner : u.scanner = s.scanner)
    (reading : ∀ b p, u.sequencer.inFlight = some (.scanRead b p) → s.sequencer.inFlight = some (.scanRead b p)) :
    ScannerLaw u where
  ascending := scanner ▸ h.ascending
  classify := by
    rw [scanner]
    exact fun hp => ⟨(h.classify hp).1, fun b p hr => (h.classify hp).2 b p (reading b p hr)⟩
  queued := scanner ▸ h.queued
  located := scanner ▸ h.located
  read := by
    rw [scanner]
    exact fun hp b p hr => h.read hp b p (reading b p hr)

theorem Untouched.scannerLaw {s u : State} (h : Untouched s u) (sc : ScannerLaw s) : ScannerLaw u :=
  sc.congr h.scanner fun _ _ hr => h.inFlight ▸ hr

theorem Untouched.unplacedLaw {s u : State} (h : Untouched s u)
    (mounting : u.controller.state = .mounting → s.controller.state = .mounting) (p : UnplacedLaw s) : UnplacedLaw u :=
  fun hm => by
    rw [h.programs, h.reclaimErases]
    exact p (mounting hm)

theorem Untouched.blockLaw {s u : State} (h : Untouched s u)
    (mounting : u.controller.state = .mounting → s.controller.state = .mounting) (b : BlockLaw s) : BlockLaw u := by
  obtain ⟨rows, unplaced, scanner⟩ := blockLaw_iff.mp b
  exact blockLaw_iff.mpr ⟨h.rowLaw rows, h.unplacedLaw mounting unplaced, h.scannerLaw scanner⟩

/-! One row or one lane changes. -/

/-- A row may change when the locations, the passes, the erases and the candidate that rest on it allow. -/
theorem RowLaw.setBlock {s : State} (h : RowLaw s) (b : BlockId) (r : BlockRow)
    (located : (∃ k l, (k, l) ∈ s.index ∧ l.block = b) → r.holds = true)
    (oneOpen : (s.setBlock b r).isOpen b → ∀ c, laneOf c = laneOf b → s.isOpen c → c = b)
    (passes : (∃ p ∈ s.sequencer.passLanes, p.block = b) → (s.setBlock b r).isOpen b)
    (erases : b ∈ s.sequencer.erasing → r = .erasing ∨ r = .dirty)
    (candidates : ∀ l, (s.lane l).candidate ≠ some b) : RowLaw (s.setBlock b r) := by
  have other : ∀ c, c ≠ b → (s.setBlock b r).block c = s.block c := fun c hc => by simp [hc]
  exact {
    located := fun k l hl => by
      by_cases hb : l.block = b
      · rw [hb, State.block_setBlock, if_pos rfl]
        exact located ⟨k, l, hl, hb⟩
      · rw [other _ hb]
        exact h.located k l hl
    oneOpen := fun c c' hl ho ho' => by
      by_cases hc : c = b <;> by_cases hc' : c' = b
      · rw [hc, hc']
      · subst hc
        exact (oneOpen ho c' hl.symm ((State.isOpen_congr (other c' hc')).mp ho')).symm
      · subst hc'
        exact oneOpen ho' c hl ((State.isOpen_congr (other c hc)).mp ho)
      · exact h.oneOpen c c' hl ((State.isOpen_congr (other c hc)).mp ho) ((State.isOpen_congr (other c' hc')).mp ho')
    passesOnce := h.passesOnce
    passes := fun p hp => by
      refine ⟨(h.passes p hp).1, ?_⟩
      by_cases hb : p.block = b
      · rw [hb]
        exact passes ⟨p, hp, hb⟩
      · exact (State.isOpen_congr (other _ hb)).mpr (h.passes p hp).2
    erasesOnce := h.erasesOnce
    erases := fun c hc => by
      by_cases hb : c = b
      · rw [hb, State.block_setBlock, if_pos rfl]
        exact erases (hb ▸ hc)
      · rw [other c hb]
        exact h.erases c hc
    candidates := fun l c hc => by
      have hb : c ≠ b := fun hb => candidates l (hb ▸ hc)
      rw [State.isSealed_congr (other c hb)]
      exact h.candidates l c hc }

/-- An OPEN block is no erase's and no candidate. -/
theorem RowLaw.not_erasing_of_holds {s : State} (h : RowLaw s) {b : BlockId} (hb : (s.block b).holds = true) :
    b ∉ s.sequencer.erasing := fun he => by
  rcases h.erases b he with e | e <;> simp [e, BlockRow.holds] at hb

theorem RowLaw.not_candidate_of_not_sealed {s : State} (h : RowLaw s) {b : BlockId} (hb : ¬ s.isSealed b) (l : Lane) :
    (s.lane l).candidate ≠ some b := fun hc => hb (h.candidates l b hc).2

theorem State.isOpen.holds {s : State} {b : BlockId} (h : s.isOpen b) : (s.block b).holds = true :=
  (s.isOpen_or_iff b).mp (.inl h)

/-- The row of an OPEN block that no pass has left in its care may become any that the index allows. -/
theorem RowLaw.setBlock_of_open {s : State} (h : RowLaw s) {b : BlockId} (hb : s.isOpen b) (r : BlockRow)
    (located : (∃ k l, (k, l) ∈ s.index ∧ l.block = b) → r.holds = true)
    (passes : ∀ p ∈ s.sequencer.passLanes, p.block ≠ b) : RowLaw (s.setBlock b r) :=
  h.setBlock b r located (fun _ c hl ho => h.oneOpen c b hl ho hb) (fun ⟨p, hp, e⟩ => absurd e (passes p hp))
    (fun he => absurd he (h.not_erasing_of_holds hb.holds))
    (h.not_candidate_of_not_sealed fun hs => State.not_open_of_sealed hs hb)

/-- A live count of 0 says that no location lies in the block (R48). -/
theorem State.liveCount_eq_zero {s : State} {b : BlockId} :
    s.liveCount b = 0 ↔ ¬ ∃ k l, (k, l) ∈ s.index ∧ l.block = b := by
  simp [State.liveCount, List.length_eq_zero_iff, List.filter_eq_nil_iff]

/-- A block that holds no key any more leaves the chain from RETIRING. -/
theorem RowLaw.retireIfEmptied {s : State} (h : RowLaw s) (b : BlockId) : RowLaw (s.retireIfEmptied b) := by
  rcases s.retireIfEmptied_quiet b with quiet | ⟨chain, hrow, hlive, quiet⟩
  · exact quiet.rowLaw h
  · refine quiet.rowLaw (h.setBlock b .retired ?_ ?_ ?_ ?_ ?_)
    · exact fun located => absurd located (State.liveCount_eq_zero.mp hlive)
    · rintro ⟨_, _, _, ho⟩
      simp at ho
    · rintro ⟨p, hp, rfl⟩
      obtain ⟨_, _, _, ho⟩ := (h.passes p hp).2
      rw [hrow] at ho
      cases ho
    · exact fun he => absurd he (h.not_erasing_of_holds (by simp [hrow, BlockRow.holds]))
    · refine h.not_candidate_of_not_sealed ?_
      rintro ⟨_, hs⟩
      rw [hrow] at hs
      cases hs

/-- What holds of the rows holds with fewer keys indexed. -/
theorem RowLaw.loseKey {s : State} (h : RowLaw s) (k : Key) (b : BlockId) : RowLaw (s.loseKey k b) := by
  have drop : RowLaw (s.indexDrop k) :=
    h.congr (fun _ he => List.mem_of_mem_filter he) (fun _ => rfl) (fun _ => rfl) rfl rfl
  exact (drop.retireIfEmptied b).congr (fun _ he => he) (fun _ => rfl) (fun _ => rfl) rfl rfl

/-! What the workers do to rows and lanes. -/

/-- A lane row may change while the passes of the lane find it engaged, and its candidate is SEALED (R44, R60). -/
theorem RowLaw.setLane {s : State} (h : RowLaw s) (l : Lane) (r : LaneRow) (engaged : (s.lane l).engaged = true → r.engaged = true)
    (candidate : ∀ b, r.candidate = some b → laneOf b = l ∧ s.isSealed b) : RowLaw (s.setLane l r) where
  located := h.located
  oneOpen := h.oneOpen
  passesOnce := h.passesOnce
  passes := fun p hp => by
    refine ⟨?_, (h.passes p hp).2⟩
    rw [State.lane_setLane]
    split
    · rename_i hl
      exact engaged (hl ▸ (h.passes p hp).1)
    · exact (h.passes p hp).1
  erasesOnce := h.erasesOnce
  erases := h.erases
  candidates := fun m b hc => by
    rw [State.lane_setLane] at hc
    split at hc
    · rename_i hl
      exact hl ▸ candidate b hc
    · exact h.candidates m b hc

/-- The block of a purge is a SEALED one of its lane (R60, R61). -/
theorem RowLaw.purged {s : State} (h : RowLaw s) {l : Lane} {b : BlockId}
    (hb : (s.lane l).candidate = some b ∨ s.oldestSealed l = some b) : laneOf b = l ∧ s.isSealed b :=
  hb.elim (h.candidates l b) State.oldestSealed_some

theorem State.isSealed.holds {s : State} {b : BlockId} (h : s.isSealed b) : (s.block b).holds = true :=
  (s.isOpen_or_iff b).mp (.inr (.inl h))

/-- R62: a purge takes the locations of its block out, and the block from SEALED to ERASING with a request. -/
theorem RowLaw.purge {s : State} (h : RowLaw s) {l : Lane} {b : BlockId} (lane : laneOf b = l) (sealed : s.isSealed b) :
    RowLaw (s.purge l b) := by
  have emptied : RowLaw { s with index := s.index.filter fun e => e.2.block != b } :=
    h.congr (fun _ he => List.mem_of_mem_filter he) (fun _ => rfl) (fun _ => rfl) rfl rfl
  have dropped : RowLaw (State.setLane { s with index := s.index.filter fun e => e.2.block != b } l
      { s.lane l with candidate := none }) := emptied.setLane l _ id nofun
  have erasing := dropped.setBlock b .erasing
    (by
      rintro ⟨k, loc, hl, hb⟩
      simpa [hb] using (List.mem_filter.mp hl).2)
    (by rintro ⟨_, _, _, ho⟩; simp at ho)
    (by
      rintro ⟨p, hp, rfl⟩
      exact absurd (h.passes p hp).2 (State.not_open_of_sealed sealed))
    (fun _ => .inl rfl)
    (fun m hc => by
      rw [State.lane_setLane] at hc
      split at hc
      · cases hc
      · rename_i hm
        exact hm ((h.candidates m b hc).1.symm.trans lane))
  have requested : (s.purge l b).sequencer.erasing = s.sequencer.erasing ++ [b] := by
    simp [State.purge, Sequencer.erasing, Sequencer.erases]
  exact {
    located := erasing.located
    oneOpen := erasing.oneOpen
    passesOnce := erasing.passesOnce
    passes := erasing.passes
    erasesOnce := by
      rw [requested, List.nodup_append]
      refine ⟨h.erasesOnce, List.nodup_singleton b, fun c hc d hd => ?_⟩
      rw [List.mem_singleton.mp hd]
      rintro rfl
      exact h.not_erasing_of_holds sealed.holds hc
    erases := fun c hc => by
      rw [requested, List.mem_append, List.mem_singleton] at hc
      rcases hc with hc | rfl
      · exact erasing.erases c hc
      · exact .inl ((State.block_setBlock _ c c _).trans (if_pos rfl))
    candidates := erasing.candidates }

theorem RowLaw.openIfNeeded {s : State} (h : RowLaw s) (l : Lane) : RowLaw (s.openIfNeeded l) := by
  rcases s.openIfNeeded_cases l with e | ⟨closed, b, chain, header, next, draws, lane, hrow, e⟩ <;> rw [e]
  · exact h
  · refine (h.setBlock b (.opened chain (some header) ⟨0, 0, 0⟩) (fun _ => rfl) (fun _ c hc ho => ?_) (fun _ => ?_)
      (fun he => ?_) (h.not_candidate_of_not_sealed ?_)).congr (fun _ he => he) (fun _ => rfl) (fun _ => rfl) rfl rfl
    · exact absurd ho (State.openBlock_none.mp closed c (hc.trans lane))
    · exact ⟨_, _, _, (State.block_setBlock _ _ _ _).trans (if_pos rfl)⟩
    · rcases h.erases b he with e | e <;> simp [hrow] at e
    · rintro ⟨_, hs⟩
      simp [hrow] at hs

/-- What the lanes are after those of a pass have been engaged or disengaged (R51, R59). -/
theorem State.lane_foldl_engage (engaged : Bool) (lanes : List PassLane) (s : State) (m : Lane) :
    (lanes.foldl (fun s p => s.setLane (laneOf p.block) { s.lane (laneOf p.block) with engaged := engaged }) s).lane m =
      if m ∈ lanes.map fun p => laneOf p.block then { s.lane m with engaged := engaged } else s.lane m := by
  induction lanes generalizing s with
  | nil => rfl
  | cons p rest ih =>
    rw [List.foldl_cons, ih, State.lane_setLane]
    by_cases hp : m = laneOf p.block
    · subst hp
      simp
    · simp [hp]

/-- The lanes that join a gang are some of those asked, in their order; each is OPEN and was not engaged (R54). -/
theorem State.joinLanes_spec (s : State) (page : PageNo) (ls : List Lane) (waiting : List IntakeEntry) :
    ((s.joinLanes page ls waiting).map fun p => laneOf p.block).Sublist ls ∧
      ∀ p ∈ s.joinLanes page ls waiting, (s.lane (laneOf p.block)).engaged = false ∧ s.isOpen p.block := by
  induction ls generalizing waiting with
  | nil => exact ⟨List.Sublist.slnil, by simp [State.joinLanes]⟩
  | cons l rest ih =>
    unfold State.joinLanes
    split
    · exact ⟨List.nil_sublist _, by simp⟩
    · exact ⟨(ih _).1.cons l, (ih _).2⟩
    · rename_i o _ ho
      obtain ⟨lane, hrow⟩ := State.openBlock_some ho
      split
      · rename_i joins
        simp only [Bool.and_eq_true, Bool.not_eq_true'] at joins
        refine ⟨?_, fun p hp => ?_⟩
        · rw [List.map_cons, show laneOf (formLane o _).block = l from lane]
          exact (ih _).1.cons_cons l
        · rcases List.mem_cons.mp hp with rfl | hp
          · exact ⟨by rw [show laneOf (formLane o _).block = l from lane]; exact joins.1, _, _, _, hrow⟩
          · exact (ih _).2 p hp
      · exact ⟨(ih _).1.cons l, (ih _).2⟩

/-- R55: a pass is placed on OPEN blocks of lanes that were not engaged, one to a lane. -/
theorem RowLaw.placePass {s : State} (h : RowLaw s) (lead : Lane) {lanes : List PassLane}
    (once : (lanes.map fun p => laneOf p.block).Nodup)
    (able : ∀ p ∈ lanes, (s.lane (laneOf p.block)).engaged = false ∧ s.isOpen p.block) : RowLaw (s.placePass lead lanes) := by
  have passLanes : (s.placePass lead lanes).sequencer.passLanes = s.sequencer.passLanes ++ lanes := by
    simp [State.placePass_sequencer, Sequencer.passLanes]
  have erasing : (s.placePass lead lanes).sequencer.erasing = s.sequencer.erasing := by
    rw [State.placePass_sequencer]
    rfl
  have lane : ∀ m, (s.placePass lead lanes).lane m =
      if m ∈ lanes.map fun p => laneOf p.block then { s.lane m with engaged := true } else s.lane m :=
    fun m => State.lane_foldl_engage true lanes _ m
  have block := s.block_placePass lead lanes
  exact {
    located := fun k l hl => by
      rw [block]
      rw [State.placePass_eq] at hl
      exact h.located k l hl
    oneOpen := fun b b' hl ho ho' =>
      h.oneOpen b b' hl ((State.isOpen_congr (block b)).mp ho) ((State.isOpen_congr (block b')).mp ho')
    passesOnce := by
      rw [passLanes, List.map_append, List.nodup_append]
      refine ⟨h.passesOnce, once, fun l hl m hm => ?_⟩
      rintro rfl
      obtain ⟨p, hp, rfl⟩ := List.mem_map.mp hl
      obtain ⟨q, hq, e⟩ := List.mem_map.mp hm
      have := (able q hq).1
      rw [e, (h.passes p hp).1] at this
      cases this
    passes := fun p hp => by
      rw [passLanes, List.mem_append] at hp
      rw [lane, State.isOpen_congr (block _)]
      rcases hp with hp | hp
      · refine ⟨?_, (h.passes p hp).2⟩
        split
        · rfl
        · exact (h.passes p hp).1
      · rw [if_pos (List.mem_map_of_mem hp)]
        exact ⟨rfl, (able p hp).2⟩
    erasesOnce := erasing ▸ h.erasesOnce
    erases := fun b hb => by
      rw [block]
      exact h.erases b (erasing ▸ hb)
    candidates := fun m b hc => by
      rw [State.isSealed_congr (block b)]
      rw [lane] at hc
      refine h.candidates m b ?_
      split at hc <;> exact hc }

theorem RowLaw.formPass {s : State} (h : RowLaw s) : RowLaw s.formPass := by
  rcases s.formPass_cases with e | ⟨lead, able, e | ⟨o, ho, e⟩⟩ <;> rw [e]
  · exact h
  · exact h.openIfNeeded lead
  · obtain ⟨lane, hrow⟩ := State.openBlock_some ho
    obtain ⟨lanes, joined⟩ := (s.openIfNeeded lead).joinLanes_spec o.position.page [lead + 1, lead + 2, lead + 3]
      (s.waiting.drop o.position.free)
    have apart : ∀ lead : Lane, [lead, lead + 1, lead + 2, lead + 3].Nodup := by decide
    have leads : laneOf (formLane o (s.waiting.take o.position.free)).block = lead := lane
    refine (h.openIfNeeded lead).placePass lead ?_ fun p hp => ?_
    · rw [List.map_cons, leads]
      exact (apart lead).sublist (lanes.cons_cons lead)
    · rcases List.mem_cons.mp hp with rfl | hp
      · refine ⟨?_, _, _, _, hrow⟩
        rw [leads]
        have same : (s.openIfNeeded lead).lane lead = s.lane lead := by
          rcases s.openIfNeeded_cases lead with e | ⟨_, _, _, _, _, _, _, _, e⟩ <;> rw [e]
          rfl
        rw [same]
        unfold State.canTake at able
        simpa using (Bool.and_eq_true_iff.mp able).1
      · exact joined p hp

end Sys2Proof.Machine
end


section
namespace Sys2Proof.Machine

/-- The blocks of a gang stand in lanes of their own (R30). -/
theorem eraseGang_lanes_nodup (lead : BlockId) (waiting : List BlockId) : ((eraseGang lead waiting).map laneOf).Nodup := by
  have others := firstOfLanes_sublist laneOf ((List.finRange 4).filter fun l => l ≠ laneOf lead) waiting
  rw [eraseGang_eq, List.map_cons, List.nodup_cons]
  refine ⟨fun h => ?_, ((List.nodup_finRange 4).filter _).sublist others⟩
  simpa using (List.mem_filter.mp (others.subset h)).2

/-- R30: a gang is made of requests that wait. -/
theorem eraseGang_subset {lead : BlockId} {rest waiting : List BlockId} (h : waiting = lead :: rest) :
    ∀ b ∈ eraseGang lead waiting, b ∈ waiting := by
  intro b hb
  rw [eraseGang_eq, List.mem_cons] at hb
  rcases hb with rfl | hb
  · rw [h]
    exact List.mem_cons_self
  · exact firstOfLanes_subset hb

/-- A slot read or a mark in flight is no pass and no erase. -/
theorem Sequencer.lists_of_plain {q : Sequencer} {o : Operation} (h : q.inFlight = some o) (plain : o.plain = true) :
    q.passLanes = q.programs.flatten ∧ q.erasing = q.erases := by
  unfold Sequencer.passLanes Sequencer.erasing
  rw [h]
  cases o <;> simp_all [Operation.plain]

/-- Starting a request on a free array moves a pass or erases from their lists to the array, and no other comes in (R29). -/
theorem RowLaw.start {s : State} (h : RowLaw s) (free : s.sequencer.isFree = true) :
    RowLaw { s with sequencer := s.sequencer.start } := by
  have idle : s.sequencer.inFlight = none := by
    simpa using (Bool.and_eq_true_iff.mp free).1
  have passes : s.sequencer.passLanes = s.sequencer.programs.flatten := by simp [Sequencer.passLanes, idle]
  have erasing : s.sequencer.erasing = s.sequencer.erases := by simp [Sequencer.erasing, idle]
  rcases s.sequencer.start_cases with e | ⟨o, plain, inFlight, programs, dirty, reclaim⟩ | ⟨p, rest, programs, e⟩ |
    ⟨lead, rest, waiting, e⟩
  · rw [e]
    exact h
  · obtain ⟨noPass, noErase⟩ := Sequencer.lists_of_plain inFlight plain
    refine h.congr (fun _ he => he) (fun _ => rfl) (fun _ => rfl) ?_ ?_
    · rw [passes, noPass, programs]
    · rw [erasing, noErase]
      simp only [Sequencer.erases, dirty, reclaim]
  · refine h.congr (fun _ he => he) (fun _ => rfl) (fun _ => rfl) ?_ ?_
    · rw [passes, e, programs]
      rfl
    · rw [erasing, e]
      rfl
  · have gang := eraseGang_subset waiting
    have left : s.sequencer.start.erasing = eraseGang lead s.sequencer.erases ++
        s.sequencer.erases.filter fun o => !(eraseGang lead s.sequencer.erases).contains o := by
      rw [e]
      simp [Sequencer.erasing, Sequencer.erases]
    have once := h.erasesOnce
    rw [erasing] at once
    refine h.of_less (fun _ he => he) (fun _ => rfl) (fun _ => rfl) ?_ ?_ ?_
    · rw [passes, e]
      exact List.Sublist.refl _
    · rw [left, List.nodup_append]
      refine ⟨(eraseGang_lanes_nodup _ _).of_map, once.filter _, fun b hb c hc => ?_⟩
      rintro rfl
      simpa [hb] using (List.mem_filter.mp hc).2
    · intro b hb
      rw [left, List.mem_append] at hb
      rw [erasing]
      exact hb.elim (gang b) List.mem_of_mem_filter

theorem WorkerStep.rowLaw {s u : State} (h : WorkerStep s u) (r : RowLaw s) : RowLaw u := by
  cases h with
  | quiet h => exact h.rowLaw r
  | purge l b h => exact r.purge (r.purged h).1 (r.purged h).2
  | choose l b n h => exact r.setLane l _ id fun c hc => Option.some.inj hc ▸ State.oldestSealed_some h
  | drop l => exact r.setLane l _ id nofun
  | form => exact r.formPass
  | start free => exact r.start free

theorem WorkerStep.scanner {s u : State} (h : WorkerStep s u) : u.scanner = s.scanner := by
  cases h with
  | quiet h => exact h.scanner
  | form => exact s.formPass_keep.scanner
  | _ => rfl

theorem WorkerStep.blockLaw {s u : State} (running : s.controller.state ≠ .mounting) (h : WorkerStep s u) (b : BlockLaw s) :
    BlockLaw u := by
  obtain ⟨rows, _, scanner⟩ := blockLaw_iff.mp b
  exact blockLaw_iff.mpr ⟨h.rowLaw rows, fun m => absurd (h.state ▸ m) running,
    scanner.congr h.scanner fun _ _ hr => h.reading hr⟩

theorem State.settle_blockLaw (before : State) {s : State} (b : BlockLaw s) : BlockLaw (State.settle before s) :=
  State.settle_preserves BlockLaw (fun _ _ running step => step.blockLaw running) before b

/-! What the completions do to the rows. -/

theorem RowLaw.freeArray {s : State} (h : RowLaw s) : RowLaw s.freeArray :=
  h.of_less (fun _ he => he) (fun _ => rfl) (fun _ => rfl) (List.sublist_append_right _ _)
    (h.erasesOnce.sublist (List.sublist_append_right _ _)) fun _ hb => List.mem_append_right _ hb

theorem State.block_of_quiet_setBlock {s u : State} {b c : BlockId} {r : BlockRow} (h : Quiet (s.setBlock b r) u) :
    u.block c = if c = b then r else s.block c := (h.block c).trans (s.block_setBlock b c r)

/-- A block that is OPEN stays as it is when another is retired for its emptiness. -/
theorem State.block_retireIfEmptied {s : State} {b c : BlockId} (h : s.isOpen c) :
    (s.retireIfEmptied b).block c = s.block c := by
  rcases s.retireIfEmptied_quiet b with quiet | ⟨chain, hrow, _, quiet⟩
  · exact quiet.block c
  · rw [State.block_of_quiet_setBlock quiet, if_neg]
    rintro rfl
    obtain ⟨_, _, _, ho⟩ := h
    rw [hrow] at ho
    cases ho

theorem RowLaw.indexPut {s : State} (h : RowLaw s) (k : Key) {l : Loc} (hb : (s.block l.block).holds = true) :
    RowLaw (s.indexPut k l) where
  located := fun j m hm => by
    rcases mem_mapPut _ _ _ _ _ hm with e | hm
    · cases e
      exact hb
    · exact h.located j m hm
  oneOpen := h.oneOpen
  passesOnce := h.passesOnce
  passes := h.passes
  erasesOnce := h.erasesOnce
  erases := h.erases
  candidates := h.candidates

/-- An entry of an OPEN block is indexed: the law stays, and every OPEN block as it is (R12). -/
theorem RowLaw.indexEntry {s : State} (h : RowLaw s) {e : IntakeEntry} {b : BlockId} (hb : s.isOpen b)
    (he : e.inPassOn b = true) : RowLaw (s.indexEntry e) ∧ ∀ c, s.isOpen c → (s.indexEntry e).block c = s.block c := by
  obtain ⟨l, assigned, rfl⟩ := IntakeEntry.inPassOn_iff.mp he
  rcases s.indexEntry_cases e with e' | ⟨l', assigned', e' | ⟨former, _, e'⟩⟩ <;> rw [e']
  · exact ⟨h, fun _ _ => rfl⟩
  · cases assigned.symm.trans assigned'
    exact ⟨h.indexPut _ hb.holds, fun _ _ => rfl⟩
  · cases assigned.symm.trans assigned'
    exact ⟨(h.indexPut _ hb.holds).retireIfEmptied _, fun c hc => State.block_retireIfEmptied (s := s.indexPut _ l) hc⟩

theorem RowLaw.completeEntries {s : State} (h : RowLaw s) {b : BlockId} (hb : s.isOpen b) :
    RowLaw (s.completeEntries b) ∧ ∀ c, s.isOpen c → (s.completeEntries b).block c = s.block c := by
  have indexed : ∀ entries : List IntakeEntry, (∀ e ∈ entries, e.inPassOn b = true) → ∀ t : State, RowLaw t → t.isOpen b →
      RowLaw (entries.foldl State.indexEntry t) ∧
        ∀ c, t.isOpen c → (entries.foldl State.indexEntry t).block c = t.block c := by
    intro entries
    induction entries with
    | nil => exact fun _ t ht _ => ⟨ht, fun _ _ => rfl⟩
    | cons e rest ih =>
      intro hin t ht ho
      obtain ⟨law, stays⟩ := ht.indexEntry ho (hin e List.mem_cons_self)
      obtain ⟨law', stays'⟩ := ih (fun e he => hin e (List.mem_cons_of_mem _ he)) _ law ((State.isOpen_congr (stays b ho)).mpr ho)
      exact ⟨law', fun c hc => (stays' c ((State.isOpen_congr (stays c hc)).mpr hc)).trans (stays c hc)⟩
  obtain ⟨law, stays⟩ := indexed (s.intake.filter fun e => e.inPassOn b) (fun e he => (List.mem_filter.mp he).2) s h hb
  exact ⟨law.congr (fun _ he => he) (fun _ => rfl) (fun _ => rfl) rfl rfl, stays⟩

theorem advanceRow_holds (chain : Nat) (position : WritePosition) (n : Nat) :
    (advanceRow chain position n).holds = true := by
  unfold advanceRow closePage
  split
  · rfl
  · split <;> rfl

/-- The result of one lane of a pass keeps the law when no other pass runs on its block, and leaves every other OPEN block as
it is (R12, R13, R56 to R58). -/
theorem RowLaw.laneResult {s : State} (h : RowLaw s) (outcome : PassLane → PassResult) {p : PassLane} (hp : s.isOpen p.block)
    (alone : ∀ q ∈ s.sequencer.passLanes, q.block ≠ p.block) :
    RowLaw (s.laneResult outcome p) ∧ ∀ c, c ≠ p.block → s.isOpen c → (s.laneResult outcome p).block c = s.block c := by
  have change : ∀ {t : State} (r : BlockRow), RowLaw t → (∀ c, s.isOpen c → t.block c = s.block c) →
      t.sequencer.passLanes = s.sequencer.passLanes →
      ((∃ k l, (k, l) ∈ t.index ∧ l.block = p.block) → r.holds = true) → ∀ {u}, Quiet (t.setBlock p.block r) u →
      RowLaw u ∧ ∀ c, c ≠ p.block → s.isOpen c → u.block c = s.block c := by
    intro t r law stays passLanes located u quiet
    have open_ : t.isOpen p.block := (State.isOpen_congr (stays _ hp)).mpr hp
    refine ⟨quiet.rowLaw (law.setBlock_of_open open_ r located (by rw [passLanes]; exact alone)), fun c hc ho => ?_⟩
    rw [State.block_of_quiet_setBlock quiet, if_neg hc]
    exact stays c ho
  have cells : ∀ fate, RowLaw (s.programCells p fate) := fun fate =>
    h.congr (fun _ he => he) (fun _ => rfl) (fun _ => rfl) rfl rfl
  have returned : ∀ fate, RowLaw ((s.programCells p fate).returnEntries p.block) := fun fate =>
    (cells fate).congr (fun _ he => he) (fun _ => rfl) (fun _ => rfl) rfl rfl
  unfold State.laneResult
  split
  · obtain ⟨law, stays⟩ := (cells none).completeEntries (b := p.block) hp
    have keep := (s.programCells p none).completeEntries_completing p.block
    unfold State.lanePass
    simp only
    split
    · exact change _ law stays (Sequencer.passLanes_congr keep.inFlight keep.programs) (fun _ => advanceRow_holds _ _ _)
        (Quiet.refl _)
    · exact ⟨law, fun c _ ho => stays c ho⟩
  · rename_i fate _
    unfold State.laneFail
    simp only
    split
    · split
      · rename_i hlive
        exact change .retired (returned _) (fun _ _ => rfl) rfl
          (fun located => absurd located (State.liveCount_eq_zero.mp hlive)) (State.retire_quiet _ _ _)
      · exact change _ (returned _) (fun _ _ => rfl) rfl (fun _ => rfl) (State.joinEvacuator_quiet _ _)
    · exact ⟨returned _, fun _ _ _ => rfl⟩
  · unfold State.laneAbort
    simp only
    split
    · refine change _ (returned _) (fun _ _ => rfl) rfl (fun _ => ?_) (Quiet.refl _)
      split
      · rfl
      · unfold closePage
        split <;> rfl
    · exact ⟨returned _, fun _ _ _ => rfl⟩

/-- The lanes of a pass have their results, one block after the other (R31). -/
theorem RowLaw.laneResults (outcome : PassLane → PassResult) (lanes : List PassLane)
    (once : (lanes.map fun p => laneOf p.block).Nodup) {s : State} (h : RowLaw s) (hopen : ∀ p ∈ lanes, s.isOpen p.block)
    (alone : ∀ p ∈ lanes, ∀ q ∈ s.sequencer.passLanes, q.block ≠ p.block) :
    RowLaw (lanes.foldl (State.laneResult outcome) s) := by
  induction lanes generalizing s with
  | nil => exact h
  | cons p rest ih =>
    rw [List.map_cons, List.nodup_cons] at once
    obtain ⟨law, stays⟩ := h.laneResult outcome (hopen p List.mem_cons_self) (alone p List.mem_cons_self)
    have keep := s.laneResult_completing outcome p
    refine ih once.2 law (fun q hq => ?_) fun q hq r hr => ?_
    · have other : q.block ≠ p.block := fun e => once.1 (e ▸ List.mem_map_of_mem (f := fun p : PassLane => laneOf p.block) hq)
      have was := hopen q (List.mem_cons_of_mem _ hq)
      exact (State.isOpen_congr (stays _ other was)).mpr was
    · rw [Sequencer.passLanes_congr keep.inFlight keep.programs] at hr
      exact alone q (List.mem_cons_of_mem _ hq) r hr

/-- The lanes of a pass that has ended are free of it when no other pass is placed in them (R59). -/
theorem RowLaw.disengage {s : State} (h : RowLaw s) (lanes : List PassLane)
    (apart : ∀ q ∈ s.sequencer.passLanes, ∀ p ∈ lanes, laneOf q.block ≠ laneOf p.block) : RowLaw (s.disengage lanes) := by
  have lane : ∀ m, (s.disengage lanes).lane m =
      if m ∈ lanes.map fun p => laneOf p.block then { s.lane m with engaged := false } else s.lane m :=
    State.lane_foldl_engage false lanes s
  have same : s.disengage lanes = { s with map := { s.map with lanes := (s.disengage lanes).map.lanes } } :=
    State.foldl_setLane_eq (fun s p => { s.lane (laneOf p.block) with engaged := false }) lanes s
  have block : ∀ b, (s.disengage lanes).block b = s.block b := fun b => by rw [same]; rfl
  have sequencer : (s.disengage lanes).sequencer = s.sequencer := by rw [same]
  exact {
    located := fun k l hl => by
      rw [block]
      rw [same] at hl
      exact h.located k l hl
    oneOpen := fun b b' hl ho ho' =>
      h.oneOpen b b' hl ((State.isOpen_congr (block b)).mp ho) ((State.isOpen_congr (block b')).mp ho')
    passesOnce := sequencer ▸ h.passesOnce
    passes := fun q hq => by
      rw [sequencer] at hq
      rw [State.isOpen_congr (block _), lane, if_neg]
      · exact h.passes q hq
      · intro hm
        obtain ⟨p, hp, e⟩ := List.mem_map.mp hm
        exact apart q hq p hp e.symm
    erasesOnce := sequencer ▸ h.erasesOnce
    erases := fun b hb => by
      rw [sequencer] at hb
      rw [block]
      exact h.erases b hb
    candidates := fun m b hc => by
      rw [State.isSealed_congr (block b)]
      rw [lane] at hc
      refine h.candidates m b ?_
      split at hc <;> exact hc }

theorem RowLaw.passEnded {s : State} (h : RowLaw s) {lanes : List PassLane} (results : Lane → PassResult)
    (running : s.sequencer.inFlight = some (.program lanes)) : RowLaw (s.passEnded lanes results) := by
  have all : s.sequencer.passLanes = lanes ++ s.freeArray.sequencer.passLanes := by
    simp [Sequencer.passLanes, running]
  have once := h.passesOnce
  rw [all, List.map_append, List.nodup_append] at once
  have apart : ∀ q ∈ s.freeArray.sequencer.passLanes, ∀ p ∈ lanes, laneOf q.block ≠ laneOf p.block :=
    fun q hq p hp e => once.2.2 _ (List.mem_map_of_mem hp) _ (List.mem_map_of_mem hq) e.symm
  have taken : ∀ p ∈ passesInOrder lanes, p ∈ lanes := fun p hp => firstOfLanes_subset hp
  have ended := RowLaw.laneResults (passOutcome s.flash results) (passesInOrder lanes) (passesInOrder_lanes_nodup lanes)
    h.freeArray (fun p hp => (h.passes p (all ▸ List.mem_append_left _ (taken p hp))).2)
    fun p hp q hq e => apart q hq p (taken p hp) (congrArg laneOf e)
  have keep := Completing.foldl _ (State.laneResult_completing (passOutcome s.flash results)) (passesInOrder lanes) s.freeArray
  refine ended.disengage lanes ?_
  rw [Sequencer.passLanes_congr keep.inFlight keep.programs]
  exact apart

theorem State.block_eraseCells (s : State) (b c : BlockId) (fate : EraseFate) :
    (s.eraseCells b fate).block c = s.block c := rfl

theorem State.sequencer_eraseCells (s : State) (b : BlockId) (fate : EraseFate) :
    (s.eraseCells b fate).sequencer = s.sequencer := rfl

/-- The request for a block that is DIRTY again joins those that wait (R63). -/
theorem State.erasing_dirtyAgain (s : State) (b : BlockId) :
    (s.dirtyAgain b).sequencer.erasing.Perm (b :: s.sequencer.erasing) := by
  have waits : (s.sequencer.dirtyErases ++ [b] ++ s.sequencer.reclaimErases).Perm
      (b :: (s.sequencer.dirtyErases ++ s.sequencer.reclaimErases)) := by
    rw [List.append_assoc]
    exact List.perm_middle
  exact (waits.append_left _).trans List.perm_middle

/-- One block of an erase ends: a block that no other erase and no pass names becomes FREE, RETIRED or DIRTY (R63). -/
theorem RowLaw.blockErased {s : State} (h : RowLaw s) (results : Lane → EraseResult) {b : BlockId}
    (row : s.block b = .erasing ∨ s.block b = .dirty) (alone : b ∉ s.sequencer.erasing) :
    RowLaw (s.blockErased results b) ∧ (∀ c, c ≠ b → (s.blockErased results b).block c = s.block c) ∧
      ∀ c ∈ (s.blockErased results b).sequencer.erasing, c = b ∨ c ∈ s.sequencer.erasing := by
  have erased : ∀ fate r, r = .free ∨ r = .retired ∨ r = .dirty → RowLaw ((s.eraseCells b fate).setBlock b r) ∧
      (∀ c, ((s.eraseCells b fate).setBlock b r).block c = if c = b then r else s.block c) ∧
      ((s.eraseCells b fate).setBlock b r).sequencer = s.sequencer := by
    intro fate r hr
    have law : RowLaw (s.eraseCells b fate) :=
      h.congr (fun _ he => he) (s.block_eraseCells b · fate) (fun _ => rfl) rfl rfl
    have row' : (s.eraseCells b fate).block b = .erasing ∨ (s.eraseCells b fate).block b = .dirty := by
      rw [State.block_eraseCells]
      exact row
    refine ⟨law.setBlock b r ?_ ?_ ?_ (fun he => absurd he alone) (law.not_candidate_of_not_sealed ?_), fun c => ?_, rfl⟩
    · rintro ⟨k, l, hl, rfl⟩
      have := law.located k l hl
      rcases row' with e | e <;> simp [e, BlockRow.holds] at this
    · rintro ⟨_, _, _, ho⟩
      rcases hr with rfl | rfl | rfl <;> simp at ho
    · rintro ⟨p, hp, rfl⟩
      obtain ⟨_, _, _, ho⟩ := (law.passes p hp).2
      rcases row' with e | e <;> simp [e] at ho
    · rintro ⟨_, hs⟩
      rcases row' with e | e <;> simp [e] at hs
    · rw [State.block_setBlock, State.block_eraseCells]
  unfold State.blockErased
  split
  · obtain ⟨law, block, sequencer⟩ := erased .whole .free (.inl rfl)
    exact ⟨law, fun c hc => (block c).trans (if_neg hc), fun c hc => .inr (sequencer ▸ hc)⟩
  · rename_i fate _
    obtain ⟨law, block, _⟩ := erased fate .retired (.inr (.inl rfl))
    have quiet := (s.eraseCells b fate).retire_quiet b .erase
    refine ⟨quiet.rowLaw law, fun c hc => (quiet.block c).trans ((block c).trans (if_neg hc)), fun c hc => ?_⟩
    rw [Sequencer.erasing_congr quiet.inFlight quiet.dirtyErases quiet.reclaimErases] at hc
    exact .inr hc
  · rename_i fate _
    obtain ⟨law, block, _⟩ := erased fate .dirty (.inr (.inr rfl))
    have perm := (s.eraseCells b fate).erasing_dirtyAgain b
    rw [State.sequencer_eraseCells] at perm
    refine ⟨?_, fun c hc => (block c).trans (if_neg hc), fun c hc => List.mem_cons.mp (perm.subset hc)⟩
    exact {
      located := law.located
      oneOpen := law.oneOpen
      passesOnce := law.passesOnce
      passes := law.passes
      erasesOnce := perm.nodup_iff.mpr (List.nodup_cons.mpr ⟨alone, h.erasesOnce⟩)
      erases := fun c hc => by
        rcases List.mem_cons.mp (perm.subset hc) with rfl | hc
        · exact .inr ((block c).trans (if_pos rfl))
        · exact law.erases c hc
      candidates := law.candidates }

/-- The blocks of an erase have their results, one after the other (R31). -/
theorem RowLaw.blocksErased (results : Lane → EraseResult) {blocks : List BlockId} (once : blocks.Nodup) {s : State}
    (h : RowLaw s) (rows : ∀ b ∈ blocks, s.block b = .erasing ∨ s.block b = .dirty)
    (alone : ∀ b ∈ blocks, b ∉ s.sequencer.erasing) : RowLaw (blocks.foldl (State.blockErased results) s) := by
  induction blocks generalizing s with
  | nil => exact h
  | cons b rest ih =>
    rw [List.nodup_cons] at once
    obtain ⟨law, stays, erasing⟩ := h.blockErased results (rows b List.mem_cons_self) (alone b List.mem_cons_self)
    have other : ∀ c ∈ rest, c ≠ b := fun c hc e => once.1 (e ▸ hc)
    refine ih once.2 law (fun c hc => ?_) fun c hc he => ?_
    · rw [stays c (other c hc)]
      exact rows c (List.mem_cons_of_mem _ hc)
    · exact (erasing c he).elim (other c hc) (alone c (List.mem_cons_of_mem _ hc))

theorem blocksInOrder_nodup (blocks : List BlockId) : (blocksInOrder blocks).Nodup :=
  List.Nodup.of_map laneOf ((firstOfLanes_ascending laneOf (List.pairwise_lt_finRange 4) blocks).imp ne_of_lt)

theorem RowLaw.eraseEnded {s : State} (h : RowLaw s) {blocks : List BlockId} (results : Lane → EraseResult)
    (running : s.sequencer.inFlight = some (.erase blocks)) : RowLaw (s.eraseEnded blocks results) := by
  have all : s.sequencer.erasing = blocks ++ s.freeArray.sequencer.erasing := by
    simp [Sequencer.erasing, Sequencer.erases, running]
  have once := h.erasesOnce
  rw [all, List.nodup_append] at once
  have taken : ∀ b ∈ blocksInOrder blocks, b ∈ blocks := fun b hb => firstOfLanes_subset hb
  exact RowLaw.blocksErased results (blocksInOrder_nodup blocks) h.freeArray
    (fun b hb => h.erases b (all ▸ List.mem_append_left _ (taken b hb)))
    fun b hb hc => once.2.2 b (taken b hb) b hc rfl

theorem Completion.rowLaw {s v : State} (h : Completion s v) (r : RowLaw s) : RowLaw v := by
  cases h with
  | program lanes results running =>
    exact (s.programCompletion_quiet lanes results).rowLaw ((State.haltIfDead_untouched _).rowLaw
      ((State.postLaneEvents_quiet s _).rowLaw (r.passEnded results running)))
  | erase blocks results running =>
    exact (State.haltIfDead_untouched _).rowLaw ((State.postLaneEvents_quiet s _).rowLaw (r.eraseEnded results running))
  | mark b fate =>
    exact r.freeArray.congr (fun _ he => he) (fun _ => rfl) (fun _ => rfl) rfl rfl

/-- The scanner's law does not speak of an array that is free. -/
theorem ScannerLaw.freed {s u : State} (h : ScannerLaw s) (scanner : u.scanner = s.scanner)
    (free : u.sequencer.inFlight = none) : ScannerLaw u :=
  h.congr scanner fun b p hr => by rw [free] at hr; cases hr

theorem Completion.blockLaw {s v : State} (h : Completion s v) (b : BlockLaw s) : BlockLaw v := by
  obtain ⟨rows, unplaced, scanner⟩ := blockLaw_iff.mp b
  refine blockLaw_iff.mpr ⟨h.rowLaw rows, ?_⟩
  rcases h.cases with ⟨u, completing, quiet⟩ | ⟨_, _, rfl⟩
  · have halt := u.haltIfDead_untouched
    have ended : UnplacedLaw u ∧ ScannerLaw u := by
      refine ⟨?_, scanner.freed completing.scanner completing.inFlight⟩
      unfold UnplacedLaw
      rw [completing.state, completing.programs, completing.reclaimErases]
      exact unplaced
    exact ⟨quiet.unplacedLaw (fun m => quiet.state ▸ m) (halt.unplacedLaw (State.haltIfDead_mounting u).mp ended.1),
      quiet.scannerLaw (halt.scannerLaw ended.2)⟩
  · exact ⟨unplaced, scanner.freed rfl rfl⟩

theorem Quiet.blockLaw {s u : State} (h : Quiet s u) (b : BlockLaw s) : BlockLaw u :=
  h.toUntouched.blockLaw (fun m => h.state ▸ m) b

/-- Starting the next request in a legal mode (R29): MOUNTING, the scanner has the array. -/
theorem State.startNext_blockLaw {s : State} (m : ModeCore s) (b : BlockLaw s) : BlockLaw s.startNext := by
  unfold State.startNext
  split
  · rename_i free
    refine (WorkerStep.start free).blockLaw (fun mounting => ?_) b
    simp [Sequencer.isFree, m.exclusive.mpr mounting] at free
  · exact b

end Sys2Proof.Machine
end


section
namespace Sys2Proof.Machine

/-! ### The scanner and the map it rebuilds -/

/-- What ScannerLaw says of a scanner that reads pages, but for the read in flight. -/
structure PagesLaw (sc : Scanner) : Prop where
  phase : sc.phase = .pages
  ascending : (sc.findings.map BlockFinding.block).Pairwise (· < ·)
  queued : ∀ f ∈ sc.queue, f ∈ sc.findings ∧ f.cls = .chained
  located : ∀ k c, (k, c) ∈ sc.candidates → ∃ f ∈ sc.findings, f.block = c.loc.block ∧ f.cls = .chained

/-- There is one finding of a block. -/
theorem finding_unique {findings : List BlockFinding} (ascending : (findings.map BlockFinding.block).Pairwise (· < ·))
    {f g : BlockFinding} (hf : f ∈ findings) (hg : g ∈ findings) (h : f.block = g.block) : f = g :=
  List.inj_on_of_nodup_map (ascending.imp ne_of_lt) hf hg h

theorem ScannerLaw.pagesLaw {s : State} (h : ScannerLaw s) (phase : s.scanner.phase = .pages) : PagesLaw s.scanner :=
  ⟨phase, h.ascending, h.queued phase, h.located phase⟩

theorem PagesLaw.offer {sc : Scanner} (h : PagesLaw sc) {f : BlockFinding} (hf : f ∈ sc.findings) (chained : f.cls = .chained)
    (k : Key) (chain : Nat) {l : Loc} (hl : l.block = f.block) :
    PagesLaw (sc.offer k chain l) ∧ (sc.offer k chain l).findings = sc.findings := by
  have put : ∀ v : Candidate, (v.loc = l ∨ ∃ c, (k, c) ∈ sc.candidates ∧ v.loc = c.loc) →
      ∀ j c, (j, c) ∈ mapPut keyLt sc.candidates k v → ∃ f ∈ sc.findings, f.block = c.loc.block ∧ f.cls = .chained := by
    intro v hv j c hc
    rcases mem_mapPut _ _ _ _ _ hc with e | hc
    · cases e
      rcases hv with e | ⟨c', hc', e⟩
      · exact ⟨f, hf, by rw [e, hl], chained⟩
      · rw [e]
        exact h.located k c' hc'
    · exact h.located j c hc
  unfold Scanner.offer
  split
  · exact ⟨⟨h.phase, h.ascending, h.queued, put _ (.inl rfl)⟩, rfl⟩
  · rename_i c hc
    refine ⟨⟨h.phase, h.ascending, h.queued, put _ ?_⟩, rfl⟩
    split
    · exact .inl rfl
    · exact .inr ⟨c, mem_of_mapGet hc, rfl⟩

/-- A page of a chained block offers locations in that block alone (R74). -/
theorem PagesLaw.addPage {sc : Scanner} (h : PagesLaw sc) {f : BlockFinding} (hf : f ∈ sc.findings) (chained : f.cls = .chained)
    (chain : Nat) (p : PageNo) (r : PageReport) :
    PagesLaw (sc.addPage f.block chain p r) ∧ (sc.addPage f.block chain p r).findings = sc.findings := by
  have slots := foldl_keeps (fun t : Scanner => PagesLaw t ∧ t.findings = sc.findings) (Scanner.addSlot f.block chain p)
    (fun t rn ⟨ht, same⟩ => ?_) r.slots.zipIdx sc ⟨h, rfl⟩
  · exact ⟨⟨slots.1.phase, slots.1.ascending, slots.1.queued, slots.1.located⟩, slots.2⟩
  · unfold Scanner.addSlot
    split
    · rename_i k _
      have offered := ht.offer (same ▸ hf) chained k chain (l := ⟨f.block, p, slotAfter 0 rn.2⟩) rfl
      exact ⟨offered.1, offered.2.trans same⟩
    · exact ⟨ht, same⟩

/-- The chained blocks in order are the chained blocks found (R74). -/
theorem chainedInOrder_perm (findings : List BlockFinding) :
    (chainedInOrder findings).Perm (findings.filter fun f => f.cls == .chained) := by
  have inserted : ∀ l q : List BlockFinding, (l.foldl (fun q f => insertByChain f q) q).Perm (l ++ q) := by
    intro l
    induction l with
    | nil => exact fun q => .refl q
    | cons f rest ih => exact fun q => (ih _).trans (((insertByChain_perm f q).append_left rest).trans List.perm_middle)
  have all := inserted (findings.filter fun f => f.cls == .chained) []
  rwa [List.append_nil] at all

theorem mem_chainedInOrder {findings : List BlockFinding} {f : BlockFinding} :
    f ∈ chainedInOrder findings ↔ f ∈ findings ∧ f.cls = .chained := by
  rw [(chainedInOrder_perm findings).mem_iff]
  simp

/-- The CLASSIFY phase ends with the chained blocks queued and no candidate (R74). -/
theorem PagesLaw.classified {sc : Scanner} (ascending : (sc.findings.map BlockFinding.block).Pairwise (· < ·))
    (none_ : sc.candidates = []) : PagesLaw sc.classified :=
  ⟨rfl, ascending, fun _ hf => mem_chainedInOrder.mp hf, fun k c hc => by
    have hc : (k, c) ∈ sc.candidates := hc
    rw [none_] at hc
    cases hc⟩

/-- The read placed in the PAGES phase is of a chained block (R74). -/
theorem PagesLaw.placeScan {sc : Scanner} (h : PagesLaw sc) (s : State) {f : BlockFinding} (hf : f ∈ sc.findings)
    (chained : f.cls = .chained) (p : PageNo) : ScannerLaw (s.placeScan sc f.block p) where
  ascending := h.ascending
  classify := fun hp => by cases h.phase.symm.trans hp
  queued := fun _ => h.queued
  located := fun _ => h.located
  read := fun _ b q hr => by
    cases hr
    exact ⟨f, hf, rfl, chained⟩

/-! What the map is rebuilt to (R76, R77). -/

/-- The row of a block found is that of its finding; any other is FREE. -/
theorem Scanner.blocks_get (sc : Scanner) (b : BlockId) :
    (∃ f ∈ sc.findings, f.block = b ∧ sc.blocks.get b = sc.rowOf f) ∨
      sc.blocks.get b = .free ∧ ∀ f ∈ sc.findings, f.block ≠ b := by
  suffices filled : ∀ (findings : List BlockFinding) (rows : Vector BlockRow 256),
      (∃ f ∈ findings, f.block = b ∧
        (findings.foldl (fun rows f => rows.set f.block.val (sc.rowOf f) f.block.isLt) rows).get b = sc.rowOf f) ∨
      (findings.foldl (fun rows f => rows.set f.block.val (sc.rowOf f) f.block.isLt) rows).get b = rows.get b ∧
        ∀ f ∈ findings, f.block ≠ b by
    have empty : JournalMap.reset.blocks.get b = .free := by simp [JournalMap.reset, Vector.get]
    rw [← empty]
    exact filled sc.findings JournalMap.reset.blocks
  intro findings
  induction findings with
  | nil => exact fun rows => .inr ⟨rfl, by simp⟩
  | cons f rest ih =>
    intro rows
    rw [List.foldl_cons]
    rcases ih (rows.set f.block.val (sc.rowOf f) f.block.isLt) with ⟨g, hg, hb, e⟩ | ⟨e, others⟩
    · exact .inl ⟨g, List.mem_cons_of_mem _ hg, hb, e⟩
    · rw [e, Vector.get_eq_getElem, Vector.get_eq_getElem, Vector.getElem_set]
      by_cases hb : f.block = b
      · exact .inl ⟨f, List.mem_cons_self, hb, if_pos (by rw [hb])⟩
      · refine .inr ⟨if_neg fun h => hb (Fin.ext h), fun g hg => ?_⟩
        exact (List.mem_cons.mp hg).elim (fun e => e ▸ hb) (others g)

theorem Scanner.rowOf_holds {sc : Scanner} {f : BlockFinding} (chained : f.cls = .chained) : (sc.rowOf f).holds = true := by
  unfold Scanner.rowOf
  rw [chained]
  simp only
  split
  · split <;> rfl
  · rfl

/-- R77: an OPEN row is that of the block chosen in its lane. -/
theorem Scanner.openOf_of_rowOf {sc : Scanner} {f : BlockFinding} {chain : Nat} {header : Option HeaderInfo}
    {position : WritePosition} (h : sc.rowOf f = .opened chain header position) :
    (sc.openOf (laneOf f.block)).map (fun o => o.block) = some f.block := by
  unfold Scanner.rowOf at h
  split at h
  · cases h
  · cases h
  · cases h
  · cases h
  · split at h
    · assumption
    · cases h

/-- The map of the mount's end is lawful (R76, R77, R80). -/
theorem State.mountEnded_blockLaw {s : State} (scanner : PagesLaw s.scanner) (programs : s.sequencer.programs = [])
    (reclaimErases : s.sequencer.reclaimErases = []) : BlockLaw s.mountEnded := by
  have ended := s.mountEnded_spec
  have block : ∀ b, s.mountEnded.block b = s.scanner.blocks.get b := fun b => by unfold State.block; rw [ended.blocks]
  have idle : ∀ l, s.mountEnded.lane l = ⟨false, none, 0⟩ := fun l => by
    unfold State.lane
    rw [ended.lanes]
    simp [JournalMap.reset, Vector.get]
  have passLanes : s.mountEnded.sequencer.passLanes = [] := by
    simp [Sequencer.passLanes, ended.inFlight, ended.programs, programs]
  have erasing : s.mountEnded.sequencer.erasing = (List.finRange 256).filter fun b => s.mountEnded.block b == .dirty := by
    simp [Sequencer.erasing, Sequencer.erases, ended.inFlight, ended.reclaimErases, reclaimErases, ended.dirtyErases]
  have chosen : ∀ b, s.mountEnded.isOpen b → (s.scanner.openOf (laneOf b)).map (fun o => o.block) = some b := by
    rintro b ⟨chain, header, position, ho⟩
    rw [block] at ho
    rcases s.scanner.blocks_get b with ⟨f, _, rfl, row⟩ | ⟨free, _⟩
    · exact Scanner.openOf_of_rowOf (row.symm.trans ho)
    · cases free.symm.trans ho
  refine blockLaw_iff.mpr ⟨⟨?_, ?_, ?_, ?_, ?_, ?_, ?_⟩, fun m => absurd m s.mountEnded_running, ?_⟩
  · intro k l hl
    rw [ended.index] at hl
    obtain ⟨⟨k, c⟩, hc, e⟩ := List.mem_map.mp hl
    cases e
    obtain ⟨f, hf, hb, chained⟩ := scanner.located k c hc
    rw [block]
    rcases s.scanner.blocks_get c.loc.block with ⟨g, hg, hb', row⟩ | ⟨_, others⟩
    · rw [row, finding_unique scanner.ascending hg hf (hb'.trans hb.symm)]
      exact Scanner.rowOf_holds chained
    · exact absurd hb (others f hf)
  · intro b b' hl ho ho'
    have := chosen b ho
    rw [hl, chosen b' ho'] at this
    exact (Option.some.inj this).symm
  · simp [passLanes]
  · simp [passLanes]
  · rw [erasing]
    exact (List.nodup_finRange 256).filter _
  · intro b hb
    rw [erasing] at hb
    exact .inr (by simpa using (List.mem_filter.mp hb).2)
  · intro l b hc
    simp [idle] at hc
  · exact ⟨by simp [ended.scanner, Scanner.reset], by simp [ended.scanner], by simp [ended.scanner], by simp [ended.scanner],
      by simp [ended.scanner]⟩

/-! What a scan read does. -/

/-- The rows with a scan read in flight do not depend on which it is, nor on the scanner. -/
theorem RowLaw.placeScan {s : State} (h : RowLaw s) {b : BlockId} {p : PageNo}
    (reading : s.sequencer.inFlight = some (.scanRead b p)) (sc : Scanner) (b' : BlockId) (p' : PageNo) :
    RowLaw (s.placeScan sc b' p') := by
  have lists : ∀ {q : Sequencer} {b p}, q.inFlight = some (.scanRead b p) →
      q.passLanes = q.programs.flatten ∧ q.erasing = q.erases := fun reading => by
    simp [Sequencer.passLanes, Sequencer.erasing, reading]
  refine h.congr (fun _ he => he) (fun _ => rfl) (fun _ => rfl) ?_ ?_
  · exact (lists (q := (s.placeScan sc b' p').sequencer) rfl).1.trans (lists reading).1.symm
  · exact (lists (q := (s.placeScan sc b' p').sequencer) rfl).2.trans (lists reading).2.symm

/-- R74: the next chained block begins, or the mount ends, lawfully. -/
theorem State.nextChained_blockLaw {s : State} (rows : RowLaw s) (unplaced : UnplacedLaw s) {b : BlockId} {p : PageNo}
    (mounting : s.controller.state = .mounting) (reading : s.sequencer.inFlight = some (.scanRead b p)) {sc : Scanner}
    (h : PagesLaw sc) : BlockLaw (s.nextChained sc) := by
  rcases s.nextChained_cases sc with ⟨_, e⟩ | ⟨f, rest, queue, e⟩ <;> rw [e]
  · rw [State.endMount_eq]
    exact State.settle_blockLaw _ (State.mountEnded_blockLaw (s := { s with scanner := sc }) h (unplaced mounting).1
      (unplaced mounting).2)
  · have queued := fun g hg => h.queued g (by rw [queue]; exact List.mem_cons_of_mem _ hg)
    obtain ⟨hf, chained⟩ := h.queued f (by rw [queue]; exact List.mem_cons_self)
    obtain ⟨added, same⟩ := PagesLaw.addPage (sc := { sc with queue := rest })
      ⟨h.phase, h.ascending, queued, h.located⟩ hf chained f.chain 0 f.page0
    exact blockLaw_iff.mpr ⟨rows.placeScan reading _ _ _, unplaced, added.placeScan s (by rw [same]; exact hf) chained 1⟩

/-- A scan read completed in the mount keeps the law of the block table and of the scanner. -/
theorem State.scanned_blockLaw {s : State} {b : BlockId} {p : PageNo} (mounting : s.controller.state = .mounting)
    (reading : s.sequencer.inFlight = some (.scanRead b p)) (h : BlockLaw s) : BlockLaw (s.scanned b p) := by
  obtain ⟨rows, unplaced, scanner⟩ := blockLaw_iff.mp h
  have placed : ∀ sc b' p', ScannerLaw (s.placeScan sc b' p') → BlockLaw (s.placeScan sc b' p') := fun sc b' p' law =>
    blockLaw_iff.mpr ⟨rows.placeScan reading sc b' p', unplaced, law⟩
  have chained : ∀ sc, PagesLaw sc → BlockLaw (s.nextChained sc) := fun sc law =>
    State.nextChained_blockLaw rows unplaced mounting reading law
  have found : ∀ cls page0 page31, s.scanner.phase = .classify →
      ((s.scanner.addBlock b cls page0 page31).findings.map BlockFinding.block).Pairwise (· < ·) := by
    intro cls page0 page31 phase
    simp only [Scanner.addBlock, List.map_append, List.map_cons, List.map_nil, List.pairwise_append, List.mem_map]
    refine ⟨scanner.ascending, List.pairwise_singleton _ _, ?_⟩
    rintro _ ⟨f, hf, rfl⟩ c hc
    rw [List.mem_singleton.mp hc]
    exact (scanner.classify phase).2 b p reading f hf
  rcases s.scanned_cases b p with e | ⟨phase, ⟨r, e⟩ | ⟨cls, page0, page31, ⟨next, hnext, e⟩ | e⟩⟩ | ⟨phase, f, r, hf, hb, cases_⟩
  · rw [e]
    exact h
  · rw [e]
    refine placed _ _ _ ⟨scanner.ascending, fun _ => ⟨(scanner.classify phase).1, fun c q hr g hg => ?_⟩, ?_, ?_, ?_⟩
    · cases hr
      exact (scanner.classify phase).2 b p reading g hg
    all_goals exact fun hp => by cases phase.symm.trans hp
  · rw [e]
    refine placed _ _ _ ⟨found cls page0 page31 phase, fun _ => ⟨(scanner.classify phase).1, fun c q hr g hg => ?_⟩, ?_, ?_, ?_⟩
    · cases hr
      have upto : g.block ≤ b := by
        rcases List.mem_append.mp hg with hg | hg
        · exact le_of_lt ((scanner.classify phase).2 b p reading g hg)
        · rw [List.mem_singleton.mp hg]
      exact Fin.lt_def.mpr (by have := Fin.le_def.mp upto; omega)
    all_goals exact fun hp => by cases phase.symm.trans hp
  · rw [e]
    exact chained _ (PagesLaw.classified (found cls page0 page31 phase) (scanner.classify phase).1)
  · obtain ⟨g, hg, hgb, hgc⟩ := scanner.read phase b p reading
    obtain rfl : g = f := finding_unique scanner.ascending hg hf (hgb.trans hb.symm)
    subst hb
    obtain ⟨added, same⟩ := (scanner.pagesLaw phase).addPage hf hgc g.chain p r
    rcases cases_ with e | e | ⟨last, e⟩ <;> rw [e]
    · exact placed _ _ _ (added.placeScan s (same ▸ hf) hgc _)
    · exact chained _ added
    · exact chained _ (added.addPage (same ▸ hf) hgc g.chain 31 last).1

end Sys2Proof.Machine
end


section
namespace Sys2Proof.Machine

/-! ### The block table at every step -/

/-- A reset discards the map: every block is FREE, and nothing is placed (R27, R44, R71). -/
theorem State.afterReset_blockLaw (s : State) (keep : Option Configuration) : BlockLaw (s.afterReset keep) := by
  have block : ∀ b, (s.afterReset keep).block b = .free := fun b => by
    simp [State.block, State.afterReset, State.reset, JournalMap.reset, Vector.get]
  have lane : ∀ l, (s.afterReset keep).lane l = ⟨false, none, 0⟩ := fun l => by
    simp [State.lane, State.afterReset, State.reset, JournalMap.reset, Vector.get]
  have shut : ∀ b, ¬ (s.afterReset keep).isOpen b := by
    rintro b ⟨_, _, _, ho⟩
    cases (block b).symm.trans ho
  have sequencer : (s.afterReset keep).sequencer = Sequencer.reset s.sequencer.protect := rfl
  have passLanes : (s.afterReset keep).sequencer.passLanes = [] := by
    simp [sequencer, Sequencer.passLanes, Sequencer.reset]
  have erasing : (s.afterReset keep).sequencer.erasing = [] := by
    simp [sequencer, Sequencer.erasing, Sequencer.erases, Sequencer.reset]
  refine blockLaw_iff.mpr ⟨⟨nofun, fun b _ _ ho => absurd ho (shut b), ?_, ?_, ?_, ?_, ?_⟩, fun _ => ⟨rfl, rfl⟩, ?_⟩
  · simp [passLanes]
  · simp [passLanes]
  · simp [erasing]
  · simp [erasing]
  · intro l b hc
    simp [lane] at hc
  · have scanner : (s.afterReset keep).scanner = Scanner.reset := rfl
    exact ⟨by simp [scanner, Scanner.reset], by simp [scanner, Scanner.reset], by simp [scanner, Scanner.reset],
      by simp [scanner, Scanner.reset], by simp [scanner, Scanner.reset]⟩

theorem BlockLaw.freeArray {s : State} (h : BlockLaw s) : BlockLaw s.freeArray := by
  obtain ⟨rows, unplaced, scanner⟩ := blockLaw_iff.mp h
  exact blockLaw_iff.mpr ⟨rows.freeArray, unplaced, scanner.freed rfl rfl⟩

/-- What the law of the block table reads of the station; all else may change. -/
theorem BlockLaw.congr {s u : State} (h : BlockLaw s) (map : u.map = s.map) (index : u.index = s.index)
    (sequencer : u.sequencer = s.sequencer) (scanner : u.scanner = s.scanner)
    (state : u.controller.state = s.controller.state) : BlockLaw u := by
  have block : ∀ b, u.block b = s.block b := fun b => by unfold State.block; rw [map]
  have lane : ∀ l, u.lane l = s.lane l := fun l => by unfold State.lane; rw [map]
  obtain ⟨rows, unplaced, scan⟩ := blockLaw_iff.mp h
  refine blockLaw_iff.mpr ⟨rows.congr (fun _ he => index ▸ he) block lane (by rw [sequencer]) (by rw [sequencer]), ?_,
    scan.congr scanner fun _ _ hr => sequencer ▸ hr⟩
  unfold UnplacedLaw
  rw [state, sequencer]
  exact unplaced

theorem ReadEnd.blockLaw {t u : State} {l : Loc} (h : ReadEnd t l u) (b : BlockLaw t) : BlockLaw u := by
  rcases h with q | ⟨k, _, q⟩
  · exact q.blockLaw b
  · refine q.blockLaw ?_
    obtain ⟨rows, unplaced, scanner⟩ := blockLaw_iff.mp b
    have keep := (t.indexDrop k).retireIfEmptied_completing l.block
    refine blockLaw_iff.mpr ⟨rows.loseKey k l.block, ?_, ScannerLaw.congr scanner keep.scanner fun p q hr => ?_⟩
    · show ((t.indexDrop k).retireIfEmptied l.block).controller.state = .mounting →
        ((t.indexDrop k).retireIfEmptied l.block).sequencer.programs = [] ∧
          ((t.indexDrop k).retireIfEmptied l.block).sequencer.reclaimErases = []
      rw [keep.state, keep.programs, keep.reclaimErases]
      exact unplaced
    · exact keep.inFlight.symm.trans hr

/-- R44, R48, R51, R60 to R64: every command in a legal mode keeps the law of the block table. -/
theorem Effect.blockLaw {c : Instr} {s t : State} (h : Effect s c t) (m : ModeLaw s) (b : BlockLaw s) : BlockLaw t := by
  obtain ⟨core, drain⟩ := modeLaw_iff.mp m
  cases h with
  | aside h _ => exact h.blockLaw h.mounting.mp b
  | worked before h _ => exact State.settle_blockLaw before (h.blockLaw h.mounting.mp b)
  | started h _ => exact State.startNext_blockLaw (h.modeCore core) (h.blockLaw b)
  | reset u keep cells h =>
    rcases h with rfl | rfl
    · exact u.afterReset_blockLaw keep
    · exact (u.afterReset_blockLaw keep).freeArray
  | hold low power _ => exact b.freeArray.congr rfl rfl rfl rfl rfl
  | @aborted left v h _ =>
    exact State.settle_blockLaw s ((v.post_quiet _).blockLaw (h.blockLaw ((s.setProtect_quiet true).blockLaw b)))
  | completed h _ _ => exact State.settle_blockLaw s (h.blockLaw b)
  | @read _ l changed t _ _ sensed ends =>
    refine State.settle_blockLaw s (ends.blockLaw (sensed.blockLaw ?_))
    exact b.freeArray.congr rfl rfl rfl rfl rfl
  | @scanned p q changed running =>
    exact State.scanned_blockLaw (s := s.cellsChange p q changed) (core.exclusive.mp (core.scanning _ _ running.2)) running.2
      (b.congr rfl rfl rfl rfl rfl)

/-- Settles O57: by the cases of what a command can do; the workers, the lanes of a pass, the blocks of an erase and the scan
reads each keep the law of the rows. -/
theorem stepKeepsIndexAndReceiptLaw : Obligations.StepKeepsIndexAndReceiptLaw := by
  unfold Obligations.StepKeepsIndexAndReceiptLaw
  intro s t i hs
  have modes : ∀ (s : State) now pending, ModeLaw s → ModeLaw { s with now := now, pending := pending } := fun _ _ _ m => by
    obtain ⟨core, drain⟩ := modeLaw_iff.mp m
    exact modeLaw_iff.mpr ⟨⟨core.exclusive, core.scanning, core.unconfigured, core.following, core.line, core.halted⟩, drain⟩
  refine ⟨step_keeps (fun _ _ _ i => ⟨i.index, i.candidates⟩) (fun _ _ _ i h => h.indexLaw i) i hs, fun m r => ?_, fun m b => ?_⟩
  · exact (step_keeps (P := fun s => ModeLaw s ∧ ReceiptLaw s) (fun s now pending h => ⟨modes s now pending h.1, h.2⟩)
      (fun _ _ _ k h => ⟨h.modeLaw k.1, h.receiptLaw k.1 k.2⟩) ⟨m, r⟩ hs).2
  · exact (step_keeps (P := fun s => ModeLaw s ∧ BlockLaw s)
      (fun s now pending h => ⟨modes s now pending h.1, h.2.congr rfl rfl rfl rfl rfl⟩)
      (fun _ _ _ k h => ⟨h.modeLaw k.1, h.blockLaw k.1 k.2⟩) ⟨m, b⟩ hs).2

end Sys2Proof.Machine
end


section
namespace Sys2Proof.Machine

/-! ### What changes the array -/

/-- An interruption is a command of one of these. -/
theorem Interrupts.cases {left : Interruption} {c : Instr} (h : Interrupts left c) :
    (∃ left, c = .powerOnReset left) ∨ (∃ left, c = .nresetAssert left) ∨ (∃ left, c = .powerLoss left) ∨
      ∃ fields left, c = .restart fields left := by
  rcases h with h | h | h | ⟨fields, h⟩
  · exact .inl ⟨left, h⟩
  · exact .inr (.inl ⟨left, h⟩)
  · exact .inr (.inr (.inl ⟨left, h⟩))
  · exact .inr (.inr (.inr ⟨fields, left, h⟩))

/-- A change of the array by a completed read is one that its command says. -/
theorem State.cellsChange_of_flash_ne {s : State} {b : BlockId} {p : PageNo} {changed : PageChange}
    (h : (s.cellsChange b p changed).flash ≠ s.flash) : changed ≠ {} := by
  rintro rfl
  exact h (by rw [State.cellsChange_none])

/-- The command that ends this read and says what has changed changes the array so, or not at all. -/
def ReadChanges (s : State) (c : Instr) (t : State) : Prop :=
  ∃ b p changed, Senses s c b p changed ∧ t.flash = (s.cellsChange b p changed).flash

/-- All that changes the array: an interruption, a completion of a program, an erase or a retire mark, or a read that finds
cells changed (R28, R34 to R42; log 2). -/
theorem Effect.flash {c : Instr} {s t : State} (h : Effect s c t) :
    t.flash = s.flash ∨ (∃ left, Interrupts left c) ∨ (∃ left, c = .protAssert left) ∨
      ((∃ results, c = .programComplete results) ∨ (∃ results, c = .eraseComplete results) ∨
        ∃ result, c = .retireMarkComplete result) ∨ ReadChanges s c t := by
  cases h with
  | aside h _ => exact .inl h.flash
  | worked before h _ => exact .inl ((State.settle_keep _ _).flash.trans h.flash)
  | started h _ => exact .inl ((State.startNext_keep _).flash.trans h.flash)
  | reset u keep cells h =>
    rcases cells with same | ⟨left, interrupts, _⟩
    · exact .inl (by rcases h with rfl | rfl <;> exact same)
    · exact .inr (.inl ⟨left, interrupts⟩)
  | hold low power h => exact .inr (.inl ⟨_, h⟩)
  | aborted h _ => exact .inr (.inr (.inl ⟨_, rfl⟩))
  | completed h _ completion => exact .inr (.inr (.inr (.inl completion)))
  | @read _ l changed t u senses sensed ends =>
    exact .inr (.inr (.inr (.inr ⟨l.block, l.page, changed, senses,
      (State.settle_keep _ _).flash.trans (ends.flash.trans sensed.flash)⟩)))
  | @scanned b p changed running =>
    exact .inr (.inr (.inr (.inr ⟨b, p, changed, .inr (.inr (.inr ⟨running, rfl⟩)), State.scanned_flash _ _ _⟩)))

/-- Settles O52: by the cases of what a command can do to the array, and what a change of cells admits. -/
theorem onlyArrayCommandsChangeTheArray : Obligations.OnlyArrayCommandsChangeTheArray := by
  unfold Obligations.OnlyArrayCommandsChangeTheArray
  refine ⟨fun c s t he hne => ?_, fun s b p changed => ?_, fun s l changed k r hr => ?_⟩
  · rcases (exec_effect he).flash with same | ⟨left, interrupts⟩ | aborted | completion | ⟨b, p, changed, senses, flash⟩
    · exact absurd same hne
    · rcases interrupts.cases with h | h | h | h
      · exact .inl h
      · exact .inr (.inl h)
      · exact .inr (.inr (.inl h))
      · exact .inr (.inr (.inr (.inr (.inl h))))
    · exact .inr (.inr (.inr (.inl aborted)))
    · rcases completion with h | h | h
      · exact .inr (.inr (.inr (.inr (.inr (.inl h)))))
      · exact .inr (.inr (.inr (.inr (.inr (.inr (.inl h))))))
      · exact .inr (.inr (.inr (.inr (.inr (.inr (.inr (.inl h)))))))
    · exact .inr (.inr (.inr (.inr (.inr (.inr (.inr (.inr
        ⟨b, p, changed, senses, State.cellsChange_of_flash_ne (flash ▸ hne), flash⟩)))))))
  · have page : ∀ a, readPage (s.cellsChange b p changed).flash a =
        if a = pageAddress b p then changedPage (readPage s.flash (pageAddress b p)) changed else readPage s.flash a :=
      readPage_changedFlash s.flash (pageAddress b p) changed
    have new := page (pageAddress b p)
    rw [if_pos rfl] at new
    refine ⟨rfl, ?_, fun a ha => (page a).trans (if_neg ha), fun i => ?_, fun i => ?_, ?_, ?_, ?_⟩
    · rintro rfl
      exact s.cellsChange_none b p
    · rw [new, changedPage_slot]
      exact changesTo_changeTo (fun d _ => slotFits_eq_false d) _ _
    · rw [new, changedPage_tag]
      exact changesTo_changeTo (fun c hc => tagFits_eq_false c hc) _ _
    · rw [new]
      exact changesTo_changeTo (fun c _ => Iff.rfl) _ _
    · rw [new]
      exact changesTo_changeTo (fun c _ => markFits_eq_false c) _ _
    · rw [new]
      rfl
  · rw [State.cellsChange, slotData_changedFlash] at hr
    exact readSlot_changeTo hr

end Sys2Proof.Machine
end


section
namespace Sys2Proof.Machine

/-! ### The Array Sequencer -/

/-- R30: the first of its lane is the one that no other of its lane stands before. -/
theorem mem_firstOfLanes_iff_append {α : Type} {lane : α → Lane} {lanes : List Lane} {l : List α} {a : α} :
    a ∈ firstOfLanes lane lanes l ↔
      lane a ∈ lanes ∧ ∃ before after, l = before ++ a :: after ∧ ∀ x ∈ before, lane x ≠ lane a := by
  simp [mem_firstOfLanes, List.find?_eq_some_iff_append]

/-! The request that starts, class by class (R29). -/

section
variable {q : Sequencer}

theorem Sequencer.start_transmitRead {r : TransmitRead} {rest : List TransmitRead} (h : q.transmitReads = r :: rest) :
    q.start = { q with inFlight := some (.transmitRead r), transmitReads := rest } := by
  simp [Sequencer.start, h]

theorem Sequencer.start_hostRead {r : SlotRead} {rest : List SlotRead} (transmit : q.transmitReads = [])
    (h : q.hostReads = r :: rest) : q.start = { q with inFlight := some (.hostRead r), hostReads := rest } := by
  simp [Sequencer.start, transmit, h]

/-- No slot read for a buffer or the host waits. -/
def Sequencer.NoRead (q : Sequencer) : Prop := q.transmitReads = [] ∧ q.hostReads = []

theorem Sequencer.start_program {p : List PassLane} {rest : List (List PassLane)} (h : q.NoRead) (able : q.protect = false)
    (programs : q.programs = p :: rest) : q.start = { q with inFlight := some (.program p), programs := rest } := by
  obtain ⟨transmit, host⟩ := h
  simp [Sequencer.start, transmit, host, able, programs]

theorem Sequencer.start_erase {lead : BlockId} {rest : List BlockId} (h : q.NoRead) (able : q.protect = false)
    (programs : q.programs = []) (erases : q.erases = lead :: rest) : q.start = { q with
      inFlight := some (.erase (eraseGang lead q.erases))
      dirtyErases := q.dirtyErases.filter fun b => b ∉ eraseGang lead q.erases
      reclaimErases := q.reclaimErases.filter fun b => b ∉ eraseGang lead q.erases } := by
  obtain ⟨transmit, host⟩ := h
  simp [Sequencer.start, transmit, host, able, programs, erases, List.contains_eq_mem]

/-- No program, erase or mark may start: PROT is asserted, or none waits before the evacuation reads. -/
theorem Sequencer.start_evacuationRead {r : SlotRead} {rest : List SlotRead} (h : q.NoRead)
    (none_ : q.protect = true ∨ q.programs = [] ∧ q.erases = []) (reads : q.evacuationReads = r :: rest) :
    q.start = { q with inFlight := some (.evacuationRead r), evacuationReads := rest } := by
  obtain ⟨transmit, host⟩ := h
  cases able : q.protect with
  | true => simp [Sequencer.start, transmit, host, able, reads]
  | false =>
    obtain ⟨programs, erases⟩ := none_.resolve_left (by simp [able])
    simp [Sequencer.start, transmit, host, able, programs, erases, reads]

theorem Sequencer.start_retireMark {b : BlockId} {rest : List BlockId} (h : q.NoRead) (able : q.protect = false)
    (programs : q.programs = []) (erases : q.erases = []) (reads : q.evacuationReads = []) (marks : q.retireMarks = b :: rest) :
    q.start = { q with inFlight := some (.retireMark b), retireMarks := rest } := by
  obtain ⟨transmit, host⟩ := h
  simp [Sequencer.start, transmit, host, able, programs, erases, reads, marks]

theorem Sequencer.start_none (h : q.NoRead) (reads : q.evacuationReads = [])
    (none_ : q.protect = true ∨ q.programs = [] ∧ q.erases = [] ∧ q.retireMarks = []) : q.start = q := by
  obtain ⟨transmit, host⟩ := h
  cases able : q.protect with
  | true => simp [Sequencer.start, transmit, host, able, reads]
  | false =>
    obtain ⟨programs, erases, marks⟩ := none_.resolve_left (by simp [able])
    simp [Sequencer.start, transmit, host, able, programs, erases, reads, marks]

end

/-- On a free array the request chosen starts. -/
theorem State.startNext_free {s : State} (idle : s.sequencer.inFlight = none) (shared : s.sequencer.exclusive = false) :
    s.startNext = { s with sequencer := s.sequencer.start } := by
  simp [State.startNext, Sequencer.isFree, idle, shared]

theorem State.startNext_busy {s : State} (h : s.sequencer.inFlight.isSome ∨ s.sequencer.exclusive = true) :
    s.startNext = s := by
  unfold State.startNext
  rw [if_neg]
  rcases h with busy | exclusive
  · simp [Sequencer.isFree, Option.isNone_eq_false_iff.mpr busy]
  · simp [Sequencer.isFree, exclusive]

/-- Settles O44: class by class, and the gang of an erase as the first requests of the other lanes. -/
theorem theSequencerServesByClass : Obligations.TheSequencerServesByClass := by
  unfold Obligations.TheSequencerServesByClass
  intro s q erases noRead starts
  refine ⟨State.startNext_busy, fun idle shared => ?_⟩
  have begins : ∀ left : Sequencer, q.start = left → s.startNext = { s with sequencer := left } := fun left h =>
    (State.startNext_free idle shared).trans (h ▸ rfl)
  refine ⟨fun r rest h => ?_, fun r rest transmit h => ?_, fun p rest reads able h => ?_,
    fun lead rest reads able programs h => ?_, fun r rest reads none_ h => ?_,
    fun b rest reads able programs erased evacuation h => ?_, fun reads evacuation none_ => ?_⟩
  · exact begins _ (Sequencer.start_transmitRead h)
  · exact begins _ (Sequencer.start_hostRead transmit h)
  · exact begins _ (Sequencer.start_program reads able h)
  · refine ⟨firstOfLanes laneOf ((List.finRange 4).filter fun l => l ≠ laneOf lead) erases,
      begins _ (Sequencer.start_erase reads able programs h), ?_, fun b => ?_⟩
    · exact firstOfLanes_ascending laneOf ((List.pairwise_lt_finRange 4).filter _) erases
    · rw [mem_firstOfLanes_iff_append]
      simp
  · exact begins _ (Sequencer.start_evacuationRead reads none_ h)
  · exact begins _ (Sequencer.start_retireMark reads able programs erased evacuation h)
  · exact begins _ (Sequencer.start_none reads evacuation none_)

end Sys2Proof.Machine
end


section
namespace Sys2Proof.Machine

/-! ### An owner whose key is gone -/

/-- What an event does to the port depends on the port alone. -/
theorem State.post_port_congr {s u : State} (h : u.port = s.port) (e : Event) : (u.post e).port = (s.post e).port := by
  rw [State.post_port, State.post_port, h]

theorem State.shortDamaged_of_not_live {s : State} {k : Key} (h : ∀ e, s.entry k = some e → e.state.isLive = false) :
    s.shortDamaged k = s := by
  unfold State.shortDamaged
  split
  · rename_i e he
    rw [if_neg (by simp [h e he])]
  · rfl

/-- A live tracker entry becomes SHORT and damaged, with its OUTCOME, and its claims end (R134, R135). -/
theorem State.shortDamaged_of_live {s : State} {k : Key} {e : TrackerEntry} (he : s.entry k = some e)
    (live : e.state.isLive = true) : s.shortDamaged k = { s with
      tracker := { s.tracker with entries := s.tracker.entries.map fun x =>
        if x.key = k then { x with state := .short, damaged := true } else x }
      port := (s.post (.outcome k.seq false e.holders.length)).port
      transmit := (s.endClaims (.tracker k)).transmit } := by
  obtain rfl : e.key = k := by simpa using List.find?_some he
  have short : s.shortDamaged e.key = s.finish e false true := by simp [State.shortDamaged, he, live]
  rw [short, State.finish, State.post_eq, State.post_port_congr (s := s) (by rfl)]
  simp [State.updateEntry, State.endClaims, State.setBuffer, State.buffer, State.onLine]

/-- A live entry of the key is told, or there is none and nothing changes. -/
theorem State.shortDamaged_cases (s : State) (k : Key) : (∃ e, s.entry k = some e ∧ e.state.isLive = true) ∨
    (∀ e, s.entry k = some e → e.state.isLive = false) ∧ s.shortDamaged k = s := by
  by_cases live : ∃ e, s.entry k = some e ∧ e.state.isLive = true
  · exact .inl live
  · have rest : ∀ e, s.entry k = some e → e.state.isLive = false := fun e he => by simpa using fun h => live ⟨e, he, h⟩
    exact .inr ⟨rest, State.shortDamaged_of_not_live rest⟩

theorem State.answer_eq_none_iff {s : State} {k : Key} : s.answer k = none ↔ ∀ a ∈ s.gap.answers, a.key ≠ k := by
  simp [State.answer, List.find?_eq_none]

/-- An answer entry is removed, and its claims end if there was one (R167, R168). -/
theorem State.removeAnswer_eq (s : State) (k : Key) : s.removeAnswer k = { s with
    gap := { s.gap with answers := s.gap.answers.filter fun a => a.key ≠ k }
    transmit := (s.removeAnswer k).transmit } := by
  unfold State.removeAnswer
  split
  · rename_i none_
    have all : s.gap.answers.filter (fun a => a.key ≠ k) = s.gap.answers :=
      List.filter_eq_self.mpr fun a ha => by simpa using State.answer_eq_none_iff.mp none_ a ha
    rw [all]
  · rfl

theorem State.removeAnswer_sendOnce (s : State) (k : Key) :
    (s.removeAnswer k).transmit.sendOnce = s.transmit.sendOnce := by
  unfold State.removeAnswer
  split <;> rfl

theorem State.removeAnswer_released (s : State) (k : Key) :
    Released (s.removeAnswer k) s fun o => (s.answer k).isSome && o == .answer k := by
  unfold State.removeAnswer
  split
  · rename_i none_
    simpa [none_] using Released.refl s
  · rename_i a found
    simp only [found, Option.isSome_some, Bool.true_and]
    exact State.endClaims_released _ _

/-- What telling an owner leaves unchanged. -/
theorem State.ownerAbsent_eq (s : State) (o : BufferOwner) : ∃ tracker gap port transmit,
    s.ownerAbsent o = { s with tracker := tracker, gap := gap, port := port, transmit := transmit } := by
  cases o with
  | tracker k =>
    rcases s.shortDamaged_cases k with ⟨e, he, live⟩ | ⟨_, same⟩
    · exact ⟨_, _, _, _, State.shortDamaged_of_live he live⟩
    · exact ⟨_, _, _, _, same⟩
  | answer k => exact ⟨_, _, _, _, s.removeAnswer_eq k⟩
  | sendOnce k => exact ⟨_, _, _, _, rfl⟩

theorem Released.empty {u s : State} {gone : BufferOwner → Bool} (h : Released u s gone) {i : BufferNo}
    (empty : s.buffer i = .empty) : u.buffer i = .empty := by
  rw [h i, empty]
  rfl

/-- A buffer that is EMPTY stays so when an owner is told. -/
theorem State.ownerAbsent_empty {s : State} {i : BufferNo} (h : s.buffer i = .empty) (o : BufferOwner) :
    (s.ownerAbsent o).buffer i = .empty := by
  cases o with
  | tracker k =>
    show (s.shortDamaged k).buffer i = .empty
    rcases s.shortDamaged_cases k with ⟨e, he, live⟩ | ⟨_, same⟩
    · rw [State.shortDamaged_of_live he live]
      exact (s.endClaims_released (.tracker k)).empty h
    · rw [same, h]
  | answer k => exact (s.removeAnswer_released k).empty h
  | sendOnce k => exact h

/-- An entry whose owner has been told is not live. -/
theorem State.shortDamaged_entry {s : State} {k : Key} {e : TrackerEntry} (he : (s.shortDamaged k).entry k = some e) :
    e.state.isLive = false := by
  rcases s.shortDamaged_cases k with ⟨f, hf, live⟩ | ⟨rest, same⟩
  · rw [State.shortDamaged_of_live hf live] at he
    have key : e.key = k := by simpa using List.find?_some he
    obtain ⟨x, _, rfl⟩ := List.mem_map.mp (List.mem_of_find?_eq_some he)
    split at key
    · rename_i hx
      simp [hx, TrackerState.isLive]
    · rename_i hx
      exact absurd key hx
  · rw [same] at he
    exact rest e he

theorem State.removeAnswer_answer (s : State) (k : Key) : (s.removeAnswer k).answer k = none := by
  rw [State.answer_eq_none_iff, State.removeAnswer_eq]
  exact fun a ha => by simpa using (List.mem_filter.mp ha).2

/-! ### A slot read completed -/

/-- What TRANSMIT_READ_COMPLETE does (R104). -/
theorem exec_transmitReadComplete {s : State} {r : TransmitRead} (running : Running s (.transmitRead r)) (changed : PageChange) :
    exec (.transmitReadComplete changed) s = .next (State.settle s ((s.slotSensed r.loc changed).transmitRead r
      ((s.slotSensed r.loc changed).readResult r.key r.loc))) := by
  show execTransmitReadComplete changed s = _
  rw [execTransmitReadComplete, State.awake_free running.1, running.2]

theorem State.transmitRead_good {s : State} {r : TransmitRead} {o : BufferOwner} (record : Record)
    (held : (s.buffer r.buffer).heldBy = some o) :
    s.transmitRead r (some record) = (s.setBuffer r.buffer (.loaded o record true)).ownerLoaded o := by
  simp [State.transmitRead, held]

theorem State.transmitRead_discarded {s : State} {r : TransmitRead} (record : Record)
    (held : (s.buffer r.buffer).heldBy = none) : s.transmitRead r (some record) = s.setBuffer r.buffer .empty := by
  simp [State.transmitRead, held]

/-- A class-1 read that ended DAMAGED, but for what a claim on its buffer calls for (R104). -/
def State.readDamaged (s : State) (r : TransmitRead) : State := (s.damagedRead r.key r.loc).setBuffer r.buffer .empty

/-- The owner of a claim is told that its read ended DAMAGED (R104). -/
def State.claimTold (s : State) : Option BufferOwner → State
  | some o => s.ownerAbsent o
  | none => s

theorem State.transmitRead_damaged (s : State) (r : TransmitRead) :
    s.transmitRead r none = (s.readDamaged r).claimTold (s.buffer r.buffer).heldBy := by
  cases held : (s.buffer r.buffer).heldBy <;> simp [State.transmitRead, State.readDamaged, State.claimTold, held]

theorem State.claimTold_eq (s : State) (held : Option BufferOwner) : ∃ tracker gap port transmit,
    s.claimTold held = { s with tracker := tracker, gap := gap, port := port, transmit := transmit } := by
  cases held with
  | none => exact ⟨_, _, _, _, rfl⟩
  | some o => exact s.ownerAbsent_eq o

theorem State.claimTold_empty {s : State} {i : BufferNo} (h : s.buffer i = .empty) (held : Option BufferOwner) :
    (s.claimTold held).buffer i = .empty := by
  cases held with
  | none => exact h
  | some o => exact State.ownerAbsent_empty h o

theorem State.readDamaged_empty (s : State) (r : TransmitRead) : (s.readDamaged r).buffer r.buffer = .empty := by
  rw [State.readDamaged, State.buffer_setBuffer, if_pos rfl]

/-- A QUEUED tracker entry becomes LOADED when its read was GOOD (R129). -/
theorem State.ownerLoaded_tracker (s : State) (k : Key) : s.ownerLoaded (.tracker k) = { s with
    tracker := { s.tracker with entries := s.tracker.entries.map fun e =>
      if e.key = k ∧ e.state = .queued then { e with state := .loaded } else e } } := by
  have entries : (fun e : TrackerEntry => if e.key = k then (if e.state = .queued then { e with state := .loaded } else e) else e) =
      fun e => if e.key = k ∧ e.state = .queued then { e with state := .loaded } else e := by
    funext e
    by_cases hk : e.key = k <;> simp [hk]
  simp only [State.ownerLoaded, State.updateEntry, entries]

/-- Settles O41: the read's four ends by its result and the claim on its buffer, and what telling an owner does. -/
theorem transmitReadLoadsTheBuffer : Obligations.TransmitReadLoadsTheBuffer := by
  unfold Obligations.TransmitReadLoadsTheBuffer
  refine ⟨fun s r changed running => ?_, fun s k => ⟨fun e he live => ?_, State.shortDamaged_of_not_live, ?_, rfl⟩⟩
  · intro found result free filled
    have ends : ∀ u, free.transmitRead r result = u → EndsIn (exec (.transmitReadComplete changed) s) s u := fun u h =>
      EndsIn.of_settle ((exec_transmitReadComplete running changed).trans (by rw [← h]; rfl))
    have held : ∀ {b}, s.buffer r.buffer = b → (free.buffer r.buffer).heldBy = b.heldBy := fun h => congrArg Buffer.heldBy h
    refine ⟨fun record k good reading => ?_, fun record k good reading => ?_, fun record k good reading => ?_,
      fun record o good reading => ?_, fun damaged_ => ?_⟩
    · refine ends _ ?_
      rw [good, State.transmitRead_good record (held reading), State.ownerLoaded_tracker]
      rfl
    · refine ends _ ?_
      rw [good, State.transmitRead_good record (held reading)]
      rfl
    · refine ends _ ?_
      rw [good, State.transmitRead_good record (held reading)]
      rfl
    · refine ends _ ?_
      rw [good, State.transmitRead_discarded record (held reading)]
      rfl
    · intro damaged u
      have told : u = damaged.claimTold (s.buffer r.buffer).heldBy := by
        cases claim : (s.buffer r.buffer).heldBy <;> simp only [u, claim] <;> rfl
      have owner : ∀ {o}, s.buffer r.buffer = .reading o true → u = damaged.ownerAbsent o := fun h => by
        rw [told, h]
        rfl
      obtain ⟨tracker, gap, port, transmit, keeps⟩ := damaged.claimTold_eq (s.buffer r.buffer).heldBy
      rw [← told] at keeps
      refine ⟨ends u ?_, ?_, keeps ▸ rfl, keeps ▸ rfl, keeps ▸ rfl, keeps ▸ rfl, fun k reading e he => ?_,
        fun k reading => ?_, fun k reading => ?_⟩
      · rw [damaged_, told]
        exact State.transmitRead_damaged free r
      · rw [told]
        exact State.claimTold_empty (free.readDamaged_empty r) _
      · rw [owner reading] at he
        exact State.shortDamaged_entry he
      · rw [owner reading]
        exact damaged.removeAnswer_answer k
      · rw [owner reading]
        simp [State.ownerAbsent, State.dropSendOnce]
  · rw [show s.ownerAbsent (.tracker k) = s.shortDamaged k from rfl]
    exact ⟨(s.endClaims (.tracker k)).transmit, State.shortDamaged_of_live he live, rfl, s.endClaims_released _⟩
  · exact ⟨(s.removeAnswer k).transmit, s.removeAnswer_eq k, s.removeAnswer_sendOnce k, s.removeAnswer_released k⟩

end Sys2Proof.Machine
end


section
namespace Sys2Proof.Machine

/-! ### Events posted -/

/-- Posting events changes the port alone, and by what the port holds. -/
theorem foldl_post_eq (es : List Event) (s : State) : es.foldl State.post s = { s with port := (es.foldl State.post s).port } := by
  induction es generalizing s with
  | nil => rfl
  | cons e rest ih =>
    rw [List.foldl_cons, ih (s.post e)]
    simp

theorem foldl_post_port_congr (es : List Event) {s u : State} (h : u.port = s.port) :
    (es.foldl State.post u).port = (es.foldl State.post s).port := by
  induction es generalizing s u with
  | nil => exact h
  | cons e rest ih => exact ih (State.post_port_congr h e)

theorem EventsFollow.refl (s : State) : EventsFollow s s := ⟨[], by simp⟩

theorem EventsFollow.trans {s t u : State} (h : EventsFollow t s) (k : EventsFollow u t) : EventsFollow u s := by
  obtain ⟨more, h⟩ := h
  obtain ⟨more', k⟩ := k
  exact ⟨more ++ more', by rw [k, h, List.append_assoc]⟩

theorem State.post_follows (s : State) (e : Event) : EventsFollow (s.post e) s := by
  unfold EventsFollow
  rw [State.post_port]
  split
  · exact ⟨[e], rfl⟩
  · exact ⟨[], by simp⟩

/-! ### What the halt leaves -/

/-- The array, the map, the sequencer, the index and the intake queue stay, and events may follow. -/
structure Aftermath (s u : State) : Prop where
  flash : u.flash = s.flash
  map : u.map = s.map
  sequencer : u.sequencer = s.sequencer
  index : u.index = s.index
  intake : u.intake = s.intake
  events : EventsFollow u s

theorem Aftermath.refl (s : State) : Aftermath s s := ⟨rfl, rfl, rfl, rfl, rfl, .refl s⟩

theorem Aftermath.trans {s t u : State} (h : Aftermath s t) (k : Aftermath t u) : Aftermath s u :=
  ⟨k.flash.trans h.flash, k.map.trans h.map, k.sequencer.trans h.sequencer, k.index.trans h.index, k.intake.trans h.intake,
    h.events.trans k.events⟩

theorem Aftermath.foldl {α : Type} (f : State → α → State) (hf : ∀ s a, Aftermath s (f s a)) (l : List α) (s : State) :
    Aftermath s (l.foldl f s) := by
  induction l generalizing s with
  | nil => exact .refl s
  | cons a rest ih => exact (hf s a).trans (ih (f s a))

theorem State.post_aftermath (s : State) (e : Event) : Aftermath s (s.post e) :=
  ⟨State.post_flash s e, State.post_map s e, State.post_sequencer s e, State.post_index s e, State.post_intake s e,
    s.post_follows e⟩

theorem State.endAllClaims_aftermath (s : State) (owners : List BufferOwner) : Aftermath s (s.endAllClaims owners) :=
  Aftermath.foldl State.endClaims (fun s _ => { Aftermath.refl s with }) owners s

theorem State.shortOnHalt_aftermath (s : State) (e : TrackerEntry) : Aftermath s (s.shortOnHalt e) := by
  unfold State.shortOnHalt
  split
  · exact .refl s
  · exact Aftermath.trans (t := s.updateEntry e.key _) { Aftermath.refl s with }
      ((State.post_aftermath _ _).trans { Aftermath.refl _ with })

theorem State.halt_aftermath (s : State) : Aftermath s s.halt := by
  have emptied : ∀ s : State, Aftermath s s.emptyAnswers.emptySlot.emptySendOnce := fun s =>
    Aftermath.trans (t := s.emptyAnswers.emptySlot)
      (Aftermath.trans (t := { s with gap := { s.gap with answers := [] } }) { Aftermath.refl s with }
        ((State.endAllClaims_aftermath _ _).trans { Aftermath.refl _ with }))
      (Aftermath.trans (t := { s.emptyAnswers.emptySlot with
        transmit := { s.emptyAnswers.emptySlot.transmit with sendOnce := [] } }) { Aftermath.refl _ with }
        (State.endAllClaims_aftermath _ _))
  unfold State.halt
  refine Aftermath.trans ?_ (Aftermath.foldl _ State.shortOnHalt_aftermath _ _)
  refine Aftermath.trans (Aftermath.trans ?_ (emptied _)) (State.post_aftermath _ _)
  exact { Aftermath.refl s with }

theorem State.haltIfDead_aftermath (s : State) : Aftermath s s.haltIfDead := by
  unfold State.haltIfDead
  split
  · exact s.halt_aftermath
  · exact .refl s

/-- A station that is not all DEAD, or halted or MOUNTING, does not halt (R47). -/
theorem State.haltIfDead_eq_self {s : State}
    (h : s.allDead = false ∨ s.controller.state = .halted ∨ s.controller.state = .mounting) : s.haltIfDead = s := by
  unfold State.haltIfDead
  rw [if_neg]
  rcases h with h | h | h <;> simp [h]

/-! ### The lane events -/

theorem State.condition_congr {s u : State} (h : ∀ b, u.block b = s.block b) (l : Lane) : u.condition l = s.condition l := by
  unfold State.condition State.openBlock State.freePool State.asOpen
  simp only [h]

theorem laneEvents_congr {s u v : State} (h : ∀ b, v.block b = u.block b) : laneEvents s v = laneEvents s u := by
  unfold laneEvents
  simp only [State.condition_congr h]

/-- The lane events of a completion, posted in the order of the lanes (R59, R63). -/
theorem State.postLaneEvents_eq (before s : State) :
    State.postLaneEvents before s = (laneEvents before s).foldl State.post s := by
  have posted : ∀ (lanes : List Lane) (t : State), lanes.foldl (fun t l => t.postIf (laneEvent before s l)) t =
      (lanes.filterMap (laneEvent before s)).foldl State.post t := by
    intro lanes
    induction lanes with
    | nil => exact fun _ => rfl
    | cons l rest ih =>
      intro t
      rw [List.foldl_cons, ih, List.filterMap_cons]
      cases laneEvent before s l <;> rfl
  exact posted _ s

/-! ### The cells of an erase -/

/-- What a page reads as after the erase of a block (R33, R41). -/
theorem readPage_eraseFlash (flash : List (Nat × PageCells)) (b : BlockId) (fate : EraseFate) (c : BlockId) (p : PageNo) :
    readPage (eraseFlash flash b fate) (pageAddress c p) =
      if c = b then erasePage fate p (readPage flash (pageAddress c p)) else readPage flash (pageAddress c p) := by
  have pages : ∀ (l : List PageNo), l.Nodup → ∀ flash, readPage (l.foldl
      (fun f p => writePage f (pageAddress b p) (erasePage fate p (readPage f (pageAddress b p)))) flash) (pageAddress c p) =
        if c = b ∧ p ∈ l then erasePage fate p (readPage flash (pageAddress c p)) else readPage flash (pageAddress c p) := by
    intro l
    induction l with
    | nil => simp
    | cons q rest ih =>
      intro once flash
      rw [List.nodup_cons] at once
      rw [List.foldl_cons, ih once.2, readPage_writePage]
      by_cases hc : pageAddress c p = pageAddress b q
      · obtain ⟨rfl, rfl⟩ := pageAddress_inj _ _ _ _ hc
        simp [once.1]
      · have other : ¬ (c = b ∧ p = q) := fun ⟨hb, hq⟩ => hc (by rw [hb, hq])
        rw [if_neg hc]
        by_cases hb : c = b
        · have hq : p ≠ q := fun h => other ⟨hb, h⟩
          simp [hb, hq]
        · simp [hb]
  rw [eraseFlash, pages _ (List.nodup_finRange 32)]
  simp

/-! ### What the blocks of an erase end with -/

/-- What is left in the cells of a block whose erase ended so (R33). -/
def erasedCells : EraseResult → EraseFate
  | .pass => .whole
  | .fail fate => fate
  | .aborted fate => fate

/-- The row of a block whose erase ended so (R63). -/
def erasedRow : EraseResult → BlockRow
  | .pass => .free
  | .fail _ => .retired
  | .aborted _ => .dirty

def eraseFails : EraseResult → Bool
  | .fail _ => true
  | _ => false

def eraseAborts : EraseResult → Bool
  | .aborted _ => true
  | _ => false

theorem eraseFails_iff {r : EraseResult} : eraseFails r = true ↔ ∃ fate, r = .fail fate := by
  cases r <;> simp [eraseFails]

theorem eraseAborts_iff {r : EraseResult} : eraseAborts r = true ↔ ∃ fate, r = .aborted fate := by
  cases r <;> simp [eraseAborts]

/-- The blocks of an erase whose lane failed. -/
def failedBlocks (results : Lane → EraseResult) (blocks : List BlockId) : List BlockId :=
  blocks.filter fun b => eraseFails (results (laneOf b))

/-- The blocks of an erase whose lane was aborted. -/
def abortedBlocks (results : Lane → EraseResult) (blocks : List BlockId) : List BlockId :=
  blocks.filter fun b => eraseAborts (results (laneOf b))

/-- The events of the blocks retired (R69). -/
def retiredEvents (failed : List BlockId) : List Event := failed.map fun b => .blockRetired b (laneOf b) .erase

/-- The blocks that failed are those retired, and those aborted have a fresh request; the array, the rows, the evacuator and
the port are those of `v`. -/
def State.erasedTo (s : State) (failed fresh : List BlockId) (v : State) : State :=
  { s with
    flash := v.flash
    map := { s.map with blocks := v.map.blocks, evacuator := v.map.evacuator }
    sequencer := { s.sequencer with
      retireMarks := s.sequencer.retireMarks ++ failed, dirtyErases := s.sequencer.dirtyErases ++ fresh }
    port := v.port }

theorem State.erasedTo_trans {s t u : State} {failed fresh failed' fresh' : List BlockId} (h : t = s.erasedTo failed fresh t)
    (k : u = t.erasedTo failed' fresh' u) : u = s.erasedTo (failed ++ failed') (fresh ++ fresh') u :=
  calc
    u = t.erasedTo failed' fresh' u := k
    _ = (s.erasedTo failed fresh t).erasedTo failed' fresh' u := congrArg (fun x => State.erasedTo x failed' fresh' u) h
    _ = s.erasedTo (failed ++ failed') (fresh ++ fresh') u := by simp [State.erasedTo]

/-- The evacuator does not have these blocks, and has a current block if it has any (R66). -/
def State.EvacuatesNone (s : State) (blocks : List BlockId) : Prop :=
  (∀ b ∈ blocks, s.map.evacuator.current ≠ some b ∧ b ∉ s.map.evacuator.retiring) ∧
    (s.map.evacuator.current = none → s.map.evacuator.retiring = [])

/-- What the erases of these blocks make of the station (R63). -/
structure BlocksErased (results : Lane → EraseResult) (blocks : List BlockId) (s t : State) : Prop where
  shape : t = s.erasedTo (failedBlocks results blocks) (abortedBlocks results blocks) t
  port : t.port = ((retiredEvents (failedBlocks results blocks)).foldl State.post s).port
  block : ∀ c, t.block c = if c ∈ blocks then erasedRow (results (laneOf c)) else s.block c
  page : ∀ c p, readPage t.flash (pageAddress c p) = if c ∈ blocks
    then erasePage (erasedCells (results (laneOf c))) p (readPage s.flash (pageAddress c p))
    else readPage s.flash (pageAddress c p)
  evacuator : s.EvacuatesNone blocks → t.map.evacuator = s.map.evacuator

/-- A block that the evacuator does not have leaves it as it is when it is retired (R69). -/
theorem State.retire_evacuator {s : State} {b : BlockId} (h : s.EvacuatesNone [b]) (cause : RetireCause) :
    (s.retire b cause).map.evacuator = s.map.evacuator := by
  obtain ⟨hb, current⟩ := h
  obtain ⟨other, absent⟩ := hb b List.mem_cons_self
  have kept : s.map.evacuator.retiring.filter (fun o => o ≠ b) = s.map.evacuator.retiring :=
    List.filter_eq_self.mpr fun o ho => by simpa using fun e : o = b => absent (e ▸ ho)
  have left : ∀ t : State, t.map.evacuator = s.map.evacuator → (t.leaveEvacuator b).map.evacuator = s.map.evacuator := by
    intro t ht
    unfold State.leaveEvacuator State.evacuatorNext
    simp only [ht, kept, if_neg other]
    split
    · rename_i none_ some_
      rw [current none_] at some_
      cases some_
    · rfl
  exact left _ ((congrArg JournalMap.evacuator (State.post_map _ _)).trans rfl)

/-- What an erase of one block is to the rows and the cells. -/
theorem BlocksErased.single {results : Lane → EraseResult} {b : BlockId} {s t : State}
    (shape : t = s.erasedTo (failedBlocks results [b]) (abortedBlocks results [b]) t)
    (port : t.port = ((retiredEvents (failedBlocks results [b])).foldl State.post s).port)
    (block : ∀ c, t.block c = if c = b then erasedRow (results (laneOf b)) else s.block c)
    (flash : t.flash = eraseFlash s.flash b (erasedCells (results (laneOf b))))
    (evacuator : s.EvacuatesNone [b] → t.map.evacuator = s.map.evacuator) : BlocksErased results [b] s t where
  shape := shape
  port := port
  block := fun c => by
    rw [block]
    by_cases hc : c = b <;> simp [hc]
  page := fun c p => by
    rw [flash, readPage_eraseFlash]
    by_cases hc : c = b <;> simp [hc]
  evacuator := evacuator

theorem State.blockErased_spec (results : Lane → EraseResult) (s : State) (b : BlockId) :
    BlocksErased results [b] s (s.blockErased results b) := by
  cases ended : results (laneOf b) with
  | pass =>
    have done : s.blockErased results b = (s.eraseCells b (erasedCells (results (laneOf b)))).setBlock b .free := by
      simp [State.blockErased, ended, erasedCells]
    have failed : failedBlocks results [b] = [] := by simp [failedBlocks, ended, eraseFails]
    have aborted : abortedBlocks results [b] = [] := by simp [abortedBlocks, ended, eraseAborts]
    rw [done]
    generalize cells : erasedCells (results (laneOf b)) = fate
    refine .single ?_ ?_ (fun c => ?_) (by rw [cells]; rfl) fun _ => rfl
    · rw [failed, aborted]
      simp [State.erasedTo, State.setBlock, State.eraseCells]
    · rw [failed]
      rfl
    · rw [State.block_setBlock, State.block_eraseCells, ended]
      rfl
  | fail fate =>
    have done : s.blockErased results b = (s.eraseCells b fate).retire b .erase := by simp [State.blockErased, ended]
    have failed : failedBlocks results [b] = [b] := by simp [failedBlocks, ended, eraseFails]
    have aborted : abortedBlocks results [b] = [] := by simp [abortedBlocks, ended, eraseAborts]
    rw [done]
    refine .single ?_ ?_ (fun c => ?_) ?_ fun h => ?_
    · rw [failed, aborted, State.retire_eq]
      simp [State.erasedTo, State.eraseCells]
    · rw [failed, State.retire_eq]
      exact State.post_port_congr (s := s) (u := s.eraseCells b fate) rfl (.blockRetired b (laneOf b) .erase)
    · rw [((s.eraseCells b fate).retire_quiet b .erase).block, State.block_setBlock, State.block_eraseCells, ended]
      rfl
    · rw [((s.eraseCells b fate).retire_quiet b .erase).flash, ended]
      rfl
    · exact State.retire_evacuator (s := s.eraseCells b fate) h .erase
  | aborted fate =>
    have done : s.blockErased results b = (s.eraseCells b fate).dirtyAgain b := by simp [State.blockErased, ended]
    have failed : failedBlocks results [b] = [] := by simp [failedBlocks, ended, eraseFails]
    have aborted : abortedBlocks results [b] = [b] := by simp [abortedBlocks, ended, eraseAborts]
    rw [done]
    refine .single ?_ ?_ (fun c => ?_) (by rw [ended]; rfl) fun _ => rfl
    · rw [failed, aborted]
      simp [State.erasedTo, State.dirtyAgain, State.setBlock, State.eraseCells]
    · rw [failed]
      rfl
    · rw [ended]
      exact (State.block_setBlock _ _ _ _).trans (by rw [State.block_eraseCells]; rfl)

/-- The blocks of an erase, one after the other (R31, R63). -/
theorem BlocksErased.foldl (results : Lane → EraseResult) {blocks : List BlockId} (once : blocks.Nodup) (s : State) :
    BlocksErased results blocks s (blocks.foldl (State.blockErased results) s) := by
  induction blocks generalizing s with
  | nil => exact ⟨by simp [State.erasedTo, failedBlocks, abortedBlocks], rfl, by simp, by simp, fun _ => rfl⟩
  | cons b rest ih =>
    rw [List.nodup_cons] at once
    have first := s.blockErased_spec results b
    have others := ih once.2 (s.blockErased results b)
    have split : ∀ p : BlockId → Bool, (b :: rest).filter p = [b].filter p ++ rest.filter p := fun p =>
      List.filter_append (p := p) [b] rest
    rw [List.foldl_cons]
    refine ⟨?_, ?_, fun c => ?_, fun c p => ?_, fun h => ?_⟩
    · rw [failedBlocks, abortedBlocks, split, split]
      exact State.erasedTo_trans first.shape others.shape
    · rw [failedBlocks, split, retiredEvents, List.map_append, List.foldl_append, others.port]
      exact foldl_post_port_congr _ first.port
    · rw [others.block, first.block]
      by_cases hb : c = b
      · simp [hb, once.1]
      · simp [hb]
    · rw [others.page, first.page]
      by_cases hb : c = b
      · simp [hb, once.1]
      · simp [hb]
    · have kept := first.evacuator ⟨fun c hc => h.1 c (by rw [List.mem_singleton.mp hc]; exact List.mem_cons_self), h.2⟩
      refine (others.evacuator ?_).trans kept
      unfold State.EvacuatesNone
      rw [kept]
      exact ⟨fun c hc => h.1 c (List.mem_cons_of_mem _ hc), h.2⟩

end Sys2Proof.Machine
end


section
namespace Sys2Proof.Machine

/-! ### The completions of an erase and of a retire mark -/

/-- One block a lane: the order of the lanes loses none (R30). -/
theorem mem_blocksInOrder {blocks : List BlockId} (once : (blocks.map laneOf).Nodup) {b : BlockId} :
    b ∈ blocksInOrder blocks ↔ b ∈ blocks :=
  ⟨fun h => firstOfLanes_subset h, fun h => mem_firstOfLanes.mpr ⟨List.mem_finRange _, find?_of_lanes_nodup once h⟩⟩

/-- What ERASE_COMPLETE does (R63). -/
theorem exec_eraseComplete {s : State} {blocks : List BlockId} (running : Running s (.erase blocks))
    (results : Vector EraseResult 4) : exec (.eraseComplete results) s =
      .next (State.settle s (s.eraseCompletion blocks fun l => results.get l)) := by
  show execEraseComplete results s = _
  rw [execEraseComplete, State.awake_free running.1, running.2]

/-- What RETIRE_MARK_COMPLETE does (R36, R69). -/
theorem exec_retireMarkComplete {s : State} {b : BlockId} (running : Running s (.retireMark b)) (result : MarkResult) :
    exec (.retireMarkComplete result) s = .next (State.settle s (s.markCompletion b (markFate result))) := by
  show execRetireMarkComplete result s = _
  rw [execRetireMarkComplete, State.awake_free running.1, running.2]

/-- The lane events of an erase follow the rows, and a halt may follow them (R47, R63). -/
theorem State.eraseCompletion_eq (s : State) (blocks : List BlockId) (results : Lane → EraseResult) :
    s.eraseCompletion blocks results =
      ((laneEvents s (s.eraseEnded blocks results)).foldl State.post (s.eraseEnded blocks results)).haltIfDead := by
  rw [← State.postLaneEvents_eq]
  rfl

theorem foldl_post_aftermath (es : List Event) (s : State) : Aftermath s (es.foldl State.post s) :=
  Aftermath.foldl _ State.post_aftermath es s

/-- The blocks of an erase are as their results say; a halt and the events leave them so. -/
theorem State.eraseCompletion_aftermath (s : State) (blocks : List BlockId) (results : Lane → EraseResult) :
    Aftermath (s.eraseEnded blocks results) (s.eraseCompletion blocks results) := by
  rw [State.eraseCompletion_eq]
  exact (foldl_post_aftermath _ _).trans (State.haltIfDead_aftermath _)

theorem State.eraseEnded_spec (s : State) (blocks : List BlockId) (results : Lane → EraseResult) :
    BlocksErased results (blocksInOrder blocks) s.freeArray (s.eraseEnded blocks results) :=
  .foldl results (blocksInOrder_nodup blocks) s.freeArray

theorem Aftermath.block {s u : State} (h : Aftermath s u) (b : BlockId) : u.block b = s.block b := by
  unfold State.block
  rw [h.map]

/-- The events of the blocks retired come first, the lane events after them (R63, R69). -/
theorem State.eraseCompletion_told (s : State) (blocks : List BlockId) (results : Lane → EraseResult) :
    ((laneEvents s (s.eraseEnded blocks results)).foldl State.post (s.eraseEnded blocks results)).port =
      ((retiredEvents (failedBlocks results (blocksInOrder blocks)) ++
        laneEvents s (s.eraseCompletion blocks results)).foldl State.post s).port := by
  rw [laneEvents_congr (s.eraseCompletion_aftermath blocks results).block, List.foldl_append]
  refine foldl_post_port_congr _ ((s.eraseEnded_spec blocks results).port.trans ?_)
  exact foldl_post_port_congr _ rfl

/-- A halt posts its events after those of the erase. -/
theorem State.eraseCompletion_follows (s : State) (blocks : List BlockId) (results : Lane → EraseResult) :
    EventsFollow (s.eraseCompletion blocks results) ((retiredEvents (failedBlocks results (blocksInOrder blocks)) ++
      laneEvents s (s.eraseCompletion blocks results)).foldl State.post s) := by
  have halt := (State.haltIfDead_aftermath
    ((laneEvents s (s.eraseEnded blocks results)).foldl State.post (s.eraseEnded blocks results))).events
  rw [← State.eraseCompletion_eq] at halt
  unfold EventsFollow at *
  rwa [State.eraseCompletion_told] at halt

/-- An erase completion that halts nothing changes the array, the rows, the evacuator, the lists of the sequencer and the
events alone (R63). -/
theorem State.eraseCompletion_unhalted (s : State) (blocks : List BlockId) (results : Lane → EraseResult)
    (h : (s.eraseCompletion blocks results).allDead = false ∨ s.controller.state = .halted ∨
      s.controller.state = .mounting) :
    s.eraseCompletion blocks results = { s with
      flash := (s.eraseCompletion blocks results).flash
      map := { s.map with
        blocks := (s.eraseCompletion blocks results).map.blocks
        evacuator := (s.eraseCompletion blocks results).map.evacuator }
      sequencer := { s.sequencer.freed with
        retireMarks := s.sequencer.retireMarks ++ failedBlocks results (blocksInOrder blocks)
        dirtyErases := s.sequencer.dirtyErases ++ abortedBlocks results (blocksInOrder blocks) }
      port := ((retiredEvents (failedBlocks results (blocksInOrder blocks)) ++
        laneEvents s (s.eraseCompletion blocks results)).foldl State.post s).port } := by
  have after := s.eraseCompletion_aftermath blocks results
  have shape := (s.eraseEnded_spec blocks results).shape
  have posted := foldl_post_eq (laneEvents s (s.eraseEnded blocks results)) (s.eraseEnded blocks results)
  have same : s.eraseCompletion blocks results =
      (laneEvents s (s.eraseEnded blocks results)).foldl State.post (s.eraseEnded blocks results) := by
    rw [State.eraseCompletion_eq]
    refine State.haltIfDead_eq_self (h.imp (fun alive => ?_) fun state => ?_)
    · rw [← alive]
      refine State.allDead_congr fun c => ?_
      rw [after.block, (foldl_post_aftermath _ _).block]
    · rw [posted, shape]
      exact state
  rw [after.flash, after.map, ← State.eraseCompletion_told, same, posted]
  exact congrArg (fun t : State => { t with
    port := ((laneEvents s (s.eraseEnded blocks results)).foldl State.post (s.eraseEnded blocks results)).port }) shape

/-- Settles O39: block by block over the gang, and a halt changes nothing that the statement names. -/
theorem eraseAndMarkCompletionsSetTheBlocks : Obligations.EraseAndMarkCompletionsSetTheBlocks := by
  unfold Obligations.EraseAndMarkCompletionsSetTheBlocks
  refine ⟨fun s blocks results running once => ?_, fun s b result running => ?_⟩
  · have mem : ∀ b, b ∈ blocksInOrder blocks ↔ b ∈ blocks := fun _ => mem_blocksInOrder once
    have ended := s.eraseEnded_spec blocks fun l => results.get l
    have after := s.eraseCompletion_aftermath blocks fun l => results.get l
    have unhalted := s.eraseCompletion_unhalted blocks fun l => results.get l
    have follows := s.eraseCompletion_follows blocks fun l => results.get l
    refine ⟨_, EndsIn.of_settle (exec_eraseComplete running results), ?_, ?_, ?_, fun b hb => ⟨fun pass => ?_, fun fate fail => ?_,
      fun fate abort => ?_, fun page => ?_⟩, fun b hb => ⟨?_, fun page => ?_⟩, fun absent current => ?_,
      failedBlocks (fun l => results.get l) (blocksInOrder blocks), abortedBlocks (fun l => results.get l) (blocksInOrder blocks),
      (blocksInOrder_nodup blocks).filter _, (blocksInOrder_nodup blocks).filter _, fun b => ?_, fun b => ?_, follows, unhalted⟩
    · rw [after.sequencer, ended.shape]
      rfl
    · rw [after.index, ended.shape]
      rfl
    · rw [after.intake, ended.shape]
      rfl
    · rw [after.block, ended.block, if_pos ((mem b).mpr hb), pass]
      rfl
    · rw [after.block, ended.block, if_pos ((mem b).mpr hb), fail, after.sequencer, ended.shape]
      exact ⟨rfl, List.mem_append_right _ (List.mem_filter.mpr ⟨(mem b).mpr hb, eraseFails_iff.mpr ⟨fate, fail⟩⟩)⟩
    · rw [after.block, ended.block, if_pos ((mem b).mpr hb), abort, after.sequencer, ended.shape]
      exact ⟨rfl, List.mem_append_right _ (List.mem_filter.mpr ⟨(mem b).mpr hb, eraseAborts_iff.mpr ⟨fate, abort⟩⟩)⟩
    · rw [after.flash, ended.page, if_pos ((mem b).mpr hb)]
      rfl
    · rw [after.block, ended.block, if_neg fun h => hb ((mem b).mp h)]
      rfl
    · rw [after.flash, ended.page, if_neg fun h => hb ((mem b).mp h)]
      rfl
    · rw [after.map]
      exact ended.evacuator ⟨fun b hb => absent b ((mem b).mp hb), current⟩
    · rw [failedBlocks, List.mem_filter, mem, eraseFails_iff]
    · rw [abortedBlocks, List.mem_filter, mem, eraseAborts_iff]
  · refine EndsIn.of_settle ((exec_retireMarkComplete running result).trans ?_)
    cases result <;> rfl

end Sys2Proof.Machine
end


section
namespace Sys2Proof.Machine

/-! ### The reads of the mount -/

/-- What SCAN_READ_COMPLETE does (R72, R74). -/
theorem exec_scanReadComplete {s : State} {b : BlockId} {p : PageNo} (running : Running s (.scanRead b p))
    (changed : PageChange) : exec (.scanReadComplete changed) s = .next ((s.cellsChange b p changed).scanned b p) := by
  show execScanReadComplete changed s = _
  rw [execScanReadComplete, State.awake_free running.1, running.2]

theorem State.scanned_classify {s : State} (phase : s.scanner.phase = .classify) (b : BlockId) (p : PageNo) :
    s.scanned b p = s.classifyRead b (s.scanResult b p) := by
  simp [State.scanned, phase]

/-- Page 0 of a block that is not BAD is followed by page 31 (R72). -/
theorem State.classifyRead_good {s : State} {r : PageReport} (first : s.scanner.page0 = none) (good : r.factory = false)
    (b : BlockId) : s.classifyRead b r = s.placeScan { s.scanner with page0 := some r } b 31 := by
  simp [State.classifyRead, first, good]

/-- A BAD block is classified from its page 0 (R72, R73). -/
theorem State.classifyRead_bad {s : State} {r : PageReport} (first : s.scanner.page0 = none) (bad : r.factory = true)
    (b : BlockId) : s.classifyRead b r = s.nextBlock (s.scanner.addBlock b .bad r none) b := by
  simp [State.classifyRead, first, bad]

/-- Any other is classified when its page 31 is read (R72, R73). -/
theorem State.classifyRead_last {s : State} {page0 : PageReport} (last : s.scanner.page0 = some page0) (r : PageReport)
    (b : BlockId) : s.classifyRead b r = s.nextBlock (s.scanner.addBlock b (blockClass page0 r) page0 (some r)) b := by
  simp [State.classifyRead, last]

theorem State.nextBlock_next {b next : BlockId} (h : next.val = b.val + 1) (s : State) (sc : Scanner) :
    s.nextBlock sc b = s.placeScan sc next 0 := by
  have room : b.val + 1 < 256 := h ▸ next.isLt
  rw [State.nextBlock, dif_pos room]
  exact congrArg (s.placeScan sc · 0) (Fin.ext h.symm)

/-- After block 255 the chained blocks are taken in chain order (R74). -/
theorem State.nextBlock_last (s : State) (sc : Scanner) : s.nextBlock sc 255 = s.nextChained sc.classified := rfl

theorem State.nextChained_cons {sc : Scanner} {f : BlockFinding} {rest : List BlockFinding} (h : sc.queue = f :: rest)
    (s : State) :
    s.nextChained sc = s.placeScan ({ sc with queue := rest }.addPage f.block f.chain 0 f.page0) f.block 1 := by
  simp [State.nextChained, h]

section
variable {s : State} {b : BlockId} {p : PageNo} {f : BlockFinding}

/-- A page of a chained block before page 30 is followed by the next (R74). -/
theorem State.scanned_page (phase : s.scanner.phase = .pages)
    (found : (s.scanner.findings.find? fun f => f.block == b) = some f) (more : p.val < 30) :
    s.scanned b p = s.placeScan (s.scanner.addPage b f.chain p (s.scanResult b p)) b (p + 1) := by
  simp [State.scanned, phase, State.pageRead, found, more]

/-- Page 30 is followed by the page 31 of the CLASSIFY phase and the next chained block (R74). -/
theorem State.scanned_page30 {last : PageReport} (phase : s.scanner.phase = .pages)
    (found : (s.scanner.findings.find? fun f => f.block == b) = some f) (page31 : f.page31 = some last) :
    s.scanned b 30 = s.nextChained ((s.scanner.addPage b f.chain 30 (s.scanResult b 30)).addPage b f.chain 31 last) := by
  simp [State.scanned, phase, State.pageRead, found, page31]

end

/-! ### The classes -/

/-- R72: a header taken as valid has its writer in 1 to 30. -/
theorem PageReport.validHeader_eq_some {r : PageReport} {h : HeaderInfo} : r.validHeader = some h ↔
    r.headerValid = true ∧ headerFields r.header = some h ∧ 1 ≤ h.writer ∧ h.writer ≤ 30 := by
  unfold PageReport.validHeader
  cases r.headerValid with
  | false => simp
  | true =>
    cases headerFields r.header with
    | none => simp
    | some g =>
      simp only [Option.ite_none_right_eq_some, Option.some.injEq, true_and]
      constructor
      · rintro ⟨range, rfl⟩
        exact ⟨rfl, range⟩
      · rintro ⟨rfl, range⟩
        exact ⟨range, rfl⟩

theorem PageReport.validHeader_isSome {r : PageReport} : r.validHeader.isSome = true ↔
    r.headerValid = true ∧ ∃ h, headerFields r.header = some h ∧ 1 ≤ h.writer ∧ h.writer ≤ 30 := by
  simp only [Option.isSome_iff_exists, PageReport.validHeader_eq_some, exists_and_left]

theorem PageReport.blank_iff {r : PageReport} {page : PageNo} : r.blank page = true ↔
    (∀ t ∈ r.slots, t.tag = .erased ∧ t.dataErased = true) ∧ (page = 0 → r.header = .erased) := by
  simp [PageReport.blank, List.all_eq_true, imp_iff_not_or]

/-- The test for a FREE block (R73). -/
theorem blockFree_iff {page0 page31 : PageReport} :
    (page0.blank 0 && page31.blank 31 && page31.mark == .erased) = true ↔
      (∀ t ∈ page0.slots, t.tag = .erased ∧ t.dataErased = true) ∧ page0.header = .erased ∧
        (∀ t ∈ page31.slots, t.tag = .erased ∧ t.dataErased = true) ∧ page31.mark = .erased := by
  have last : ¬ (31 : PageNo) = 0 := by decide
  simp only [Bool.and_eq_true, PageReport.blank_iff, beq_iff_eq, last, false_imp_iff, and_true, true_imp_iff, and_assoc]

/-- R76: the greater chain number, then page, then slot. -/
theorem positionBefore_iff {c : Candidate} {chain : Nat} {l : Loc} : positionBefore c chain l = true ↔
    c.chain < chain ∨ c.chain = chain ∧ (c.loc.page < l.page ∨ c.loc.page = l.page ∧ c.loc.slot < l.slot) := by
  simp [positionBefore, locBefore]

theorem slotFinding_empty {r : SlotReport} : slotFinding r = .empty ↔ r.tag = .erased ∧ r.dataErased = true := by
  unfold slotFinding
  split
  · rename_i tag
    cases r.dataErased <;> simp [tag]
  · rename_i tag
    split <;> simp [tag]
  · rename_i tag
    simp [tag]

theorem keyInRange_iff {k : Key} :
    keyInRange k = true ↔ 1 ≤ k.origin ∧ k.origin ≤ 30 ∧ 1 ≤ k.seq ∧ k.seq ≤ 16777215 := by
  simp only [keyInRange, Bool.and_eq_true, decide_eq_true_eq, and_assoc]
  exact Iff.rfl

theorem slotFinding_location {r : SlotReport} {k : Key} : slotFinding r = .location k ↔
    r.tag = .good k.origin k.seq ∧ r.dataErased = false ∧ 1 ≤ k.origin ∧ k.origin ≤ 30 ∧ 1 ≤ k.seq ∧ k.seq ≤ 16777215 := by
  rw [← keyInRange_iff]
  unfold slotFinding
  split
  · rename_i tag
    cases r.dataErased <;> simp [tag]
  · rename_i origin seq tag
    rw [tag]
    constructor
    · intro h
      split at h
      · rename_i valid
        cases h
        simpa using valid
      · cases h
    · rintro ⟨good, data, range⟩
      cases good
      rw [if_pos (by simp [data, range])]
  · rename_i tag
    simp [tag]

/-- R75: the first test that holds, over the slots of the page. -/
theorem pageClass_eq (page : PageNo) (r : PageReport) : pageClass page r =
    if ∃ t ∈ r.slots, slotFinding t = .torn then .torn
    else if ∀ t ∈ r.slots, slotFinding t ≠ .empty then .full
    else if (∀ t ∈ r.slots, slotFinding t = .empty) ∧ page ≠ 0 then .blank
    else .partly := by
  simp [pageClass]

/-! ### The locations of a page -/

/-- A chain of chained blocks stays in ascending chain number (R74). -/
theorem chainedInOrder_sorted (findings : List BlockFinding) :
    ((chainedInOrder findings).map BlockFinding.chain).Pairwise (· ≤ ·) :=
  foldl_keeps (fun q : List BlockFinding => (q.map BlockFinding.chain).Pairwise (· ≤ ·)) (fun q f => insertByChain f q)
    (fun q f h => insertByChain_sorted f q h) _ _ List.Pairwise.nil

theorem slotAfter_zero (i : SlotNo) : slotAfter 0 i.val = i :=
  Fin.ext (by simp [slotAfter, Nat.mod_eq_of_lt i.isLt])

/-- R76: what an offer makes of the candidates. -/
theorem Scanner.offer_get (sc : Scanner) (k j : Key) (chain : Nat) (l : Loc) : mapGet (sc.offer k chain l).candidates j =
    if j = k then some (match mapGet sc.candidates k with
      | none => ⟨chain, l, 1⟩
      | some c =>
        if c.chain < chain ∨ c.chain = chain ∧ (c.loc.page < l.page ∨ c.loc.page = l.page ∧ c.loc.slot < l.slot) then
          ⟨chain, l, c.count + 1⟩
        else { c with count := c.count + 1 })
    else mapGet sc.candidates j := by
  by_cases hj : j = k
  · subst hj
    rw [if_pos rfl]
    cases found : mapGet sc.candidates j with
    | none => exact sc.offer_get_new j chain l found
    | some c => simp only [sc.offer_get_again j chain l c found, positionBefore_iff]
  · rw [if_neg hj]
    exact sc.offer_get_ne k j chain l hj

/-- A key located twice is counted once (R81). -/
theorem Scanner.offer_duplicates (sc : Scanner) (k : Key) (chain : Nat) (l : Loc) :
    (sc.offer k chain l).counts.duplicates = sc.counts.duplicates + (match mapGet sc.candidates k with
      | some c => if c.count = 1 then 1 else 0
      | none => 0) := by
  unfold Scanner.offer
  split
  · rename_i found
    simp [found]
  · rename_i c found
    simp only [found]
    split <;> rfl

theorem Scanner.offer_keep (sc : Scanner) (k : Key) (chain : Nat) (l : Loc) : sc.offer k chain l = { sc with
    candidates := (sc.offer k chain l).candidates
    counts := { sc.counts with duplicates := (sc.offer k chain l).counts.duplicates } } := by
  unfold Scanner.offer
  split
  · rfl
  · rename_i c _
    by_cases once : c.count = 1 <;> simp [once]

/-- The location a slot of a page gives, if any (R74). -/
def slotLocated (b : BlockId) (page : PageNo) (rn : SlotReport × Nat) : Option (Key × Loc) :=
  match slotFinding rn.1 with
  | .location k => some (k, ⟨b, page, slotAfter 0 rn.2⟩)
  | _ => none

/-- The locations of a page are offered in the order of its slots (R74). -/
theorem Scanner.foldl_addSlot (b : BlockId) (chain : Nat) (page : PageNo) (l : List (SlotReport × Nat)) (sc : Scanner) :
    l.foldl (Scanner.addSlot b chain page) sc =
      (l.filterMap (slotLocated b page)).foldl (fun sc e => sc.offer e.1 chain e.2) sc := by
  induction l generalizing sc with
  | nil => rfl
  | cons rn rest ih =>
    rw [List.foldl_cons, ih, List.filterMap_cons]
    unfold Scanner.addSlot slotLocated
    cases slotFinding rn.1 <;> rfl

/-- The offers of a page change the candidates and the count of duplicates alone. -/
theorem Scanner.foldl_offer_keep (chain : Nat) (l : List (Key × Loc)) (sc : Scanner) :
    l.foldl (fun sc e => sc.offer e.1 chain e.2) sc = { sc with
      candidates := (l.foldl (fun sc e => sc.offer e.1 chain e.2) sc).candidates
      counts := { sc.counts with duplicates := (l.foldl (fun sc e => sc.offer e.1 chain e.2) sc).counts.duplicates } } := by
  refine foldl_keeps (fun t : Scanner => t = { sc with
    candidates := t.candidates, counts := { sc.counts with duplicates := t.counts.duplicates } }) _ (fun t e ht => ?_) l sc rfl
  rw [Scanner.offer_keep, ht]

theorem Scanner.foldl_offer_get {chain : Nat} {k : Key} {l : List (Key × Loc)} (h : ∀ e ∈ l, e.1 ≠ k) (sc : Scanner) :
    mapGet (l.foldl (fun sc e => sc.offer e.1 chain e.2) sc).candidates k = mapGet sc.candidates k := by
  induction l generalizing sc with
  | nil => rfl
  | cons e rest ih =>
    rw [List.foldl_cons, ih (fun f hf => h f (List.mem_cons_of_mem _ hf)),
      sc.offer_get_ne e.1 k chain e.2 (h e List.mem_cons_self).symm]

/-- The page is added: its locations are offered, and its class joins those of its block (R74, R75). -/
theorem Scanner.addPage_eq (sc : Scanner) (b : BlockId) (chain : Nat) (page : PageNo) (r : PageReport) :
    sc.addPage b chain page r =
      { (r.slots.zipIdx.filterMap (slotLocated b page)).foldl (fun sc e => sc.offer e.1 chain e.2) sc with
        pages := addPageClass sc.pages b (pageClass page r)
        counts := { sc.counts with
          duplicates := ((r.slots.zipIdx.filterMap (slotLocated b page)).foldl (fun sc e => sc.offer e.1 chain e.2)
            sc).counts.duplicates
          torn := sc.counts.torn + if pageClass page r = .torn then 1 else 0 } } := by
  unfold Scanner.addPage
  dsimp only
  rw [Scanner.foldl_addSlot, Scanner.foldl_offer_keep]
  by_cases torn : pageClass page r = .torn <;> simp [torn]

theorem slotLocated_key {b : BlockId} {page : PageNo} {rn : SlotReport × Nat} {e : Key × Loc}
    (h : slotLocated b page rn = some e) : slotFinding rn.1 = .location e.1 := by
  unfold slotLocated at h
  split at h
  · rename_i found
    cases h
    exact found
  · cases h

/-- A key that none of these slots locates is none of their locations. -/
theorem located_ne {b : BlockId} {page : PageNo} {k : Key} {l : List SlotReport} {n : Nat}
    (h : ∀ x ∈ l, slotFinding x ≠ .location k) : ∀ e ∈ (l.zipIdx n).filterMap (slotLocated b page), e.1 ≠ k := by
  intro e he
  obtain ⟨rn, hrn, found⟩ := List.mem_filterMap.mp he
  rintro rfl
  exact h rn.1 (List.fst_mem_of_mem_zipIdx hrn) (slotLocated_key found)

/-- The candidate of a key that one slot of the page locates is that of its offer (R76). -/
theorem Scanner.addPage_get {k : Key} {i : SlotNo} {before after : List SlotReport} {t : SlotReport} {r : PageReport}
    (slots : r.slots = before ++ t :: after) (place : before.length = i.val) (found : slotFinding t = .location k)
    (once : ∀ x ∈ before ++ after, slotFinding x ≠ .location k) (sc : Scanner) (b : BlockId) (chain : Nat) (page : PageNo) :
    mapGet (sc.addPage b chain page r).candidates k =
      mapGet (sc.offer k chain ⟨b, page, i⟩).candidates k := by
  have here : slotLocated b page (t, before.length) = some (k, ⟨b, page, i⟩) := by
    simp [slotLocated, found, place, slotAfter_zero]
  rw [Scanner.addPage_eq, slots, List.zipIdx_append, List.zipIdx_cons]
  simp only [Nat.zero_add, List.filterMap_append, List.filterMap_cons, here, List.foldl_append, List.foldl_cons]
  rw [Scanner.foldl_offer_get (located_ne fun x hx => once x (List.mem_append_right _ hx)), Scanner.offer_get,
    Scanner.offer_get, Scanner.foldl_offer_get (located_ne fun x hx => once x (List.mem_append_left _ hx))]

/-- The locations of a page of eight slots, slot by slot. -/
theorem located_eq (b : BlockId) (page : PageNo) {slots : List SlotReport} (h : slots.length = 8) :
    slots.zipIdx.filterMap (slotLocated b page) = (List.finRange 8).filterMap fun i =>
      match (slots[i.val]?).map slotFinding with
      | some (.location k) => some (k, (⟨b, page, i⟩ : Loc))
      | _ => none := by
  have lt : ∀ i : SlotNo, i.val < slots.length := fun i => by omega
  have indexed : slots.zipIdx = (List.finRange 8).map fun i => (slots[i.val]'(lt i), i.val) :=
    List.ext_getElem (by simp [h]) fun n _ _ => by simp
  rw [indexed, List.filterMap_map]
  refine List.filterMap_congr fun i _ => ?_
  have here : slots[i.val]? = some (slots[i.val]'(lt i)) := List.getElem?_eq_getElem _
  simp only [Function.comp_apply, slotLocated, here, Option.map_some, slotAfter_zero]
  cases slotFinding (slots[i.val]'(lt i)) <;> rfl

/-! ### The statement -/

/-- The read that follows a scan read, whatever the scanner (R72, R74). -/
theorem exec_scanReadComplete_placed {s : State} {b : BlockId} {p : PageNo} (running : Running s (.scanRead b p))
    {changed : PageChange} {sc : Scanner} {b' : BlockId} {p' : PageNo}
    (h : (s.cellsChange b p changed).scanned b p = (s.cellsChange b p changed).placeScan sc b' p') :
    exec (.scanReadComplete changed) s = .next { s.cellsChange b p changed with
      scanner := { sc with block := b', page := p' }
      sequencer := { s.sequencer with inFlight := some (.scanRead b' p') } } := by
  rw [exec_scanReadComplete running, h]
  rfl

/-- R73, test by test. -/
theorem blockClass_spec (page0 page31 : PageReport) :
    let slotsErased := fun (r : PageReport) => ∀ t ∈ r.slots, t.tag = .erased ∧ t.dataErased = true
    let free := slotsErased page0 ∧ page0.header = .erased ∧ slotsErased page31 ∧ page31.mark = .erased
    let headed := page0.headerValid = true ∧ ∃ h, headerFields page0.header = some h ∧ 1 ≤ h.writer ∧ h.writer ≤ 30
    (page0.factory = true → blockClass page0 page31 = .bad) ∧
    (page0.factory = false → page31.markValid = true → blockClass page0 page31 = .retired) ∧
    (page0.factory = false → page31.markValid = false → (free → blockClass page0 page31 = .free) ∧
      (¬ free → headed → blockClass page0 page31 = .chained) ∧
      (¬ free → ¬ headed → blockClass page0 page31 = .dirty)) := by
  intro slotsErased free headed
  have good : page0.factory = false → page31.markValid = false → blockClass page0 page31 =
      if page0.blank 0 && page31.blank 31 && page31.mark == .erased then .free
      else if page0.validHeader.isSome then .chained else .dirty := fun factory mark => by
    simp [blockClass, factory, mark]
  refine ⟨fun factory => by simp [blockClass, factory], fun factory mark => by simp [blockClass, factory, mark],
    fun factory mark => ?_⟩
  rw [good factory mark]
  refine ⟨fun h => if_pos (blockFree_iff.mpr h), fun h hh => ?_, fun h hh => ?_⟩
  · rw [if_neg fun f => h (blockFree_iff.mp f), if_pos (PageReport.validHeader_isSome.mpr hh)]
  · rw [if_neg fun f => h (blockFree_iff.mp f), if_neg fun v => hh (PageReport.validHeader_isSome.mp v)]

/-- R75, test by test. -/
theorem pageClass_spec (page : PageNo) (r : PageReport) :
    let some_ := fun c => ∃ t ∈ r.slots, slotFinding t = c
    (some_ .torn → pageClass page r = .torn) ∧
    (¬ some_ .torn → ¬ some_ .empty → pageClass page r = .full) ∧
    (¬ some_ .torn → some_ .empty → (∃ k, some_ (.location k)) ∨ page = 0 → pageClass page r = .partly) ∧
    (some_ .empty → (∀ t ∈ r.slots, slotFinding t = .empty) → page ≠ 0 → pageClass page r = .blank) := by
  intro some_
  rw [pageClass_eq]
  refine ⟨fun torn => if_pos torn, fun torn full => ?_, fun torn empty other => ?_, fun empty all later => ?_⟩
  · rw [if_neg torn, if_pos fun t ht he => full ⟨t, ht, he⟩]
  · obtain ⟨t, ht, he⟩ := empty
    rw [if_neg torn, if_neg fun full => full t ht he, if_neg]
    rintro ⟨all, later⟩
    rcases other with ⟨k, u, hu, hk⟩ | first
    · cases (all u hu).symm.trans hk
    · exact later first
  · obtain ⟨t, ht, he⟩ := empty
    rw [if_neg, if_neg fun full => full t ht he, if_pos ⟨all, later⟩]
    rintro ⟨u, hu, hk⟩
    cases (all u hu).symm.trans hk

/-- Settles O50: the next read by the phase and the page, the classes test by test, and a page as the offers of its
locations. -/
theorem scanReadsGoOn : Obligations.ScanReadsGoOn := by
  unfold Obligations.ScanReadsGoOn
  refine ⟨fun s b p changed running => ?_, blockClass_spec, fun findings => ⟨chainedInOrder_perm findings,
    chainedInOrder_sorted findings⟩, fun r => ⟨slotFinding_empty, fun k => slotFinding_location⟩, pageClass_spec,
    fun sc b chain page r => ⟨?_, fun k none_ => ?_, fun k i before t after slots place found once => ?_⟩,
    Scanner.offer_duplicates, Scanner.offer_get, fun r h => PageReport.validHeader_eq_some,
    fun sc b cls page0 page31 => ⟨?_, fun none_ => ?_, fun h valid id low high => ?_⟩,
    fun sc b chain page r => ⟨?_, fun b' => ?_, fun eight => ?_⟩⟩
  · intro found report goesOn begins chained
    have placed : ∀ {sc b' p'}, found.scanned b p = found.placeScan sc b' p' → goesOn sc b' p' := fun h =>
      exec_scanReadComplete_placed running h
    have begun : ∀ {sc}, found.scanned b p = found.nextChained sc → begins sc := fun h f rest queue =>
      placed (h.trans (State.nextChained_cons queue found))
    have classifies : s.scanner.phase = .classify → found.scanned b p = found.classifyRead b report := fun phase =>
      State.scanned_classify (s := found) phase b p
    refine ⟨fun phase first good => ?_, fun next hnext phase first bad => ?_, fun next page0 hnext phase last => ?_,
      fun hb phase first bad => ?_, fun page0 hb phase last => ?_, fun f phase hf more => ?_, fun f last phase hf hp hl => ?_⟩
    · exact placed ((classifies phase).trans (State.classifyRead_good (s := found) first good b))
    · exact placed ((classifies phase).trans ((State.classifyRead_bad (s := found) first bad b).trans
        (State.nextBlock_next hnext _ _)))
    · exact placed ((classifies phase).trans ((State.classifyRead_last (s := found) last report b).trans
        (State.nextBlock_next hnext _ _)))
    · subst hb
      exact begun ((classifies phase).trans ((State.classifyRead_bad (s := found) first bad 255).trans
        (State.nextBlock_last _ _)))
    · subst hb
      exact begun ((classifies phase).trans ((State.classifyRead_last (s := found) last report 255).trans
        (State.nextBlock_last _ _)))
    · exact placed (State.scanned_page (s := found) phase hf more)
    · subst hp
      exact begun (State.scanned_page30 (s := found) phase hf hl)
  · rw [Scanner.addPage_eq]
  · rw [Scanner.addPage_eq]
    exact Scanner.foldl_offer_get (located_ne none_) sc
  · exact (Scanner.addPage_get slots place found once sc b chain page).trans ((Scanner.offer_get _ _ _ _ _).trans (if_pos rfl))
  · cases cls <;> rfl
  · simp [Scanner.addBlock, none_]
  · simp only [Scanner.addBlock, valid]
    exact addFloor_get sc.floors h id ⟨low, high⟩
  · rw [Scanner.addPage_eq, Scanner.foldl_offer_keep]
  · rw [Scanner.addPage_eq]
    exact addPageClass_get sc.pages b b' (pageClass page r)
  · rw [Scanner.addPage_eq, located_eq b page eight]
    exact ⟨rfl, rfl⟩

end Sys2Proof.Machine
end


section
/-! PROOFS of the family of 03_the_journal_map.md. -/

namespace Sys2Proof.Machine

/-! ### A damaged read, owner by owner -/

/-- The tracker entry of a key is live (R124). -/
def State.entryLives (s : State) (k : Key) : Bool := (s.entry k).any fun e => e.state.isLive

/-- The OUTCOME that a live entry of a key is reported with when it becomes SHORT (R134). -/
def State.outcomesLost (s : State) (k : Key) : List Event :=
  ((s.entry k).toList.filter fun e => e.state.isLive).map fun e => .outcome k.seq false e.holders.length

theorem State.entryLives_of_live {s : State} {k : Key} {e : TrackerEntry} (he : s.entry k = some e)
    (live : e.state.isLive = true) : s.entryLives k = true ∧ s.outcomesLost k = [.outcome k.seq false e.holders.length] := by
  simp [State.entryLives, State.outcomesLost, he, live]

theorem State.entryLives_of_not_live {s : State} {k : Key} (h : ∀ e, s.entry k = some e → e.state.isLive = false) :
    s.entryLives k = false ∧ s.outcomesLost k = [] := by
  cases he : s.entry k with
  | none => simp [State.entryLives, State.outcomesLost, he]
  | some e => simp [State.entryLives, State.outcomesLost, he, h e he]

/-- Making an entry SHORT changes the tracker, the port by its OUTCOME, and the buffers (R134, R135). -/
theorem State.shortDamaged_eq (s : State) (k : Key) : s.shortDamaged k = { s with
    tracker := (s.shortDamaged k).tracker
    port := ((s.outcomesLost k).foldl State.post s).port
    transmit := { s.transmit with buffers := (s.shortDamaged k).transmit.buffers } } := by
  rcases s.shortDamaged_cases k with ⟨e, he, live⟩ | ⟨rest, same⟩
  · rw [(State.entryLives_of_live he live).2, State.shortDamaged_of_live he live]
    rfl
  · rw [(State.entryLives_of_not_live rest).2, same]
    rfl

theorem State.shortDamaged_released (s : State) (k : Key) :
    Released (s.shortDamaged k) s fun o => s.entryLives k && o == .tracker k := by
  rcases s.shortDamaged_cases k with ⟨e, he, live⟩ | ⟨rest, same⟩
  · rw [(State.entryLives_of_live he live).1, State.shortDamaged_of_live he live]
    simp only [Bool.true_and]
    exact s.endClaims_released (.tracker k)
  · rw [(State.entryLives_of_not_live rest).1, same]
    simpa using Released.refl s

/-- The tracker and the answer list are told that a key is lost (R50). -/
def State.tellOwners (s : State) (k : Key) : State := (s.shortDamaged k).removeAnswer k

/-- What telling them changes: the tracker, the answer list, the buffers, and the port by the OUTCOME. -/
theorem State.tellOwners_eq (s : State) (k : Key) : s.tellOwners k = { s with
    tracker := (s.shortDamaged k).tracker
    gap := { s.gap with answers := s.gap.answers.filter fun a => a.key ≠ k }
    port := ((s.outcomesLost k).foldl State.post s).port
    transmit := { s.transmit with buffers := (s.tellOwners k).transmit.buffers } } := by
  have sendOnce : (s.tellOwners k).transmit.sendOnce = s.transmit.sendOnce := by
    rw [State.tellOwners, State.removeAnswer_sendOnce, State.shortDamaged_eq]
  have told := congrArg (fun t : State => { t with
    gap := { t.gap with answers := t.gap.answers.filter fun a => a.key ≠ k }
    transmit := (s.tellOwners k).transmit }) (s.shortDamaged_eq k)
  refine ((s.shortDamaged k).removeAnswer_eq k).trans (told.trans ?_)
  simp only [← sendOnce]

theorem State.tellOwners_released (s : State) (k : Key) : Released (s.tellOwners k) s fun o =>
    (s.entryLives k && o == .tracker k) || ((s.answer k).isSome && o == .answer k) := by
  have answers : (s.shortDamaged k).answer k = s.answer k := by rw [State.shortDamaged_eq]; rfl
  rw [← answers]
  exact (s.shortDamaged_released k).trans (State.removeAnswer_released _ k) (by rw [State.shortDamaged_eq])

theorem State.damagedRead_of_located {s : State} {k : Key} {l : Loc} (h : s.locate k = some l) :
    s.damagedRead k l = ((s.loseKey k l.block).post (.recordDamaged k l)).tellOwners k := if_pos h

theorem State.damagedRead_of_not_located {s : State} {k : Key} {l : Loc} (h : s.locate k ≠ some l) :
    s.damagedRead k l = s := if_neg h

/-! ### The key that is lost -/

/-- The block is RETIRING, and holds no key but this one (R69). -/
def State.EmptiedBy (s : State) (k : Key) (b : BlockId) : Prop :=
  s.isRetiring b ∧ ∀ e ∈ s.index.filter (fun e => e.1 ≠ k), e.2.block ≠ b

theorem State.liveCount_indexDrop (s : State) (k : Key) (b : BlockId) :
    (s.indexDrop k).liveCount b = 0 ↔ ∀ e ∈ s.index.filter (fun e => e.1 ≠ k), e.2.block ≠ b := by
  rw [State.liveCount_eq_zero, State.indexDrop_index, mapDrop]
  simp

/-- A key lost from a block that keeps others, or is not RETIRING, leaves the index and the Receipt List alone (R50). -/
theorem State.loseKey_of_kept {s : State} {k : Key} {b : BlockId} (h : ¬ s.EmptiedBy k b) : s.loseKey k b = { s with
    index := s.index.filter fun e => e.1 ≠ k
    receipts := s.receipts.filter fun r => r ≠ k } := by
  have stays : (s.indexDrop k).retireIfEmptied b = s.indexDrop k := by
    rcases (s.indexDrop k).retireIfEmptied_cases b with same | ⟨chain, row, empty, _⟩
    · exact same
    · exact absurd ⟨⟨chain, row⟩, (s.liveCount_indexDrop k b).mp empty⟩ h
  rw [State.loseKey, stays]
  rfl

/-- The last key of a RETIRING block is lost with the block (R49, R69). -/
theorem State.loseKey_of_emptied {s : State} {k : Key} {b : BlockId} (h : s.EmptiedBy k b) :
    s.loseKey k b = ((s.indexDrop k).retire b .program).dropReceipt k := by
  obtain ⟨⟨chain, row⟩, empty⟩ := h
  have row' : (s.indexDrop k).block b = .retiring chain := row
  rw [State.loseKey, State.retireIfEmptied, row']
  exact congrArg (State.dropReceipt · k) (if_pos ((s.liveCount_indexDrop k b).mpr empty))

/-- A key lost changes the index, the Receipt List, the map, the sequencer and the port at most. -/
theorem State.loseKey_eq (s : State) (k : Key) (b : BlockId) : s.loseKey k b = { s with
    index := s.index.filter fun e => e.1 ≠ k
    receipts := s.receipts.filter fun r => r ≠ k
    map := (s.loseKey k b).map
    sequencer := (s.loseKey k b).sequencer
    port := (s.loseKey k b).port } := by
  by_cases h : s.EmptiedBy k b
  · rw [State.loseKey_of_emptied h, State.retire_eq]
    rfl
  · rw [State.loseKey_of_kept h]

/-- The station when a key is lost and RECORD_DAMAGED is posted, before the owners are told (R50). -/
def State.lossPosted (s : State) (k : Key) (l : Loc) : State := (s.loseKey k l.block).post (.recordDamaged k l)

theorem State.lossPosted_eq (s : State) (k : Key) (l : Loc) : s.lossPosted k l = { s with
    index := s.index.filter fun e => e.1 ≠ k
    receipts := s.receipts.filter fun r => r ≠ k
    map := (s.loseKey k l.block).map
    sequencer := (s.loseKey k l.block).sequencer
    port := (s.lossPosted k l).port } := by
  exact (State.post_eq _ _).trans
    (congrArg (fun t : State => { t with port := (s.lossPosted k l).port }) (s.loseKey_eq k l.block))

/-- All that a damaged read of a key still located changes (R50). -/
theorem State.damagedRead_eq {s : State} {k : Key} {l : Loc} (h : s.locate k = some l) : s.damagedRead k l = { s with
    index := s.index.filter fun e => e.1 ≠ k
    receipts := s.receipts.filter fun r => r ≠ k
    map := (s.loseKey k l.block).map
    sequencer := (s.loseKey k l.block).sequencer
    tracker := (s.damagedRead k l).tracker
    gap := { s.gap with answers := s.gap.answers.filter fun a => a.key ≠ k }
    port := ((s.outcomesLost k).foldl State.post (s.lossPosted k l)).port
    transmit := { s.transmit with buffers := (s.damagedRead k l).transmit.buffers } } := by
  have outcomes : (s.lossPosted k l).outcomesLost k = s.outcomesLost k := by rw [State.lossPosted_eq]; rfl
  have told : s.damagedRead k l = (s.lossPosted k l).tellOwners k := State.damagedRead_of_located h
  have tracker : (s.damagedRead k l).tracker = ((s.lossPosted k l).shortDamaged k).tracker := by
    rw [told, State.tellOwners_eq]
  have shape := (s.lossPosted k l).tellOwners_eq k
  rw [← told, ← tracker, outcomes] at shape
  exact shape.trans (congrArg (fun t : State => { t with
    tracker := (s.damagedRead k l).tracker
    gap := { t.gap with answers := t.gap.answers.filter fun a => a.key ≠ k }
    port := ((s.outcomesLost k).foldl State.post (s.lossPosted k l)).port
    transmit := { t.transmit with buffers := (s.damagedRead k l).transmit.buffers } }) (s.lossPosted_eq k l))

theorem State.damagedRead_released {s : State} {k : Key} {l : Loc} (h : s.locate k = some l) :
    Released (s.damagedRead k l) s fun o => (s.entryLives k && o == .tracker k) || ((s.answer k).isSome && o == .answer k) := by
  have told := (s.lossPosted k l).tellOwners_released k
  rw [← show s.damagedRead k l = (s.lossPosted k l).tellOwners k from State.damagedRead_of_located h] at told
  rw [State.lossPosted_eq] at told
  exact told

theorem State.damagedRead_tracker {s : State} {k : Key} {l : Loc} (h : s.locate k = some l) :
    (s.damagedRead k l).tracker = (s.shortDamaged k).tracker := by
  rw [State.damagedRead_of_located h, ← State.lossPosted, State.tellOwners_eq]
  have same : (s.lossPosted k l).tracker = s.tracker := by rw [State.lossPosted_eq]
  have entry : (s.lossPosted k l).entry k = s.entry k := by rw [State.entry, State.entry, same]
  rcases s.shortDamaged_cases k with ⟨e, he, live⟩ | ⟨rest, nothing⟩
  · rw [State.shortDamaged_of_live he live, State.shortDamaged_of_live (entry.trans he) live, same]
  · rw [nothing, State.shortDamaged_of_not_live (by rwa [entry]), same]

/-- Settles O40: the key is lost with or without its block, and then its owners are told. -/
theorem damagedReadsRemoveTheKey : Obligations.DamagedReadsRemoveTheKey := by
  unfold Obligations.DamagedReadsRemoveTheKey
  refine fun s k l => ⟨State.damagedRead_of_not_located, fun located => ?_⟩
  intro u lives outcome empties
  have shape : u = _ := State.damagedRead_eq located
  have index : u.index = s.index.filter fun e => e.1 ≠ k := by rw [shape]
  have map : u.map = (s.loseKey k l.block).map := by rw [shape]
  have sequencer : u.sequencer = (s.loseKey k l.block).sequencer := by rw [shape]
  have tracker : u.tracker = (s.shortDamaged k).tracker := State.damagedRead_tracker located
  have port : ∀ told : List Event, (s.lossPosted k l).port = (told.foldl State.post s).port →
      u.port = ((told ++ outcome).foldl State.post s).port := fun told h => by
    rw [shape, List.foldl_append]
    exact foldl_post_port_congr _ h
  have emptied : empties ↔ s.EmptiedBy k l.block := by
    show (_ ∧ ∀ e ∈ u.index, _) ↔ _
    rw [index]
    rfl
  refine ⟨index, by rw [shape], by rw [shape], by rw [shape], by rw [shape], by rw [shape], by rw [shape], by rw [shape],
    State.damagedRead_released located, fun e he live => ?_, fun rest => ?_,
    fun h => ?_, fun h => ?_⟩
  · rw [tracker, State.shortDamaged_of_live he live]
  · rw [tracker, State.shortDamaged_of_not_live rest]
  · have lost := State.loseKey_of_emptied (emptied.mp h)
    have rows := ((s.indexDrop k).retire_quiet l.block .program).block
    have block : ∀ b, u.block b = ((s.indexDrop k).setBlock l.block .retired).block b := fun b => by
      rw [← rows b, State.block, map, lost]
      rfl
    refine ⟨?_, fun b hb => ?_, ?_, [.blockRetired l.block (laneOf l.block) .program, .recordDamaged k l], .swap .., port _ ?_⟩
    · rw [block, State.block_setBlock, if_pos rfl]
    · rw [block, State.block_setBlock, if_neg hb]
      rfl
    · rw [sequencer, lost, State.retire_eq]
      rfl
    · rw [State.lossPosted, lost, State.retire_eq]
      refine State.post_port_congr (s := s.post (.blockRetired l.block (laneOf l.block) .program)) ?_ _
      exact State.post_port_congr (s := s) (u := s.indexDrop k) rfl _
  · have lost := State.loseKey_of_kept (mt emptied.mpr h)
    refine ⟨by rw [map, lost], by rw [sequencer, lost], port [.recordDamaged k l] ?_⟩
    rw [State.lossPosted, lost]
    refine State.post_port_congr (s := s) ?_ _
    rfl

end Sys2Proof.Machine
end


section
namespace Sys2Proof.Machine

/-! ### The best of a list -/

/-- A fold that keeps the best eligible element it has met, `g` of it, ends with one that no eligible element is better than. -/
theorem foldl_best {α β : Type} {f : Option β → α → Option β} {eligible : α → Prop} {g : α → β} {better : β → β → Prop}
    (trans : ∀ a b c, better a b → better b c → better a c)
    (skip : ∀ best a, ¬ eligible a → f best a = best)
    (first : ∀ a, eligible a → f none a = some (g a))
    (next : ∀ o a, eligible a → f (some o) a = some (g a) ∧ better (g a) o ∨ f (some o) a = some o ∧ ¬ better (g a) o)
    (irrefl : ∀ a, ¬ better a a) (l : List α) :
    (l.foldl f none = none ∧ ∀ a ∈ l, ¬ eligible a) ∨
      ∃ x, l.foldl f none = some (g x) ∧ x ∈ l ∧ eligible x ∧ ∀ a ∈ l, eligible a → ¬ better (g a) (g x) := by
  induction l using List.reverseRecOn with
  | nil => exact .inl ⟨rfl, by simp⟩
  | append_singleton l a ih =>
    simp only [List.foldl_append, List.foldl_cons, List.foldl_nil, List.mem_append, List.mem_singleton]
    by_cases ha : eligible a
    · rcases ih with ⟨e, none_⟩ | ⟨x, e, hx, ex, best⟩
      · refine .inr ⟨a, by rw [e, first a ha], .inr rfl, ha, fun b hb eb => ?_⟩
        rcases hb with hb | rfl
        · exact absurd eb (none_ b hb)
        · exact irrefl _
      · rw [e]
        rcases next (g x) a ha with ⟨e', wins⟩ | ⟨e', loses⟩
        · refine .inr ⟨a, e', .inr rfl, ha, fun b hb eb => ?_⟩
          rcases hb with hb | rfl
          · exact fun h => best b hb eb (trans _ _ _ h wins)
          · exact irrefl _
        · refine .inr ⟨x, e', .inl hx, ex, fun b hb eb => ?_⟩
          rcases hb with hb | rfl
          · exact best b hb eb
          · exact loses
    · rw [skip _ a ha]
      refine ih.imp (fun ⟨e, none_⟩ => ⟨e, fun b hb => ?_⟩) fun ⟨x, e, hx, ex, best⟩ => ⟨x, e, .inl hx, ex, fun b hb eb => ?_⟩
      · rcases hb with hb | rfl
        · exact none_ b hb
        · exact ha
      · rcases hb with hb | rfl
        · exact best b hb eb
        · exact absurd eb ha

/-! ### The evacuator's reads -/

theorem locBefore_iff {a b : Loc} : locBefore a b = true ↔ a.page < b.page ∨ a.page = b.page ∧ a.slot < b.slot := by
  simp [locBefore]

/-- The order of the slots of a block, as that of numbers. -/
theorem locBefore_iff_lt {a b : Loc} :
    locBefore a b = true ↔ 8 * a.page.val + a.slot.val < 8 * b.page.val + b.slot.val := by
  rw [locBefore_iff, Fin.lt_def, Fin.lt_def, Fin.ext_iff]
  omega

/-- A read that the evacuator may place for a block (R67). -/
structure State.MayEvacuate (s : State) (b : BlockId) (r : SlotRead) : Prop where
  indexed : (r.key, r.loc) ∈ s.index
  block : r.loc.block = b
  unstaged : ∀ e ∈ s.intake, e.record.key ≠ r.key
  unread : ∀ o ∈ s.map.evacuator.reads, o.key ≠ r.key

/-- The evacuator's next read is the first in page and slot order of those it may place, if there is one (R67). -/
theorem State.nextEvacuation_spec (s : State) (b : BlockId) :
    (s.nextEvacuation b = none ∧ ∀ r, ¬ s.MayEvacuate b r) ∨
      ∃ r, s.nextEvacuation b = some r ∧ s.MayEvacuate b r ∧ ∀ q, s.MayEvacuate b q → locBefore q.loc r.loc = false := by
  have eligible : ∀ e : Key × Loc, e ∈ s.index → ((e.2.block = b && !s.staged e.1 &&
      !(s.map.evacuator.reads.any fun r => r.key == e.1)) = true ↔ s.MayEvacuate b ⟨e.1, e.2⟩) := fun e he => by
    simp only [State.staged, Bool.and_eq_true, decide_eq_true_eq, Bool.not_eq_true', List.any_eq_false, beq_iff_eq]
    exact ⟨fun ⟨⟨h1, h2⟩, h3⟩ => ⟨he, h1, h2, h3⟩, fun h => ⟨⟨h.block, h.unstaged⟩, h.unread⟩⟩
  have best := foldl_best (f := fun best (e : Key × Loc) =>
      if e.2.block = b && !s.staged e.1 && !(s.map.evacuator.reads.any fun r => r.key == e.1) then
        match best with
        | none => some (⟨e.1, e.2⟩ : SlotRead)
        | some r => if locBefore e.2 r.loc then some ⟨e.1, e.2⟩ else some r
      else best)
    (eligible := fun e => (e.2.block = b && !s.staged e.1 && !(s.map.evacuator.reads.any fun r => r.key == e.1)) = true)
    (g := fun e => ⟨e.1, e.2⟩) (better := fun q r => locBefore q.loc r.loc = true)
    (fun p q r h h' => by rw [locBefore_iff_lt] at *; omega)
    (fun _ _ h => if_neg h) (fun _ h => if_pos h)
    (fun o e h => by
      simp only [if_pos h]
      split
      · rename_i before
        exact .inl ⟨rfl, before⟩
      · rename_i before
        exact .inr ⟨rfl, before⟩)
    (fun _ => by rw [locBefore_iff_lt]; omega) s.index
  rcases best with ⟨e, none_⟩ | ⟨x, e, hx, ex, least⟩
  · exact .inl ⟨e, fun r h => none_ (r.key, r.loc) h.indexed ((eligible _ h.indexed).mpr h)⟩
  · refine .inr ⟨_, e, (eligible x hx).mp ex, fun q h => ?_⟩
    simpa using least (q.key, q.loc) h.indexed ((eligible _ h.indexed).mpr h)

/-- The station with these class-5 reads placed as well (R67). -/
def State.withReads (s : State) (placed : List SlotRead) : State := { s with
  map := { s.map with evacuator := { s.map.evacuator with reads := s.map.evacuator.reads ++ placed } }
  sequencer := { s.sequencer with evacuationReads := s.sequencer.evacuationReads ++ placed } }

@[simp] theorem State.withReads_nil (s : State) : s.withReads [] = s := by simp [State.withReads]

theorem State.placeEvacuationRead_withReads (s : State) (r : SlotRead) (placed : List SlotRead) :
    (s.placeEvacuationRead r).withReads placed = s.withReads (r :: placed) := by
  simp [State.withReads, State.placeEvacuationRead]

/-- What may be placed once a read is: what might before, but for its key. -/
theorem State.mayEvacuate_placed {s : State} {b : BlockId} {r q : SlotRead} :
    (s.placeEvacuationRead r).MayEvacuate b q ↔ s.MayEvacuate b q ∧ q.key ≠ r.key := by
  constructor
  · intro h
    exact ⟨⟨h.indexed, h.block, h.unstaged, fun o ho => h.unread o (List.mem_append_left _ ho)⟩,
      fun e => h.unread r (List.mem_append_right _ (List.mem_singleton.mpr rfl)) e.symm⟩
  · rintro ⟨h, other⟩
    refine ⟨h.indexed, h.block, h.unstaged, fun o ho => ?_⟩
    rcases List.mem_append.mp ho with ho | ho
    · exact h.unread o ho
    · exact List.mem_singleton.mp ho ▸ other.symm

/-- Entries of class EVACUATION and reads outstanding (R67). -/
def State.evacuating (s : State) : Nat := s.evacuationEntries + s.map.evacuator.reads.length

/-- The reads that `n` turns of the evacuator place for its current block: of those it may place, each the first that is left,
while fewer than 4 are outstanding or staged (R67). -/
structure State.Evacuates (s : State) (n : Nat) (b : BlockId) (placed : List SlotRead) : Prop where
  may : ∀ r ∈ placed, s.MayEvacuate b r
  once : (placed.map SlotRead.key).Nodup
  room : placed = [] ∨ s.evacuating + placed.length ≤ 4
  rest : ∀ r, s.MayEvacuate b r → (∀ p ∈ placed, p.key ≠ r.key) →
    (4 ≤ s.evacuating + placed.length ∨ n ≤ placed.length) ∧ ∀ p ∈ placed, locBefore r.loc p.loc = false

theorem State.Evacuates.cons {s : State} {n : Nat} {b : BlockId} {r : SlotRead} {placed : List SlotRead}
    (h : (s.placeEvacuationRead r).Evacuates n b placed) (may : s.MayEvacuate b r) (room : s.evacuating < 4)
    (first : ∀ q, s.MayEvacuate b q → locBefore q.loc r.loc = false) : s.Evacuates (n + 1) b (r :: placed) := by
  have more : (s.placeEvacuationRead r).evacuating = s.evacuating + 1 := by
    simp only [State.evacuating, State.placeEvacuationRead, List.length_append, List.length_singleton]
    rfl
  constructor
  · exact List.forall_mem_cons.mpr ⟨may, fun q hq => (State.mayEvacuate_placed.mp (h.may q hq)).1⟩
  · refine List.nodup_cons.mpr ⟨fun hr => ?_, h.once⟩
    obtain ⟨q, hq, e⟩ := List.mem_map.mp hr
    exact (State.mayEvacuate_placed.mp (h.may q hq)).2 e
  · rcases h.room with rfl | le
    · exact .inr (by simpa using room)
    · exact .inr (by rw [more] at le; simp only [List.length_cons]; omega)
  · intro q hq others
    obtain ⟨other, others⟩ := List.forall_mem_cons.mp others
    obtain ⟨full, least⟩ := h.rest q (State.mayEvacuate_placed.mpr ⟨hq, other.symm⟩) others
    refine ⟨?_, List.forall_mem_cons.mpr ⟨first q hq, least⟩⟩
    rw [more] at full
    simp only [List.length_cons]
    omega

/-- The evacuator stops when no read may be placed, or there is no room or no turn for one. -/
theorem State.Evacuates.stop {s : State} {n : Nat} {b : BlockId}
    (h : ∀ r, s.MayEvacuate b r → 4 ≤ s.evacuating ∨ n = 0) : s.Evacuates n b [] :=
  ⟨by simp, by simp, .inl rfl, fun r hr _ => ⟨by simpa using h r hr, by simp⟩⟩

/-- All that the evacuator does for its current block, turn by turn (R67). -/
theorem State.evacuate_spec (n : Nat) {s : State} {b : BlockId} (current : s.map.evacuator.current = some b) :
    ∃ placed, State.evacuate n s = s.withReads placed ∧ s.Evacuates n b placed := by
  induction n generalizing s with
  | zero => exact ⟨[], s.withReads_nil.symm, State.Evacuates.stop fun _ _ => .inr rfl⟩
  | succ n ih =>
    unfold State.evacuate
    simp only [current]
    split
    · rename_i room
      rcases s.nextEvacuation_spec b with ⟨e, none_⟩ | ⟨r, e, may, first⟩
      · exact ⟨[], by simp [e], State.Evacuates.stop fun r hr => absurd hr (none_ r)⟩
      · obtain ⟨placed, done, spec⟩ := ih (s := s.placeEvacuationRead r) current
        exact ⟨r :: placed, by simp only [e, done, State.placeEvacuationRead_withReads], spec.cons may room first⟩
    · rename_i full
      exact ⟨[], s.withReads_nil.symm, State.Evacuates.stop fun _ _ => .inl (Nat.le_of_not_lt full)⟩

/-- Settles O48: turn by turn, each read placed being the first of those that may still be. -/
theorem theEvacuatorReadsItsBlock : Obligations.TheEvacuatorReadsItsBlock := by
  unfold Obligations.TheEvacuatorReadsItsBlock
  refine fun s => ⟨fun idle => by simp [State.evacuate, idle], fun b current => ?_⟩
  intro eligible
  have may : ∀ r, eligible r ↔ s.MayEvacuate b r := fun r =>
    ⟨fun ⟨h1, h2, h3, h4⟩ => ⟨h1, h2, h3, h4⟩, fun h => ⟨h.indexed, h.block, h.unstaged, h.unread⟩⟩
  obtain ⟨placed, done, spec⟩ := State.evacuate_spec 4 current
  refine ⟨placed, done, fun r hr => (may r).mpr (spec.may r hr), spec.once, spec.room, fun r hr others => ?_⟩
  obtain ⟨full, first⟩ := spec.rest r ((may r).mp hr) others
  refine ⟨?_, fun p hp before => ?_⟩
  · unfold State.evacuating at full
    omega
  · rw [← locBefore_iff, first p hp] at before
    cases before

end Sys2Proof.Machine
end


section
namespace Sys2Proof.Machine

/-! ### The last scan read -/

theorem State.nextChained_nil {sc : Scanner} (h : sc.queue = []) (s : State) :
    s.nextChained sc = State.endMount { s with scanner := sc } := by
  simp [State.nextChained, h]

theorem Scanner.addPage_queue (sc : Scanner) (b : BlockId) (chain : Nat) (page : PageNo) (r : PageReport) :
    (sc.addPage b chain page r).queue = sc.queue := by
  rw [Scanner.addPage_eq, Scanner.foldl_offer_keep]

/-- No chained block is queued where none was found (R74). -/
theorem Scanner.classified_of_none_chained {sc : Scanner} (h : ∀ f ∈ sc.findings, f.cls ≠ .chained) :
    sc.classified = { sc with phase := .pages, queue := [] } := by
  have none_ : chainedInOrder sc.findings = [] := List.eq_nil_iff_forall_not_mem.mpr fun f hf => by
    obtain ⟨found, chained⟩ := mem_chainedInOrder.mp hf
    exact h f found chained
  rw [Scanner.classified, none_]

/-- The last scan read ends the mount with the scanner as it leaves it (R72, R74, R80). -/
theorem State.scanned_of_scanEndsWith {s : State} {b : BlockId} {p : PageNo} {sc : Scanner}
    (h : ScanEndsWith s b p (s.scanResult b p) sc) : s.scanned b p = State.endMount { s with scanner := sc } := by
  rcases h with ⟨phase, rfl, unchained, ⟨first, bad, rfl⟩ | ⟨page0, last, rfl⟩⟩ | ⟨phase, rfl, queue, f, last, found, hl, rfl⟩
  · rw [State.scanned_classify phase, State.classifyRead_bad first bad, State.nextBlock_last,
      Scanner.classified_of_none_chained (by exact unchained), State.nextChained_nil rfl]
  · rw [State.scanned_classify phase, State.classifyRead_last last, State.nextBlock_last,
      Scanner.classified_of_none_chained (by exact unchained), State.nextChained_nil rfl]
  · rw [State.scanned_page30 phase found hl, State.nextChained_nil]
    rw [Scanner.addPage_queue, Scanner.addPage_queue, queue]

/-! ### What the mount ends with -/

/-- The event that reports the end of the mount (R80, R81). -/
def State.mountReport (s : State) (counts : ScanCounts) : Event :=
  if s.allDead then .haltedByMount s.index.length counts
  else .mounted (if s.controller.config.isSome then .ready else .idle) s.index.length counts

/-- Entering the state that the mount ends in changes the station state, the line and the port alone (R80, R81). -/
theorem State.enterMounted_eq (s : State) (counts : ScanCounts) : s.enterMounted counts = { s with
    controller := { s.controller with state := (s.enterMounted counts).controller.state }
    line := (s.enterMounted counts).line
    port := (s.post (s.mountReport counts)).port } := by
  have posted : ∀ (c : Controller) (line : LineUnit) (e : Event), State.post { s with controller := c, line := line } e =
      { s with controller := c, line := line, port := (s.post e).port } := fun c line e => by
    rw [State.post_eq, State.post_port_congr (s := s) (by rfl)]
  unfold State.enterMounted State.mountReport
  dsimp only
  split <;> rw [posted]

/-- The map, the rows, next_seq and the array as the end of the mount leaves them (R76 to R80). -/
theorem State.rebuilt_eq (s : State) : s.takeMap.takeNextSeq.releaseArray = { s with
    map := { JournalMap.reset with blocks := s.scanner.blocks, nextChain := s.takeMap.map.nextChain }
    freeDraws := s.takeMap.freeDraws
    index := s.scanner.index
    gap := { s.gap with rows := rebuiltRows s.scanner.index }
    tracker := s.takeMap.takeNextSeq.tracker
    scanner := { Scanner.reset with phase := .ended, floors := s.scanner.floors }
    sequencer := { s.sequencer with
      inFlight := none
      exclusive := false
      dirtyErases := (List.finRange 256).filter fun b => s.scanner.blocks.get b == .dirty } } := by
  have kept := congrArg State.releaseArray s.takeMap.takeNextSeq_eq
  exact kept

/-- All that the end of the mount changes (R80). -/
theorem State.mountEnded_eq (s : State) : s.mountEnded = { s with
    map := { JournalMap.reset with blocks := s.scanner.blocks, nextChain := s.takeMap.map.nextChain }
    freeDraws := s.takeMap.freeDraws
    index := s.scanner.index
    gap := { s.gap with rows := rebuiltRows s.scanner.index }
    tracker := s.takeMap.takeNextSeq.tracker
    scanner := { Scanner.reset with phase := .ended, floors := s.scanner.floors }
    sequencer := { s.sequencer with
      inFlight := none
      exclusive := false
      dirtyErases := (List.finRange 256).filter fun b => s.mountEnded.block b == .dirty }
    controller := { s.controller with state := s.mountEnded.controller.state }
    line := s.mountEnded.line
    port := (s.post (s.mountEnded.mountReport s.scanner.counts)).port } := by
  have entered := State.enterMounted_eq s.takeMap.takeNextSeq.releaseArray s.scanner.counts
  have report : s.takeMap.takeNextSeq.releaseArray.mountReport s.scanner.counts =
      s.mountEnded.mountReport s.scanner.counts := by
    rw [State.mountEnded, entered]
    rfl
  have rebuilt := congrArg (fun t : State => { t with
    controller := { t.controller with state := s.mountEnded.controller.state }
    line := s.mountEnded.line
    port := (t.post (s.mountEnded.mountReport s.scanner.counts)).port }) s.rebuilt_eq
  have block : ∀ b, s.mountEnded.block b = s.scanner.blocks.get b := fun b => by
    rw [State.block, s.mountEnded_spec.blocks]
  rw [report] at entered
  refine entered.trans (rebuilt.trans ?_)
  simp only [block]
  congr 1
  refine State.post_port_congr (s := s) ?_ _
  rfl

/-- next_chain is one more than the highest chain number found (R78). -/
theorem State.takeMap_nextChain (s : State) :
    (s.scanner.highestChain = none → s.takeMap.map.nextChain = 0) ∧
      ∀ chain, s.scanner.highestChain = some chain → chain < 4294967295 → s.takeMap.map.nextChain = chain + 1 := by
  refine ⟨fun none_ => by simp [State.takeMap, none_], fun chain found room => ?_⟩
  simp [State.takeMap, found, State.chainAfter, Config.maxChain, room]

/-- next_seq is set at the end of a mount that kept a configuration (R82). -/
theorem State.takeNextSeq_tracker (s : State) :
    (s.controller.config = none → s.takeMap.takeNextSeq.tracker = s.tracker) ∧
      ∀ c, s.controller.config = some c → s.takeMap.takeNextSeq.tracker.nextSeq = some (max (c.firstSeq.getD 1)
        (max (highestSeq s.scanner.index c.stationId + 1) ((stationGet s.scanner.floors c.stationId none).getD 0))) := by
  have config : s.takeMap.controller = s.controller := rfl
  refine ⟨fun none_ => ?_, fun c kept => ?_⟩
  · rw [State.takeNextSeq, config, none_]
    rfl
  · rw [State.takeNextSeq, config, kept]
    rfl

/-! ### The origin rows -/

/-- The row of a station ID after the rows of many are set. -/
theorem stationGet_foldl_set {α : Type} (row : Nat → α) (d : α) {id : Nat} (low : 1 ≤ id) (high : id ≤ 30) (l : List Nat)
    (t : Vector α 30) : stationGet (l.foldl (fun t i => stationSet t (i + 1) (row (i + 1))) t) id d =
      if id - 1 ∈ l then row id else stationGet t id d := by
  induction l generalizing t with
  | nil => simp
  | cons i rest ih =>
    rw [List.foldl_cons, ih, stationGet_stationSet]
    by_cases here : id = i + 1
    · subst here
      simp [high]
    · have other : id - 1 ≠ i := by omega
      simp [here, other]

theorem rebuiltRows_get (index : List (Key × Loc)) {id : Nat} (low : 1 ≤ id) (high : id ≤ 30) (d : OriginRow) :
    stationGet (rebuiltRows index) id d = rebuiltRow index id := by
  rw [rebuiltRows, stationGet_foldl_set _ _ low high, if_pos (List.mem_range.mpr (by omega))]

/-- An origin of no indexed key has an untracked row (R79). -/
theorem rebuiltRow_of_none {index : List (Key × Loc)} {id : Nat} (h : ∀ k l, (k, l) ∈ index → k.origin ≠ id) :
    rebuiltRow index id = ⟨none, 0⟩ := by
  rw [rebuiltRow, if_neg]
  simpa using h

/-- The row of an origin stands at its highest indexed seq, with no gap (R79). -/
theorem rebuiltRow_of_highest {index : List (Key × Loc)} {k : Key} {l : Loc} (h : (k, l) ∈ index)
    (highest : ∀ k' l', (k', l') ∈ index → k'.origin = k.origin → k'.seq ≤ k.seq) :
    rebuiltRow index k.origin = ⟨some ⟨k.seq, k.seq, [], 0⟩, 0⟩ := by
  obtain ⟨bounds, attained⟩ := highestSeq_spec index k.origin
  have seq : highestSeq index k.origin = k.seq := by
    have above := bounds (k, l) h rfl
    rcases attained with zero | ⟨e, he, origin, seq⟩
    · simp only at above
      omega
    · exact Nat.le_antisymm (seq ▸ highest e.1 e.2 he origin) above
  have tracked : (index.any fun e => e.1.origin == k.origin) = true := List.any_eq_true.mpr ⟨(k, l), h, by simp⟩
  rw [rebuiltRow, if_pos tracked, seq]

/-! The end of the mount, part by part. -/

theorem State.mountEnded_sequencer (s : State) : s.mountEnded.sequencer = { s.sequencer with
    inFlight := none
    exclusive := false
    dirtyErases := (List.finRange 256).filter fun b => s.mountEnded.block b == .dirty } := by
  have shape := congrArg State.sequencer s.mountEnded_eq
  exact shape

theorem State.mountEnded_map (s : State) : s.mountEnded.map =
    { JournalMap.reset with blocks := s.scanner.blocks, nextChain := s.takeMap.map.nextChain } := by
  have shape := congrArg State.map s.mountEnded_eq
  exact shape

theorem State.mountEnded_lane (s : State) (l : Lane) : s.mountEnded.lane l = ⟨false, none, 0⟩ := by
  rw [State.lane, s.mountEnded_spec.lanes]
  simp [JournalMap.reset, Vector.get]

theorem State.mountEnded_nextChain (s : State) : s.mountEnded.map.nextChain = s.takeMap.map.nextChain := by
  rw [State.mountEnded_map]

theorem State.mountEnded_gap (s : State) : s.mountEnded.gap = { s.gap with rows := rebuiltRows s.scanner.index } := by
  have shape := congrArg State.gap s.mountEnded_eq
  exact shape

theorem State.mountEnded_tracker (s : State) : s.mountEnded.tracker = s.takeMap.takeNextSeq.tracker := by
  rw [State.mountEnded_eq]

/-- The origin rows are those of the rebuilt index (R79). -/
theorem State.mountEnded_originRow (s : State) {id : Nat} (low : 1 ≤ id) (high : id ≤ 30) :
    s.mountEnded.originRow id = rebuiltRow s.mountEnded.index id := by
  rw [State.originRow, State.mountEnded_gap, rebuiltRows_get _ low high, s.mountEnded_spec.index]

/-- The state the mount ends in is reported (R80, R81). -/
theorem State.mountEnded_port (s : State) : s.mountEnded.port = (s.post (if s.mountEnded.allDead then
    .haltedByMount s.scanner.index.length s.scanner.counts
    else .mounted (if s.controller.config.isSome then .ready else .idle) s.scanner.index.length s.scanner.counts)).port := by
  have shape := congrArg State.port s.mountEnded_eq
  rwa [State.mountReport, s.mountEnded_spec.index, s.mountEnded_spec.config] at shape

end Sys2Proof.Machine
end


section
namespace Sys2Proof.Machine

/-! ### The first blank page -/

/-- How far takeWhile goes: all elements taken fit, and the one after them, if any, does not. -/
theorem takeWhile_length_spec {α : Type} (p : α → Bool) (l : List α) :
    (∀ i < (l.takeWhile p).length, ∃ a, l[i]? = some a ∧ p a = true) ∧
      ∀ a, l[(l.takeWhile p).length]? = some a → p a = false := by
  induction l with
  | nil => simp
  | cons x rest ih =>
    rw [List.takeWhile_cons]
    cases hx : p x with
    | true =>
      refine ⟨fun i hi => ?_, fun a ha => ih.2 a (by simpa using ha)⟩
      cases i with
      | zero => exact ⟨x, rfl, hx⟩
      | succ i => simpa using ih.1 i (by simpa using hi)
    | false => exact ⟨by simp, fun a ha => Option.some.inj (show some x = some a from ha) ▸ hx⟩

/-- The blank pages at the end of a block of 32: all from page 32 - n on, and not the one before (R75). -/
theorem trailingBlank_spec {classes : List PageClass} (h : classes.length = 32) :
    ∃ n ≤ 32, (classes.reverse.takeWhile (· == .blank)).length = n ∧
      (∀ i, 32 ≤ i + n → i < 32 → classes[i]? = some .blank) ∧ (n < 32 → classes[31 - n]? ≠ some .blank) := by
  obtain ⟨taken, stopped⟩ := takeWhile_length_spec (· == .blank) classes.reverse
  refine ⟨_, ?_, rfl, fun i low high => ?_, fun short blank => ?_⟩
  · simpa [h] using (List.takeWhile_sublist (p := (· == PageClass.blank)) (l := classes.reverse)).length_le
  · obtain ⟨a, ha, blank⟩ := taken (31 - i) (by omega)
    rw [List.getElem?_reverse (by omega), h] at ha
    rw [show i = 32 - 1 - (31 - i) by omega, ha]
    simpa using blank
  · have := stopped .blank (by rw [List.getElem?_reverse (by omega), h]; exact blank)
    simp at this

theorem firstBlank_spec {classes : List PageClass} (h : classes.length = 32) :
    (firstBlank classes = none ↔ classes[31]? ≠ some .blank) ∧
    ∀ p : PageNo, firstBlank classes = some p ↔
      (∀ i, p.val ≤ i → i < 32 → classes[i]? = some .blank) ∧ (p = 0 ∨ classes[p.val - 1]? ≠ some .blank) := by
  obtain ⟨n, le, hn, blank, stopped⟩ := trailingBlank_spec h
  have eq : firstBlank classes = if n = 0 then none else some ⟨(32 - n) % 32, Nat.mod_lt _ (by decide)⟩ := by
    rw [firstBlank]
    simp only [hn]
  have some_iff : ∀ p : PageNo, firstBlank classes = some p ↔ p.val + n = 32 := fun p => by
    rw [eq]
    by_cases hz : n = 0
    · simp only [hz, if_true, reduceCtorEq, false_iff]
      omega
    · simp only [hz, if_false, Option.some.injEq, Fin.ext_iff]
      omega
  refine ⟨?_, fun p => (some_iff p).trans ⟨fun hp => ⟨fun i low high => blank i (by omega) high, ?_⟩, ?_⟩⟩
  · rw [eq]
    by_cases hz : n = 0
    · simpa [hz] using stopped
    · simpa [hz] using blank 31 (by omega) (by omega)
  · by_cases hz : p = 0
    · exact .inl hz
    · have pos : p.val ≠ 0 := fun e => hz (Fin.ext e)
      exact .inr (by rw [show p.val - 1 = 31 - n by omega]; exact stopped (by omega))
  · rintro ⟨all, before⟩
    by_contra other
    rcases Nat.lt_or_gt_of_ne other with short | long
    · exact stopped (by omega) (all _ (by omega) (by omega))
    · rcases before with rfl | before
      · simp only [Fin.val_zero] at long
        omega
      · exact before (blank _ (by omega) (by omega))

/-! ### The block that is OPEN, and the highest chain number -/

/-- The chained blocks of a lane with a blank page at their end: those that may be OPEN after the mount (R77). -/
def Scanner.MayOpen (sc : Scanner) (l : Lane) (f : BlockFinding) : Prop :=
  f ∈ sc.findings ∧ f.cls = .chained ∧ laneOf f.block = l ∧ (sc.blankPage f.block).isSome = true

/-- The block that becomes OPEN in a lane is the last in the chain of those that may (R77). -/
theorem Scanner.openOf_spec (sc : Scanner) (l : Lane) : (sc.openOf l = none ∧ ∀ f, ¬ sc.MayOpen l f) ∨
    ∃ f, sc.openOf l = some f ∧ sc.MayOpen l f ∧ ∀ g, sc.MayOpen l g → g.chain ≤ f.chain := by
  have may : ∀ f ∈ sc.findings, (f.cls == .chained && laneOf f.block == l && (sc.blankPage f.block).isSome) = true ↔
      sc.MayOpen l f := fun f hf => by simp [Scanner.MayOpen, hf, and_assoc]
  have best := foldl_best (f := fun best (f : BlockFinding) =>
      if f.cls == .chained && laneOf f.block == l && (sc.blankPage f.block).isSome then
        match best with
        | none => some f
        | some o => if o.chain < f.chain then some f else some o
      else best)
    (eligible := fun f => (f.cls == .chained && laneOf f.block == l && (sc.blankPage f.block).isSome) = true)
    (g := id) (better := fun f g => g.chain < f.chain) (fun _ _ _ h h' => h'.trans h)
    (fun _ _ h => if_neg h) (fun _ h => if_pos h)
    (fun o f h => by
      simp only [if_pos h]
      split
      · rename_i later
        exact .inl ⟨rfl, later⟩
      · rename_i later
        exact .inr ⟨rfl, later⟩)
    (fun _ => Nat.lt_irrefl _) sc.findings
  rcases best with ⟨e, none_⟩ | ⟨f, e, hf, ef, last⟩
  · exact .inl ⟨e, fun f h => none_ f h.1 ((may f h.1).mpr h)⟩
  · exact .inr ⟨f, e, (may f hf).mp ef, fun g h => Nat.le_of_not_lt (last g h.1 ((may g h.1).mpr h))⟩

/-- next_chain rests on the highest chain number of the valid headers found (R78). -/
theorem Scanner.highestChain_spec (sc : Scanner) : (sc.highestChain = none ∧ ∀ f ∈ sc.findings, f.header = none) ∨
    ∃ f h, sc.highestChain = some h.chain ∧ f ∈ sc.findings ∧ f.header = some h ∧
      ∀ g ∈ sc.findings, ∀ h', g.header = some h' → h'.chain ≤ h.chain := by
  have chain : ∀ {f : BlockFinding} {h : HeaderInfo}, f.header = some h → f.chain = h.chain := fun e => by
    simp [BlockFinding.chain, e]
  have best := foldl_best (f := fun m (f : BlockFinding) => match f.header, m with
      | none, m => m
      | some h, none => some h.chain
      | some h, some n => some (max n h.chain))
    (eligible := fun f => f.header ≠ none) (g := BlockFinding.chain) (better := fun m n => n < m)
    (fun _ _ _ h h' => h'.trans h)
    (fun _ f h => by simp [not_not.mp h])
    (fun f h => by
      obtain ⟨x, e⟩ := Option.ne_none_iff_exists'.mp h
      simp [e, chain e])
    (fun n f h => by
      obtain ⟨x, e⟩ := Option.ne_none_iff_exists'.mp h
      simp only [e, chain e, Option.some.injEq]
      omega)
    (fun _ => Nat.lt_irrefl _) sc.findings
  rcases best with ⟨e, none_⟩ | ⟨f, e, hf, ef, highest⟩
  · exact .inl ⟨e, fun f hf => not_not.mp (none_ f hf)⟩
  · obtain ⟨h, header⟩ := Option.ne_none_iff_exists'.mp ef
    refine .inr ⟨f, h, by rw [← chain header]; exact e, hf, header, fun g hg h' e' => ?_⟩
    rw [← chain header, ← chain e']
    exact Nat.le_of_not_lt (highest g hg (by simp [e']))

/-- Where a block was found once, its row is that of its finding (R73, R77). -/
theorem Scanner.blocks_of_mem {sc : Scanner} (once : (sc.findings.map BlockFinding.block).Nodup) {f : BlockFinding}
    (hf : f ∈ sc.findings) : sc.blocks.get f.block = sc.rowOf f := by
  rcases sc.blocks_get f.block with ⟨g, hg, same, row⟩ | ⟨_, others⟩
  · rwa [List.inj_on_of_nodup_map once hg hf same] at row
  · exact absurd rfl (others f hf)

/-- The row of a chained block: OPEN at its first blank page when it is the one chosen in its lane, SEALED otherwise (R77). -/
theorem Scanner.rowOf_chained {sc : Scanner} {f : BlockFinding} (chained : f.cls = .chained) :
    sc.rowOf f = match sc.openOf (laneOf f.block), sc.blankPage f.block with
      | some o, some page => if o.block = f.block then .opened f.chain none ⟨page, 0, 0⟩ else .sealed f.chain
      | _, _ => .sealed f.chain := by
  rw [Scanner.rowOf, chained]
  cases sc.openOf (laneOf f.block) with
  | none => simp
  | some o => cases sc.blankPage f.block <;> simp

/-- Settles O51: the last read by the phase it ends, the end of the mount field by field, and the scanner's choices as the
best of the findings. -/
theorem mountEnds : Obligations.MountEnds := by
  unfold Obligations.MountEnds
  refine ⟨fun s b p changed sc running => ?_, fun classes => firstBlank_spec, fun sc => ?_⟩
  · intro found ends mounting
    have exec_ : exec (.scanReadComplete changed) s = .next (State.settle { found with scanner := sc }
        (State.mountEnded { found with scanner := sc })) := by
      rw [exec_scanReadComplete running, State.scanned_of_scanEndsWith (s := found) ends, State.endMount_eq]
    generalize hv : ({ found with scanner := sc } : State) = v at exec_
    have spec := v.mountEnded_spec
    have chain := v.takeMap_nextChain
    have seq := v.takeNextSeq_tracker
    have state := spec.state
    have line := spec.line
    have port := v.mountEnded_port
    have posted : ∀ e, (v.post e).port = (s.post e).port := State.post_port_congr (by rw [← hv]; rfl)
    rw [← v.mountEnded_nextChain] at chain
    rw [← v.mountEnded_tracker] at seq
    have config : v.controller.config = s.controller.config := by rw [← hv]; rfl
    have scanner : v.scanner = sc := by rw [← hv]
    have lineKept : v.line = s.line := by rw [← hv]; rfl
    have trackerKept : v.tracker = s.tracker := by rw [← hv]; rfl
    rw [config] at seq state line port
    rw [scanner] at seq chain port
    rw [posted] at port
    refine ⟨v, v.mountEnded, EndsIn.of_settle exec_, ?_, ?_, ?_, ?_, ?_, ?_, ?_, ?_, ?_, v.mountEnded_lane, chain.1, chain.2,
      fun id low high => ?_, ?_, fun dead => ?_, fun alive none_ => ?_, fun alive kept => ?_, fun none_ => ?_, fun c kept => ?_⟩
    · rw [v.mountEnded_sequencer, ← hv]
      rfl
    · rw [spec.blocks, scanner]
    · rw [spec.index, scanner]
    · rw [spec.scanner]
    · rw [spec.scanner, scanner]
    · rw [spec.flash, ← hv]
    · rw [spec.config, config]
    · rw [v.mountEnded_map]
      rfl
    · rw [v.mountEnded_map]
      rfl
    · rw [v.mountEnded_originRow low high]
      refine ⟨rebuiltRow_of_none, fun k l h origin highest => ?_⟩
      subst origin
      exact rebuiltRow_of_highest h highest
    · rw [v.mountEnded_gap, ← hv]
      rfl
    · exact ⟨by rw [state, if_pos dead], by rw [port, if_pos dead]⟩
    · rw [state, port, alive, none_]
      exact ⟨rfl, rfl⟩
    · rw [state, port, alive, kept]
      exact ⟨rfl, rfl⟩
    · exact ⟨by rw [line, none_, lineKept]; rfl, by rw [seq.1 none_, trackerKept]⟩
    · exact ⟨by rw [line, kept, lineKept]; rfl, seq.2 c kept⟩
  · intro blank eligible
    refine ⟨fun l => ?_, fun l f h => ?_, fun once f hf => ?_, ?_, fun chain h => ?_, rfl⟩
    · rcases sc.openOf_spec l with ⟨e, none_⟩ | ⟨f, e, may, _⟩
      · exact ⟨fun _ => none_, fun _ => e⟩
      · exact ⟨fun h => (by rw [e] at h; cases h), fun none_ => absurd may (none_ f)⟩
    · rcases sc.openOf_spec l with ⟨e, _⟩ | ⟨g, e, may, last⟩ <;> rw [e] at h <;> cases h
      exact ⟨may, last⟩
    · rw [Scanner.blocks_of_mem once hf]
      cases cls : f.cls with
      | chained => exact Scanner.rowOf_chained cls
      | _ => simp [Scanner.rowOf, cls]
    · rcases sc.highestChain_spec with ⟨e, none_⟩ | ⟨f, h, e, hf, header, _⟩
      · exact ⟨fun _ => none_, fun _ => e⟩
      · exact ⟨fun h => (by rw [e] at h; cases h), fun none_ => by rw [none_ f hf] at header; cases header⟩
    · rcases sc.highestChain_spec with ⟨e, _⟩ | ⟨f, x, e, hf, header, highest⟩ <;> rw [e] at h <;> cases h
      exact ⟨⟨f, hf, x, header, rfl⟩, highest⟩

end Sys2Proof.Machine
end


section
namespace Sys2Proof.Machine

/-! ### What the lanes of a completion leave -/

/-- These events are all BLOCK_RETIRED (R69). -/
def OfBlocks (events : List Event) : Prop := ∀ e ∈ events, ∃ b l cause, e = .blockRetired b l cause

/-- What the results of a completion leave of the station beside the array and the Journal Map: the line, the station state and
the protocol's lists as they were, and BLOCK_RETIRED alone posted (R59, R63). -/
structure Landing (s u : State) : Prop where
  line : u.line = s.line
  controller : u.controller = s.controller
  transmit : u.transmit = s.transmit
  tracker : u.tracker = s.tracker
  gap : u.gap = s.gap
  port : ∃ retired, OfBlocks retired ∧ u.port = (retired.foldl State.post s).port

theorem Landing.of_port {s u : State} (line : u.line = s.line) (controller : u.controller = s.controller)
    (transmit : u.transmit = s.transmit) (tracker : u.tracker = s.tracker) (gap : u.gap = s.gap) (port : u.port = s.port) :
    Landing s u := ⟨line, controller, transmit, tracker, gap, [], by simp [OfBlocks], port⟩

theorem Landing.refl (s : State) : Landing s s := .of_port rfl rfl rfl rfl rfl rfl

theorem Landing.trans {s t u : State} (h : Landing s t) (k : Landing t u) : Landing s u := by
  obtain ⟨es, hes, hp⟩ := h.port
  obtain ⟨es', hes', hp'⟩ := k.port
  refine ⟨k.line.trans h.line, k.controller.trans h.controller, k.transmit.trans h.transmit, k.tracker.trans h.tracker,
    k.gap.trans h.gap, es ++ es', fun e he => (List.mem_append.mp he).elim (hes e) (hes' e), ?_⟩
  rw [hp', List.foldl_append]
  exact foldl_post_port_congr es' hp

theorem Landing.foldl {α : Type} (f : State → α → State) (hf : ∀ s a, Landing s (f s a)) (l : List α) (s : State) :
    Landing s (l.foldl f s) := by
  induction l generalizing s with
  | nil => exact .refl s
  | cons a rest ih => exact (hf s a).trans (ih (f s a))

theorem State.retire_landing (s : State) (b : BlockId) (cause : RetireCause) : Landing s (s.retire b cause) := by
  rw [State.retire_eq]
  exact ⟨rfl, rfl, rfl, rfl, rfl, [.blockRetired b (laneOf b) cause], by simp [OfBlocks], rfl⟩

theorem State.retireIfEmptied_landing (s : State) (b : BlockId) : Landing s (s.retireIfEmptied b) := by
  rcases s.retireIfEmptied_cases b with h | ⟨_, _, _, h⟩ <;> rw [h]
  · exact .refl s
  · exact s.retire_landing b _

theorem State.indexEntry_landing (s : State) (e : IntakeEntry) : Landing s (s.indexEntry e) := by
  have put : ∀ l, Landing s (s.indexPut e.record.key l) := fun _ => .of_port rfl rfl rfl rfl rfl rfl
  rcases s.indexEntry_cases e with h | ⟨l, _, h | ⟨former, _, h⟩⟩ <;> rw [h]
  · exact .refl s
  · exact put l
  · exact (put l).trans (State.retireIfEmptied_landing _ _)

theorem State.completeEntries_landing (s : State) (b : BlockId) : Landing s (s.completeEntries b) :=
  (Landing.foldl _ State.indexEntry_landing _ s).trans (.of_port rfl rfl rfl rfl rfl rfl)

theorem State.joinEvacuator_landing (s : State) (b : BlockId) : Landing s (s.joinEvacuator b) := by
  unfold State.joinEvacuator
  rw [State.evacuatorNext_eq]
  exact .of_port rfl rfl rfl rfl rfl rfl

theorem State.setBlock_landing (s : State) (b : BlockId) (r : BlockRow) : Landing s (s.setBlock b r) :=
  .of_port rfl rfl rfl rfl rfl rfl

theorem State.lanePass_landing (s : State) (p : PassLane) : Landing s (s.lanePass p) := by
  have entries := s.completeEntries_landing p.block
  unfold State.lanePass
  simp only
  split
  · exact entries.trans (State.setBlock_landing _ _ _)
  · exact entries

theorem State.laneFail_landing (s : State) (p : PassLane) : Landing s (s.laneFail p) := by
  have entries : Landing s (s.returnEntries p.block) := .of_port rfl rfl rfl rfl rfl rfl
  unfold State.laneFail
  simp only
  split
  · split
    · exact entries.trans (State.retire_landing _ _ _)
    · exact (entries.trans (State.setBlock_landing _ _ _)).trans (State.joinEvacuator_landing _ _)
  · exact entries

theorem State.laneAbort_landing (s : State) (p : PassLane) : Landing s (s.laneAbort p) := by
  have entries : Landing s (s.returnEntries p.block) := .of_port rfl rfl rfl rfl rfl rfl
  unfold State.laneAbort
  simp only
  split
  · exact entries.trans (State.setBlock_landing _ _ _)
  · exact entries

theorem State.laneResult_landing (outcome : PassLane → PassResult) (s : State) (p : PassLane) :
    Landing s (s.laneResult outcome p) := by
  have cells : ∀ fate, Landing s (s.programCells p fate) := fun _ => .of_port rfl rfl rfl rfl rfl rfl
  unfold State.laneResult
  split
  · exact (cells _).trans (State.lanePass_landing _ p)
  · exact (cells _).trans (State.laneFail_landing _ p)
  · exact (cells _).trans (State.laneAbort_landing _ p)

theorem State.disengage_landing (s : State) (lanes : List PassLane) : Landing s (s.disengage lanes) :=
  Landing.foldl (fun s (p : PassLane) => s.setLane (laneOf p.block) { s.lane (laneOf p.block) with engaged := false })
    (fun _ _ => .of_port rfl rfl rfl rfl rfl rfl) lanes s

theorem State.passEnded_landing (s : State) (lanes : List PassLane) (results : Lane → PassResult) :
    Landing s (s.passEnded lanes results) := by
  have freed : Landing s s.freeArray := .of_port rfl rfl rfl rfl rfl rfl
  exact (freed.trans (Landing.foldl _ (State.laneResult_landing _) (passesInOrder lanes) _)).trans
    (State.disengage_landing _ lanes)

theorem retiredEvents_ofBlocks (blocks : List BlockId) : OfBlocks (retiredEvents blocks) := by
  rintro e he
  obtain ⟨b, _, rfl⟩ := List.mem_map.mp he
  exact ⟨b, _, _, rfl⟩

theorem State.eraseEnded_landing (s : State) (blocks : List BlockId) (results : Lane → EraseResult) :
    Landing s (s.eraseEnded blocks results) := by
  have ended := s.eraseEnded_spec blocks results
  have shape := ended.shape
  refine ⟨by rw [shape]; rfl, by rw [shape]; rfl, by rw [shape]; rfl, by rw [shape]; rfl, by rw [shape]; rfl,
    retiredEvents (failedBlocks results (blocksInOrder blocks)), retiredEvents_ofBlocks _, ?_⟩
  rw [ended.port]
  exact foldl_post_port_congr _ rfl

end Sys2Proof.Machine
end


section
namespace Sys2Proof.Machine

/-! ### What the halt does -/

/-- An entry becoming done changes the tracker, the port by its OUTCOME, and the buffers it claims (R133, R135). -/
theorem State.finish_eq (s : State) (e : TrackerEntry) (secured damaged : Bool) : s.finish e secured damaged = { s with
    tracker := { s.tracker with entries := s.tracker.entries.map fun x => if x.key = e.key then
      { x with state := if secured then .secured else .short, damaged := x.damaged || damaged } else x }
    port := (s.post (.outcome e.key.seq secured e.holders.length)).port
    transmit := (s.endClaims (.tracker e.key)).transmit } := by
  rw [State.finish, State.post_eq, State.post_port_congr (s := s) (by rfl)]
  simp [State.updateEntry, State.endClaims, State.setBuffer, State.buffer, State.onLine]

theorem TrackerState.isDone_iff {st : TrackerState} : st.isDone = true ↔ st = .secured ∨ st = .short := by
  cases st <;> simp [TrackerState.isDone]

/-- One of these entries has the key and is not done. -/
def undone (es : List TrackerEntry) (k : Key) : Bool := es.any fun e => e.key == k && !e.state.isDone

/-- The owners of claims that entries becoming SHORT end (R133). -/
def undoneOwner (es : List TrackerEntry) : BufferOwner → Bool
  | .tracker k => undone es k
  | _ => false

/-- The entry as the halt of these entries leaves it (R138). -/
def shorted (es : List TrackerEntry) (x : TrackerEntry) : TrackerEntry :=
  if undone es x.key then { x with state := .short } else x

theorem shorted_key (es : List TrackerEntry) (x : TrackerEntry) : (shorted es x).key = x.key := by
  unfold shorted
  split <;> rfl

/-- One entry more. -/
theorem shorted_cons (e : TrackerEntry) (es : List TrackerEntry) (x : TrackerEntry) :
    shorted es (shorted [e] x) = shorted (e :: es) x := by
  have split : undone (e :: es) x.key = (undone [e] x.key || undone es x.key) := by simp [undone]
  rw [shorted, shorted_key, shorted, shorted, split]
  cases undone [e] x.key <;> cases undone es x.key <;> rfl

/-- These entries have become SHORT where they were not done; the tracker, the port and the buffers change alone (R138). -/
structure Shorted (es : List TrackerEntry) (s u : State) : Prop where
  shape : u = { s with
    tracker := { s.tracker with entries := s.tracker.entries.map (shorted es) }
    port := u.port
    transmit := { s.transmit with buffers := u.transmit.buffers } }
  released : Released u s (undoneOwner es)
  events : EventsFollow u s

theorem State.shortOnHalt_shorted (s : State) (e : TrackerEntry) : Shorted [e] s (s.shortOnHalt e) := by
  have alone : ∀ k, undone [e] k = (e.key == k && !e.state.isDone) := fun k => by simp [undone]
  unfold State.shortOnHalt
  cases done : e.state.isDone with
  | true =>
    have same : shorted [e] = id := by
      funext x
      simp [shorted, alone, done]
    have nobody : undoneOwner [e] = fun _ => false := by
      funext o
      cases o <;> simp [undoneOwner, alone, done]
    exact ⟨by simp [same], by simpa [nobody] using Released.refl s, .refl s⟩
  | false =>
    have one : shorted [e] = fun x => if x.key = e.key then { x with state := .short } else x := by
      funext x
      simp [shorted, alone, done, eq_comm (a := e.key)]
    have owner : undoneOwner [e] = fun o => o == .tracker e.key := by
      funext o
      cases o <;> simp [undoneOwner, alone, done, eq_comm (a := e.key)]
    rw [if_neg (by simp), State.finish_eq]
    exact ⟨by rw [one]; simp; rfl, by rw [owner]; exact s.endClaims_released _, s.post_follows _⟩

theorem Shorted.trans {e : TrackerEntry} {es : List TrackerEntry} {s t u : State} (h : Shorted [e] s t)
    (k : Shorted es t u) : Shorted (e :: es) s u := by
  have owner : undoneOwner (e :: es) = fun o => undoneOwner [e] o || undoneOwner es o := by
    funext o
    cases o <;> simp [undoneOwner, undone]
  have entries : (s.tracker.entries.map (shorted [e])).map (shorted es) = s.tracker.entries.map (shorted (e :: es)) := by
    rw [List.map_map]
    exact List.map_congr_left fun x _ => shorted_cons e es x
  refine ⟨?_, ?_, h.events.trans k.events⟩
  · have shape := k.shape
    rw [h.shape] at shape
    simpa only [entries] using shape
  · rw [owner]
    exact h.released.trans k.released (by rw [h.shape])

theorem Shorted.foldl (es : List TrackerEntry) (s : State) : Shorted es s (es.foldl State.shortOnHalt s) := by
  induction es generalizing s with
  | nil =>
    have same : shorted [] = id := by
      funext x
      simp [shorted, undone]
    have nobody : undoneOwner [] = fun _ => false := by
      funext o
      cases o <;> simp [undoneOwner, undone]
    exact ⟨by simp [same], by simpa [nobody] using Released.refl s, .refl s⟩
  | cons e rest ih => exact (s.shortOnHalt_shorted e).trans (ih _)

/-- Where no key stands twice, the entries that become SHORT are those not done (R124, R138). -/
theorem shorted_of_nodup {es : List TrackerEntry} (once : (es.map TrackerEntry.key).Nodup) {x : TrackerEntry} (hx : x ∈ es) :
    shorted es x = if x.state = .secured ∨ x.state = .short then x else { x with state := .short } := by
  have undone_iff : undone es x.key = true ↔ ¬ (x.state = .secured ∨ x.state = .short) := by
    rw [← TrackerState.isDone_iff]
    simp only [undone, List.any_eq_true, Bool.and_eq_true, beq_iff_eq, Bool.not_eq_true', Bool.not_eq_true]
    constructor
    · rintro ⟨e, he, key, undone_⟩
      rwa [List.inj_on_of_nodup_map once he hx key] at undone_
    · exact fun h => ⟨x, hx, rfl, h⟩
  unfold shorted
  by_cases done : x.state = .secured ∨ x.state = .short
  · rw [if_neg (by rw [undone_iff]; exact not_not.mpr done), if_pos done]
  · rw [if_pos (undone_iff.mpr done), if_neg done]

/-- Ending claims changes the buffers alone. -/
theorem State.endAllClaims_eq (s : State) (owners : List BufferOwner) : s.endAllClaims owners =
    { s with transmit := { s.transmit with buffers := (s.endAllClaims owners).transmit.buffers } } := by
  induction owners generalizing s with
  | nil => rfl
  | cons o rest ih => exact ih (s.endClaims o)

theorem State.emptyAnswers_eq (s : State) : s.emptyAnswers = { s with
    gap := { s.gap with answers := [] }
    transmit := { s.transmit with buffers := s.emptyAnswers.transmit.buffers } } :=
  State.endAllClaims_eq _ _

/-- The protocol's lists as a halt empties them (R115, R116, R160). -/
theorem State.emptied_eq (s : State) : s.emptyAnswers.emptySlot.emptySendOnce = { s with
    gap := { s.gap with answers := [], slot := .empty, timer := none }
    transmit := { sendOnce := [], buffers := s.emptyAnswers.emptySlot.emptySendOnce.transmit.buffers } } :=
  (State.endAllClaims_eq _ _).trans (congrArg (fun t : State => { t.emptySlot with
    transmit := { sendOnce := [], buffers := s.emptyAnswers.emptySlot.emptySendOnce.transmit.buffers } }) s.emptyAnswers_eq)

/-- The owners whose claims end as the protocol's lists are emptied (R116). -/
def State.emptiedOwner (s : State) : BufferOwner → Bool
  | .tracker _ => false
  | .answer k => s.gap.answers.any fun a => a.key == k
  | .sendOnce k => s.transmit.sendOnce.contains k

theorem State.emptied_released (s : State) : Released s.emptyAnswers.emptySlot.emptySendOnce s s.emptiedOwner := by
  have answers : Released s.emptyAnswers.emptySlot s fun o => (s.gap.answers.map fun a => BufferOwner.answer a.key).any fun p => o == p :=
    State.endAllClaims_released { s with gap := { s.gap with answers := [] } } _
  have once : Released s.emptyAnswers.emptySlot.emptySendOnce s.emptyAnswers.emptySlot fun o =>
      (s.emptyAnswers.emptySlot.transmit.sendOnce.map BufferOwner.sendOnce).any fun p => o == p :=
    State.endAllClaims_released { s.emptyAnswers.emptySlot with
      transmit := { s.emptyAnswers.emptySlot.transmit with sendOnce := [] } } _
  have line : s.emptyAnswers.emptySlot.line = s.line := by
    rw [State.emptySlot_line, s.emptyAnswers_eq]
  have list : s.emptyAnswers.emptySlot.transmit.sendOnce = s.transmit.sendOnce := by
    rw [State.emptySlot_transmit, s.emptyAnswers_eq]
  have owner : s.emptiedOwner = fun o => ((s.gap.answers.map fun a => BufferOwner.answer a.key).any fun p => o == p) ||
      (s.emptyAnswers.emptySlot.transmit.sendOnce.map BufferOwner.sendOnce).any fun p => o == p := by
    rw [list]
    funext o
    rw [Bool.eq_iff_iff]
    cases o with
    | tracker k => simp [State.emptiedOwner]
    | answer k => simp [State.emptiedOwner, eq_comm (a := k)]
    | sendOnce k => simp [State.emptiedOwner]
  rw [owner]
  exact answers.trans once line

/-- The owners whose claims the halt ends: those of entries that are not done, and of all that stands in an emptied list
(R105, R116, R138). -/
def State.haltedOwner (s : State) : BufferOwner → Bool
  | .tracker k => s.tracker.entries.any fun e => e.key == k && e.state != .secured && e.state != .short
  | .answer k => s.gap.answers.any fun a => a.key == k
  | .sendOnce k => s.transmit.sendOnce.contains k

theorem State.haltedOwner_eq (s : State) : s.haltedOwner = fun o => s.emptiedOwner o || undoneOwner s.tracker.entries o := by
  have live : ∀ st : TrackerState, (st != .secured && st != .short) = !st.isDone := fun st => by cases st <;> rfl
  funext o
  cases o with
  | tracker k =>
    show (s.tracker.entries.any fun e => e.key == k && e.state != .secured && e.state != .short) = _
    simp only [Bool.and_assoc, live]
    exact (Bool.false_or _).symm
  | answer k => exact (Bool.or_false _).symm
  | sendOnce k => exact (Bool.or_false _).symm

/-- What a station that halts becomes (R116, R138, R148, R160). -/
structure Halts (s u : State) : Prop where
  controller : u.controller = { s.controller with
    state := .halted
    rollDue := if s.onBus then some .leaving else none
    rollTimer := none }
  receipts : u.receipts = []
  gap : u.gap = { s.gap with answers := [], slot := .empty, timer := none }
  sendOnce : u.transmit.sendOnce = []
  tracker : u.tracker = { s.tracker with entries := s.tracker.entries.map (shorted s.tracker.entries) }
  released : Released u s s.haltedOwner
  events : ∃ mid : State, EventsFollow mid s ∧ EventsFollow u (mid.post (.halted s.controller.state))

/-- The station state HALTED, a LEAVING roll due of one that was on the bus, and no receipt (R116, R148). -/
def State.turnHalted (s : State) : State := { s with
  controller := { s.controller with
    state := .halted
    rollDue := if s.onBus then some .leaving else none
    rollTimer := none }
  receipts := [] }

/-- The station when HALTED has been posted: its entries become SHORT after that (R138). -/
def State.halting (s : State) : State :=
  s.turnHalted.emptyAnswers.emptySlot.emptySendOnce.post (.halted s.controller.state)

theorem State.halt_eq (s : State) : s.halt = s.halting.tracker.entries.foldl State.shortOnHalt s.halting := rfl

theorem State.halting_eq (s : State) : s.halting = { s.turnHalted with
    gap := { s.gap with answers := [], slot := .empty, timer := none }
    transmit := { sendOnce := [], buffers := s.halting.transmit.buffers }
    port := (s.post (.halted s.controller.state)).port } := by
  have emptied := s.turnHalted.emptied_eq
  have port : s.turnHalted.emptyAnswers.emptySlot.emptySendOnce.port = s.port := by
    rw [emptied]
    rfl
  have buffers : s.halting.transmit.buffers = s.turnHalted.emptyAnswers.emptySlot.emptySendOnce.transmit.buffers := by
    rw [State.halting, State.post_eq]
  rw [buffers, State.halting, State.post_eq, State.post_port_congr port]
  exact congrArg (fun t : State => { t with port := (s.post (.halted s.controller.state)).port }) emptied

theorem State.halting_released (s : State) : Released s.halting s s.emptiedOwner := by
  intro i
  rw [State.halting, State.post_eq]
  exact s.turnHalted.emptied_released i

theorem State.halt_halts (s : State) : Halts s s.halt := by
  have short := Shorted.foldl s.halting.tracker.entries s.halting
  rw [← State.halt_eq] at short
  have shape := short.shape
  have events := short.events
  have released := s.halting_released.trans short.released (by rw [s.halting_eq]; rfl)
  rw [s.halting_eq] at shape released events
  refine ⟨by rw [shape]; rfl, by rw [shape]; rfl, by rw [shape], by rw [shape], by rw [shape]; rfl, ?_, s, .refl s, events⟩
  rw [State.haltedOwner_eq]
  exact released

/-- Every entry is done once the station has halted (R138). -/
theorem Halts.done {s u : State} (h : Halts s u) (once : (s.tracker.entries.map TrackerEntry.key).Nodup) :
    u.tracker = { s.tracker with entries := s.tracker.entries.map fun e =>
      if e.state = .secured ∨ e.state = .short then e else { e with state := .short } } := by
  rw [h.tracker, List.map_congr_left fun e he => shorted_of_nodup once he]

/-- The halt as the statement says it. -/
theorem Halts.said {s u : State} (h : Halts s u) (once : (s.tracker.entries.map TrackerEntry.key).Nodup) :
    let onBus := s.controller.state = .joining ∨ s.controller.state = .active ∨ s.controller.state = .leaving
    u.controller.state = .halted ∧ u.controller.rollTimer = none ∧
      (onBus → u.controller.rollDue = some .leaving) ∧ (¬ onBus → u.controller.rollDue = none) ∧
      u.controller.config = s.controller.config ∧ u.controller.roster = s.controller.roster ∧
      u.receipts = [] ∧ u.gap = { s.gap with answers := [], slot := .empty, timer := none } ∧ u.transmit.sendOnce = [] ∧
      u.tracker = { s.tracker with entries := s.tracker.entries.map fun e =>
        if e.state = .secured ∨ e.state = .short then e else { e with state := .short } } ∧
      Released u s s.haltedOwner ∧
      ∃ mid : State, EventsFollow mid s ∧ EventsFollow u (mid.post (.halted s.controller.state)) := by
  have onBus : s.onBus = true ↔
      s.controller.state = .joining ∨ s.controller.state = .active ∨ s.controller.state = .leaving := by
    simp [State.onBus, or_assoc]
  refine ⟨by rw [h.controller], by rw [h.controller], fun bus => ?_, fun off => ?_, by rw [h.controller], by rw [h.controller],
    h.receipts, h.gap, h.sendOnce, h.done once, h.released, h.events⟩
  · rw [h.controller]
    exact if_pos (onBus.mpr bus)
  · rw [h.controller]
    exact if_neg (mt onBus.mp off)

/-- A halt after a change that left the line, the station state and the protocol's lists and posted events. -/
theorem Halts.after {s t u : State} (h : Halts t u) (line : t.line = s.line) (controller : t.controller = s.controller)
    (transmit : t.transmit = s.transmit) (tracker : t.tracker = s.tracker) (gap : t.gap = s.gap) (events : EventsFollow t s) :
    Halts s u := by
  have onBus : t.onBus = s.onBus := by simp only [State.onBus, controller]
  have owner : t.haltedOwner = s.haltedOwner := by
    funext o
    cases o <;> simp only [State.haltedOwner, transmit, tracker, gap]
  obtain ⟨mid, before, halted⟩ := h.events
  refine ⟨?_, h.receipts, ?_, h.sendOnce, ?_, fun i => ?_, mid, events.trans before, ?_⟩
  · rw [h.controller, onBus, controller]
  · rw [h.gap, gap]
  · rw [h.tracker, tracker]
  · rw [h.released i, owner]
    simp only [State.buffer, State.onLine, transmit, line]
  · rwa [controller] at halted

/-- A completion that leaves every lane DEAD halts a station that is neither HALTED nor MOUNTING (R47). -/
theorem State.haltIfDead_halts {s : State} (dead : s.allDead = true) (mounted : s.controller.state ≠ .mounting)
    (running : s.controller.state ≠ .halted) : Halts s s.haltIfDead := by
  rw [State.haltIfDead, if_pos (by simp [dead, mounted, running])]
  exact s.halt_halts

/-- A station that has halted is handed nothing: it has left the bus, and all its entries are done (R12, R138). -/
theorem Halts.handOn {s u : State} (h : Halts s u) (once : (s.tracker.entries.map TrackerEntry.key).Nodup) (e : IntakeEntry) :
    u.handOn e = u := by
  have offBus : u.onBus = false := by
    rw [State.onBus, h.controller]
    rfl
  unfold State.handOn
  cases e.source with
  | evacuation p => rfl
  | bus owed => simp [offBus]
  | localHost =>
    simp only [State.handLocal]
    cases found : u.entry e.record.key with
    | none => rfl
    | some x =>
      have mem : x ∈ u.tracker.entries := List.mem_of_find?_eq_some found
      rw [h.done once, List.mem_map] at mem
      obtain ⟨y, _, rfl⟩ := mem
      refine if_neg ?_
      split
      · rename_i done
        rcases done with done | done <;> simp [done]
      · simp

theorem Halts.foldl_handOn {s u : State} (h : Halts s u) (once : (s.tracker.entries.map TrackerEntry.key).Nodup)
    (handed : List IntakeEntry) : handed.foldl State.handOn u = u := by
  induction handed with
  | nil => rfl
  | cons e rest ih => rw [List.foldl_cons, h.handOn once, ih]

/-! ### The completions of a program and of an erase -/

theorem Landing.follows {s u : State} (h : Landing s u) : EventsFollow u s := by
  obtain ⟨retired, _, port⟩ := h.port
  have posted := (foldl_post_aftermath retired s).events
  unfold EventsFollow at *
  rwa [port]

/-- A completion whose blocks are so, with its lane events posted, halts a station that lives when every lane is DEAD. -/
theorem Landing.halts {s u : State} (h : Landing s u) (dead : (State.postLaneEvents s u).allDead = true)
    (mounted : s.controller.state ≠ .mounting) (running : s.controller.state ≠ .halted) :
    Halts s (State.postLaneEvents s u).haltIfDead := by
  have shape := (State.postLaneEvents_eq s u).trans (foldl_post_eq _ u)
  have controller : (State.postLaneEvents s u).controller = s.controller := by
    rw [shape]
    exact h.controller
  refine (State.haltIfDead_halts dead (by rwa [controller]) (by rwa [controller])).after ?_ controller ?_ ?_ ?_ ?_
  · rw [shape]
    exact h.line
  · rw [shape]
    exact h.transmit
  · rw [shape]
    exact h.tracker
  · rw [shape]
    exact h.gap
  · rw [State.postLaneEvents_eq]
    exact h.follows.trans (foldl_post_aftermath _ u).events

theorem State.programCompletion_halts {s : State} (lanes : List PassLane) (results : Lane → PassResult)
    (dead : (s.programCompletion lanes results).allDead = true) (mounted : s.controller.state ≠ .mounting)
    (running : s.controller.state ≠ .halted) (once : (s.tracker.entries.map TrackerEntry.key).Nodup) :
    Halts s (s.programCompletion lanes results) := by
  have halts := (s.passEnded_landing lanes results).halts (by
    rw [← dead, (s.programCompletion_quiet lanes results).allDead, (State.haltIfDead_untouched _).allDead]) mounted running
  have same : s.programCompletion lanes results = (State.postLaneEvents s (s.passEnded lanes results)).haltIfDead :=
    halts.foldl_handOn once _
  rwa [same]

theorem State.eraseCompletion_halts {s : State} (blocks : List BlockId) (results : Lane → EraseResult)
    (dead : (s.eraseCompletion blocks results).allDead = true) (mounted : s.controller.state ≠ .mounting)
    (running : s.controller.state ≠ .halted) : Halts s (s.eraseCompletion blocks results) :=
  (s.eraseEnded_landing blocks results).halts (by rw [← dead]; exact (State.haltIfDead_untouched _).allDead.symm) mounted running

/-- What PROGRAM_COMPLETE does (R31, R59). -/
theorem exec_programComplete {s : State} {lanes : List PassLane} (running : Running s (.program lanes))
    (results : Vector PassResult 4) : exec (.programComplete results) s =
      .next (State.settle s (s.programCompletion lanes fun l => results.get l)) := by
  show execProgramComplete results s = _
  rw [execProgramComplete, State.awake_free running.1, running.2]

theorem EventsFollow.of_port {s u : State} (h : u.port = s.port) : EventsFollow u s := ⟨[], by rw [h, List.append_nil]⟩

theorem State.handSendOnce_follows (s : State) (k : Key) : EventsFollow (s.handSendOnce k) s := by
  unfold State.handSendOnce
  split <;> exact .of_port rfl

theorem State.offerReceipt_follows (s : State) (k : Key) : EventsFollow (s.offerReceipt k) s := by
  unfold State.offerReceipt
  split <;> exact .of_port rfl

/-- Handing an entry on posts at most its OUTCOME (R12, R135). -/
theorem State.handOn_follows (s : State) (e : IntakeEntry) : EventsFollow (s.handOn e) s := by
  unfold State.handOn
  cases e.source with
  | evacuation p => exact .refl s
  | bus owed =>
    simp only
    split
    · exact s.offerReceipt_follows _
    · exact .refl s
  | localHost =>
    simp only [State.handLocal]
    split
    · exact .refl s
    · split
      · split
        · refine EventsFollow.trans ?_ (State.handSendOnce_follows _ _)
          exact State.post_follows _ _
        · exact .of_port rfl
      · exact .refl s

theorem EventsFollow.foldl {α : Type} {f : State → α → State} (hf : ∀ s a, EventsFollow (f s a) s) (l : List α) (s : State) :
    EventsFollow (l.foldl f s) s := by
  induction l generalizing s with
  | nil => exact .refl s
  | cons a rest ih => exact (hf s a).trans (ih (f s a))

/-- The lane events of a program follow those of its blocks, and precede the OUTCOME events and a halt (R47, R59). -/
theorem State.programCompletion_follows (s : State) (lanes : List PassLane) (results : Lane → PassResult) :
    ∃ retired, OfBlocks retired ∧ EventsFollow (s.programCompletion lanes results)
      ((retired ++ laneEvents s (s.programCompletion lanes results)).foldl State.post s) := by
  obtain ⟨retired, ofBlocks, port⟩ := (s.passEnded_landing lanes results).port
  have same : ∀ b, (s.programCompletion lanes results).block b = (s.passEnded lanes results).block b := fun b => by
    rw [(s.programCompletion_quiet lanes results).block, (State.haltIfDead_untouched _).block,
      (State.postLaneEvents_quiet s _).block]
  have told : (State.postLaneEvents s (s.passEnded lanes results)).port =
      ((retired ++ laneEvents s (s.programCompletion lanes results)).foldl State.post s).port := by
    rw [State.postLaneEvents_eq, laneEvents_congr same, List.foldl_append]
    exact foldl_post_port_congr _ port
  refine ⟨retired, ofBlocks, (EventsFollow.of_port told).trans ?_⟩
  exact (State.haltIfDead_aftermath _).events.trans (EventsFollow.foldl State.handOn_follows _ _)

/-- Settles O49: the lane events stand behind those of the blocks by the shape of a completion, and the halt is said once, as
Halts; nothing is handed on after it. -/
theorem theLastDeadLaneHaltsTheStation : Obligations.TheLastDeadLaneHaltsTheStation := by
  unfold Obligations.TheLastDeadLaneHaltsTheStation
  refine ⟨fun s mounted running once => ?_, fun s => ⟨fun lanes results program => ?_, fun blocks results erase => ?_⟩⟩
  · exact ⟨fun lanes results program => ⟨_, EndsIn.of_settle (exec_programComplete program results),
        fun dead => (State.programCompletion_halts lanes _ dead mounted running once).said once⟩,
      fun blocks results erase => ⟨_, EndsIn.of_settle (exec_eraseComplete erase results),
        fun dead => (State.eraseCompletion_halts blocks _ dead mounted running).said once⟩⟩
  · exact ⟨_, EndsIn.of_settle (exec_programComplete program results), s.programCompletion_follows lanes _⟩
  · refine ⟨_, EndsIn.of_settle (exec_eraseComplete erase results), _, retiredEvents_ofBlocks _,
      s.eraseCompletion_follows blocks _, fun alive => ?_⟩
    have port := congrArg State.port (s.eraseCompletion_unhalted blocks _ (.inl alive))
    exact port

end Sys2Proof.Machine
end


section
namespace Sys2Proof.Machine

/-! ### What the reclaimer sees of a lane -/

/-- Two stations alike in one lane, as the reclaimer sees it: its row, its blocks, and what is pinned (R60, R61). -/
structure SameLane (l : Lane) (s u : State) : Prop where
  lane : u.lane l = s.lane l
  block : ∀ b, laneOf b = l → u.block b = s.block b
  pinned : ∀ b, u.pinned b = s.pinned b

theorem SameLane.refl (l : Lane) (s : State) : SameLane l s s := ⟨rfl, fun _ _ => rfl, fun _ => rfl⟩

theorem SameLane.trans {l : Lane} {s t u : State} (h : SameLane l s t) (k : SameLane l t u) : SameLane l s u :=
  ⟨k.lane.trans h.lane, fun b hb => (k.block b hb).trans (h.block b hb), fun b => (k.pinned b).trans (h.pinned b)⟩

/-- The FREE blocks of a lane and those awaiting erase: the sum of R60. -/
def State.supply (s : State) (l : Lane) : Nat := (s.freePool l).length + s.awaitingErase l

theorem State.low_iff (s : State) (l : Lane) : s.low l = true ↔ s.supply l < 2 := by
  simp [State.low, State.supply, Config.lowWater]

theorem State.eased_iff (s : State) (l : Lane) :
    s.eased l = true ↔ s.low l = false ∨ (s.lane l).freeThen < (s.freePool l).length := by
  simp [State.eased]

/-- The oldest SEALED block of the lane (R60). -/
def State.Oldest (s : State) (l : Lane) (b : BlockId) : Prop :=
  laneOf b = l ∧ ∃ chain, s.block b = .sealed chain ∧
    ∀ b' chain', laneOf b' = l → s.block b' = .sealed chain' → chain ≤ chain'

/-- A candidate that goes on waiting (R61). -/
def State.Waits (s : State) (l : Lane) : Prop := ∀ b, (s.lane l).candidate = some b →
  s.pinned b = true ∧ s.low l = true ∧ (s.freePool l).length ≤ (s.lane l).freeThen

theorem State.eased_eq_false_iff (s : State) (l : Lane) :
    s.eased l = false ↔ s.low l = true ∧ (s.freePool l).length ≤ (s.lane l).freeThen := by
  simp [State.eased]

/-- A lane whose candidate goes on waiting is not eased (R65). -/
theorem State.Waits.uneased {s : State} {l : Lane} (h : s.Waits l) {b : BlockId} (candidate : (s.lane l).candidate = some b) :
    s.eased l = false :=
  (s.eased_eq_false_iff l).mpr (h b candidate).2

/-- A candidate still pinned, of a lane that is not eased, goes on waiting (R61). -/
theorem State.Waits.of_pinned {s : State} {l : Lane} {b : BlockId} (candidate : (s.lane l).candidate = some b)
    (uneased : s.eased l = false) (pinned : s.pinned b = true) : s.Waits l := by
  intro c hc
  obtain rfl : b = c := Option.some.inj (candidate.symm.trans hc)
  exact ⟨pinned, (s.eased_eq_false_iff l).mp uneased⟩

/-- The oldest SEALED block, pinned, that a low lane has as its candidate with the FREE count of the moment (R60, R61). -/
def State.Chosen (s : State) (l : Lane) (b : BlockId) : Prop :=
  s.pinned b = true ∧ s.low l = true ∧ (s.lane l).freeThen = (s.freePool l).length ∧ s.Oldest l b

theorem SameLane.freePool {l : Lane} {s u : State} (h : SameLane l s u) : u.freePool l = s.freePool l :=
  List.filter_congr fun b hb => by rw [h.block b (mem_laneBlocks.mp hb)]

theorem SameLane.awaitingErase {l : Lane} {s u : State} (h : SameLane l s u) : u.awaitingErase l = s.awaitingErase l :=
  congrArg List.length (List.filter_congr fun b hb => by rw [h.block b (mem_laneBlocks.mp hb)])

theorem SameLane.supply {l : Lane} {s u : State} (h : SameLane l s u) : u.supply l = s.supply l := by
  rw [State.supply, h.freePool, h.awaitingErase, State.supply]

theorem SameLane.low {l : Lane} {s u : State} (h : SameLane l s u) : u.low l = s.low l := by
  rw [Bool.eq_iff_iff, State.low_iff, State.low_iff, h.supply]

theorem SameLane.eased {l : Lane} {s u : State} (h : SameLane l s u) : u.eased l = s.eased l := by
  rw [State.eased, State.eased, h.low, h.lane, h.freePool]

theorem SameLane.oldest {l : Lane} {s u : State} (h : SameLane l s u) {b : BlockId} (k : s.Oldest l b) : u.Oldest l b := by
  obtain ⟨lane, chain, sealed, least⟩ := k
  exact ⟨lane, chain, (h.block b lane).trans sealed, fun b' chain' hb' hs => least b' chain' hb' ((h.block b' hb').symm.trans hs)⟩

theorem SameLane.chosen {l : Lane} {s u : State} (h : SameLane l s u) {b : BlockId} (k : s.Chosen l b) : u.Chosen l b := by
  obtain ⟨pinned, low, free, oldest⟩ := k
  exact ⟨(h.pinned b).trans pinned, h.low.trans low, by rw [h.lane, h.freePool, free], h.oldest oldest⟩

theorem SameLane.waits {l : Lane} {s u : State} (h : SameLane l s u) (k : s.Waits l) : u.Waits l := by
  intro b candidate
  rw [h.lane] at candidate
  rw [h.pinned, h.low, h.freePool, h.lane]
  exact k b candidate

theorem State.Chosen.waits {s : State} {l : Lane} {b : BlockId} (h : s.Chosen l b) (candidate : (s.lane l).candidate = some b) :
    s.Waits l := by
  obtain ⟨pinned, low, free, -⟩ := h
  intro c hc
  obtain rfl : b = c := Option.some.inj (candidate.symm.trans hc)
  exact ⟨pinned, low, free.ge⟩

/-- What oldestSealed finds (R60): the block with the lowest chain number, and nothing only in a lane without a SEALED one. -/
theorem State.oldestSealed_spec (s : State) (l : Lane) :
    (s.oldestSealed l = none ∧ ∀ b, laneOf b = l → ¬ s.isSealed b) ∨ ∃ b, s.oldestSealed l = some b ∧ s.Oldest l b := by
  have best := foldl_best (eligible := s.isSealed) (g := id)
    (better := fun a b => (s.block a).chainNumber < (s.block b).chainNumber)
    (f := fun best b => match s.block b with
      | .sealed chain =>
        match best with
        | none => some b
        | some o => if chain < (s.block o).chainNumber then some b else some o
      | _ => best)
    (fun _ _ _ => Nat.lt_trans)
    (fun best a open_ => by
      split
      · rename_i chain row
        exact absurd ⟨chain, row⟩ open_
      · rfl)
    (fun a ⟨chain, row⟩ => by simp [row])
    (fun o a ⟨chain, row⟩ => by
      have number : (s.block (id a)).chainNumber = chain := congrArg BlockRow.chainNumber row
      rw [number]
      by_cases less : chain < (s.block o).chainNumber
      · exact .inl ⟨by simp [row, less], less⟩
      · exact .inr ⟨by simp [row, less], less⟩)
    (fun _ => Nat.lt_irrefl _) (laneBlocks l)
  rcases best with ⟨e, none_⟩ | ⟨b, e, lane, ⟨chain, row⟩, least⟩
  · exact .inl ⟨e, fun b hb => none_ b (mem_laneBlocks.mpr hb)⟩
  · refine .inr ⟨b, e, mem_laneBlocks.mp lane, chain, row, fun b' chain' hb' row' => ?_⟩
    simpa [row, row', BlockRow.chainNumber] using least b' (mem_laneBlocks.mpr hb') ⟨chain', row'⟩

/-! ### What a purge and a choice change -/

theorem State.purge_block (s : State) (l : Lane) (b c : BlockId) :
    (s.purge l b).block c = if c = b then .erasing else s.block c :=
  State.block_setBlock _ b c .erasing

theorem State.purge_lane (s : State) (l m : Lane) (b : BlockId) :
    (s.purge l b).lane m = if m = l then { s.lane l with candidate := none } else s.lane m :=
  State.lane_setLane _ l m _

/-- The lane of a purge has no candidate (R62). -/
theorem State.purge_candidate (s : State) (l : Lane) (b : BlockId) : ((s.purge l b).lane l).candidate = none := by
  rw [State.purge_lane, if_pos rfl]

/-- A purge changes nothing of another lane (R62). -/
theorem State.purge_sameLane (s : State) {l m : Lane} (b : BlockId) (lane : laneOf b = l) (unpinned : s.pinned b = false)
    (other : m ≠ l) : SameLane m s (s.purge l b) where
  lane := by rw [State.purge_lane, if_neg other]
  block c hc := by rw [State.purge_block, if_neg]; rintro rfl; exact other (hc.symm.trans lane)
  pinned c := s.purge_pinned l b c unpinned

theorem State.setLane_sameLane (s : State) {l m : Lane} (r : LaneRow) (other : m ≠ l) : SameLane m s (s.setLane l r) where
  lane := by rw [State.lane_setLane, if_neg other]
  block _ _ := rfl
  pinned _ := rfl

/-- A predicate that holds of one more element of a list without duplicates. -/
theorem length_filter_add_one {α : Type} [DecidableEq α] {l : List α} (once : l.Nodup) {a : α} (mem : a ∈ l) {p q : α → Bool}
    (new : p a = false ∧ q a = true) (same : ∀ b, b ≠ a → q b = p b) : (l.filter q).length = (l.filter p).length + 1 := by
  have split : (l.filter q).Perm (a :: l.filter p) := by
    refine (List.perm_ext_iff_of_nodup (once.filter q) ?_).mpr fun b => ?_
    · exact List.nodup_cons.mpr ⟨by simp [new.1], once.filter p⟩
    · by_cases hb : b = a
      · subst hb
        simp [mem, new.2]
      · simp [hb, same b hb]
  simpa using split.length_eq

/-- The purge of a SEALED block gives the lane one block that awaits erase (R60, R62). -/
theorem State.purge_supply {s : State} {l : Lane} {b : BlockId} (lane : laneOf b = l) (sealed : s.isSealed b) :
    (s.purge l b).supply l = s.supply l + 1 := by
  obtain ⟨chain, row⟩ := sealed
  have free : (s.purge l b).freePool l = s.freePool l := List.filter_congr fun c _ => by
    rw [State.purge_block]
    split
    · rename_i hc
      subst hc
      simp [row]
    · rfl
  have awaiting : (s.purge l b).awaitingErase l = s.awaitingErase l + 1 :=
    length_filter_add_one (laneBlocks_nodup l) (mem_laneBlocks.mpr lane) (by simp [State.purge_block, row]) fun c hc => by
      simp only [State.purge_block, if_neg hc]
  rw [State.supply, free, awaiting, State.supply, Nat.add_assoc]

end Sys2Proof.Machine
end


section
namespace Sys2Proof.Machine

/-! ### What a lane without a candidate is given -/

/-- The blocks that a lane with no candidate gives, and the candidate it is left with (R60 to R62). -/
structure Given (l : Lane) (s u : State) : Prop where
  supply : s.supply l ≤ 2 → u.supply l ≤ 2
  given : ∀ b, laneOf b = l → u.block b ≠ s.block b → u.block b = .erasing ∧ s.pinned b = false ∧ s.low l = true ∧
    ∃ chain, s.block b = .sealed chain ∧
      ∀ b' chain', laneOf b' = l → s.block b' = .sealed chain' → chain ≤ chain' ∨ u.block b' = .erasing
  chosen : ∀ b, (u.lane l).candidate = some b → u.Chosen l b
  wanting : u.low l = true → (u.lane l).candidate = none → ∀ b, laneOf b = l → ¬ u.isSealed b

/-- The lane has enough, or nothing to give. -/
theorem Given.stop {l : Lane} {s : State} (none_ : (s.lane l).candidate = none)
    (enough : s.low l = true → ∀ b, laneOf b = l → ¬ s.isSealed b) : Given l s s where
  supply := id
  given _ _ changed := absurd rfl changed
  chosen b hb := by rw [none_] at hb; cases hb
  wanting low _ := enough low

/-- The oldest block is pinned, and waits as the candidate (R61). -/
theorem Given.choose {l : Lane} {s : State} {b : BlockId} (low : s.low l = true) (oldest : s.Oldest l b)
    (pinned : s.pinned b = true) :
    Given l s (s.setLane l { s.lane l with candidate := some b, freeThen := (s.freePool l).length }) where
  supply := id
  given _ _ changed := absurd rfl changed
  chosen c hc := by
    rw [State.lane_setLane, if_pos rfl] at hc
    obtain rfl : b = c := Option.some.inj hc
    refine ⟨pinned, low, ?_, oldest⟩
    rw [State.lane_setLane, if_pos rfl]
    rfl
  wanting _ hc := by
    rw [State.lane_setLane, if_pos rfl] at hc
    cases hc

/-- What has been given once a purge has been made and the lane given on: the block purged, and blocks given after it. -/
theorem Given.after_purge {l : Lane} {s u : State} {b : BlockId} (rest : Given l (s.purge l b) u) (low : s.low l = true)
    (lane : laneOf b = l) (sealed : s.isSealed b) (unpinned : s.pinned b = false) :
    u.block b = .erasing ∧ ∀ c, laneOf c = l → u.block c ≠ s.block c →
      u.block c = .erasing ∧ s.pinned c = false ∧ s.low l = true ∧ ∃ chain, s.block c = .sealed chain ∧
        (c = b ∨ ∀ b' chain', laneOf b' = l → s.block b' = .sealed chain' → chain ≤ chain' ∨ u.block b' = .erasing) := by
  have gone : u.block b = .erasing := by
    by_contra kept
    have changed : u.block b ≠ (s.purge l b).block b := by rwa [State.purge_block, if_pos rfl]
    exact kept (rest.given b lane changed).1
  refine ⟨gone, fun c hc changed => ?_⟩
  by_cases same : c = b
  · subst same
    obtain ⟨chain, row⟩ := sealed
    exact ⟨gone, unpinned, low, chain, row, .inl rfl⟩
  · have row : (s.purge l b).block c = s.block c := by rw [State.purge_block, if_neg same]
    obtain ⟨erasing, free, -, chain, sealed', least⟩ := rest.given c hc (by rwa [row])
    rw [s.purge_pinned l b c unpinned] at free
    refine ⟨erasing, free, low, chain, row.symm.trans sealed', .inr fun b' chain' hb' row' => ?_⟩
    by_cases first : b' = b
    · exact .inr (first ▸ gone)
    · exact least b' chain' hb' (by rw [State.purge_block, if_neg first, row'])

/-- The oldest block is purged, and the lane is tested again (R60, R62). -/
theorem Given.purge {l : Lane} {s u : State} {b : BlockId} (low : s.low l = true) (oldest : s.Oldest l b)
    (unpinned : s.pinned b = false) (rest : Given l (s.purge l b) u) : Given l s u where
  supply _ := rest.supply (by
    obtain ⟨lane, chain, row, -⟩ := oldest
    have few := (s.low_iff l).mp low
    rw [State.purge_supply lane ⟨chain, row⟩]
    omega)
  given c hc changed := by
    obtain ⟨lane, chain, row, least⟩ := oldest
    obtain ⟨-, given⟩ := rest.after_purge low lane ⟨chain, row⟩ unpinned
    obtain ⟨erasing, free, low, chain', row', origin⟩ := given c hc changed
    refine ⟨erasing, free, low, chain', row', ?_⟩
    rcases origin with rfl | next
    · obtain rfl : chain = chain' := BlockRow.sealed.inj (row.symm.trans row')
      exact fun b' chain' hb' hs => .inl (least b' chain' hb' hs)
    · exact next
  chosen := rest.chosen
  wanting := rest.wanting

/-- Two purges are enough to end the want of a lane (R60). -/
theorem State.reclaimNew_given (n : Nat) (s : State) (l : Lane) (none_ : (s.lane l).candidate = none)
    (bound : 2 ≤ n + s.supply l) : Given l s (State.reclaimNew n s l) := by
  induction n generalizing s with
  | zero =>
    refine Given.stop none_ fun low => ?_
    have few := (s.low_iff l).mp low
    omega
  | succ n ih =>
    unfold State.reclaimNew
    cases low : s.low l with
    | false => exact Given.stop none_ (by simp [low])
    | true =>
      simp only [none_, Option.isNone_none, Bool.and_self, if_true]
      rcases s.oldestSealed_spec l with ⟨e, nothing⟩ | ⟨b, e, oldest⟩
      · rw [e]
        exact Given.stop none_ fun _ => nothing
      · simp only [e]
        cases pinned : s.pinned b with
        | true =>
          rw [if_pos rfl]
          exact Given.choose low oldest pinned
        | false =>
          rw [if_neg nofun]
          obtain ⟨lane, chain, row, -⟩ := id oldest
          refine Given.purge low oldest pinned (ih _ (s.purge_candidate l b) ?_)
          rw [State.purge_supply lane ⟨chain, row⟩]
          omega

/-- A lane with a candidate gives nothing but by a test at a release (R61). -/
theorem State.reclaimNew_candidate (n : Nat) {s : State} {l : Lane} {c : BlockId} (candidate : (s.lane l).candidate = some c) :
    State.reclaimNew n s l = s := by
  cases n with
  | zero => rfl
  | succ n => simp [State.reclaimNew, candidate]

/-! ### The test again of a waiting candidate -/

theorem State.retest_eased {s : State} {l : Lane} {b : BlockId} (candidate : (s.lane l).candidate = some b)
    (eased : s.eased l = true) : s.retest l = s.setLane l { s.lane l with candidate := none } := by
  simp [State.retest, candidate, eased]

theorem State.retest_pinned {s : State} {l : Lane} {b : BlockId} (candidate : (s.lane l).candidate = some b)
    (eased : s.eased l = false) (pinned : s.pinned b = true) : s.retest l = s := by
  simp [State.retest, candidate, eased, pinned]

theorem State.retest_unpinned {s : State} {l : Lane} {b : BlockId} (candidate : (s.lane l).candidate = some b)
    (eased : s.eased l = false) (unpinned : s.pinned b = false) : s.retest l = s.purge l b := by
  simp [State.retest, candidate, eased, unpinned]

theorem State.retest_none {s : State} {l : Lane} (candidate : (s.lane l).candidate = none) : s.retest l = s := by
  simp [State.retest, candidate]

/-! ### The test of a lane, by what it finds -/

/-- What the reclaimer does with one lane (R60, R61, R65): no test; a candidate dropped; a candidate that goes on waiting; a
candidate purged, and the lane given on; a lane without candidate. -/
theorem reclaimLane_cases (released : Bool) (before s : State) (l : Lane) :
    (reclaimTests released before s l = false ∧ reclaimLane released before s l = s) ∨
    reclaimTests released before s l = true ∧
      ((∃ b, released = true ∧ (s.lane l).candidate = some b ∧ s.eased l = true ∧
          reclaimLane released before s l = s.setLane l { s.lane l with candidate := none }) ∨
        (∃ b, (s.lane l).candidate = some b ∧ (released = true → s.eased l = false ∧ s.pinned b = true) ∧
          reclaimLane released before s l = s) ∨
        (∃ b, released = true ∧ (s.lane l).candidate = some b ∧ s.eased l = false ∧ s.pinned b = false ∧
          reclaimLane released before s l = State.reclaimNew 2 (s.purge l b) l) ∨
        ((s.lane l).candidate = none ∧ reclaimLane released before s l = State.reclaimNew 2 s l)) := by
  cases tests : reclaimTests released before s l with
  | false => exact .inl ⟨rfl, reclaimLane_untested tests⟩
  | true =>
    refine .inr ⟨rfl, ?_⟩
    cases candidate : (s.lane l).candidate with
    | none =>
      refine .inr (.inr (.inr ⟨rfl, ?_⟩))
      simp [reclaimLane, State.drops, candidate, tests, State.retest_none candidate, Config.lowWater]
    | some b =>
      cases released with
      | false =>
        refine .inr (.inl ⟨b, rfl, nofun, ?_⟩)
        simp [reclaimLane, State.drops, tests, State.reclaimNew_candidate _ candidate]
      | true =>
        cases eased : s.eased l with
        | true =>
          refine .inl ⟨b, rfl, rfl, rfl, ?_⟩
          simp [reclaimLane, State.drops, candidate, eased, State.retest_eased candidate eased]
        | false =>
          cases pinned : s.pinned b with
          | true =>
            refine .inr (.inl ⟨b, rfl, fun _ => ⟨rfl, pinned⟩, ?_⟩)
            simp [reclaimLane, State.drops, eased, tests, State.retest_pinned candidate eased pinned,
              State.reclaimNew_candidate _ candidate]
          | false =>
            refine .inr (.inr (.inl ⟨b, rfl, rfl, rfl, pinned, ?_⟩))
            simp [reclaimLane, State.drops, eased, tests, State.retest_unpinned candidate eased pinned, Config.lowWater]

end Sys2Proof.Machine
end


section
namespace Sys2Proof.Machine

/-! ### What a test leaves alone -/

/-- A waiting candidate is a block of its lane. -/
def State.OwnCandidates (s : State) : Prop := ∀ l b, (s.lane l).candidate = some b → laneOf b = l

/-- A waiting candidate is SEALED (BlockLaw). -/
def State.SealedCandidates (s : State) : Prop := ∀ l b, (s.lane l).candidate = some b → s.isSealed b

/-- Purges in one lane, of its candidate or of SEALED blocks, and at the end perhaps a change of its row (R60 to R62). -/
inductive Serving (l : Lane) : State → State → Prop
  | done (s : State) : Serving l s s
  | purge {s u : State} (b : BlockId) (lane : laneOf b = l) (origin : (s.lane l).candidate = some b ∨ s.isSealed b)
      (unpinned : s.pinned b = false) (rest : Serving l (s.purge l b) u) : Serving l s u
  | row (s : State) (r : LaneRow) (candidate : ∀ b, r.candidate = some b → laneOf b = l ∧ s.isSealed b) :
      Serving l s (s.setLane l r)

theorem State.reclaimNew_serving (n : Nat) (s : State) (l : Lane) : Serving l s (State.reclaimNew n s l) := by
  induction n generalizing s with
  | zero => exact .done s
  | succ n ih =>
    unfold State.reclaimNew
    split
    · split
      · exact .done s
      · rename_i b found
        obtain ⟨lane, sealed⟩ := State.oldestSealed_some found
        split
        · exact .row s _ fun c hc => Option.some.inj hc ▸ ⟨lane, sealed⟩
        · rename_i pinned
          exact .purge b lane (.inr sealed) (Bool.not_eq_true _ ▸ pinned) (ih _)
    · exact .done s

theorem reclaimLane_serving (released : Bool) (before : State) {s : State} (own : s.OwnCandidates) (l : Lane) :
    Serving l s (reclaimLane released before s l) := by
  rcases reclaimLane_cases released before s l with ⟨-, e⟩ | ⟨-, ⟨b, -, -, -, e⟩ | ⟨b, -, -, e⟩ |
    ⟨b, -, candidate, -, unpinned, e⟩ | ⟨-, e⟩⟩ <;> rw [e]
  · exact .done s
  · exact .row s _ nofun
  · exact .done s
  · exact .purge b (own l b candidate) (.inl candidate) unpinned (State.reclaimNew_serving _ _ _)
  · exact State.reclaimNew_serving _ _ _

/-- No other lane changes (R60). -/
theorem Serving.sameLane {l m : Lane} {s u : State} (h : Serving l s u) (other : m ≠ l) : SameLane m s u := by
  induction h with
  | done s => exact .refl m s
  | purge b lane _ unpinned _ ih => exact (State.purge_sameLane _ b lane unpinned other).trans ih
  | row s r _ => exact s.setLane_sameLane r other

/-- The lane of a purge is left without a candidate, the others with theirs. -/
theorem State.candidate_of_purge {s : State} {l m : Lane} {b c : BlockId}
    (h : ((s.purge l b).lane m).candidate = some c) : m ≠ l ∧ (s.lane m).candidate = some c := by
  rw [State.purge_lane] at h
  split at h
  · cases h
  · rename_i other
    exact ⟨other, h⟩

theorem State.OwnCandidates.purge {s : State} (h : s.OwnCandidates) (l : Lane) (b : BlockId) : (s.purge l b).OwnCandidates :=
  fun m c hc => h m c (State.candidate_of_purge hc).2

theorem Serving.ownCandidates {l : Lane} {s u : State} (h : Serving l s u) (own : s.OwnCandidates) : u.OwnCandidates := by
  induction h with
  | done s => exact own
  | purge b _ _ _ _ ih => exact ih (own.purge _ b)
  | row s r candidate =>
    intro m c hc
    rw [State.lane_setLane] at hc
    split at hc
    · rename_i hm
      exact hm ▸ (candidate c hc).1
    · exact own m c hc

/-- What purges take out of the index and the Receipt List, and all that they change (R60, R62). -/
structure Reclaimed (s u : State) : Prop where
  shape : u = { s with
    index := u.index, receipts := u.receipts
    map := { s.map with blocks := u.map.blocks, lanes := u.map.lanes }
    sequencer := { s.sequencer with reclaimErases := u.sequencer.reclaimErases } }
  index : u.index = s.index.filter fun e => u.block e.2.block = s.block e.2.block
  receipts : u.receipts = s.receipts.filter fun k => ∀ e ∈ s.index, e.1 = k → u.block e.2.block = s.block e.2.block
  purged : ∀ b, u.block b ≠ s.block b → u.block b = .erasing ∧ s.isSealed b ∧ b ∈ u.sequencer.reclaimErases
  requests : ∀ b ∈ s.sequencer.reclaimErases, b ∈ u.sequencer.reclaimErases
  pinned : ∀ b, u.pinned b = s.pinned b

theorem Reclaimed.refl (s : State) : Reclaimed s s where
  shape := rfl
  index := by simp
  receipts := by simp
  purged _ changed := absurd rfl changed
  requests _ := id
  pinned _ := rfl

/-- A block stays through two changes exactly when it stays through both: an ERASING block is never one that was SEALED. -/
theorem Reclaimed.stays_iff {s t u : State} (h : Reclaimed s t) (k : Reclaimed t u) (b : BlockId) :
    u.block b = s.block b ↔ t.block b = s.block b ∧ u.block b = t.block b := by
  refine ⟨fun stays => ?_, fun ⟨first, second⟩ => second.trans first⟩
  by_cases first : t.block b = s.block b
  · exact ⟨first, stays.trans first.symm⟩
  · obtain ⟨erasing, ⟨chain, sealed⟩, -⟩ := h.purged b first
    have second : u.block b ≠ t.block b := by
      rw [stays]
      exact Ne.symm first
    obtain ⟨-, ⟨chain', sealed'⟩, -⟩ := k.purged b second
    rw [erasing] at sealed'
    cases sealed'

theorem Reclaimed.trans {s t u : State} (h : Reclaimed s t) (k : Reclaimed t u) : Reclaimed s u where
  shape := by
    have shape := k.shape
    rw [h.shape] at shape
    exact shape
  index := by
    rw [k.index, h.index, List.filter_filter]
    refine List.filter_congr fun e _ => ?_
    rw [Bool.eq_iff_iff]
    simp only [Bool.and_eq_true, decide_eq_true_eq, h.stays_iff k]
    exact and_comm
  receipts := by
    rw [k.receipts, h.receipts, List.filter_filter, h.index]
    refine List.filter_congr fun key _ => ?_
    rw [Bool.eq_iff_iff]
    simp only [Bool.and_eq_true, decide_eq_true_eq, List.mem_filter, h.stays_iff k]
    constructor
    · rintro ⟨second, first⟩ e he hk
      exact ⟨first e he hk, second e ⟨he, first e he hk⟩ hk⟩
    · intro both
      exact ⟨fun e he hk => (both e he.1 hk).2, fun e he hk => (both e he hk).1⟩
  purged b changed := by
    by_cases second : u.block b = t.block b
    · obtain ⟨erasing, sealed, request⟩ := h.purged b (second ▸ changed)
      exact ⟨second.trans erasing, sealed, k.requests b request⟩
    · obtain ⟨erasing, ⟨chain, sealed⟩, request⟩ := k.purged b second
      refine ⟨erasing, ⟨chain, ?_⟩, request⟩
      by_contra differs
      obtain ⟨erasing', -⟩ := h.purged b (by rwa [sealed, ne_comm])
      rw [erasing'] at sealed
      cases sealed
  requests b request := k.requests b (h.requests b request)
  pinned b := (k.pinned b).trans (h.pinned b)

theorem State.purge_reclaimed {s : State} {l : Lane} {b : BlockId} (sealed : s.isSealed b) (unpinned : s.pinned b = false) :
    Reclaimed s (s.purge l b) := by
  have stays : ∀ c, (s.purge l b).block c = s.block c ↔ c ≠ b := fun c => by
    obtain ⟨chain, row⟩ := sealed
    rw [State.purge_block]
    split
    · rename_i hc
      subst hc
      simp [row]
    · rename_i hc
      simp [hc]
  refine ⟨rfl, ?_, ?_, fun c changed => ?_, fun c => List.mem_append_left _, fun c => s.purge_pinned l b c unpinned⟩
  · show s.index.filter (fun e => e.2.block != b) = _
    refine List.filter_congr fun e _ => ?_
    rw [Bool.eq_iff_iff]
    simp [stays]
  · show s.receipts.filter (fun k => !((s.index.filter fun e => e.2.block == b).map fun e => e.1).contains k) = _
    refine List.filter_congr fun k _ => ?_
    rw [Bool.eq_iff_iff]
    simp only [Bool.not_eq_true', decide_eq_true_eq, stays, Bool.eq_false_iff, ne_eq, List.contains_iff_mem, List.mem_map,
      List.mem_filter, beq_iff_eq, not_exists, not_and]
    exact ⟨fun h e he hk hb => h e ⟨he, hb⟩ hk, fun h e he hk => h e he.1 hk he.2⟩
  · obtain rfl : c = b := by
      by_contra hc
      exact changed ((stays c).mpr hc)
    exact ⟨by rw [State.purge_block, if_pos rfl], sealed, List.mem_append_right _ (List.mem_singleton.mpr rfl)⟩

theorem State.setLane_reclaimed (s : State) (l : Lane) (r : LaneRow) : Reclaimed s (s.setLane l r) where
  shape := rfl
  index := (List.filter_eq_self.mpr fun _ _ => decide_eq_true rfl).symm
  receipts := (List.filter_eq_self.mpr fun _ _ => decide_eq_true fun _ _ _ => rfl).symm
  purged _ changed := absurd rfl changed
  requests _ := id
  pinned _ := rfl

theorem Serving.reclaimed {l : Lane} {s u : State} (h : Serving l s u) (candidates : s.SealedCandidates)
    (own : s.OwnCandidates) : Reclaimed s u ∧ u.SealedCandidates := by
  induction h with
  | done s => exact ⟨.refl s, candidates⟩
  | @purge s u b lane origin unpinned _ ih =>
    have step := State.purge_reclaimed (l := l) (origin.elim (candidates l b) id) unpinned
    have left : (s.purge l b).SealedCandidates := by
      intro m c hc
      obtain ⟨other, waits⟩ := State.candidate_of_purge hc
      obtain ⟨chain, row⟩ := candidates m c waits
      refine ⟨chain, ?_⟩
      rw [State.purge_block, if_neg, row]
      rintro rfl
      exact other ((own m c waits).symm.trans lane)
    obtain ⟨rest, sealed⟩ := ih left (own.purge l b)
    exact ⟨step.trans rest, sealed⟩
  | row s r candidate =>
    refine ⟨s.setLane_reclaimed l r, fun m c hc => ?_⟩
    rw [State.lane_setLane] at hc
    split at hc
    · exact (candidate c hc).2
    · exact candidates m c hc

/-! ### The rounds -/

/-- Tests of lanes: candidates stay blocks of their lanes, and a lane not tested stays. -/
theorem foldl_reclaimLane (released : Bool) (before : State) (lanes : List Lane) {s : State} (own : s.OwnCandidates) :
    (lanes.foldl (reclaimLane released before) s).OwnCandidates ∧
      ∀ l, l ∉ lanes → SameLane l s (lanes.foldl (reclaimLane released before) s) := by
  induction lanes generalizing s with
  | nil => exact ⟨own, fun l _ => .refl l s⟩
  | cons m rest ih =>
    have first := reclaimLane_serving released before own m
    obtain ⟨own', same⟩ := ih (first.ownCandidates own)
    refine ⟨own', fun l absent => ?_⟩
    rw [List.mem_cons, not_or] at absent
    exact (first.sameLane absent.1).trans (same l absent.2)

/-- Tests of lanes whose candidates are SEALED purge SEALED blocks alone. -/
theorem foldl_reclaimLane_reclaimed (released : Bool) (before : State) (lanes : List Lane) {s : State}
    (own : s.OwnCandidates) (sealed : s.SealedCandidates) : Reclaimed s (lanes.foldl (reclaimLane released before) s) ∧
      (lanes.foldl (reclaimLane released before) s).SealedCandidates := by
  induction lanes generalizing s with
  | nil => exact ⟨.refl s, sealed⟩
  | cons m rest ih =>
    have first := reclaimLane_serving released before own m
    obtain ⟨step, sealed'⟩ := first.reclaimed sealed own
    obtain ⟨after, sealed''⟩ := ih (first.ownCandidates own) sealed'
    exact ⟨step.trans after, sealed''⟩

/-- A round is, for each lane, the test of that lane and nothing else (R60). -/
theorem State.reclaimRound_split {s : State} (own : s.OwnCandidates) (released : Bool) (before : State) (l : Lane) :
    ∃ v, v.OwnCandidates ∧ SameLane l s v ∧ (s.SealedCandidates → v.SealedCandidates) ∧
      SameLane l (reclaimLane released before v l) (s.reclaimRound released before) := by
  obtain ⟨first, last, split⟩ := List.append_of_mem (List.mem_finRange l)
  have once := split ▸ List.nodup_finRange 4
  rw [List.nodup_append, List.nodup_cons] at once
  obtain ⟨-, ⟨notLast, -⟩, apart⟩ := once
  have notFirst : l ∉ first := fun h => apart l h l List.mem_cons_self rfl
  obtain ⟨own', same⟩ := foldl_reclaimLane released before first own
  have test := reclaimLane_serving released before own' l
  have rest := (foldl_reclaimLane released before last (test.ownCandidates own')).2 l notLast
  refine ⟨_, own', same l notFirst, fun sealed => (foldl_reclaimLane_reclaimed released before first own sealed).2, ?_⟩
  rw [State.reclaimRound, split, List.foldl_append, List.foldl_cons]
  exact rest

end Sys2Proof.Machine
end


section
namespace Sys2Proof.Machine

/-! ### What the reclaimer leaves of each lane -/

/-- What the tests of an event leave of a lane, tested or not, at a release or not (R60 to R62, R65). -/
structure Served (release tested : Prop) (l : Lane) (s u : State) : Prop where
  wanting : tested → (s.lane l).candidate = none ∨ s.eased l = false → u.low l = true → (u.lane l).candidate = none →
    ∀ b, laneOf b = l → ¬ u.isSealed b
  untested : ¬ tested → SameLane l s u
  dropped : release → ∀ b, (s.lane l).candidate = some b → s.eased l = true →
    (u.lane l).candidate = none ∧ ∀ b', laneOf b' = l → u.block b' = s.block b'
  given : ∀ b, laneOf b = l → u.block b ≠ s.block b → u.block b = .erasing ∧ s.pinned b = false ∧ s.low l = true ∧
    (∃ chain, s.block b = .sealed chain ∧ ((release ∧ (s.lane l).candidate = some b) ∨
      ∀ b' chain', laneOf b' = l → s.block b' = .sealed chain' → chain ≤ chain' ∨ u.block b' = .erasing)) ∧
    ∀ c, (s.lane l).candidate = some c → release ∧ laneOf c = l ∧ u.block c = .erasing
  supply : s.low l = true → u.supply l ≤ 2
  chosen : ∀ b, (u.lane l).candidate = some b → (s.lane l).candidate = some b ∨ u.Chosen l b
  waiting : release → u.Waits l

/-- Only the lane itself matters: others may change before and after it is served. -/
theorem Served.congr {release tested : Prop} {l : Lane} {s v w u : State} (h : SameLane l s v) (m : Served release tested l v w)
    (k : SameLane l w u) : Served release tested l s u where
  wanting test want low none_ b hb := by
    rintro ⟨chain, row⟩
    rw [k.lane] at none_
    refine m.wanting test ?_ (k.low ▸ low) none_ b hb ⟨chain, (k.block b hb).symm.trans row⟩
    rwa [h.lane, h.eased]
  untested test := (h.trans (m.untested test)).trans k
  dropped at_ b candidate eased := by
    obtain ⟨none_, stay⟩ := m.dropped at_ b (by rwa [h.lane]) (by rwa [h.eased])
    exact ⟨by rwa [k.lane], fun b' hb' => by rw [k.block b' hb', stay b' hb', h.block b' hb']⟩
  given b hb changed := by
    rw [k.block b hb, ← h.block b hb] at changed
    obtain ⟨erasing, unpinned, low, ⟨chain, row, origin⟩, before⟩ := m.given b hb changed
    rw [h.pinned] at unpinned
    rw [h.low] at low
    rw [h.block b hb] at row
    rw [h.lane] at origin before
    refine ⟨(k.block b hb).trans erasing, unpinned, low, ⟨chain, row, origin.imp_right fun least b' chain' hb' row' => ?_⟩,
      fun c hc => ?_⟩
    · rw [k.block b' hb']
      exact least b' chain' hb' ((h.block b' hb').trans row')
    · obtain ⟨at_, lane, gone⟩ := before c hc
      exact ⟨at_, lane, (k.block c lane).trans gone⟩
  supply low := k.supply ▸ m.supply (h.low.trans low)
  chosen b candidate := by
    rw [k.lane] at candidate
    exact (m.chosen b candidate).imp (fun same => by rwa [h.lane] at same) k.chosen
  waiting at_ := k.waits (m.waiting at_)

/-- A lane whose tests change nothing. -/
theorem Served.same {release tested : Prop} {l : Lane} {s : State} (waiting : release → s.Waits l)
    (wanting : tested → (s.lane l).candidate = none → s.low l = true → ∀ b, laneOf b = l → ¬ s.isSealed b) :
    Served release tested l s s where
  wanting test _ low none_ := wanting test none_ low
  untested _ := .refl l s
  dropped at_ b candidate eased := by
    rw [(waiting at_).uneased candidate] at eased
    cases eased
  given _ _ changed := absurd rfl changed
  supply low := ((s.low_iff l).mp low).le
  chosen _ := .inl
  waiting := waiting

/-- A tested lane without a candidate. -/
theorem Served.of_given {release tested : Prop} {l : Lane} {s u : State} (h : Given l s u) (test : tested)
    (none_ : (s.lane l).candidate = none) : Served release tested l s u where
  wanting _ _ := h.wanting
  untested untested := absurd test untested
  dropped _ b candidate := by rw [none_] at candidate; cases candidate
  given b hb changed := by
    obtain ⟨erasing, unpinned, low, chain, row, least⟩ := h.given b hb changed
    exact ⟨erasing, unpinned, low, ⟨chain, row, .inr least⟩, fun c hc => by rw [none_] at hc; cases hc⟩
  supply low := h.supply ((s.low_iff l).mp low).le
  chosen b candidate := .inr (h.chosen b candidate)
  waiting _ b candidate := (h.chosen b candidate).waits candidate b candidate

/-- A candidate dropped at a release (R61, R65). -/
theorem Served.drop {release tested : Prop} {l : Lane} {s : State} {b : BlockId} (test : tested)
    (candidate : (s.lane l).candidate = some b) (eased : s.eased l = true) :
    Served release tested l s (s.setLane l { s.lane l with candidate := none }) := by
  have none_ : ((s.setLane l { s.lane l with candidate := none }).lane l).candidate = none := by
    rw [State.lane_setLane, if_pos rfl]
  refine ⟨fun _ want => ?_, fun untested => absurd test untested, fun _ _ _ _ => ⟨none_, fun _ _ => rfl⟩,
    fun _ _ changed => absurd rfl changed, fun low => ((s.low_iff l).mp low).le, fun c hc => ?_, fun _ c hc => ?_⟩
  · rw [candidate, eased] at want
    rcases want with want | want <;> cases want
  · rw [none_] at hc
    cases hc
  · rw [none_] at hc
    cases hc

/-- A candidate purged at a release, and what its lane gives after it (R61, R62). -/
theorem Served.of_purge {release tested : Prop} {l : Lane} {s u : State} {b : BlockId} (at_ : release) (test : tested)
    (candidate : (s.lane l).candidate = some b) (eased : s.eased l = false) (unpinned : s.pinned b = false)
    (lane : laneOf b = l) (sealed : s.isSealed b) (h : Given l (s.purge l b) u) : Served release tested l s u := by
  obtain ⟨low, -⟩ := (s.eased_eq_false_iff l).mp eased
  obtain ⟨gone, given⟩ := h.after_purge low lane sealed unpinned
  refine ⟨fun _ _ => h.wanting, fun untested => absurd test untested, fun _ _ _ enough => ?_, fun c hc changed => ?_, fun _ => ?_,
    fun c hc => .inr (h.chosen c hc), fun _ c hc => (h.chosen c hc).waits hc c hc⟩
  · rw [eased] at enough
    cases enough
  · obtain ⟨erasing, free, low, chain, row, origin⟩ := given c hc changed
    refine ⟨erasing, free, low, ⟨chain, row, origin.imp_left ?_⟩, fun d hd => ?_⟩
    · rintro rfl
      exact ⟨at_, candidate⟩
    · obtain rfl : b = d := Option.some.inj (candidate.symm.trans hd)
      exact ⟨at_, lane, gone⟩
  · refine h.supply ?_
    have few := (s.low_iff l).mp low
    rw [State.purge_supply lane sealed]
    omega

/-- One test of one lane. -/
theorem reclaimLane_served (released : Bool) (before : State) {s : State} (l : Lane) (own : s.OwnCandidates)
    (sealed : s.SealedCandidates) :
    Served (released = true) (reclaimTests released before s l = true) l s (reclaimLane released before s l) := by
  rcases reclaimLane_cases released before s l with ⟨untested, e⟩ | ⟨tested, ⟨b, -, candidate, eased, e⟩ |
    ⟨b, candidate, waits, e⟩ | ⟨b, at_, candidate, eased, unpinned, e⟩ | ⟨none_, e⟩⟩ <;> rw [e]
  · rw [untested]
    refine Served.same (fun at_ => ?_) nofun
    simp [reclaimTests, at_] at untested
  · exact .drop tested candidate eased
  · refine Served.same (fun at_ => ?_) fun _ none_ => ?_
    · obtain ⟨uneased, pinned⟩ := waits at_
      exact .of_pinned candidate uneased pinned
    · rw [candidate] at none_
      cases none_
  · exact .of_purge at_ tested candidate eased unpinned (own l b candidate) (sealed l b candidate)
      (State.reclaimNew_given 2 _ l (s.purge_candidate l b) (Nat.le_add_right 2 _))
  · exact .of_given (State.reclaimNew_given 2 s l none_ (Nat.le_add_right 2 _)) tested none_

theorem Given.waits {l : Lane} {s u : State} (h : Given l s u) : u.Waits l := fun b hb => (h.chosen b hb).waits hb b hb

/-- A lane that does not want, and whose candidate goes on waiting, is left as it is. -/
theorem reclaimLane_idle (released : Bool) (before : State) {s : State} {l : Lane} (waits : s.Waits l)
    (idle : (s.lane l).candidate = none → s.low l = true → ∀ b, laneOf b = l → ¬ s.isSealed b) :
    reclaimLane released before s l = s := by
  rcases reclaimLane_cases released before s l with ⟨-, e⟩ | ⟨-, ⟨b, -, candidate, eased, -⟩ | ⟨b, -, -, e⟩ |
    ⟨b, -, candidate, -, unpinned, -⟩ | ⟨none_, e⟩⟩
  · exact e
  · rw [waits.uneased candidate] at eased
    cases eased
  · exact e
  · rw [(waits b candidate).1] at unpinned
    cases unpinned
  · rw [e]
    unfold State.reclaimNew
    cases low : s.low l with
    | false => rfl
    | true =>
      rcases s.oldestSealed_spec l with ⟨found, -⟩ | ⟨b, -, lane, chain, row, -⟩
      · simp [found]
      · exact absurd ⟨chain, row⟩ (idle none_ low b lane)

/-- The lanes that R60 names. -/
def Named (before s : State) (l : Lane) : Prop :=
  before.controller.state = .mounting ∨ ∃ b, laneOf b = l ∧ (before.block b).sameState (s.block b) = false

theorem reclaimTests_iff (released : Bool) (before s : State) (l : Lane) :
    reclaimTests released before s l = true ↔ released = true ∨ Named before s l := by
  simp [reclaimTests, Named, mem_laneBlocks, or_assoc]

theorem SameLane.named {l : Lane} {s u : State} (h : SameLane l s u) (before : State) : Named before u l ↔ Named before s l := by
  unfold Named
  refine or_congr_right (exists_congr fun b => and_congr_right fun hb => ?_)
  rw [h.block b hb]

theorem SameLane.reclaimTests {l : Lane} {s u : State} (h : SameLane l s u) (released : Bool) (before : State) :
    reclaimTests released before u l = reclaimTests released before s l := by
  rw [Bool.eq_iff_iff, reclaimTests_iff, reclaimTests_iff, h.named]

/-- One round. -/
theorem State.reclaimRound_served (released : Bool) (before : State) {s : State} (l : Lane) (own : s.OwnCandidates)
    (sealed : s.SealedCandidates) :
    Served (released = true) (released = true ∨ Named before s l) l s (s.reclaimRound released before) := by
  obtain ⟨v, own', start, sealed', rest⟩ := State.reclaimRound_split own released before l
  have served := Served.congr start (reclaimLane_served released before l own' (sealed' sealed)) rest
  rwa [start.reclaimTests, reclaimTests_iff] at served

/-- A round at a release that follows another serves each lane as if it came alone, or finds nothing left to do: a candidate
waits through the first round untouched, and a lane that the first has tested is left wanting nothing (log 13). -/
theorem State.reclaimRound_twice_served (before : State) {s : State} (l : Lane) (own : s.OwnCandidates)
    (sealed : s.SealedCandidates) :
    Served True True l s ((s.reclaimRound false before).reclaimRound true before) := by
  obtain ⟨v, own', start, sealed', rest⟩ := State.reclaimRound_split own false before l
  have all := foldl_reclaimLane_reclaimed false before (List.finRange 4) own sealed
  have owned := (foldl_reclaimLane false before (List.finRange 4) own).1
  have again := State.reclaimRound_served true before (s := s.reclaimRound false before) l owned all.2
  rw [eq_self, true_or] at again
  have alone : SameLane l v (reclaimLane false before v l) →
      Served True True l s ((s.reclaimRound false before).reclaimRound true before) := fun same =>
    Served.congr ((start.trans same).trans rest) again (.refl l _)
  rcases reclaimLane_cases false before v l with ⟨-, e⟩ | ⟨tested, ⟨_, nope, _⟩ | ⟨b, -, -, e⟩ | ⟨_, nope, _⟩ | ⟨none_, e⟩⟩
  · exact alone (by rw [e]; exact .refl l v)
  · cases nope
  · exact alone (by rw [e]; exact .refl l v)
  · cases nope
  · have first := State.reclaimNew_given 2 v l none_ (Nat.le_add_right 2 _)
    rw [← e] at first
    obtain ⟨v', -, start', -, rest'⟩ := State.reclaimRound_split owned true before l
    have between := rest.trans start'
    have idle : reclaimLane true before v' l = v' := by
      refine reclaimLane_idle true before (between.waits first.waits) fun none_ low b hb => ?_
      rintro ⟨chain, row⟩
      rw [between.lane] at none_
      exact first.wanting (between.low ▸ low) none_ b hb ⟨chain, (between.block b hb).symm.trans row⟩
    rw [idle] at rest'
    exact Served.congr start (.of_given first trivial none_) (between.trans rest')

end Sys2Proof.Machine
end


section
namespace Sys2Proof.Machine

/-! ### The reclaimer's tests of an event -/

/-- An entry kept by a filter is still the one found for its key. -/
theorem mapGet_filter_of_kept {κ α : Type} [DecidableEq κ] {m : List (κ × α)} {p : κ × α → Bool} {k : κ} {v : α}
    (found : mapGet m k = some v) (kept : p (k, v) = true) : mapGet (m.filter p) k = some v := by
  induction m with
  | nil => exact found
  | cons e rest ih =>
    unfold mapGet at found
    split at found
    · rename_i same
      cases found
      subst same
      simp [kept, mapGet]
    · rename_i other
      rw [List.filter_cons]
      split
      · simp [mapGet, other, ih found]
      · exact ih found

/-- A key stays located where it was exactly when the block of its location stays (R62). -/
theorem Reclaimed.located_iff {s u : State} (h : Reclaimed s u) {k : Key} {l : Loc} (found : s.locate k = some l) :
    u.locate k = some l ↔ u.block l.block = s.block l.block := by
  unfold State.locate at *
  constructor
  · intro stays
    have mem := mem_of_mapGet stays
    rw [h.index, List.mem_filter] at mem
    exact of_decide_eq_true mem.2
  · intro stays
    rw [h.index]
    exact mapGet_filter_of_kept found (decide_eq_true stays)

/-- A key that has moved has moved for good. -/
theorem Reclaimed.moved {s t u : State} (h : Reclaimed s t) (k : Reclaimed t u) {key : Key} {l : Loc}
    (found : s.locate key = some l) (moved : t.locate key ≠ some l) : u.locate key ≠ some l := by
  intro stays
  rw [(h.trans k).located_iff found, h.stays_iff k] at stays
  exact moved ((h.located_iff found).mpr stays.1)

/-- The tests of an event are made at a release, from without or from a purge of its own (R49, R61). -/
def AtRelease (released : Bool) (s u : State) : Prop := released = true ∨ ∃ k l, s.locate k = some l ∧ u.locate k ≠ some l

/-- All that the reclaimer does in an event, lane by lane (R60 to R62). -/
theorem State.reclaim_spec (released : Bool) (before : State) {s : State} (own : s.OwnCandidates)
    (sealed : s.SealedCandidates) : Reclaimed s (s.reclaim released before) ∧
      ∀ l, Served (AtRelease released s (s.reclaim released before))
        (AtRelease released s (s.reclaim released before) ∨ Named before s l) l s (s.reclaim released before) := by
  have round := foldl_reclaimLane_reclaimed released before (List.finRange 4) own sealed
  rcases s.reclaim_cases released before with ⟨e, once⟩ | ⟨rfl, moved, e⟩ <;> rw [e]
  · refine ⟨round.1, fun l => ?_⟩
    have release : AtRelease released s (s.reclaimRound released before) ↔ released = true := by
      refine ⟨fun h => h.elim id fun moved => ?_, .inl⟩
      rw [← keyMoved_iff] at moved
      exact once.elim id fun stays => absurd moved (by rw [stays]; nofun)
    rw [release]
    exact State.reclaimRound_served released before l own sealed
  · have owned := (foldl_reclaimLane false before (List.finRange 4) own).1
    have second := (foldl_reclaimLane_reclaimed true before (List.finRange 4) owned round.2).1
    refine ⟨round.1.trans second, fun l => ?_⟩
    obtain ⟨k, loc, found, gone⟩ := (keyMoved_iff _ _).mp moved
    have release : AtRelease false s ((s.reclaimRound false before).reclaimRound true before) :=
      .inr ⟨k, loc, found, round.1.moved second found gone⟩
    rw [eq_true release, true_or]
    exact State.reclaimRound_twice_served before l own sealed

/-! ### The releases of an event -/

theorem entryDone_iff (s u : State) : entryDone s u = true ↔ ∃ e ∈ s.tracker.entries, e.state.isLive = true ∧
    ∃ e' ∈ u.tracker.entries, e'.key = e.key ∧ (e'.state = .secured ∨ e'.state = .short) := by
  simp [entryDone, TrackerState.isDone_iff]

theorem answerGone_iff (s u : State) :
    answerGone s u = true ↔ ∃ a ∈ s.gap.answers, ∀ a' ∈ u.gap.answers, a'.key ≠ a.key := by
  simp [answerGone, State.answer]

theorem pinReleased_iff (s u : State) : pinReleased s u = true ↔
    entryDone s u = true ∨ answerGone s u = true ∨ keyMoved s u = true := by
  simp [pinReleased, or_assoc]

/-- An entry that is done in one state is done in the other. -/
def DoneStays (s u : State) : Prop := ∀ e ∈ s.tracker.entries, (e.state = .secured ∨ e.state = .short) →
  ∃ e' ∈ u.tracker.entries, e'.key = e.key ∧ (e'.state = .secured ∨ e'.state = .short)

theorem DoneStays.of_tracker {s u : State} (h : u.tracker = s.tracker) : DoneStays s u :=
  fun e he done => ⟨e, h ▸ he, rfl, done⟩

theorem DoneStays.trans {s t u : State} (h : DoneStays s t) (k : DoneStays t u) : DoneStays s u := by
  intro e he done
  obtain ⟨e', he', key', done'⟩ := h e he done
  obtain ⟨e'', he'', key'', done''⟩ := k e' he' done'
  exact ⟨e'', he'', key''.trans key', done''⟩

theorem State.finish_doneStays (s : State) (e : TrackerEntry) (secured damaged : Bool) :
    DoneStays s (s.finish e secured damaged) := by
  intro x hx done
  rw [State.finish_eq]
  refine ⟨_, List.mem_map.mpr ⟨x, hx, rfl⟩, ?_⟩
  split
  · exact ⟨rfl, by cases secured <;> simp⟩
  · exact ⟨rfl, done⟩

theorem State.shortDamaged_doneStays (s : State) (k : Key) : DoneStays s (s.shortDamaged k) := by
  unfold State.shortDamaged
  split
  · split
    · exact s.finish_doneStays _ _ _
    · exact .of_tracker rfl
  · exact .of_tracker rfl

theorem State.ownerAbsent_doneStays (s : State) (o : BufferOwner) : DoneStays s (s.ownerAbsent o) := by
  cases o with
  | tracker k => exact s.shortDamaged_doneStays k
  | answer k =>
    refine .of_tracker ?_
    show (s.removeAnswer k).tracker = s.tracker
    unfold State.removeAnswer
    split <;> rfl
  | sendOnce k => exact .of_tracker rfl

theorem State.giveBuffers_doneStays (n : Nat) (s : State) : DoneStays s (State.giveBuffers n s) := by
  induction n generalizing s with
  | zero => exact .of_tracker rfl
  | succ n ih =>
    unfold State.giveBuffers
    split
    · exact .of_tracker rfl
    · rename_i g _
      refine DoneStays.trans ?_ (ih (s.giveBuffer g.1 g.2))
      unfold State.giveBuffer
      split
      · exact s.ownerAbsent_doneStays g.2
      · exact .of_tracker rfl

theorem State.evacuate_doneStays (n : Nat) (s : State) : DoneStays s (State.evacuate n s) := by
  induction n generalizing s with
  | zero => exact .of_tracker rfl
  | succ n ih =>
    unfold State.evacuate
    split
    · exact .of_tracker rfl
    · split
      · split
        · exact .of_tracker rfl
        · rename_i r _
          exact DoneStays.trans (t := s.placeEvacuationRead r) (.of_tracker rfl) (ih _)
      · exact .of_tracker rfl

/-- A release of the event is still one when answers have been removed since and entries have become done (log 13). -/
theorem pinReleased_stays {s u v : State} (h : pinReleased s u = true) (done : DoneStays u v) (locate : ∀ k, v.locate k = u.locate k)
    (answers : v.gap.answers.Sublist u.gap.answers) : pinReleased s v = true := by
  rw [pinReleased_iff] at *
  rcases h with h | h | h
  · obtain ⟨e, he, live, e', he', key, done'⟩ := (entryDone_iff s u).mp h
    obtain ⟨e'', he'', key', done''⟩ := done e' he' done'
    exact .inl ((entryDone_iff s v).mpr ⟨e, he, live, e'', he'', key'.trans key, done''⟩)
  · obtain ⟨a, ha, gone⟩ := (answerGone_iff s u).mp h
    exact .inr (.inl ((answerGone_iff s v).mpr ⟨a, ha, fun a' ha' => gone a' (answers.subset ha')⟩))
  · obtain ⟨k, l, found, moved⟩ := (keyMoved_iff s u).mp h
    exact .inr (.inr ((keyMoved_iff s v).mpr ⟨k, l, found, by rwa [locate]⟩))

/-! ### The candidates after a release -/

/-- Every candidate is one of its lane's blocks, and goes on waiting (R61). -/
def State.AllWait (s : State) : Prop := s.OwnCandidates ∧ ∀ l, s.Waits l

theorem State.AllWait.congr {s u : State} (h : s.AllWait) (same : ∀ l, SameLane l s u) : u.AllWait :=
  ⟨fun l b hb => h.1 l b (by rwa [(same l).lane] at hb), fun l => (same l).waits (h.2 l)⟩

/-- A tested lane is left with a candidate that waits; so is one that had such a candidate. -/
theorem reclaimLane_waits (released : Bool) (before : State) {s : State} {l : Lane} (h : released = true ∨ s.Waits l) :
    (reclaimLane released before s l).Waits l := by
  rcases reclaimLane_cases released before s l with ⟨untested, e⟩ | ⟨-, ⟨b, -, -, -, e⟩ | ⟨b, candidate, waits, e⟩ |
    ⟨b, -, -, -, -, e⟩ | ⟨none_, e⟩⟩ <;> rw [e]
  · refine h.elim (fun at_ => ?_) id
    simp [reclaimTests, at_] at untested
  · intro c hc
    rw [State.lane_setLane, if_pos rfl] at hc
    cases hc
  · refine h.elim (fun at_ => ?_) id
    obtain ⟨uneased, pinned⟩ := waits at_
    exact .of_pinned candidate uneased pinned
  · exact (State.reclaimNew_given 2 _ l (s.purge_candidate l b) (Nat.le_add_right 2 _)).waits
  · exact (State.reclaimNew_given 2 s l none_ (Nat.le_add_right 2 _)).waits

theorem State.reclaimRound_allWait (released : Bool) (before : State) {s : State} (own : s.OwnCandidates)
    (h : released = true ∨ ∀ l, s.Waits l) : (s.reclaimRound released before).AllWait := by
  refine ⟨(foldl_reclaimLane released before _ own).1, fun l => ?_⟩
  obtain ⟨v, -, start, -, rest⟩ := State.reclaimRound_split own released before l
  exact rest.waits (reclaimLane_waits released before (h.imp_right fun waits => start.waits (waits l)))

theorem State.reclaim_allWait (released : Bool) (before : State) {s : State} (own : s.OwnCandidates)
    (h : released = true ∨ ∀ l, s.Waits l) : (s.reclaim released before).AllWait := by
  rcases s.reclaim_cases released before with ⟨e, -⟩ | ⟨rfl, -, e⟩ <;> rw [e]
  · exact State.reclaimRound_allWait released before own h
  · exact State.reclaimRound_allWait true before (State.reclaimRound_allWait false before own h).1 (.inl rfl)

/-- A candidate goes on waiting when its lane has no more FREE blocks and no greater sum than before. -/
theorem State.AllWait.of_fewer {s u : State} (h : s.AllWait) (lane : ∀ l, (u.lane l).candidate = (s.lane l).candidate ∧
    (u.lane l).freeThen = (s.lane l).freeThen) (pinned : ∀ b, u.pinned b = s.pinned b)
    (fewer : ∀ l, (u.freePool l).length ≤ (s.freePool l).length ∧ u.awaitingErase l ≤ s.awaitingErase l) : u.AllWait := by
  refine ⟨fun l b hb => h.1 l b (by rwa [(lane l).1] at hb), fun l b hb => ?_⟩
  rw [(lane l).1] at hb
  obtain ⟨pin, low, few⟩ := h.2 l b hb
  have free := (fewer l).1
  have awaiting := (fewer l).2
  refine ⟨(pinned b).trans pin, ?_, by rw [(lane l).2]; omega⟩
  rw [State.low_iff, State.supply] at *
  omega

theorem State.openIfNeeded_allWait {s : State} (h : s.AllWait) (l : Lane) : (s.openIfNeeded l).AllWait := by
  rcases s.openIfNeeded_cases l with e | ⟨-, b, chain, header, next, draws, -, -, e⟩
  · rwa [e]
  · have row : ∀ c, (s.openIfNeeded l).block c = if c = b then .opened chain (some header) ⟨0, 0, 0⟩ else s.block c := by
      rw [e]
      exact fun c => State.block_setBlock s b c _
    refine h.of_fewer (fun m => by rw [e]; exact ⟨rfl, rfl⟩) (fun c => by rw [e]; rfl) fun m => ⟨?_, ?_⟩
    · refine (List.monotone_filter_right _ fun c => ?_).length_le
      rw [row]
      split <;> simp
    · refine (List.monotone_filter_right _ fun c => ?_).length_le
      rw [row]
      split <;> simp

theorem State.placePass_allWait {s : State} (h : s.AllWait) (lead : Lane) (lanes : List PassLane) :
    (s.placePass lead lanes).AllWait := by
  have blocks := s.block_placePass lead lanes
  refine h.of_fewer (fun m => ?_) (fun b => by rw [State.placePass_eq]; rfl) fun m => ?_
  · unfold State.placePass
    rw [State.lane_foldl_engage]
    split <;> exact ⟨rfl, rfl⟩
  · simp only [State.freePool, State.awaitingErase, blocks, le_refl, and_self]

theorem State.formAndReclaim_allWait {s : State} (h : s.AllWait) : s.formAndReclaim.AllWait := by
  have formed : s.formPass.AllWait := by
    rcases s.formPass_cases with e | ⟨lead, -, e | ⟨o, -, e⟩⟩ <;> rw [e]
    · exact h
    · exact State.openIfNeeded_allWait h lead
    · exact State.placePass_allWait (State.openIfNeeded_allWait h lead) lead _
  exact State.reclaim_allWait false s formed.1 (.inr formed.2)

theorem State.startNext_sameLane (s : State) (l : Lane) : SameLane l s s.startNext := by
  unfold State.startNext
  split
  · exact ⟨rfl, fun _ _ => rfl, fun _ => rfl⟩
  · exact .refl l s

theorem State.drainTest_sameLane (s : State) (l : Lane) : SameLane l s s.drainTest := by
  unfold State.drainTest
  split
  · exact ⟨rfl, fun _ _ => rfl, fun _ => rfl⟩
  · exact .refl l s

/-- The station as the reclaimer's tests of an event find it: reads placed and buffers given (R67, R102). -/
def State.given (s : State) : State :=
  State.giveBuffers (State.evacuate Config.evacuationPlaces s).giftBound (State.evacuate Config.evacuationPlaces s)

theorem State.given_quiet (s : State) : Quiet s s.given := (State.evacuate_quiet _ s).trans (State.giveBuffers_quiet _ _)

/-- A pin released before is released when the tests come (log 13). -/
theorem State.given_released {s u : State} (h : pinReleased s u = true) : pinReleased s u.given = true :=
  pinReleased_stays h ((State.evacuate_doneStays _ u).trans (State.giveBuffers_doneStays _ _)) u.given_quiet.locate
    ((State.evacuate_keep _ u).trans (State.giveBuffers_keep _ _)).answers

/-- After a release every candidate goes on waiting, whatever the workers do (R61). -/
theorem State.workers_allWait {s u : State} (released : pinReleased s u = true) (own : u.OwnCandidates) :
    (State.workers s u).AllWait := by
  have tested : (u.given.reclaim (pinReleased s u.given) s).AllWait :=
    State.reclaim_allWait _ s (fun l b hb => own l b (by rwa [u.given_quiet.lane] at hb)) (.inl (State.given_released released))
  exact (State.formAndReclaim_allWait ((State.formAndReclaim_allWait tested).congr
    (State.startNext_sameLane _))).congr (State.drainTest_sameLane _)

/-- Settles O46: each lane is served as `Served` says, and what is common to all of them is `Reclaimed`; a release leaves every
candidate waiting, and the workers after it keep that. -/
theorem theReclaimerPurgesTheOldest : Obligations.TheReclaimerPurgesTheOldest := by
  unfold Obligations.TheReclaimerPurgesTheOldest
  refine ⟨fun s before released law => ?_, fun s l b candidate => ⟨fun eased => ?_, fun uneased pinned => ?_,
    fun uneased unpinned => ?_⟩, fun s u => ?_, fun s u free mounted released own => ?_⟩
  · have own : s.OwnCandidates := fun l b h => (law l b h).1
    have sealed : s.SealedCandidates := fun l b h => (law l b h).2
    obtain ⟨all, served⟩ := State.reclaim_spec released before own sealed
    refine ⟨fun l tested want low none_ b chain lane row => ?_, fun l untested => ?_, fun l b release candidate eased => ?_,
      all.index, all.receipts, fun b changed => ?_, fun l low => (served l).supply low, fun l b => (served l).chosen b,
      fun release l => (served l).waiting release, all.shape⟩
    · refine (served l).wanting tested (want.imp_right fun uneased => ?_) low none_ b lane ⟨chain, row⟩
      exact Bool.eq_false_of_not_eq_true (mt (s.eased_iff l).mp uneased)
    · have same := (served l).untested untested
      exact ⟨same.lane, same.block⟩
    · exact (served l).dropped release b candidate ((s.eased_iff l).mpr eased)
    · obtain ⟨erasing, unpinned, low, origin, waited⟩ := (served (laneOf b)).given b rfl changed
      obtain ⟨-, -, request⟩ := all.purged b changed
      refine ⟨erasing, request, unpinned, low, origin, fun c candidate => ?_⟩
      obtain ⟨release, -, gone⟩ := waited c candidate
      exact ⟨release, gone⟩
  · exact State.retest_eased candidate ((s.eased_iff l).mpr eased)
  · exact State.retest_pinned candidate (Bool.eq_false_of_not_eq_true (mt (s.eased_iff l).mp uneased)) pinned
  · rw [State.retest_unpinned candidate (Bool.eq_false_of_not_eq_true (mt (s.eased_iff l).mp uneased)) unpinned]
    exact ⟨by rw [State.purge_block, if_pos rfl], s.purge_candidate l b⟩
  · rw [pinReleased_iff, entryDone_iff, answerGone_iff, keyMoved_iff]
  · have runs : State.settle s u = State.workers s u := by simp [State.settle, free, mounted]
    rw [runs]
    exact (State.workers_allWait released own).2

end Sys2Proof.Machine
end


section
/-! PROOFS of the family of 04_mounting.md. First what taking a request answers (R173) and which messages fit each kind (R186),
each said once; then the two statements, about the port's refusals and about CONFIGURE. -/

namespace Sys2Proof.Machine

/-! ### Requests taken (R173) -/

theorem State.taken_none {α : Type} {s : State} (collecting : s.port.state = .collecting) (handle : State → α → State) :
    s.taken none handle = s.refuse .malformed :=
  if_pos collecting

theorem State.taken_some {α : Type} {s : State} (collecting : s.port.state = .collecting) (x : α)
    (handle : State → α → State) :
    s.taken (some x) handle = if s.controller.state = .mounting then s.refuse .notReady else handle s x :=
  if_pos collecting

section
variable {α : Type} {s : State} {parsed : Option α} {handle : State → α → State}

/-- A message that does not fit its kind is MALFORMED in every station state. -/
theorem Taking.malformed (taking : Taking s) (misfit : ¬ parsed.isSome) :
    s.awake (fun s => s.taken parsed handle) = .next (s.refuse .malformed) := by
  rw [State.awake_free taking.1, Option.not_isSome_iff_eq_none.mp misfit, State.taken_none taking.2]

/-- While MOUNTING a request that fits its kind is NOT_READY. -/
theorem Taking.notReady (taking : Taking s) (mounting : s.controller.state = .mounting) (fits : parsed.isSome) :
    s.awake (fun s => s.taken parsed handle) = .next (s.refuse .notReady) := by
  obtain ⟨x, rfl⟩ := Option.isSome_iff_exists.mp fits
  rw [State.awake_free taking.1, State.taken_some taking.2, if_pos mounting]

/-- In any other station state the block that handles the request answers. -/
theorem Taking.handled (taking : Taking s) (mounted : s.controller.state ≠ .mounting) {x : α} (fits : parsed = some x) :
    s.awake (fun s => s.taken parsed handle) = .next (handle s x) := by
  rw [State.awake_free taking.1, fits, State.taken_some taking.2, if_neg mounted]

end

/-- STATUS, which MOUNTING does not refuse, is MALFORMED with a field (R84). -/
theorem exec_status_malformed {s : State} (taking : Taking s) {m : List Byte} (misfit : ¬ (parseNothing m).isSome) :
    exec (.status m) s = .next (s.refuse .malformed) := by
  simp [exec, execStatus, State.awake_free taking.1, taking.2, Option.not_isSome_iff_eq_none.mp misfit]

/-- A message whose code names no request is MALFORMED, and so is the empty one (R173). -/
theorem exec_unknownRequest_malformed {s : State} (taking : Taking s) {message : List Byte}
    (unknown : ∀ code ∈ message.head?, code ∉ requestCodes) :
    exec (.unknownRequest message) s = .next (s.refuse .malformed) := by
  cases message with
  | nil => simp [exec, execUnknownRequest, State.awake_free taking.1, taking.2]
  | cons code rest =>
    have nameless : code ∉ requestCodes := unknown code rfl
    simp [exec, execUnknownRequest, State.awake_free taking.1, taking.2, nameless]

/-! ### Messages that fit their kind (R186) -/

theorem parseConfigure_isSome_iff (m : List Byte) : (parseConfigure m).isSome ↔ m.length = 4 ∨ m.length = 7 := by
  match m with
  | [_, _, _, _] | [_, _, _, _, _, _, _] => simp [parseConfigure]
  | [] | [_] | [_, _] | [_, _, _] | [_, _, _, _, _] | [_, _, _, _, _, _] => simp [parseConfigure]
  | _ :: _ :: _ :: _ :: _ :: _ :: _ :: _ :: _ => simp [parseConfigure]

theorem parseNothing_isSome_iff (m : List Byte) : (parseNothing m).isSome ↔ m = [] := by
  cases m <;> simp [parseNothing]

theorem parseSubmit_isSome_iff (cls : Byte) (m : List Byte) :
    (parseSubmit (cls :: m)).isSome ↔ cls.toNat ≤ 3 ∧ 4 ≤ m.length ∧ m.length ≤ 259 := by
  match m with
  | [] | [_] | [_, _] | [_, _, _] => simp [parseSubmit]
  | _ :: _ :: _ :: _ :: payload =>
    simp only [parseSubmit, Option.isSome_ite, List.length_cons]
    omega

theorem parseKey_isSome_iff (m : List Byte) : (parseKey m).isSome ↔ m.length = 4 := by
  match m with
  | [_, _, _, _] => simp [parseKey]
  | [] | [_] | [_, _] | [_, _, _] => simp [parseKey]
  | _ :: _ :: _ :: _ :: _ :: _ => simp [parseKey]

theorem parseOrigin_isSome_iff (m : List Byte) : (parseOrigin m).isSome ↔ m.length = 1 := by
  match m with
  | [_] => simp [parseOrigin]
  | [] => simp [parseOrigin]
  | _ :: _ :: _ => simp [parseOrigin]

/-- A SUBMIT message has a class byte, a stamp of 4 bytes and a payload of at most 255. -/
theorem parseSubmit_misfit_of_length {m : List Byte} (h : m.length < 5 ∨ 260 < m.length) : ¬ (parseSubmit m).isSome := by
  cases m with
  | nil => simp [parseSubmit]
  | cons cls m =>
    rw [parseSubmit_isSome_iff]
    rw [List.length_cons] at h
    omega

/-! ### Requests by their codes, and the port's refusals -/

/-- A message whose first byte is none of the request codes is the request of no block (R173, R187). -/
theorem requestOf_unknown (left : Interruption) {code : Byte} (unknown : code ∉ requestCodes) (m : List Byte) :
    requestOf left (code :: m) = .unknownRequest (code :: m) := by
  simp only [requestCodes, List.mem_cons, List.not_mem_nil, or_false, not_or] at unknown
  simp only [requestOf, unknown, ↓reduceIte]

/-- Settles O10: a message that does not fit its kind by `Taking.malformed`, one that fits while MOUNTING by
`Taking.notReady`, and the codes one by one. -/
theorem thePortRefusesRequests : Obligations.ThePortRefusesRequests := by
  unfold Obligations.ThePortRefusesRequests
  refine ⟨fun s taking => ⟨?_, fun code rest unknown => ?_, fun m four seven => ?_, fun m left fields => ?_,
    fun m long => ?_, fun cls m high => ?_, fun m long => ?_, fun m long => ?_⟩,
    fun s taking mounting => ⟨fun m long => ?_, fun left => ?_, fun cls m low least most => ?_, fun m long => ?_,
    fun o => ?_⟩, fun left m => ?_⟩
  · exact exec_unknownRequest_malformed taking (by simp)
  · exact exec_unknownRequest_malformed taking fun _ first => Option.mem_some_iff.mp first ▸ unknown
  · exact taking.malformed (mt (parseConfigure_isSome_iff m).mp (not_or.mpr ⟨four, seven⟩))
  · have misfit := mt (parseNothing_isSome_iff m).mp fields
    exact ⟨taking.malformed misfit, taking.malformed misfit, taking.malformed misfit, taking.malformed misfit,
      exec_status_malformed taking misfit, taking.malformed misfit⟩
  · exact taking.malformed (parseSubmit_misfit_of_length long)
  · exact taking.malformed fun fits => absurd ((parseSubmit_isSome_iff cls m).mp fits).1 (Nat.not_le.mpr high)
  · have misfit := mt (parseKey_isSome_iff m).mp long
    exact ⟨taking.malformed misfit, taking.malformed misfit⟩
  · exact taking.malformed (mt (parseOrigin_isSome_iff m).mp long)
  · exact taking.notReady mounting ((parseConfigure_isSome_iff m).mpr long)
  · have fits := (parseNothing_isSome_iff []).mpr rfl
    exact ⟨taking.notReady mounting fits, taking.notReady mounting fits, taking.notReady mounting fits,
      taking.notReady mounting fits, taking.notReady mounting fits⟩
  · exact taking.notReady mounting ((parseSubmit_isSome_iff cls m).mpr ⟨low, least, most⟩)
  · have fits := (parseKey_isSome_iff m).mpr long
    exact ⟨taking.notReady mounting fits, taking.notReady mounting fits⟩
  · exact taking.notReady mounting ((parseOrigin_isSome_iff [o]).mpr rfl)
  · exact ⟨rfl, rfl, rfl, rfl, rfl, rfl, rfl, rfl, rfl, rfl, rfl, rfl, fun _ unknown => requestOf_unknown left unknown m⟩

/-! ### CONFIGURE -/

/-- next_seq is the largest of R82's three values: no less than each of them, and one of them. -/
theorem State.computeNextSeq_spec (s : State) (c : Configuration) :
    let q := s.computeNextSeq c
    (c.firstSeq.getD 1 ≤ q ∧ (∀ k l, (k, l) ∈ s.index → k.origin = c.stationId → k.seq < q) ∧
      ∀ f, stationGet s.scanner.floors c.stationId none = some f → f ≤ q) ∧
    (q = c.firstSeq.getD 1 ∨ q = 1 ∨ (∃ k l, (k, l) ∈ s.index ∧ k.origin = c.stationId ∧ q = k.seq + 1) ∨
      stationGet s.scanner.floors c.stationId none = some q) := by
  obtain ⟨bounds, attained⟩ := highestSeq_spec s.index c.stationId
  simp only [State.computeNextSeq]
  refine ⟨⟨by omega, fun k l held own => ?_, fun f floor => ?_⟩, ?_⟩
  · have := bounds (k, l) held own
    dsimp only at this
    omega
  · rw [floor, Option.getD_some]
    omega
  · rcases max_choice (c.firstSeq.getD 1) (max (highestSeq s.index c.stationId + 1)
        ((stationGet s.scanner.floors c.stationId none).getD 0)) with first | rest
    · exact .inl first
    rw [rest]
    rcases le_or_gt ((stationGet s.scanner.floors c.stationId none).getD 0) (highestSeq s.index c.stationId + 1)
      with highest | floor
    · rw [max_eq_left highest]
      rcases attained with none_ | ⟨⟨k, l⟩, held, own, seq⟩
      · exact .inr (.inl (by rw [none_]))
      · exact .inr (.inr (.inl ⟨k, l, held, own, by rw [← seq]⟩))
    · rw [max_eq_right floor.le]
      cases h : stationGet s.scanner.floors c.stationId none with
      | none => simp [h] at floor
      | some f => exact .inr (.inr (.inr rfl))

/-- What the block that handles CONFIGURE answers, outside MOUNTING (R109). -/
theorem exec_configure {s : State} (taking : Taking s) (mounted : s.controller.state ≠ .mounting) {fields : List Byte}
    {c : Configuration} (parsed : parseConfigure fields = some c) :
    exec (.configure fields) s = .next (if s.controller.state ≠ .idle then s.refuse .badState
      else if configurationInRange c then s.configured c else s.refuse .badParam) :=
  taking.handled mounted parsed

/-- Settles O16: the refusals by the branches of CONFIGURE, the bounds of next_seq by `State.computeNextSeq_spec`. -/
theorem configureStoresTheConfiguration : Obligations.ConfigureStoresTheConfiguration := by
  unfold Obligations.ConfigureStoresTheConfiguration
  intro s fields c taking parsed
  have idle_mounted (idle : s.controller.state = .idle) : s.controller.state ≠ .mounting := by simp [idle]
  refine ⟨fun elsewhere mounted => ?_, fun idle outside => ?_, fun idle inside => ?_⟩
  · rw [exec_configure taking mounted parsed, if_pos elsewhere]
    rfl
  · rw [exec_configure taking (idle_mounted idle) parsed, if_neg (not_not.mpr idle), outside]
    rfl
  · obtain ⟨⟨first, above, floor⟩, attained⟩ := s.computeNextSeq_spec c
    refine ⟨s.computeNextSeq c, ?_, first, above, floor, attained⟩
    rw [exec_configure taking (idle_mounted idle) parsed, if_neg (not_not.mpr idle), if_pos inside]
    rfl

end Sys2Proof.Machine
end


section
/-! PROOFS of the family of 05_the_journal_bus.md. First the line, what a frame in flight leaves behind, and what a ROLL sent
does; then the frames offered, the receipts counted, the buffers given, and the bytes of a frame, each with the statement it
settles. -/

namespace Sys2Proof.Machine

/-! ### Frames, gaps and the levels driven (R87 to R89) -/

/-- What the lines of a station that drives a frame carry: TXD the levels of the frame, bit time by bit time. -/
theorem State.txd_of_driving {s : State} {f : FrameInFlight} (driving : Driving s f) (n : Nat) :
    s.txd n = ((frameLevels f.frame)[n]?).getD .recessive := by
  obtain ⟨awake, sending, flight⟩ := driving
  simp [State.txd, State.dir, awake, sending, flight]

theorem State.dir_of_driving {s : State} {f : FrameInFlight} (driving : Driving s f) : s.dir = true := by
  simp [State.dir, driving.1, driving.2.1]

theorem State.dir_of_not_sending {s : State} (h : s.line.state ≠ .sending) : s.dir = false := by
  simp [State.dir, h]

/-- Bit time j of byte i, as TXD carries it while the frame is driven. -/
theorem State.txd_of_byte {s : State} {f : FrameInFlight} (driving : Driving s f) {i : Nat} {b : Byte}
    (byte_ : (frameBytes f.frame)[i]? = some b) {j : Nat} (inByte : j < 10) :
    s.txd (10 * i + j) = ((byteLevels b)[j]?).getD .recessive := by
  rw [State.txd_of_driving driving, frameLevels, flatMap_byteLevels_getElem? _ i b byte_ j inByte]

/-- Data bit j of a byte, counted from the most significant, stands in the bit time after the start bit and j others (R88). -/
theorem byteLevels_data (b : Byte) {j : Nat} (h : j < 8) : (byteLevels b)[1 + j]? = some (bitLevel (b.getLsbD (7 - j))) := by
  interval_cases j <;> rfl

/-- Settles O29: the line by its state, and TXD by the place of a bit time in its byte. -/
theorem gapsAndFrameStarts : Obligations.GapsAndFrameStarts := by
  unfold Obligations.GapsAndFrameStarts
  intro s awake
  have start : exec .frameStartHeard s = execFrameStartHeard s := rfl
  have gap : exec .gapEnd s = execGapEnd s := rfl
  rw [execFrameStartHeard, State.awake_free awake] at start
  rw [execGapEnd, State.awake_free awake] at gap
  rw [start, gap]
  refine ⟨fun off => ?_, fun idle => ?_, fun busy => ?_, fun ending => ?_, fun silent => ?_, fun f driving => ?_⟩
  · simp [off]
  · rcases idle with h | h <;> simp [h, State.lineAfter]
  · rcases busy with h | h | h <;> simp [h, State.lineAfter]
  · rcases ending with h | h <;> simp [h, State.lineAfter, Config.gapBits]
  · exact ⟨State.dir_of_not_sending silent, fun n => s.txd_of_not_dir n (State.dir_of_not_sending silent)⟩
  · refine ⟨State.dir_of_driving driving, fun i b byte_ => ⟨?_, ?_, fun j bit => ?_⟩⟩
    · exact State.txd_of_byte driving byte_ (j := 0) (by omega)
    · exact State.txd_of_byte driving byte_ (j := 9) (by omega)
    · rw [Nat.add_assoc, State.txd_of_byte driving byte_ (by omega), byteLevels_data b bit]
      rfl

/-! ### Frames that reach no block (R88, R93, R96) -/

theorem Reading.reads {s : State} (h : Reading s) : s.line.state.reads = true := by
  obtain ⟨-, off, seeking⟩ := h
  cases state : s.line.state <;> simp_all [LineState.reads]

/-- A frame counted as rejected, the reading of which ends in this line state (R96). -/
theorem State.countRejected_readingEnded (s : State) (state : LineState) (idle : Nat) :
    (s.readingEnded state idle).countRejected = { s with line := if s.line.state = .sending then
        { s.line with rejectedTotal := min 65535 (s.line.rejectedTotal + 1) }
      else { s.line with state := state, idle := idle, rejectedTotal := min 65535 (s.line.rejectedTotal + 1) } } := by
  by_cases sending : s.line.state = .sending <;>
    simp [State.countRejected, State.readingEnded, LineUnit.afterReading, sending, Config.countStop]

/-- A frame in range is heard: what it delivers acts on the line it leaves, unless it is under the own ID (R93, R96). -/
theorem State.hear_valid {s : State} {f : Frame} (reads : s.line.state.reads = true) (valid : frameInRange f = true)
    (deliver : State → State) : s.hear f deliver =
      if f.sender = s.ownId then { s with line := afterHeard s.line f }
      else deliver { s with line := afterHeard s.line f } := by
  simp only [State.hear, reads, valid, if_true]
  rfl

/-- What every command of hearing a frame is: the frame heard, with what its kind delivers. -/
theorem exec_heard (f : Frame) {s : State} (awake : s.held = false) : ∃ deliver, exec (heard f) s = .next (s.hear f deliver) := by
  obtain ⟨sender, body⟩ := f
  cases body <;> simp only [heard, exec, execReceiptReceived, execRequestReceived, execRepairRecordReceived,
    execRecordReceived, execRollReceived, State.awake_free awake] <;> exact ⟨_, rfl⟩

/-- Settles O22: the line after each reading, and a frame under the own ID delivers nothing. -/
theorem framesThatReachNoBlock : Obligations.FramesThatReachNoBlock := by
  unfold Obligations.FramesThatReachNoBlock
  refine ⟨fun s bytes reading => ?_, fun s f reading valid own => ?_⟩
  · have rejected (read : Reception) : exec (.frameRejected read) s = execFrameRejected read s := rfl
    simp only [execFrameRejected, State.awake_free reading.1, reading.reads, if_true] at rejected
    refine ⟨?_, ?_, fun why judged other => ?_⟩
    · rw [rejected]
      exact congrArg _ (s.countRejected_readingEnded _ _)
    · rw [rejected]
      exact congrArg _ (s.countRejected_readingEnded _ _)
    · rw [rejected]
      simp only [judged]
      refine congrArg _ (Eq.trans ?_ (s.countRejected_readingEnded .gap (endIdle bytes)))
      cases why with
      | framing => exact absurd rfl other
      | _ => rfl
  · obtain ⟨deliver, heard_⟩ := exec_heard f reading.1
    rw [heard_, State.hear_valid reading.reads valid, if_pos own]

end Sys2Proof.Machine
end


section
namespace Sys2Proof.Machine

/-! ### Frames lost and failed (R90 to R92) -/

theorem State.orphan_eq_some_iff {s : State} {f : FrameInFlight} (flight : s.line.inFlight = some f) {i : BufferNo} :
    s.orphan = some i ↔ Orphaned s f i := by
  obtain ⟨frame, owner⟩ := f
  simp only [State.orphan, flight, Orphaned]
  cases owner with
  | buffer j =>
    dsimp only
    split
    · rename_i o r loaded
      simp only [Option.some.injEq, FrameOwner.buffer.injEq]
      exact ⟨fun h => ⟨h, o, r, h ▸ loaded⟩, fun h => h.1⟩
    · rename_i other
      simp only [reduceCtorEq, FrameOwner.buffer.injEq, false_iff]
      rintro ⟨rfl, o, r, loaded⟩
      exact other o r loaded
  | receiptList | repairSlot | controller => simp

/-- A frame whose buffer keeps its claim, or that no buffer holds, leaves the line and nothing else. -/
theorem State.dropFrame_kept {before : State} {f : FrameInFlight} (flight : before.line.inFlight = some f)
    (kept : ∀ i, ¬ Orphaned before f i) (s : State) :
    State.dropFrame before s = { s with line := { s.line with inFlight := none } } := by
  have none_ : before.orphan = none := by
    rw [Option.eq_none_iff_forall_ne_some]
    exact fun i h => kept i ((State.orphan_eq_some_iff flight).mp h)
  simp only [State.dropFrame, none_]

/-- A frame whose buffer has lost its claim leaves the line, its buffer is emptied, and the workers act (R105). -/
theorem State.dropFrame_orphaned {before : State} {f : FrameInFlight} (flight : before.line.inFlight = some f)
    {i : BufferNo} (orphaned : Orphaned before f i) (s : State) : State.dropFrame before s = State.settle before
      { { s with line := { s.line with inFlight := none } } with
      transmit := { s.transmit with buffers := s.transmit.buffers.set i.val .empty i.isLt } } := by
  simp only [State.dropFrame, (State.orphan_eq_some_iff flight).mpr orphaned]
  rfl

/-- Whatever the buffer, the line stands as it was but for the frame. -/
theorem State.dropFrame_line (before s : State) :
    (State.dropFrame before s).line = { s.line with inFlight := none } := by
  unfold State.dropFrame
  simp only
  split
  · exact (State.settle_keep _ _).line
  · rfl

/-- A station that is not SENDING drives nothing. -/
theorem State.drives_nothing {s : State} (h : s.line.state ≠ .sending) : s.dir = false ∧ ∀ n, s.txd n = .recessive :=
  ⟨State.dir_of_not_sending h, fun n => s.txd_of_not_dir n (State.dir_of_not_sending h)⟩

/-- A transmit failure is counted, and the 16th in a run silences the station (R91, R92). -/
theorem State.countFailure_cases (s : State) : s.countFailure =
    let line := { s.line with
      failureRun := min 16 (s.line.failureRun + 1), failureTotal := min 65535 (s.line.failureTotal + 1) }
    if s.line.failureRun < 15 then { s with line := line }
    else State.post { s with line := { line with silenced := some (s.now + s.scaled 100000) } } .busSilenced := by
  have run : min 16 (s.line.failureRun + 1) = 16 ↔ ¬ s.line.failureRun < 15 := by omega
  by_cases short : s.line.failureRun < 15
  · simp [State.countFailure, Config.silenceRun, Config.countStop, run, short]
  · simp only [State.countFailure, Config.silenceRun, Config.countStop, run.mpr short, short, if_true, if_false]
    rfl

theorem exec_arbitrationLost {s : State} {f : FrameInFlight} (driving : Driving s f) :
    exec .arbitrationLost s = .next (State.dropFrame s (s.lineAfter .receiving 0)) := by
  show execArbitrationLost s = _
  rw [execArbitrationLost, State.awake_free driving.1, if_pos driving.2.1]

theorem exec_transmitFailure {s : State} {f : FrameInFlight} (driving : Driving s f) (idle : Nat) :
    exec (.transmitFailure idle) s = .next (State.dropFrame s (s.lineAfter .seeking (min 12 idle)).countFailure) := by
  show execTransmitFailure idle s = _
  rw [execTransmitFailure, State.awake_free driving.1, if_pos driving.2.1]
  rfl

theorem exec_silencedExpiry {s : State} {t : Nat} (awake : s.held = false) (silenced : s.line.silenced = some t) :
    exec .silencedExpiry s =
      .next (State.post { s.reach t with line := { s.line with silenced := none, failureRun := 0 } } .busResumed) := by
  show execSilencedExpiry s = _
  rw [execSilencedExpiry, State.awake_free awake, silenced]

/-- An update of the line and an event posted leave each other alone. -/
theorem State.post_with_line (s : State) (e : Event) (line : LineUnit) :
    { s.post e with line := line } = State.post { s with line := line } e := by
  rw [State.post_eq s, State.post_eq { s with line := line }, State.post_port_congr (s := { s with line := line }) (u := s) rfl]

/-- The station once a frame of its own has failed, but for the buffer of the frame (R91, R92). -/
def State.frameFailed (s : State) (idle : Nat) : State :=
  let line := { s.line with
    state := .seeking, idle := min 12 idle, inFlight := none, failureRun := min 16 (s.line.failureRun + 1)
    failureTotal := min 65535 (s.line.failureTotal + 1) }
  if s.line.failureRun < 15 then { s with line := line }
  else State.post { s with line := { line with silenced := some (s.now + s.scaled 100000) } } .busSilenced

theorem State.frameFailed_eq (s : State) (idle : Nat) {u : State}
    (counted : u = (s.lineAfter .seeking (min 12 idle)).countFailure) :
    { u with line := { u.line with inFlight := none } } = s.frameFailed idle := by
  rw [counted, State.countFailure_cases, State.frameFailed]
  by_cases short : s.line.failureRun < 15
  · simp only [State.lineAfter_line_failureRun, short, if_true]
    rfl
  · simp only [State.lineAfter_line_failureRun, short, if_false]
    rw [State.post_with_line, State.post_line]
    rfl

/-- Settles O31: the frame leaves the line by `State.dropFrame`, with or without a claimant of its buffer, and a failure is
counted on its way. -/
theorem lostAndFailedFrames : Obligations.LostAndFailedFrames := by
  unfold Obligations.LostAndFailedFrames
  refine ⟨fun s f driving => ?_, fun s f idle driving => ?_, fun s t awake silenced => exec_silencedExpiry awake silenced⟩
  · rw [exec_arbitrationLost driving]
    refine ⟨fun kept => ?_, fun i orphaned => .of_settle ?_, _, rfl, State.drives_nothing ?_⟩
    · rw [State.dropFrame_kept driving.2.2 kept]
      rfl
    · rw [State.dropFrame_orphaned driving.2.2 orphaned]
      rfl
    · rw [State.dropFrame_line]
      simp
  · rw [exec_transmitFailure driving]
    generalize failed : (s.lineAfter .seeking (min 12 idle)).countFailure = u
    have transmit : u.transmit = s.transmit := by
      rw [← failed, State.countFailure_eq]
      rfl
    refine ⟨fun kept => ?_, fun i orphaned => .of_settle ?_, _, rfl, State.drives_nothing ?_⟩
    · rw [State.dropFrame_kept driving.2.2 kept, s.frameFailed_eq idle failed.symm]
      rfl
    · rw [State.dropFrame_orphaned driving.2.2 orphaned, s.frameFailed_eq idle failed.symm, transmit]
      rfl
    · rw [State.dropFrame_line, ← failed, State.countFailure_eq]
      simp

end Sys2Proof.Machine
end


section
namespace Sys2Proof.Machine

/-! ### Frames sent (R100) -/

theorem State.driven_of_driving {s : State} {f : FrameInFlight} (driving : Driving s f) : s.driven = some f := by
  obtain ⟨-, sending, flight⟩ := driving
  simp [State.driven, sending, flight]

theorem exec_receiptTransmitted {s : State} {sender : Nat} {keys : List Key} {owner : FrameOwner}
    (driving : Driving s ⟨⟨sender, .receipt keys⟩, owner⟩) : exec .receiptTransmitted s = .next
      { s.sent ⟨sender, .receipt keys⟩ with receipts := s.receipts.filter fun k => !keys.contains k } := by
  show execReceiptTransmitted s = _
  rw [execReceiptTransmitted, State.awake_free driving.1, State.driven_of_driving driving]

theorem exec_requestTransmitted {s : State} {sender origin first span : Nat} {owner : FrameOwner}
    (driving : Driving s ⟨⟨sender, .request origin first span⟩, owner⟩) : exec .requestTransmitted s = .next
      { s.sent ⟨sender, .request origin first span⟩ with
        gap := { s.gap with slot := s.gap.slot.transmitted ⟨origin, first, span⟩ } } := by
  show execRequestTransmitted s = _
  rw [execRequestTransmitted, State.awake_free driving.1, State.driven_of_driving driving]

theorem exec_recordTransmitted {s : State} {sender : Nat} {r : Record} {i : BufferNo}
    (driving : Driving s ⟨⟨sender, .record r⟩, .buffer i⟩) : exec .recordTransmitted s = .next
      (State.settle s ((s.sent ⟨sender, .record r⟩).bufferSent i)) := by
  show execRecordTransmitted s = _
  rw [execRecordTransmitted, State.awake_free driving.1, State.driven_of_driving driving]

theorem exec_repairRecordTransmitted {s : State} {sender : Nat} {r : Record} {i : BufferNo}
    (driving : Driving s ⟨⟨sender, .repairRecord r⟩, .buffer i⟩) : exec .repairRecordTransmitted s = .next
      (State.settle s ((s.sent ⟨sender, .repairRecord r⟩).bufferSent i)) := by
  show execRepairRecordTransmitted s = _
  rw [execRepairRecordTransmitted, State.awake_free driving.1, State.driven_of_driving driving]

theorem exec_rollTransmitted {s : State} {sender k timingClass top : Nat} {st : RollState} {owner : FrameOwner}
    (driving : Driving s ⟨⟨sender, .roll st k timingClass top⟩, owner⟩) : exec .rollTransmitted s = .next
      ((s.sent ⟨sender, .roll st k timingClass top⟩).rollSent st) := by
  show execRollTransmitted s = _
  rw [execRollTransmitted, State.awake_free driving.1, State.driven_of_driving driving]

/-- Settles O32: what each of the two does besides ending its frame is one list, or one slot. -/
theorem receiptAndRequestTransmitted : Obligations.ReceiptAndRequestTransmitted := by
  unfold Obligations.ReceiptAndRequestTransmitted
  refine fun s sender owner => ⟨fun keys driving => ?_, fun origin first span driving => ?_⟩
  · have taken : (s.receipts.filter fun k => !keys.contains k) = s.receipts.filter fun k => k ∉ keys :=
      List.filter_congr fun k _ => by simp
    rw [exec_receiptTransmitted driving, taken]
    rfl
  · rw [exec_requestTransmitted driving]
    unfold RepairSlot.transmitted
    cases s.gap.slot <;> rfl

/-! ### A RECORD sent reaches its owner (R100, R105, R130, R166) -/

/-- The buffer of a RECORD sent whose claim has ended becomes EMPTY, and nobody is told (R105). -/
theorem State.bufferSent_unclaimed {s : State} {i : BufferNo} {o : BufferOwner} {r : Record}
    (loaded : s.buffer i = .loaded o r false) : s.bufferSent i = s.setBuffer i .empty := by
  simp [State.bufferSent, Buffer.heldBy, loaded]

/-- The buffer of a RECORD sent whose claim stands becomes EMPTY, and its owner is told (R100). -/
theorem State.bufferSent_claimed {s : State} {i : BufferNo} {o : BufferOwner} {r : Record}
    (loaded : s.buffer i = .loaded o r true) : s.bufferSent i = (s.setBuffer i .empty).ownerSent o := by
  simp [State.bufferSent, Buffer.heldBy, loaded]

/-- A LOADED tracker entry has one attempt more, and awaits receipts for one holder window (R130). -/
theorem State.ownerSent_tracker (s : State) (k : Key) : s.ownerSent (.tracker k) = { s with
    tracker := { s.tracker with entries := s.tracker.entries.map fun e =>
      if e.key = k ∧ e.state = .loaded then
        { e with attempts := e.attempts + 1, state := .awaiting (s.now + s.scaled 25000) }
      else e } } := by
  have entries : (fun e : TrackerEntry => if e.key = k then (if e.state = .loaded then
        { e with attempts := e.attempts + 1, state := .awaiting (s.now + s.scaled Config.holderWindow) } else e) else e) =
      fun e => if e.key = k ∧ e.state = .loaded then
        { e with attempts := e.attempts + 1, state := .awaiting (s.now + s.scaled 25000) } else e := by
    funext e
    by_cases hk : e.key = k <;> simp [hk, Config.holderWindow]
  simp only [State.ownerSent, State.updateEntry, entries]

/-- Claims that no buffer stands to lose leave every buffer as it is. -/
theorem State.endClaims_of_unclaimed {s : State} {o : BufferOwner} (h : ∀ i, (s.buffer i).endClaim o (s.onLine i) = s.buffer i) :
    s.endClaims o = s := by
  have same (i : BufferNo) : s.setBuffer i (s.buffer i) = s := by
    simp [State.setBuffer, State.buffer, Vector.get_eq_getElem]
  have other : (s.setBuffer 0 (s.buffer 0)).onLine 1 = s.onLine 1 := rfl
  simp only [State.endClaims, h 0, same, h 1]

/-- An answer entry is removed; where no buffer is claimed for it, nothing else changes (R166). -/
theorem State.removeAnswer_of_unclaimed {s : State} {k : Key}
    (h : ∀ i, (s.buffer i).endClaim (.answer k) (s.onLine i) = s.buffer i) :
    s.removeAnswer k = { s with gap := { s.gap with answers := s.gap.answers.filter fun a => a.key ≠ k } } := by
  have transmit : (s.removeAnswer k).transmit = s.transmit := by
    unfold State.removeAnswer
    split
    · rfl
    · have same := State.endClaims_of_unclaimed (s := { s with gap := { s.gap with
        answers := s.gap.answers.filter fun a => a.key ≠ k } }) (o := .answer k) h
      exact (congrArg State.transmit same :)
  rw [State.removeAnswer_eq, transmit]

/-- Settles O33: by the claim on the buffer, and by the owner that is told. -/
theorem recordTransmittedReachesItsOwner : Obligations.RecordTransmittedReachesItsOwner := by
  unfold Obligations.RecordTransmittedReachesItsOwner
  refine ⟨fun s sender r i driving => ?_, fun s sender r i driving => ?_⟩
  · rw [exec_recordTransmitted driving]
    generalize sent : s.sent ⟨sender, .record r⟩ = u
    have buffer : u.buffer i = s.buffer i := by rw [← sent]; rfl
    refine ⟨fun k r' loaded => .of_settle ?_, fun k r' loaded => .of_settle ?_, fun o r' loaded => .of_settle ?_⟩
    · rw [State.bufferSent_claimed (buffer.trans loaded), State.ownerSent_tracker, ← sent]
      rfl
    · rw [State.bufferSent_claimed (buffer.trans loaded), ← sent]
      rfl
    · rw [State.bufferSent_unclaimed (buffer.trans loaded), ← sent]
      rfl
  · rw [exec_repairRecordTransmitted driving]
    generalize sent : s.sent ⟨sender, .repairRecord r⟩ = u
    have buffer (j : BufferNo) : u.buffer j = s.buffer j := by rw [← sent]; rfl
    refine ⟨fun k r' loaded alone => .of_settle ?_, fun o r' loaded => .of_settle ?_⟩
    · have unclaimed (j : BufferNo) : ((u.setBuffer i .empty).buffer j).endClaim (.answer k) ((u.setBuffer i .empty).onLine j) =
          (u.setBuffer i .empty).buffer j := by
        have offLine : (u.setBuffer i .empty).onLine j = false := by rw [← sent]; rfl
        rw [offLine, State.buffer_setBuffer]
        split
        · rfl
        · rename_i other
          rw [buffer]
          exact alone j other
      rw [State.bufferSent_claimed ((buffer i).trans loaded), State.ownerSent, State.removeAnswer_of_unclaimed unclaimed, ← sent]
      rfl
    · rw [State.bufferSent_unclaimed ((buffer i).trans loaded), ← sent]
      rfl

/-! ### A holder window expires (R131) -/

/-- What the entry awaiting receipts becomes at the end of its window (R131, R135). -/
theorem exec_holderWindowExpiry {s : State} {seq d : Nat} {e : TrackerEntry} (awake : s.held = false)
    (entry : s.entry ⟨s.ownId, seq⟩ = some e) (awaiting : e.state = .awaiting d) :
    exec (.holderWindowExpiry seq) s = .next (State.settle s (if e.attempts < 4 then
      (s.reach d).updateEntry e.key fun e => { e with state := .queued } else (s.reach d).finish e false false)) := by
  show execHolderWindowExpiry seq s = _
  simp only [execHolderWindowExpiry, State.awake_free awake, entry, awaiting]
  rfl

/-- Settles O34: below 4 attempts the entry is QUEUED again, and at 4 it becomes done, as `State.finish_eq` says. -/
theorem holderWindowExpires : Obligations.HolderWindowExpires := by
  unfold Obligations.HolderWindowExpires
  intro s c seq d e awake config entry awaiting
  have own : s.ownId = c.stationId := by simp [State.ownId, config]
  obtain ⟨-, seq_⟩ : e.key.origin = c.stationId ∧ e.key.seq = seq := by
    have key : e.key = ⟨c.stationId, seq⟩ := by simpa using List.find?_some entry
    rw [key]
    exact ⟨rfl, rfl⟩
  rw [exec_holderWindowExpiry awake (own ▸ entry) awaiting]
  refine ⟨fun again => .of_settle ?_, fun last => ⟨(s.reach d).finish e false false, .of_settle ?_, ?_⟩⟩
  · rw [if_pos again]
    rfl
  · rw [if_neg (by omega)]
  · have released : Released ((s.reach d).finish e false false) s fun o => o == .tracker e.key := by
      rw [State.finish_eq]
      exact (s.reach d).endClaims_released (.tracker e.key)
    refine ⟨?_, ?_, ?_, ?_, ?_, ?_, ?_, ?_, ?_, ?_, ?_, released⟩ <;> rw [State.finish_eq]
    · rfl
    · simp
    · rw [seq_]
      exact State.post_port_congr (s := s) (u := s.reach d) rfl _
    all_goals rfl

/-! ### A ROLL sent (R113, R115) -/

theorem oweNothing_source (e : IntakeEntry) : (oweNothing e).source ≠ .bus true := by
  unfold oweNothing
  split
  · simp
  · rename_i other
    exact fun bus => other true bus

theorem oweNothing_record (e : IntakeEntry) : (oweNothing e).record = e.record := by
  unfold oweNothing
  split <;> rfl

/-- The station leaves the bus, field by field but for its buffers (R115, R148, R160). -/
theorem State.leaveBus_eq (s : State) : s.leaveBus = { s with
    controller := { s.controller with state := .ready, rollDue := none, rollTimer := none }
    receipts := []
    intake := s.intake.map oweNothing
    gap := { s.gap with answers := [], slot := .empty, timer := none }
    transmit := { s.transmit with buffers := s.leaveBus.transmit.buffers }
    port := (s.post .left).port } := by
  have posted (t : State) (port : t.port = s.port) : t.post .left = { t with port := (s.post .left).port } := by
    rw [State.post_eq, State.post_port_congr port]
  rw [State.leaveBus, posted]
  · rw [State.emptyAnswers_eq]
    rfl
  · rw [State.emptySlot_port, State.emptyAnswers_eq]

/-- The buffers of the answer entries are released (R115). -/
theorem State.leaveBus_released (s : State) : Released s.leaveBus s fun o => s.gap.answers.any fun a => o == .answer a.key := by
  have claims := State.endAllClaims_released { s with
    controller := { s.controller with state := .ready, rollDue := none, rollTimer := none }
    receipts := []
    intake := s.intake.map oweNothing
    gap := { s.gap with answers := [] } } (s.gap.answers.map fun a => BufferOwner.answer a.key)
  intro i
  have buffer := claims i
  simp only [List.any_map, Function.comp_def] at buffer
  simp only [State.leaveBus, State.buffer, State.post_transmit]
  exact buffer

/-! A ROLL sent, by the station state and the state it carries (R113). -/

section
variable {s : State}

theorem State.rollSent_joining (joining : s.controller.state = .joining) : s.rollSent .joining =
    State.post (State.nextRoll { s with controller := { s.controller with state := .active } }) .joined := by
  simp only [State.rollSent, joining]

theorem State.rollSent_active (active : s.controller.state = .active) : s.rollSent .active = s.nextRoll := by
  simp only [State.rollSent, active]

theorem State.rollSent_due (leaving : s.controller.state = .leaving) (due : s.controller.rollDue = some .active) :
    s.rollSent .active = s.nextRoll := by
  simp only [State.rollSent, leaving, due, if_true]

theorem State.rollSent_overtaken (leaving : s.controller.state = .leaving) (due : s.controller.rollDue = some .leaving) :
    s.rollSent .active = s := by
  simp [State.rollSent, leaving, due]

theorem State.rollSent_leaving (leaving : s.controller.state = .leaving) :
    s.rollSent .leaving = State.settle s s.leaveBus := by
  simp only [State.rollSent, leaving]

theorem State.rollSent_halted (halted : s.controller.state = .halted) : s.rollSent .leaving = s.setRoll none none := by
  simp only [State.rollSent, halted]

theorem State.rollSent_halted_other (halted : s.controller.state = .halted) {st : RollState} (other : st ≠ .leaving) :
    s.rollSent st = s := by
  cases st with
  | leaving => exact absurd rfl other
  | joining | active => simp only [State.rollSent, halted]

end

/-- Settles O19: by the station state and the state the ROLL carries. -/
theorem rollTransmittedActsOnTheState : Obligations.RollTransmittedActsOnTheState := by
  unfold Obligations.RollTransmittedActsOnTheState
  intro s sender k timingClass top st owner driving
  rw [exec_rollTransmitted driving]
  generalize sent : s.sent ⟨sender, .roll st k timingClass top⟩ = u
  have controller : u.controller = s.controller := by rw [← sent]; rfl
  rw [← controller]
  refine ⟨?_, ?_, ?_, ?_, ?_, ?_, ?_⟩
  · rintro joining rfl
    rw [State.rollSent_joining joining, ← sent]
    rfl
  · rintro active rfl
    rw [State.rollSent_active active, ← sent]
    rfl
  · rintro leaving rfl due
    rw [State.rollSent_due leaving due, ← sent]
    rfl
  · rintro leaving rfl due
    rw [State.rollSent_overtaken leaving due, ← sent]
    rfl
  · rintro leaving rfl
    refine ⟨u, u.leaveBus, .of_settle ?_, ?_⟩
    · rw [State.rollSent_leaving leaving]
    have released := u.leaveBus_released
    refine ⟨?_, ?_, ?_, ?_, ?_, ?_, ?_, ?_, ?_, ?_, fun i => ?_⟩
    · rw [State.leaveBus_eq]
    · rw [State.leaveBus_eq]
    · rw [State.leaveBus_eq, ← sent]
      rfl
    · rw [State.leaveBus_eq]
      rintro e he
      obtain ⟨x, -, rfl⟩ := List.mem_map.mp he
      exact oweNothing_source x
    · rw [State.leaveBus_eq, ← sent]
      simp [Function.comp_def, oweNothing_record]
    · rw [State.leaveBus_eq, ← sent]
      rfl
    · rw [State.leaveBus_eq, ← sent]
      rfl
    · rw [State.leaveBus_eq, ← sent]
      exact State.post_port_congr (s := s) (u := s.sent _) rfl _
    · rw [State.leaveBus_eq, ← sent]
      rfl
    · rw [State.leaveBus_eq, ← sent]
      rfl
    · have offLine : u.onLine i = false := by rw [← sent]; rfl
      rw [released i, offLine, ← sent]
      rfl
  · rintro halted rfl
    rw [State.rollSent_halted halted, ← sent]
    rfl
  · intro halted other
    rw [State.rollSent_halted_other halted other, ← sent]
    rfl

end Sys2Proof.Machine
end


section
namespace Sys2Proof.Machine

/-! ### The frames ready at an offer point (R98, R99, R108) -/

section
variable {s : State}

theorem State.onBus_iff : s.onBus = true ↔
    s.controller.state = .joining ∨ s.controller.state = .active ∨ s.controller.state = .leaving := by
  simp [State.onBus, or_assoc]

theorem State.onBus_of_sends (h : s.controller.state = .active ∨ s.controller.state = .leaving) :
    s.controller.state = .joining ∨ s.controller.state = .active ∨ s.controller.state = .leaving := .inr h

theorem State.loadedFor_eq_some_iff {i : BufferNo} {o : BufferOwner} {r : Record} :
    s.loadedFor i = some (o, r) ↔ s.buffer i = .loaded o r true := by
  unfold State.loadedFor
  split
  · rename_i loaded
    simp [loaded]
  · rename_i other
    simpa using other o r

/-- Order 1: a key of the Receipt List is ready on the bus. -/
theorem State.receiptReady_of_ready (onBus : s.onBus = true) (listed : s.receipts ≠ []) :
    s.receiptReady = some (s.ownFrame (.receipt (s.receipts.take 6)) .receiptList) := by
  simp [State.receiptReady, onBus, listed, Config.receiptKeys]

theorem State.receiptReady_eq_none (h : ¬ s.onBus = true ∨ s.receipts = []) : s.receiptReady = none := by
  rcases h with h | h <;> simp [State.receiptReady, h]

/-- Order 2: a request that is due is ready on the bus while a peer is PRESENT. -/
theorem State.requestReady_of_ready (onBus : s.onBus = true) {r : RepairRequest} {progress : Bool}
    (due : s.gap.slot = .due r progress) (present : s.somePresent = true) :
    s.requestReady = some (s.ownFrame (.request r.origin r.first r.span) .repairSlot) := by
  simp [State.requestReady, onBus, due, present]

theorem State.requestReady_eq_none
    (h : ¬ s.onBus = true ∨ (∀ r progress, s.gap.slot ≠ .due r progress) ∨ s.somePresent = false) :
    s.requestReady = none := by
  unfold State.requestReady
  split
  · rename_i r progress due
    rcases h with h | h | h
    · simp [h]
    · exact absurd due (h r progress)
    · simp [h]
  · rfl

theorem State.answerBuffer_loaded {k : Key} {i : BufferNo} {r : Record} (h : s.answerBuffer k = some (i, r)) :
    s.buffer i = .loaded (.answer k) r true := by
  obtain ⟨j, -, found⟩ := List.exists_of_findSome?_eq_some h
  split at found
  · rename_i o r' loaded
    split at found
    · rename_i answer
      obtain ⟨rfl, rfl⟩ := by simpa using found
      exact answer ▸ State.loadedFor_eq_some_iff.mp loaded
    · cases found
  · cases found

/-- The buffer of an answer entry, where it has but one. -/
theorem State.answerBuffer_of_loaded {k : Key} {i : BufferNo} {r : Record} (loaded : s.buffer i = .loaded (.answer k) r true)
    (alone : ∀ j r', s.buffer j = .loaded (.answer k) r' true → j = i) : s.answerBuffer k = some (i, r) := by
  have found : (s.answerBuffer k).isSome = true := by
    rw [State.answerBuffer, List.findSome?_isSome_iff]
    exact ⟨i, by match i with | 0 | 1 => simp, by simp [State.loadedFor_eq_some_iff.mpr loaded]⟩
  obtain ⟨⟨j, r'⟩, hj⟩ := Option.isSome_iff_exists.mp found
  have held := State.answerBuffer_loaded hj
  obtain rfl := alone j r' held
  rw [loaded] at held
  obtain rfl : r = r' := by simpa using held
  exact hj

/-- The RECORD LOADED for an answer entry, with the due time of the entry. -/
def State.answerLoaded (s : State) (a : AnswerEntry) : Option (Nat × BufferNo × Record) :=
  (s.answerBuffer a.key).map fun br => (a.dueAt, br)

theorem State.repairReady_eq : s.repairReady =
    if s.onBus then (leastBy (fun c : Nat × BufferNo × Record => c.1) (s.gap.answers.filterMap s.answerLoaded)).map
      fun c => s.ownFrame (.repairRecord c.2.2) (.buffer c.2.1)
    else none := rfl

theorem State.mem_answerLoaded {answers : List AnswerEntry} {c : Nat × BufferNo × Record}
    (h : c ∈ answers.filterMap s.answerLoaded) :
    ∃ b ∈ answers, c.1 = b.dueAt ∧ s.buffer c.2.1 = .loaded (.answer b.key) c.2.2 true := by
  obtain ⟨b, hb, found⟩ := List.mem_filterMap.mp h
  obtain ⟨br, hbr, rfl⟩ := Option.map_eq_some_iff.mp found
  exact ⟨b, hb, rfl, State.answerBuffer_loaded hbr⟩

/-- Order 3: the answer that is due first, of those whose RECORD is LOADED. -/
theorem State.repairReady_of_ready (onBus : s.onBus = true) {i : BufferNo} {r : Record} {a : AnswerEntry}
    {before after : List AnswerEntry} (answers : s.gap.answers = before ++ a :: after)
    (loaded : s.buffer i = .loaded (.answer a.key) r true)
    (alone : ∀ j r', s.buffer j = .loaded (.answer a.key) r' true → j = i)
    (earlier : ∀ b ∈ before, ∀ j r', s.buffer j = .loaded (.answer b.key) r' true → a.dueAt < b.dueAt)
    (later : ∀ b ∈ after, ∀ j r', s.buffer j = .loaded (.answer b.key) r' true → a.dueAt ≤ b.dueAt) :
    s.repairReady = some (s.ownFrame (.repairRecord r) (.buffer i)) := by
  have mine : s.answerLoaded a = some (a.dueAt, i, r) := by
    simp [State.answerLoaded, State.answerBuffer_of_loaded loaded alone]
  have first : leastBy (fun c : Nat × BufferNo × Record => c.1) (s.gap.answers.filterMap s.answerLoaded) =
      some (a.dueAt, i, r) := by
    rw [answers, List.filterMap_append, List.filterMap_cons_some mine]
    refine leastBy_split _ _ _ _ (fun c hc => ?_) fun c hc => ?_ <;>
      obtain ⟨b, hb, due, held⟩ := State.mem_answerLoaded hc <;> rw [due]
    · exact earlier b hb _ _ held
    · exact later b hb _ _ held
  rw [State.repairReady_eq, if_pos onBus, first]
  rfl

theorem State.repairReady_eq_none (h : ¬ s.onBus = true ∨ ∀ i k r, s.buffer i ≠ .loaded (.answer k) r true) :
    s.repairReady = none := by
  rcases h with h | h
  · simp [State.repairReady, h]
  · have unanswered (k : Key) : s.answerBuffer k = none := by
      rw [Option.eq_none_iff_forall_ne_some]
      exact fun c hc => h c.1 k c.2 (State.answerBuffer_loaded hc)
    simp [State.repairReady, unanswered, leastBy]

/-- The RECORD of a buffer, where origin work claims it. -/
def State.originLoaded (s : State) (i : BufferNo) : Option (BufferNo × Record) :=
  match s.loadedFor i with
  | some (o, r) => if o.isOrigin then some (i, r) else none
  | none => none

theorem State.originLoaded_eq_some_iff {i : BufferNo} {c : BufferNo × Record} : s.originLoaded i = some c ↔
    c.1 = i ∧ ∃ o, s.buffer i = .loaded o c.2 true ∧ ∀ k, o ≠ .answer k := by
  have isOrigin (o : BufferOwner) : o.isOrigin = true ↔ ∀ k, o ≠ .answer k := by cases o <;> simp [BufferOwner.isOrigin]
  obtain ⟨j, r⟩ := c
  simp only [← State.loadedFor_eq_some_iff, ← isOrigin, State.originLoaded]
  split
  · rename_i o r' loaded
    rw [loaded]
    constructor
    · intro h
      split at h
      · rename_i origin
        cases h
        exact ⟨rfl, o, rfl, origin⟩
      · cases h
    · rintro ⟨rfl, o', h, origin⟩
      cases h
      exact if_pos origin
  · rename_i none_
    simp [none_]

theorem State.recordReady_eq : s.recordReady =
    if s.controller.state = .active ∨ s.controller.state = .leaving then
      (leastBy (fun c : BufferNo × Record => c.2.key.seq) ([0, 1].filterMap s.originLoaded)).map
        fun c => s.ownFrame (.record c.2) (.buffer c.1)
    else none := rfl

/-- Order 4: of two RECORDs of origin work that are LOADED, the one of the lower seq. -/
theorem State.recordReady_of_ready (sends : s.controller.state = .active ∨ s.controller.state = .leaving) {i : BufferNo}
    {o : BufferOwner} {r : Record} (loaded : s.buffer i = .loaded o r true) (origin : ∀ k, o ≠ .answer k)
    (lowest : ∀ j o' r', j ≠ i → s.buffer j = .loaded o' r' true → r.key.seq < r'.key.seq) :
    s.recordReady = some (s.ownFrame (.record r) (.buffer i)) := by
  have mine : s.originLoaded i = some (i, r) := State.originLoaded_eq_some_iff.mpr ⟨rfl, o, loaded, origin⟩
  have others {j : BufferNo} (other : j ≠ i) {c : BufferNo × Record} (hc : c ∈ [j].filterMap s.originLoaded) :
      r.key.seq < c.2.key.seq := by
    obtain ⟨j', hj', found⟩ := List.mem_filterMap.mp hc
    obtain rfl := List.mem_singleton.mp hj'
    obtain ⟨-, o', held, -⟩ := State.originLoaded_eq_some_iff.mp found
    exact lowest j' o' c.2 other held
  have first : leastBy (fun c : BufferNo × Record => c.2.key.seq) ([0, 1].filterMap s.originLoaded) = some (i, r) := by
    match i with
    | 0 =>
      rw [List.filterMap_cons_some mine]
      exact leastBy_split _ [] _ _ (by simp) fun c hc => (others (j := 1) (by decide) hc).le
    | 1 =>
      rw [show ([0, 1] : List BufferNo) = [0] ++ [1] from rfl, List.filterMap_append, List.filterMap_cons_some mine]
      exact leastBy_split _ _ _ [] (fun c hc => others (j := 0) (by decide) hc) (by simp)
  rw [State.recordReady_eq, if_pos sends, first]
  rfl

theorem State.recordReady_eq_none (h : ¬ (s.controller.state = .active ∨ s.controller.state = .leaving) ∨
    ∀ i o r, s.buffer i = .loaded o r true → ∃ k, o = .answer k) : s.recordReady = none := by
  rw [State.recordReady_eq]
  rcases h with h | h
  · rw [if_neg h]
  · have unloaded : [0, 1].filterMap s.originLoaded = [] := by
      rw [List.filterMap_eq_nil_iff]
      refine fun i _ => Option.eq_none_iff_forall_ne_some.mpr fun c hc => ?_
      obtain ⟨-, o, loaded, origin⟩ := State.originLoaded_eq_some_iff.mp hc
      obtain ⟨k, answer⟩ := h i o c.2 loaded
      exact origin k answer
    rw [unloaded]
    simp [leastBy]

/-- The top seq a ROLL carries is the highest indexed seq of the origin (R99). -/
theorem highestSeq_eq {index : List (Key × Loc)} {origin top : Nat}
    (bounds : ∀ k l, (k, l) ∈ index → k.origin = origin → k.seq ≤ top)
    (attained : top = 0 ∨ ∃ l, (⟨origin, top⟩, l) ∈ index) : highestSeq index origin = top := by
  obtain ⟨above, held⟩ := highestSeq_spec index origin
  refine Nat.le_antisymm ?_ ?_
  · rcases held with zero | ⟨e, he, own, seq⟩
    · omega
    · exact seq ▸ bounds e.1 e.2 he own
  · rcases attained with rfl | ⟨l, hl⟩
    · exact Nat.zero_le _
    · exact above _ hl rfl

/-- Order 5: a ROLL that is due and that the station state allows. -/
theorem State.rollReady_of_ready {st : RollState} {c : Configuration} (config : s.controller.config = some c)
    (due : s.controller.rollDue = some st) (allowed : s.onBus = true ∨ (s.controller.state = .halted ∧ st = .leaving)) :
    s.rollReady = some (s.ownFrame (.roll st c.k c.timingClass (highestSeq s.index c.stationId)) .controller) := by
  have own : s.ownId = c.stationId := by simp [State.ownId, config]
  rcases allowed with onBus | ⟨halted, rfl⟩
  · simp [State.rollReady, config, due, onBus, own]
  · simp [State.rollReady, config, due, halted, own]

theorem State.rollReady_eq_none (h : s.controller.rollDue = none) : s.rollReady = none := by
  simp [State.rollReady, h]

/-- An offer point begins the frame that is offered (R89, R98). -/
theorem exec_offerPoint_of_offered (awake : s.held = false) (quiet : s.line.state = .quiet) {f : FrameInFlight}
    (offered : s.offered = some f) :
    exec .offerPoint s = .next { s with line := { s.line with state := .sending, idle := 0, inFlight := some f } } := by
  show execOfferPoint s = _
  rw [execOfferPoint, State.awake_free awake, if_pos quiet, offered]

/-- An offer point with nothing to offer leaves the state. -/
theorem exec_offerPoint_of_none (awake : s.held = false) (quiet : s.line.state = .quiet) (nothing : s.offered = none) :
    exec .offerPoint s = .next s := by
  show execOfferPoint s = _
  rw [execOfferPoint, State.awake_free awake, if_pos quiet, nothing]

/-- R98 in a line: the first of the five that is ready, and none while SILENCED stands. -/
theorem State.offered_eq (free : s.line.silenced = none) :
    s.offered = s.receiptReady.or (s.requestReady.or (s.repairReady.or (s.recordReady.or s.rollReady))) := by
  simp [State.offered, free]

theorem State.offered_silenced (silenced : s.line.silenced.isSome) : s.offered = none := by
  simp [State.offered, silenced]

end

/-- Settles O30: each of the five in its turn, the earlier ones not ready. -/
theorem offerPointsFollowTheOrder : Obligations.OfferPointsFollowTheOrder := by
  unfold Obligations.OfferPointsFollowTheOrder
  intro s awake quiet
  simp only [← State.onBus_iff]
  refine ⟨?_, ?_, ?_, ?_, ?_, ?_, ?_⟩
  · intro silenced
    exact exec_offerPoint_of_none awake quiet (State.offered_silenced silenced)
  · intro free onBus listed
    refine exec_offerPoint_of_offered awake quiet ?_
    rw [State.offered_eq free, State.receiptReady_of_ready onBus listed]
    rfl
  · intro r progress free onBus noReceipt due present
    refine exec_offerPoint_of_offered awake quiet ?_
    rw [State.offered_eq free, State.receiptReady_eq_none noReceipt, State.requestReady_of_ready onBus due present]
    rfl
  · intro i r a before after free onBus noReceipt noRequest answers loaded alone earlier later
    refine exec_offerPoint_of_offered awake quiet ?_
    rw [State.offered_eq free, State.receiptReady_eq_none noReceipt, State.requestReady_eq_none noRequest,
      State.repairReady_of_ready onBus answers loaded alone earlier later]
    rfl
  · intro i o r free sends noReceipt noRequest noAnswer loaded lowest
    have origin (k : Key) : o ≠ .answer k := by
      rintro rfl
      rcases noAnswer with off | none_
      · exact off (State.onBus_iff.mpr (State.onBus_of_sends sends))
      · exact none_ i k r loaded
    refine exec_offerPoint_of_offered awake quiet ?_
    rw [State.offered_eq free, State.receiptReady_eq_none noReceipt, State.requestReady_eq_none noRequest,
      State.repairReady_eq_none noAnswer, State.recordReady_of_ready sends loaded origin lowest]
    rfl
  · intro st c top free noReceipt noRequest noAnswer noRecord config due allowed bounds attained
    refine exec_offerPoint_of_offered awake quiet ?_
    rw [State.offered_eq free, State.receiptReady_eq_none noReceipt, State.requestReady_eq_none noRequest,
      State.repairReady_eq_none noAnswer, State.recordReady_eq_none noRecord, State.rollReady_of_ready config due allowed,
      highestSeq_eq bounds attained]
    rfl
  · intro noReceipt noRequest noAnswer noRecord due
    have nothing : s.offered = none := by
      by_cases free : s.line.silenced = none
      · rw [State.offered_eq free, State.receiptReady_eq_none noReceipt, State.requestReady_eq_none noRequest,
          State.repairReady_eq_none noAnswer, State.recordReady_eq_none noRecord, State.rollReady_eq_none due]
        rfl
      · exact State.offered_silenced (Option.isSome_iff_ne_none.mpr free)
    exact exec_offerPoint_of_none awake quiet nothing

end Sys2Proof.Machine
end


section
namespace Sys2Proof.Machine

/-! ### Lists without duplicates -/

theorem eraseDups_filter {α : Type} [BEq α] [LawfulBEq α] (p : α → Bool) :
    ∀ l : List α, (l.filter p).eraseDups = l.eraseDups.filter p
  | [] => rfl
  | a :: l => by
    have rest := eraseDups_filter p (l.filter fun b => !b == a)
    cases ha : p a with
    | true =>
      rw [List.filter_cons_of_pos ha, List.eraseDups_cons, List.eraseDups_cons, List.filter_cons_of_pos ha, ← rest,
        List.filter_filter, List.filter_filter]
      simp only [Bool.and_comm]
    | false =>
      have gone : (l.filter fun b => !b == a).filter p = l.filter p := by
        rw [List.filter_filter]
        refine List.filter_congr fun b _ => ?_
        by_cases hb : b = a <;> simp [hb, ha]
      rw [List.filter_cons_of_neg (by simp [ha]), List.eraseDups_cons, List.filter_cons_of_neg (by simp [ha]), ← rest, gone]
termination_by l => l.length
decreasing_by simpa using Nat.lt_succ_of_le (List.length_filter_le _ l)

/-- What a function gives over the first places of a list: at the head what it gives there, behind it what is left when the
head is told apart. -/
theorem filterMap_eraseDups_cons {α β : Type} [DecidableEq α] {f g : α → Option β} {a : α} (head : g a = none)
    (rest : ∀ b, b ≠ a → g b = f b) (l : List α) :
    (a :: l).eraseDups.filterMap f = (f a).toList ++ l.eraseDups.filterMap g := by
  have behind : (l.filter fun b => !b == a).eraseDups.filterMap f = l.eraseDups.filterMap g := by
    rw [eraseDups_filter, List.filterMap_filter]
    refine List.filterMap_congr fun b _ => ?_
    by_cases hb : b = a
    · simp [hb, head]
    · simp [hb, rest b hb]
  rw [List.eraseDups_cons, List.filterMap_cons, behind]
  cases f a <;> rfl

/-! ### A RECEIPT counted (R132, R133) -/

/-- A holder set that has the ID already stays as it is. -/
theorem insertHolder_insertHolder (id : Nat) (holders : List Nat) :
    insertHolder id (insertHolder id holders) = insertHolder id holders := by
  induction holders with
  | nil => simp [insertHolder]
  | cons h rest ih =>
    by_cases below : id < h
    · simp [insertHolder, below]
    · by_cases same : id = h
      · simp [insertHolder, same]
      · simp [insertHolder, below, same, ih]

/-- A live entry once the sender is counted, under this K (R132, R133). -/
def TrackerEntry.counted (sender k : Nat) (e : TrackerEntry) : TrackerEntry :=
  if e.state.isLive then
    let held := insertHolder sender e.holders
    if k ≤ held.length then { e with holders := held, state := .secured } else { e with holders := held }
  else e

/-- The sender's count makes the entry SECURED (R133). -/
def TrackerEntry.secures (sender k : Nat) (e : TrackerEntry) : Bool :=
  e.state.isLive && decide (k ≤ (insertHolder sender e.holders).length)

/-- The OUTCOME of an entry that the sender's count makes SECURED (R135). -/
def TrackerEntry.outcome (sender : Nat) (e : TrackerEntry) : Event :=
  .outcome e.key.seq true (insertHolder sender e.holders).length

section
variable {sender k : Nat} {e : TrackerEntry}

theorem TrackerEntry.counted_key : (e.counted sender k).key = e.key := by
  unfold TrackerEntry.counted
  split
  · simp only
    split <;> rfl
  · rfl

theorem TrackerEntry.counted_of_not_live (h : e.state.isLive = false) : e.counted sender k = e := by
  simp [TrackerEntry.counted, h]

theorem TrackerEntry.counted_of_secures (h : e.secures sender k = true) :
    e.counted sender k = { e with holders := insertHolder sender e.holders, state := .secured } := by
  simp only [TrackerEntry.secures, Bool.and_eq_true, decide_eq_true_eq] at h
  simp [TrackerEntry.counted, h]

theorem TrackerEntry.counted_of_not_secures (live : e.state.isLive = true) (h : e.secures sender k = false) :
    e.counted sender k = { e with holders := insertHolder sender e.holders } := by
  simp only [TrackerEntry.secures, live, Bool.true_and, decide_eq_false_iff_not] at h
  simp [TrackerEntry.counted, live, h]

/-- Counting a sender again secures nothing that the first count left. -/
theorem TrackerEntry.counted_secures : (e.counted sender k).secures sender k = false := by
  cases live : e.state.isLive with
  | false => simp [TrackerEntry.counted_of_not_live, live, TrackerEntry.secures]
  | true =>
    cases secures : e.secures sender k with
    | true => simp [TrackerEntry.counted_of_secures secures, TrackerEntry.secures, TrackerState.isLive]
    | false =>
      rw [TrackerEntry.counted_of_not_secures live secures]
      rw [TrackerEntry.secures] at secures ⊢
      simpa only [insertHolder_insertHolder] using secures

theorem TrackerEntry.counted_counted : (e.counted sender k).counted sender k = e.counted sender k := by
  cases live : e.state.isLive with
  | false => simp [TrackerEntry.counted_of_not_live, live]
  | true =>
    cases secures : e.secures sender k with
    | true =>
      rw [TrackerEntry.counted_of_secures secures]
      exact TrackerEntry.counted_of_not_live rfl
    | false =>
      have again := e.counted_secures (sender := sender) (k := k)
      have stays : (e.counted sender k).state.isLive = true := by rwa [TrackerEntry.counted_of_not_secures live secures]
      rw [TrackerEntry.counted_of_not_secures stays again, TrackerEntry.counted_of_not_secures live secures,
        insertHolder_insertHolder]

end

/-- The entries that a RECEIPT makes SECURED, in the order of its keys. -/
def State.securedBy (s : State) (sender : Nat) (keys : List Key) : List TrackerEntry :=
  (keys.eraseDups.filterMap s.entry).filter (TrackerEntry.secures sender s.replication)

theorem State.securedBy_eq (s : State) (sender : Nat) (keys : List Key) : s.securedBy sender keys =
    keys.eraseDups.filterMap fun k => (s.entry k).filter (TrackerEntry.secures sender s.replication) :=
  List.filter_filterMap

theorem State.securedBy_single (s : State) (sender : Nat) (k : Key) :
    s.securedBy sender [k] = ((s.entry k).filter (TrackerEntry.secures sender s.replication)).toList := by
  rw [State.securedBy_eq, List.eraseDups_cons]
  simp only [List.filter_nil, List.eraseDups_nil, List.filterMap_cons, List.filterMap_nil]
  cases (s.entry k).filter (TrackerEntry.secures sender s.replication) <;> rfl

/-- The entries are own ones, and no key stands twice (R124, R127). -/
structure OwnEntries (s : State) : Prop where
  own : ∀ e ∈ s.tracker.entries, e.key.origin = s.ownId
  once : (s.tracker.entries.map TrackerEntry.key).Nodup

theorem TrackerLaw.ownEntries {s : State} (h : TrackerLaw s) : OwnEntries s where
  own := fun e he => (h.entries e he).origin
  once := by
    have seqs : (s.tracker.entries.map fun e => e.key.seq).Nodup := h.rising.imp (fun lt => Nat.ne_of_lt lt)
    have keys : ((s.tracker.entries.map TrackerEntry.key).map Key.seq).Nodup := by simpa [Function.comp_def] using seqs
    exact keys.of_map _

/-- What the keys of a RECEIPT do to the tracker, the events and the buffers, and that nothing else changes (R132, R133). -/
structure Counts (sender : Nat) (keys : List Key) (s u : State) : Prop where
  shape : u = { s with
    tracker := { s.tracker with entries := s.tracker.entries.map fun e =>
      if e.key ∈ keys then e.counted sender s.replication else e }
    port := (((s.securedBy sender keys).map (TrackerEntry.outcome sender)).foldl State.post s).port
    transmit := { s.transmit with buffers := u.transmit.buffers } }
  released : Released u s fun o => (s.securedBy sender keys).any fun e => o == .tracker e.key

theorem Counts.nil (sender : Nat) (s : State) : Counts sender [] s s where
  shape := by simp [State.securedBy]
  released := by simpa [State.securedBy] using Released.refl s

section
variable {s : State} {sender : Nat}

theorem State.entry_key {k : Key} {e : TrackerEntry} (h : s.entry k = some e) : e.key = k := by
  simpa using List.find?_some h

/-- Where no key stands twice, the entry of a key is the only one with it. -/
theorem OwnEntries.unique (h : OwnEntries s) {k : Key} {e x : TrackerEntry} (entry : s.entry k = some e)
    (hx : x ∈ s.tracker.entries) (key : x.key = k) : x = e :=
  List.inj_on_of_nodup_map h.once hx (List.mem_of_find?_eq_some entry) (key.trans (State.entry_key entry).symm)

/-- A key that names no live own entry changes nothing. -/
theorem Counts.of_not_live (h : OwnEntries s) {k : Key} (idle : ∀ e, s.entry k = some e → e.state.isLive = false) :
    Counts sender [k] s s := by
  have nothing : s.securedBy sender [k] = [] := by
    rw [State.securedBy_single]
    cases entry : s.entry k with
    | none => rfl
    | some e => simp [TrackerEntry.secures, idle e entry]
  have same : (s.tracker.entries.map fun e => if e.key ∈ [k] then e.counted sender s.replication else e) = s.tracker.entries := by
    refine (List.map_congr_left fun x hx => ?_).trans (List.map_id _)
    split
    · rename_i mem
      have key : x.key = k := List.mem_singleton.mp mem
      have found : (s.entry k).isSome := List.find?_isSome.mpr ⟨x, hx, by simp [key]⟩
      obtain ⟨e, entry⟩ := Option.isSome_iff_exists.mp found
      exact TrackerEntry.counted_of_not_live (h.unique entry hx key ▸ idle e entry)
    · rfl
  exact ⟨by rw [same, nothing]; rfl, by simpa [nothing] using Released.refl s⟩

/-! What one key of a RECEIPT does, by the entry it names (R132, R133). -/

theorem countReceipt_of_not_live {k : Key} (idle : ∀ e, s.entry k = some e → e.state.isLive = false) :
    countReceipt sender s k = s := by
  unfold countReceipt
  split
  · rfl
  · rename_i e entry
    rw [if_neg (by simp [idle e entry])]

/-- A live own entry with the sender in its holder set. -/
def State.holderAdded (s : State) (sender : Nat) (k : Key) (e : TrackerEntry) : State :=
  s.updateEntry k fun x => { x with holders := insertHolder sender e.holders }

theorem countReceipt_of_live {k : Key} {e : TrackerEntry} (entry : s.entry k = some e) (own : k.origin = s.ownId)
    (live : e.state.isLive = true) : countReceipt sender s k = if e.secures sender s.replication then
      (s.holderAdded sender k e).finish { e with holders := insertHolder sender e.holders } true false
    else s.holderAdded sender k e := by
  have secures : e.secures sender s.replication = decide (s.replication ≤ (insertHolder sender e.holders).length) := by
    simp [TrackerEntry.secures, live]
  simp only [secures, decide_eq_true_eq]
  simp only [countReceipt, entry, own, live, and_self, if_true]
  rfl

/-- A live own entry becoming SECURED with the sender in its holder set (R133, R135). -/
theorem State.holderAdded_finish {k : Key} {e : TrackerEntry} (key : e.key = k) :
    (s.holderAdded sender k e).finish { e with holders := insertHolder sender e.holders } true false = { s with
      tracker := { s.tracker with entries := s.tracker.entries.map fun x => if x.key = k then
        { x with holders := insertHolder sender e.holders, state := .secured } else x }
      port := (s.post (e.outcome sender)).port
      transmit := (s.endClaims (.tracker k)).transmit } := by
  have entries : (s.holderAdded sender k e).tracker.entries.map (fun x => if x.key = k then
        { x with state := if true then .secured else .short, damaged := x.damaged || false } else x) =
      s.tracker.entries.map fun x => if x.key = k then
        { x with holders := insertHolder sender e.holders, state := .secured } else x := by
    rw [State.holderAdded, State.updateEntry_tracker_entries, List.map_map]
    refine List.map_congr_left fun x _ => ?_
    by_cases hk : x.key = k <;> simp [hk]
  subst key
  rw [State.finish_eq, entries, State.post_port_congr (s := s) (by rfl)]
  rfl

theorem countReceipt_counts (h : OwnEntries s) (k : Key) : Counts sender [k] s (countReceipt sender s k) := by
  by_cases live : ∃ e, s.entry k = some e ∧ e.state.isLive = true
  · obtain ⟨e, entry, live⟩ := live
    have key := State.entry_key entry
    have mapped {f : TrackerEntry → TrackerEntry} (named : f e = e.counted sender s.replication)
        (other : ∀ x, x.key ≠ k → f x = x) : s.tracker.entries.map f =
          s.tracker.entries.map fun x => if x.key ∈ [k] then x.counted sender s.replication else x := by
      refine List.map_congr_left fun x hx => ?_
      by_cases hk : x.key = k
      · rw [if_pos (by simp [hk]), h.unique entry hx hk, named]
      · rw [if_neg (by simp [hk]), other x hk]
    rw [countReceipt_of_live entry (key ▸ h.own e (List.mem_of_find?_eq_some entry)) live]
    cases secures : e.secures sender s.replication with
    | false =>
      have nothing : s.securedBy sender [k] = [] := by
        rw [State.securedBy_single, entry, Option.filter_some_neg (by simp [secures])]
        rfl
      refine ⟨?_, by rw [nothing]; exact fun i => (Buffer.released_nobody _ _).symm⟩
      rw [nothing, ← mapped (f := fun x => if x.key = k then { x with holders := insertHolder sender e.holders } else x)
        (by simp [key, TrackerEntry.counted_of_not_secures live secures]) (by simp +contextual)]
      rfl
    | true =>
      have one : s.securedBy sender [k] = [e] := by
        rw [State.securedBy_single, entry, Option.filter_some_pos secures]
        rfl
      rw [if_pos rfl, State.holderAdded_finish key]
      have gone : (fun o => [e].any fun x => o == BufferOwner.tracker x.key) =
          fun o => o == BufferOwner.tracker k := by simp [key]
      refine ⟨?_, ?_⟩
      · rw [one, ← mapped (f := fun x => if x.key = k then { x with
          holders := insertHolder sender e.holders, state := .secured } else x)
          (by simp [key, TrackerEntry.counted_of_secures secures]) (by simp +contextual)]
        rfl
      · rw [one, gone]
        exact s.endClaims_released (.tracker k)
  · have idle : ∀ e, s.entry k = some e → e.state.isLive = false := fun e he => by simpa using fun l => live ⟨e, he, l⟩
    rw [countReceipt_of_not_live idle]
    exact Counts.of_not_live h idle

section
variable {keys : List Key} {u : State}

theorem Counts.entries (h : Counts sender keys s u) : u.tracker.entries = s.tracker.entries.map fun e =>
    if e.key ∈ keys then e.counted sender s.replication else e := by
  rw [h.shape]

theorem Counts.line (h : Counts sender keys s u) : u.line = s.line := by
  rw [h.shape]

theorem Counts.controller (h : Counts sender keys s u) : u.controller = s.controller := by
  rw [h.shape]

theorem Counts.replication (h : Counts sender keys s u) : u.replication = s.replication := by
  rw [State.replication, State.replication, h.controller]

theorem Counts.port (h : Counts sender keys s u) :
    u.port = (((s.securedBy sender keys).map (TrackerEntry.outcome sender)).foldl State.post s).port :=
  (congrArg State.port h.shape :)

theorem Counts.entry (h : Counts sender keys s u) (k : Key) :
    u.entry k = if k ∈ keys then (s.entry k).map (TrackerEntry.counted sender s.replication) else s.entry k := by
  have same : ((fun e : TrackerEntry => e.key == k) ∘ fun e => if e.key ∈ keys then e.counted sender s.replication else e) =
      fun e => e.key == k := by
    funext e
    simp only [Function.comp_apply]
    split
    · rw [TrackerEntry.counted_key]
    · rfl
  rw [State.entry, h.entries, List.find?_map, same]
  show Option.map _ (s.entry k) = _
  cases entry : s.entry k with
  | none => simp
  | some e =>
    rw [← State.entry_key entry]
    split <;> simp [*]

theorem Counts.ownEntries (h : Counts sender keys s u) (own : OwnEntries s) : OwnEntries u where
  own := fun e he => by
    rw [h.entries] at he
    obtain ⟨x, hx, rfl⟩ := List.mem_map.mp he
    have id_ : u.ownId = s.ownId := by rw [State.ownId, State.ownId, h.controller]
    rw [id_, ← own.own x hx]
    split
    · rw [TrackerEntry.counted_key]
    · rfl
  once := by
    have same : u.tracker.entries.map TrackerEntry.key = s.tracker.entries.map TrackerEntry.key := by
      rw [h.entries, List.map_map]
      refine List.map_congr_left fun x _ => ?_
      simp only [Function.comp_apply]
      split
      · rw [TrackerEntry.counted_key]
      · rfl
    rw [same]
    exact own.once

end

/-- The entries a RECEIPT makes SECURED: that of its first key, and those of the rest once that key is counted. -/
theorem Counts.securedBy_cons {k : Key} {t : State} (h : Counts sender [k] s t) (rest : List Key) :
    s.securedBy sender (k :: rest) = s.securedBy sender [k] ++ t.securedBy sender rest := by
  rw [State.securedBy_single, State.securedBy_eq, State.securedBy_eq, h.replication]
  refine filterMap_eraseDups_cons ?_ (fun j other => ?_) rest
  · rw [h.entry, if_pos (by simp), Option.filter_map]
    simp [Function.comp_def, TrackerEntry.counted_secures]
  · rw [h.entry, if_neg (by simpa using other)]

theorem Counts.trans {k : Key} {rest : List Key} {t u : State} (h : Counts sender [k] s t) (g : Counts sender rest t u) :
    Counts sender (k :: rest) s u := by
  have twice : (fun e : TrackerEntry => if e.key ∈ rest then e.counted sender s.replication else e) ∘
      (fun e => if e.key ∈ [k] then e.counted sender s.replication else e) =
        fun e => if e.key ∈ k :: rest then e.counted sender s.replication else e := by
    funext e
    simp only [Function.comp_apply, List.mem_cons, List.not_mem_nil, or_false]
    by_cases head : e.key = k
    · rw [if_pos head, TrackerEntry.counted_key, if_pos (show e.key = k ∨ e.key ∈ rest from .inl head)]
      split
      · exact TrackerEntry.counted_counted
      · rfl
    · rw [if_neg head]
      simp only [head, false_or]
  have entries : u.tracker.entries = s.tracker.entries.map fun e =>
      if e.key ∈ k :: rest then e.counted sender s.replication else e := by
    rw [g.entries, h.entries, h.replication, List.map_map, twice]
  have posted : u.port = (((s.securedBy sender (k :: rest)).map (TrackerEntry.outcome sender)).foldl State.post s).port := by
    rw [h.securedBy_cons, List.map_append, List.foldl_append, g.port]
    exact foldl_post_port_congr _ h.port
  have gone : (fun o => (s.securedBy sender (k :: rest)).any fun e => o == BufferOwner.tracker e.key) = fun o =>
      ((s.securedBy sender [k]).any fun e => o == BufferOwner.tracker e.key) ||
        (t.securedBy sender rest).any fun e => o == BufferOwner.tracker e.key := by
    rw [h.securedBy_cons]
    simp only [List.any_append]
  have kept : u = { t with
      tracker := { t.tracker with entries := u.tracker.entries }
      port := u.port
      transmit := { t.transmit with buffers := u.transmit.buffers } } :=
    g.shape.trans (by rw [g.entries, g.port])
  rw [h.shape] at kept
  exact ⟨by rw [← posted, ← entries]; exact kept, by rw [gone]; exact h.released.trans g.released h.line⟩

/-- What a RECEIPT does to the tracker: all its keys, one after the other. -/
theorem foldl_countReceipt_counts (keys : List Key) {s : State} (h : OwnEntries s) :
    Counts sender keys s (keys.foldl (countReceipt sender) s) := by
  induction keys generalizing s with
  | nil => exact Counts.nil sender s
  | cons k rest ih => exact (countReceipt_counts h k).trans (ih ((countReceipt_counts h k).ownEntries h))

end

/-! ### A RECEIPT heard -/

section
variable {s : State} {id : Nat}

/-- A frame of a peer that is not a ROLL changes the roster, and posts PEER_UP where the peer was ABSENT (R119). -/
theorem State.peerHeard_eq (s : State) (id : Nat) : s.peerHeard id false = { s with
    controller := { s.controller with roster := (s.peerHeard id false).controller.roster }
    port := (if s.rosterRow id = .absent then s.post (.peerUp id false) else s).port } := by
  unfold State.peerHeard
  cases row : s.rosterRow id with
  | absent =>
    dsimp only
    rw [if_pos rfl, State.post_eq, State.post_port_congr (s := s) (by rfl)]
    rfl
  | present d last => rfl
  | discordant d last => rfl

/-- A DISCORDANT peer stays so, and no other becomes so, by a frame that is not a ROLL (R119). -/
theorem State.discordant_peerHeard (low : 1 ≤ id) (high : id ≤ 30) :
    (s.peerHeard id false).discordant id = s.discordant id := by
  have row (t : State) (r : RosterRow) (roster : t.controller.roster = stationSet s.controller.roster id r) :
      t.rosterRow id = r := by
    rw [State.rosterRow, roster, stationGet_stationSet, if_pos ⟨rfl, low, high⟩]
  unfold State.peerHeard
  cases before : s.rosterRow id with
  | absent => simp only [State.discordant, before]; rw [row _ (.present s.silenceDeadline none) (by simp [State.setRosterRow])]
  | present d last => simp only [State.discordant, before]; rw [row _ (.present s.silenceDeadline last) rfl]
  | discordant d last => simp only [State.discordant, before]; rw [row _ (.discordant s.silenceDeadline last) rfl]

theorem State.discordant_iff : s.discordant id = true ↔ ∃ d last, s.rosterRow id = .discordant d last := by
  unfold State.discordant
  cases s.rosterRow id <;> simp

/-- What RECEIPT_RECEIVED does for a frame of a peer: the roster first, then the tracker (R119, R132; log 30). -/
theorem exec_receiptReceived {keys : List Key} (reading : Reading s)
    (valid : frameInRange ⟨id, .receipt keys⟩ = true) (peer : id ≠ s.ownId) :
    exec (.receiptReceived id keys) s = .next (State.settle s
      ((State.peerHeard { s with line := afterHeard s.line ⟨id, .receipt keys⟩ } id false).countReceipts id keys)) := by
  show execReceiptReceived id keys s = _
  rw [execReceiptReceived, State.awake_free reading.1, State.hear_valid reading.reads valid, if_neg peer]

theorem afterHeard_inFlight (line : LineUnit) (f : Frame) : (afterHeard line f).inFlight = line.inFlight := by
  unfold afterHeard
  split <;> rfl

end

/-- Nothing but the tracker's entries, the events and the buffers changes as a RECEIPT is counted. -/
theorem State.countReceipts_eq {s : State} (h : OwnEntries s) (sender : Nat) (keys : List Key) :
    s.countReceipts sender keys = { s with
      tracker := { s.tracker with entries := (s.countReceipts sender keys).tracker.entries }
      port := (s.countReceipts sender keys).port
      transmit := { s.transmit with buffers := (s.countReceipts sender keys).transmit.buffers } } := by
  unfold State.countReceipts
  split
  · rfl
  · have counted := foldl_countReceipt_counts (sender := sender) keys h
    exact counted.shape.trans (by rw [← counted.port, ← counted.entries])

theorem TrackerState.isLive_eq (st : TrackerState) : st.isLive = (st != .staged && st != .secured && st != .short) := by
  cases st <;> rfl

theorem OwnEntries.congr {s u : State} (h : OwnEntries s) (tracker : u.tracker = s.tracker) (ownId : u.ownId = s.ownId) :
    OwnEntries u where
  own := by rw [tracker, ownId]; exact h.own
  once := by rw [tracker]; exact h.once

/-- The entries that a RECEIPT makes SECURED, as the statement names them. -/
theorem State.securedBy_eq_filter (s : State) (sender : Nat) (keys : List Key) : s.securedBy sender keys =
    (keys.eraseDups.filterMap s.entry).filter fun e =>
      (decide (e.key ∈ keys) && (e.state != .staged && e.state != .secured && e.state != .short)) &&
        decide (s.replication ≤ (insertHolder sender e.holders).length) := by
  refine List.filter_congr fun e he => ?_
  obtain ⟨k, hk, entry⟩ := List.mem_filterMap.mp he
  have named : e.key ∈ keys := State.entry_key entry ▸ List.mem_eraseDups.mp hk
  simp [TrackerEntry.secures, TrackerState.isLive_eq, named]

/-- What a RECEIPT makes of an entry, as the statement gives it. -/
theorem TrackerEntry.counted_eq (sender k : Nat) (keys : List Key) (e : TrackerEntry) :
    (if e.key ∈ keys then e.counted sender k else e) =
      if decide (e.key ∈ keys) && (e.state != .staged && e.state != .secured && e.state != .short) then
        let held := insertHolder sender e.holders
        if k ≤ held.length then { e with holders := held, state := .secured } else { e with holders := held }
      else e := by
  by_cases named : e.key ∈ keys
  · simp only [named, decide_true, Bool.true_and, ← TrackerState.isLive_eq, if_true]
    rfl
  · simp [named]

/-- Settles O24: the roster by `State.peerHeard_eq`, and the keys, one after the other, by `Counts`. -/
theorem receiptsAreCounted : Obligations.ReceiptsAreCounted := by
  unfold Obligations.ReceiptsAreCounted
  intro s sender keys c reading valid config peer law counts secures secured known
  have own : s.ownId = c.stationId := by simp [State.ownId, config]
  have target : s.replication = c.k := by simp [State.replication, config]
  obtain ⟨low, high⟩ : 1 ≤ sender ∧ sender ≤ 30 := by
    simp only [frameInRange, Bool.and_eq_true, decide_eq_true_eq] at valid
    exact valid.1
  have exec_ := exec_receiptReceived reading valid (own ▸ peer)
  generalize heard : State.peerHeard { s with line := afterHeard s.line ⟨sender, .receipt keys⟩ } sender false = v at exec_
  have discordant : v.discordant sender = s.discordant sender := by
    rw [← heard, State.discordant_peerHeard low high]
    rfl
  have shape := State.peerHeard_eq { s with line := afterHeard s.line ⟨sender, .receipt keys⟩ } sender
  rw [heard] at shape
  have tracker : v.tracker = s.tracker := by rw [shape]
  have ownEntries : OwnEntries v := law.ownEntries.congr tracker (by rw [shape]; rfl)
  have port : v.port = known.port := by
    rw [shape]
    show State.port (if s.rosterRow sender = .absent then _ else _) = State.port (if s.rosterRow sender = .absent then _ else _)
    by_cases absent : s.rosterRow sender = .absent
    · rw [if_pos absent, if_pos absent]
      exact State.post_port_congr (by rfl) _
    · rw [if_neg absent, if_neg absent]
  have kept := State.countReceipts_eq ownEntries sender keys
  refine ⟨v.countReceipts sender keys, .of_settle exec_, ?_, ?_, ?_, ?_, ?_, ?_, ?_, ?_, ?_,
    fun marked => ?_, fun unmarked => ?_⟩
  iterate 9
    rw [kept, shape]
  · have nothing : v.countReceipts sender keys = v := by
      simp [State.countReceipts, discordant, State.discordant_iff.mpr marked]
    have known_ : known = s := if_neg (by obtain ⟨d, last, row⟩ := marked; simp [row])
    rw [nothing]
    exact ⟨by rw [tracker], by rw [shape], by rw [port, known_]⟩
  · have agrees : s.discordant sender = false := by
      rw [← Bool.not_eq_true, State.discordant_iff]
      exact fun ⟨d, last, row⟩ => unmarked d last row
    have all : v.countReceipts sender keys = keys.foldl (countReceipt sender) v := by
      simp [State.countReceipts, discordant, agrees]
    have counted := foldl_countReceipt_counts (sender := sender) keys ownEntries
    have replication : v.replication = c.k := by
      rw [← target, shape]
      rfl
    have entry : v.entry = s.entry := by
      funext k
      rw [State.entry, tracker]
      rfl
    have secured_ : v.securedBy sender keys = secured := by
      rw [State.securedBy_eq_filter, replication, entry]
    rw [all]
    refine ⟨?_, ?_, ?_⟩
    · rw [counted.entries, tracker, replication]
      exact List.map_congr_left fun e _ => TrackerEntry.counted_eq sender c.k keys e
    · rw [counted.port, secured_]
      exact foldl_post_port_congr _ port
    · intro i
      have onLine : v.onLine i = s.onLine i := by
        rw [shape]
        simp only [State.onLine, afterHeard_inFlight]
      rw [counted.released i, secured_, onLine, shape]
      rfl

end Sys2Proof.Machine
end


section
namespace Sys2Proof.Machine

/-! ### The work that waits for a buffer (R102) -/

/-- An answer entry that waits for a buffer (R102). -/
def State.AnswerWaits (s : State) (a : AnswerEntry) : Prop :=
  a ∈ s.gap.answers ∧ a.due = true ∧ a.loaded = false ∧ s.hasBuffer (.answer a.key) = false

/-- An owner of origin work that waits for a buffer (R102). -/
def State.OriginWaits (s : State) (o : BufferOwner) : Prop :=
  s.hasBuffer o = false ∧
    ((∃ e ∈ s.tracker.entries, e.state = .queued ∧ o = .tracker e.key) ∨ ∃ k ∈ s.transmit.sendOnce, o = .sendOnce k)

/-- The first of the least measure among the elements of a list that pass a test. -/
theorem leastBy_filter_some {α : Type} {f : α → Nat} {p : α → Bool} {l : List α} {x : α}
    (h : leastBy f (l.filter p) = some x) : ∃ before after, l = before ++ x :: after ∧ p x = true ∧
      (∀ y ∈ before, p y = true → f x < f y) ∧ ∀ y ∈ after, p y = true → f x ≤ f y := by
  have spec := leastBy_spec f (l.filter p)
  rw [h] at spec
  obtain ⟨before', after', split, lower, upper⟩ := spec
  obtain ⟨front, back, rfl, rfl, behind⟩ := List.filter_eq_append_iff.mp split
  obtain ⟨skipped, after, rfl, fail, pass, rfl⟩ := List.filter_eq_cons_iff.mp behind
  refine ⟨front ++ skipped, after, by simp, pass, fun y hy py => ?_, fun y hy py => upper y (List.mem_filter.mpr ⟨hy, py⟩)⟩
  rcases List.mem_append.mp hy with hy | hy
  · exact lower y (List.mem_filter.mpr ⟨hy, py⟩)
  · exact absurd py (fail y hy)

theorem leastBy_eq_none_iff {α : Type} {f : α → Nat} {l : List α} : leastBy f l = none ↔ l = [] := by
  constructor
  · intro h
    have spec := leastBy_spec f l
    rwa [h] at spec
  · rintro rfl
    rfl

section
variable {s : State}

theorem State.mem_originWork {o : BufferOwner} :
    o ∈ ((s.tracker.entries.filter fun e => e.state == .queued).map (fun e => BufferOwner.tracker e.key)
      ++ s.transmit.sendOnce.map BufferOwner.sendOnce).filter (fun o => !s.hasBuffer o) ↔ s.OriginWaits o := by
  simp only [List.mem_filter, List.mem_append, List.mem_map, beq_iff_eq, Bool.not_eq_true', State.OriginWaits, and_assoc,
    eq_comm (b := o)]
  exact and_comm

theorem State.originWork_none : s.originWork = none ↔ ∀ o, ¬ s.OriginWaits o := by
  rw [State.originWork, leastBy_eq_none_iff, List.eq_nil_iff_forall_not_mem]
  simp only [State.mem_originWork]

theorem State.originWork_some {o : BufferOwner} (h : s.originWork = some o) :
    s.OriginWaits o ∧ ∀ o', s.OriginWaits o' → o.key.seq ≤ o'.key.seq := by
  have spec := leastBy_spec (fun o : BufferOwner => o.key.seq)
    (((s.tracker.entries.filter fun e => e.state == .queued).map (fun e => BufferOwner.tracker e.key)
      ++ s.transmit.sendOnce.map BufferOwner.sendOnce).filter fun o => !s.hasBuffer o)
  rw [← State.originWork, h] at spec
  obtain ⟨before, after, split, lower, upper⟩ := spec
  simp only [← State.mem_originWork, split, List.mem_append, List.mem_cons]
  refine ⟨.inr (.inl trivial), fun o' ho' => ?_⟩
  rcases ho' with ho' | rfl | ho'
  · exact (lower o' ho').le
  · exact le_rfl
  · exact upper o' ho'

theorem State.answerWaits_iff {a : AnswerEntry} (ha : a ∈ s.gap.answers) :
    (a.due && !a.loaded && !s.hasBuffer (.answer a.key)) = true ↔ s.AnswerWaits a := by
  simp [State.AnswerWaits, ha, and_assoc]

theorem State.answerWork_none : s.answerWork = none ↔ ∀ a, ¬ s.AnswerWaits a := by
  rw [State.answerWork, Option.map_eq_none_iff, leastBy_eq_none_iff, List.filter_eq_nil_iff]
  exact ⟨fun h a waits => h a waits.1 ((State.answerWaits_iff waits.1).mpr waits),
    fun h a ha waits => h a ((State.answerWaits_iff ha).mp waits)⟩

theorem State.answerWork_some {o : BufferOwner} (h : s.answerWork = some o) : ∃ before a after,
    s.gap.answers = before ++ a :: after ∧ o = .answer a.key ∧ s.AnswerWaits a ∧
      (∀ b ∈ before, s.AnswerWaits b → a.dueAt < b.dueAt) ∧ ∀ b ∈ after, s.AnswerWaits b → a.dueAt ≤ b.dueAt := by
  obtain ⟨a, first, rfl⟩ := Option.map_eq_some_iff.mp h
  obtain ⟨before, after, split, waits, lower, upper⟩ := leastBy_filter_some first
  have mem : a ∈ s.gap.answers := by simp [split]
  exact ⟨before, a, after, split, rfl, (State.answerWaits_iff mem).mp waits,
    fun b hb w => lower b hb ((State.answerWaits_iff w.1).mpr w), fun b hb w => upper b hb ((State.answerWaits_iff w.1).mpr w)⟩

theorem State.no_answerWaits_iff : (∀ a, ¬ s.AnswerWaits a) ↔
    ∀ a ∈ s.gap.answers, a.due = true → a.loaded = true ∨ s.hasBuffer (.answer a.key) = true := by
  simp only [State.AnswerWaits, not_and, ← Bool.not_eq_true, or_iff_not_imp_left, not_not]

theorem State.no_originWaits_iff : (∀ o, ¬ s.OriginWaits o) ↔
    (∀ e ∈ s.tracker.entries, e.state = .queued → s.hasBuffer (.tracker e.key) = true) ∧
      ∀ k ∈ s.transmit.sendOnce, s.hasBuffer (.sendOnce k) = true := by
  constructor
  · intro idle
    have given {o : BufferOwner} (work : (∃ e ∈ s.tracker.entries, e.state = .queued ∧ o = .tracker e.key) ∨
        ∃ k ∈ s.transmit.sendOnce, o = .sendOnce k) : s.hasBuffer o = true := by
      by_contra none_
      exact idle o ⟨by simpa using none_, work⟩
    exact ⟨fun e he queued => given (.inl ⟨e, he, queued, rfl⟩), fun k hk => given (.inr ⟨k, hk, rfl⟩)⟩
  · rintro ⟨entries, sendOnce⟩ o ⟨none_, ⟨e, he, queued, rfl⟩ | ⟨k, hk, rfl⟩⟩
    · simp [entries e he queued] at none_
    · simp [sendOnce k hk] at none_

/-- No work waits exactly when no owner is chosen, whatever the other buffer is. -/
theorem State.chooseOwner_none {other : Buffer} :
    s.chooseOwner other = none ↔ (∀ a, ¬ s.AnswerWaits a) ∧ ∀ o, ¬ s.OriginWaits o := by
  rw [← State.answerWork_none, ← State.originWork_none, State.chooseOwner]
  cases s.answerWork <;> cases s.originWork <;> simp
  split <;> simp

/-- The answer due first is chosen unless origin work waits and the other buffer is an answer's, else the lowest seq. -/
theorem State.chooseOwner_some {other : Buffer} {o : BufferOwner} (h : s.chooseOwner other = some o) :
    (s.answerWork = some o ∧ ((∃ o', s.OriginWaits o') → other.heldByAnswer = false)) ∨
      (s.originWork = some o ∧ ((∃ a, s.AnswerWaits a) → other.heldByAnswer = true)) := by
  unfold State.chooseOwner at h
  cases answer : s.answerWork with
  | none =>
    have idle := State.answerWork_none.mp answer
    rw [answer] at h
    exact .inr ⟨h, fun ⟨a, ha⟩ => absurd ha (idle a)⟩
  | some a =>
    cases origin : s.originWork with
    | none =>
      have idle := State.originWork_none.mp origin
      rw [answer, origin] at h
      exact .inl ⟨h, fun ⟨o', ho'⟩ => absurd ho' (idle o')⟩
    | some o' =>
      rw [answer, origin] at h
      cases held : other.heldByAnswer with
      | true => exact .inr ⟨by simpa [held] using h, fun _ => rfl⟩
      | false => exact .inl ⟨by simpa [held] using h, fun _ => rfl⟩

/-! ### Gifts (R102, R103) -/

theorem State.nextGift_some {i : BufferNo} {o : BufferOwner} (h : s.nextGift = some (i, o)) :
    s.buffer i = .empty ∧ s.chooseOwner (s.buffer (1 - i)) = some o := by
  unfold State.nextGift at h
  split at h
  · rename_i empty
    obtain ⟨o', chosen, pair⟩ := Option.map_eq_some_iff.mp h
    cases pair
    exact ⟨empty, chosen⟩
  · split at h
    · rename_i empty
      obtain ⟨o', chosen, pair⟩ := Option.map_eq_some_iff.mp h
      cases pair
      exact ⟨empty, chosen⟩
    · cases h

theorem State.nextGift_none : s.nextGift = none ↔
    (∀ i, s.buffer i ≠ .empty) ∨ ((∀ a, ¬ s.AnswerWaits a) ∧ ∀ o, ¬ s.OriginWaits o) := by
  unfold State.nextGift
  split
  · rename_i empty
    rw [Option.map_eq_none_iff, State.chooseOwner_none]
    exact ⟨.inr, fun h => h.resolve_left fun full => full 0 empty⟩
  · rename_i full0
    split
    · rename_i empty
      rw [Option.map_eq_none_iff, State.chooseOwner_none]
      exact ⟨.inr, fun h => h.resolve_left fun full => full 1 empty⟩
    · rename_i full1
      exact iff_of_true rfl (.inl fun i => by match i with | 0 => exact full0 | 1 => exact full1)

/-- A key that is indexed is read into the buffer (R103). -/
theorem State.giveBuffer_of_located {i : BufferNo} {o : BufferOwner} {l : Loc} (located : s.locate o.key = some l) :
    s.giveBuffer i o = { s with
      transmit := { s.transmit with buffers := s.transmit.buffers.set i.val (.reading o true) i.isLt }
      sequencer := { s.sequencer with transmitReads := s.sequencer.transmitReads ++ [⟨i, o.key, l⟩] } } := by
  simp only [State.giveBuffer, located]
  rfl

/-- A key that is not is told to its owner (R103). -/
theorem State.giveBuffer_of_absent {o : BufferOwner} (absent : s.locate o.key = none) (i : BufferNo) :
    s.giveBuffer i o = s.ownerAbsent o := by
  simp only [State.giveBuffer, absent]

end

/-! ### The end of the gifts -/

/-- The buffer is being read. -/
def Buffer.isReading : Buffer → Bool
  | .reading _ _ => true
  | _ => false

/-- The buffers that are not being read. -/
def State.unread (s : State) : List BufferNo := [0, 1].filter fun i => !(s.buffer i).isReading

/-- The tracker entries that wait to be read. -/
def State.queued (s : State) : List TrackerEntry := s.tracker.entries.filter fun e => e.state == .queued

/-- What gifts there can still be: each fills a buffer, which is then read, or takes an owner off its list. -/
def State.giftsLeft (s : State) : Nat :=
  s.unread.length + s.queued.length + s.transmit.sendOnce.length + s.gap.answers.length

theorem State.giftsLeft_le (s : State) : s.giftsLeft ≤ s.giftBound := by
  have buffers : s.unread.length ≤ 2 := List.length_filter_le _ _
  have entries : s.queued.length ≤ s.tracker.entries.length := List.length_filter_le _ _
  unfold State.giftsLeft State.giftBound
  omega

theorem length_filter_lt {α : Type} {p : α → Bool} {l : List α} {a : α} (mem : a ∈ l) (fails : p a = false) :
    (l.filter p).length < l.length :=
  List.length_filter_lt_length_iff_exists.mpr ⟨a, mem, by simp [fails]⟩

section
variable {s : State}

theorem Released.unread_le {u : State} {gone : BufferOwner → Bool} (h : Released u s gone) :
    u.unread.length ≤ s.unread.length := by
  have stays (i : BufferNo) (reading : (s.buffer i).isReading = true) : (u.buffer i).isReading = true := by
    rw [h i]
    cases hb : s.buffer i <;> simp_all [Buffer.isReading, Buffer.released]
  refine (List.monotone_filter_right _ fun i hi => ?_).length_le
  simp only [Bool.not_eq_true'] at hi ⊢
  exact Bool.eq_false_iff.mpr fun reading => by simp [stays i reading] at hi

/-- A buffer given to an owner whose key is indexed is read. -/
theorem State.giveBuffer_unread {i : BufferNo} {o : BufferOwner} {l : Loc} (empty : s.buffer i = .empty)
    (located : s.locate o.key = some l) : (s.giveBuffer i o).unread.length < s.unread.length := by
  have buffer (j : BufferNo) : (s.giveBuffer i o).buffer j = if j = i then .reading o true else s.buffer j := by
    rw [State.giveBuffer_of_located located]
    exact s.buffer_setBuffer i j _
  have fewer : (s.giveBuffer i o).unread = s.unread.filter fun j => j != i := by
    rw [State.unread, State.unread, List.filter_filter]
    refine List.filter_congr fun j _ => ?_
    rw [buffer]
    by_cases given : j = i <;> simp [given, Buffer.isReading]
  rw [fewer]
  refine length_filter_lt (a := i) (List.mem_filter.mpr ⟨?_, by simp [empty, Buffer.isReading]⟩) (by simp)
  match i with
  | 0 | 1 => simp

/-- An entry QUEUED whose key is gone is QUEUED no more, and no other becomes so. -/
theorem State.shortDamaged_queued {e : TrackerEntry} (once : (s.tracker.entries.map TrackerEntry.key).Nodup)
    (mem : e ∈ s.tracker.entries) (queued : e.state = .queued) :
    (s.shortDamaged e.key).queued.length < s.queued.length := by
  have found : s.entry e.key = some e := by
    have some_ : (s.entry e.key).isSome := List.find?_isSome.mpr ⟨e, mem, by simp⟩
    obtain ⟨x, hx⟩ := Option.isSome_iff_exists.mp some_
    rw [hx, List.inj_on_of_nodup_map once (List.mem_of_find?_eq_some hx) mem (State.entry_key hx)]
  have fewer : (s.shortDamaged e.key).queued.length = (s.queued.filter fun x => x.key != e.key).length := by
    rw [State.shortDamaged_of_live found (by simp [queued, TrackerState.isLive]), State.queued, State.queued, List.filter_filter,
      List.filter_map, List.length_map]
    congr 1
    refine List.filter_congr fun x _ => ?_
    by_cases same : x.key = e.key <;> simp [same]
  rw [fewer]
  exact length_filter_lt (a := e) (List.mem_filter.mpr ⟨mem, by simp [queued]⟩) (by simp)

/-- An owner that is told its key is gone waits no more (R103). -/
theorem State.ownerAbsent_giftsLeft (once : (s.tracker.entries.map TrackerEntry.key).Nodup) {o : BufferOwner}
    (waits : (∃ a, s.AnswerWaits a ∧ o = .answer a.key) ∨ s.OriginWaits o) : (s.ownerAbsent o).giftsLeft < s.giftsLeft := by
  rcases waits with ⟨a, ⟨mem, -⟩, rfl⟩ | ⟨-, ⟨e, mem, queued, rfl⟩ | ⟨k, mem, rfl⟩⟩
  · have buffers := (s.removeAnswer_released a.key).unread_le
    have tracker : (s.removeAnswer a.key).queued = s.queued := by
      rw [State.removeAnswer_eq]
      rfl
    have fewer : (s.removeAnswer a.key).gap.answers.length < s.gap.answers.length := by
      rw [State.removeAnswer_eq]
      exact length_filter_lt mem (by simp)
    show (s.removeAnswer a.key).giftsLeft < s.giftsLeft
    rw [State.giftsLeft, State.giftsLeft, tracker, State.removeAnswer_sendOnce]
    omega
  · have buffers := (s.shortDamaged_released e.key).unread_le
    have fewer := State.shortDamaged_queued once mem queued
    have sendOnce : (s.shortDamaged e.key).transmit.sendOnce = s.transmit.sendOnce := by rw [State.shortDamaged_eq]
    have answers : (s.shortDamaged e.key).gap.answers = s.gap.answers := by rw [State.shortDamaged_eq]
    show (s.shortDamaged e.key).giftsLeft < s.giftsLeft
    rw [State.giftsLeft, State.giftsLeft, sendOnce, answers]
    omega
  · have fewer : (s.dropSendOnce k).transmit.sendOnce.length < s.transmit.sendOnce.length := length_filter_lt mem (by simp)
    show s.unread.length + s.queued.length + (s.dropSendOnce k).transmit.sendOnce.length + s.gap.answers.length < s.giftsLeft
    rw [State.giftsLeft]
    omega

/-- Every gift leaves fewer to be made. -/
theorem State.giveBuffer_giftsLeft (once : (s.tracker.entries.map TrackerEntry.key).Nodup) {i : BufferNo} {o : BufferOwner}
    (gift : s.nextGift = some (i, o)) : (s.giveBuffer i o).giftsLeft < s.giftsLeft := by
  obtain ⟨empty, chosen⟩ := State.nextGift_some gift
  cases located : s.locate o.key with
  | some l =>
    have buffers := State.giveBuffer_unread empty located
    have tracker : (s.giveBuffer i o).queued = s.queued := by
      rw [State.giveBuffer_of_located located]
      rfl
    have lists : (s.giveBuffer i o).transmit.sendOnce = s.transmit.sendOnce ∧ (s.giveBuffer i o).gap.answers = s.gap.answers := by
      rw [State.giveBuffer_of_located located]
      exact ⟨rfl, rfl⟩
    rw [State.giftsLeft, State.giftsLeft, tracker, lists.1, lists.2]
    omega
  | none =>
    rw [State.giveBuffer_of_absent located]
    refine State.ownerAbsent_giftsLeft once ?_
    rcases State.chooseOwner_some chosen with ⟨answer, -⟩ | ⟨origin, -⟩
    · obtain ⟨before, a, after, -, owner, waits, -⟩ := State.answerWork_some answer
      exact .inl ⟨a, waits, owner⟩
    · exact .inr (State.originWork_some origin).1

end

/-- Gifts are made until none is left to make. -/
theorem State.giveBuffers_done (n : Nat) {s : State} (once : (s.tracker.entries.map TrackerEntry.key).Nodup)
    (bound : s.giftsLeft ≤ n) : (State.giveBuffers n s).nextGift = none := by
  induction n generalizing s with
  | zero =>
    show s.nextGift = none
    rw [Option.eq_none_iff_forall_ne_some]
    rintro ⟨i, o⟩ gift
    have := State.giveBuffer_giftsLeft once gift
    omega
  | succ n ih =>
    unfold State.giveBuffers
    split
    · assumption
    · rename_i g gift
      have fewer := State.giveBuffer_giftsLeft once gift
      exact ih (by rwa [(s.giveBuffer_keep g.1 g.2).entryKeys]) (by omega)

/-- Settles O47: a gift by the work that waits, and the end of the gifts by a count of those that are left. -/
theorem buffersGoToWaitingWork : Obligations.BuffersGoToWaitingWork := by
  unfold Obligations.BuffersGoToWaitingWork
  refine ⟨fun s i o gift => ?_, fun s i o l located => State.giveBuffer_of_located located, fun s i k absent => ⟨?_, ?_, ?_⟩,
    fun s once => State.giveBuffers_done _ once s.giftsLeft_le, fun s => ?_⟩
  · obtain ⟨empty, chosen⟩ := State.nextGift_some gift
    refine ⟨empty, ?_⟩
    rcases State.chooseOwner_some chosen with ⟨answer, other⟩ | ⟨origin, other⟩
    · obtain ⟨before, a, after, split, owner, waits, lower, upper⟩ := State.answerWork_some answer
      exact .inl ⟨before, a, after, split, owner, waits, lower, upper, other⟩
    · obtain ⟨waits, lowest⟩ := State.originWork_some origin
      exact .inr ⟨waits, lowest, other⟩
  · rw [State.giveBuffer_of_absent absent]
    exact s.removeAnswer_answer k
  · rw [State.giveBuffer_of_absent absent]
    simp [State.ownerAbsent]
  · intro e entry live
    rw [State.giveBuffer_of_absent absent]
    show (s.shortDamaged k).tracker.entries = _
    rw [State.shortDamaged_of_live entry live]
  · rw [State.nextGift_none]
    exact or_congr_right (and_congr State.no_answerWaits_iff State.no_originWaits_iff)

end Sys2Proof.Machine
end


section
namespace Sys2Proof.Machine

/-! ### Numbers in bytes -/

theorem beBytes_length (n v : Nat) : (beBytes n v).length = n := by
  induction n with
  | zero => rfl
  | succ n ih => simp [beBytes, ih]

/-- The first byte of a number weighs 256 to the number of those behind it. -/
theorem beNat_cons (b : Byte) (bytes : List Byte) : beNat (b :: bytes) = b.toNat * 256 ^ bytes.length + beNat bytes := by
  have fold (acc : Nat) (l : List Byte) :
      l.foldl (fun acc b => acc * 256 + b.toNat) acc = acc * 256 ^ l.length + beNat l := by
    induction l generalizing acc with
    | nil => simp [beNat]
    | cons a l ih =>
      rw [beNat, List.foldl_cons, List.foldl_cons, ih, ih, List.length_cons]
      ring
  rw [beNat, List.foldl_cons, fold]
  simp

theorem beNat_lt (bytes : List Byte) : beNat bytes < 256 ^ bytes.length := by
  induction bytes with
  | nil => simp [beNat]
  | cons b rest ih =>
    rw [beNat_cons, List.length_cons, Nat.pow_succ]
    have top := b.isLt
    nlinarith [ih, top]

/-- A number in bytes and back: what of it the bytes can hold. -/
theorem beNat_beBytes (n v : Nat) : beNat (beBytes n v) = v % 256 ^ n := by
  induction n with
  | zero => simp [beBytes, beNat, Nat.mod_one]
  | succ n ih =>
    rw [beBytes, beNat_cons, beBytes_length, ih, BitVec.toNat_ofNat]
    show v / 256 ^ n % 256 * 256 ^ n + v % 256 ^ n = v % 256 ^ (n + 1)
    rw [Nat.mod_pow_succ]
    ring

/-- What lies above n bytes does not show in them. -/
theorem beBytes_add_mul (n k v : Nat) : beBytes n (k * 256 ^ n + v) = beBytes n v := by
  induction n generalizing k with
  | zero => rfl
  | succ n ih =>
    have top : (k * 256 ^ (n + 1) + v) / 256 ^ n = k * 256 + v / 256 ^ n := by
      rw [Nat.pow_succ, show k * (256 ^ n * 256) + v = v + 256 ^ n * (k * 256) by ring, Nat.add_mul_div_left _ _ (by positivity)]
      ring
    have rest : k * 256 ^ (n + 1) + v = k * 256 * 256 ^ n + v := by ring
    rw [beBytes, beBytes, top, rest, ih]
    congr 1
    apply BitVec.eq_of_toNat_eq
    simp

/-- Bytes as a number and back. -/
theorem beBytes_beNat (bytes : List Byte) : beBytes bytes.length (beNat bytes) = bytes := by
  induction bytes with
  | nil => rfl
  | cons b rest ih =>
    have below : beNat rest / 256 ^ rest.length = 0 := Nat.div_eq_of_lt (beNat_lt rest)
    rw [List.length_cons, beBytes, beNat_cons, beBytes_add_mul, ih, Nat.mul_comm, Nat.mul_add_div (by positivity), below]
    simp

theorem codesAndNumbers : CodesAndNumbers := by
  refine ⟨rfl, rfl, rfl, rfl, rfl, rfl, rfl, fun n => ⟨rfl, ?_, ?_, ?_⟩⟩ <;> simp [beBytes, byte]

/-! ### The fields of a body in bytes (11.1) -/

/-- A key in the bytes of a RECEIPT (11.1). -/
def keyBytes (k : Key) : List Byte := BitVec.ofNat 8 k.origin :: beBytes 3 k.seq

theorem bodyBytes_receipt (keys : List Key) :
    bodyBytes (.receipt keys) = BitVec.ofNat 8 keys.length :: keys.flatMap keyBytes := rfl

theorem toNat_ofNat_byte {n : Nat} (h : n < 256) : (BitVec.ofNat 8 n).toNat = n := by
  rw [BitVec.toNat_ofNat]
  exact Nat.mod_eq_of_lt h

theorem beNat_beBytes_three {n : Nat} (h : n ≤ 16777215) : beNat (beBytes 3 n) = n := by
  rw [beNat_beBytes]
  omega

theorem parseKeys_keyBytes {keys : List Key} (h : ∀ k ∈ keys, k.origin ≤ 30 ∧ k.seq ≤ 16777215) :
    parseKeys (keys.flatMap keyBytes) = some keys := by
  induction keys with
  | nil => rfl
  | cons k rest ih =>
    obtain ⟨origin, seq⟩ := h k List.mem_cons_self
    have parsed : parseKeys (keyBytes k ++ rest.flatMap keyBytes) =
        (parseKeys (rest.flatMap keyBytes)).map (⟨(BitVec.ofNat 8 k.origin).toNat, beNat (beBytes 3 k.seq)⟩ :: ·) := rfl
    rw [List.flatMap_cons, parsed, ih fun j hj => h j (List.mem_cons_of_mem _ hj), toNat_ofNat_byte (by omega),
      beNat_beBytes_three seq]
    rfl

theorem keyBytes_parseKeys {bytes : List Byte} {keys : List Key} (h : parseKeys bytes = some keys) :
    keys.flatMap keyBytes = bytes := by
  induction bytes using parseKeys.induct generalizing keys with
  | case1 =>
    cases h
    rfl
  | case2 o a b c rest ih =>
    rw [parseKeys, Option.map_eq_some_iff] at h
    obtain ⟨tail, found, rfl⟩ := h
    have seq : beBytes 3 (beNat [a, b, c]) = [a, b, c] := beBytes_beNat [a, b, c]
    rw [List.flatMap_cons, ih found, keyBytes]
    simp [seq]
  | case3 => simp [parseKeys, *] at h

theorem parseRecord_recordBytes {r : Record} (h : RecordAdmitted r) : parseRecord (recordBytes r) = some r := by
  obtain ⟨-, origin, -, seq, cls, -, -⟩ := h
  have parsed : parseRecord (recordBytes r) = some ⟨⟨(BitVec.ofNat 8 r.key.origin).toNat, beNat (beBytes 3 r.key.seq)⟩,
      (BitVec.ofNat 8 r.cls).toNat, BitVec.ofNat 32 (beNat (beBytes 4 r.stamp.toNat)), r.payload⟩ := rfl
  have stamp : BitVec.ofNat 32 (beNat (beBytes 4 r.stamp.toNat)) = r.stamp := by
    apply BitVec.eq_of_toNat_eq
    rw [beNat_beBytes, BitVec.toNat_ofNat]
    have := r.stamp.isLt
    omega
  rw [parsed, toNat_ofNat_byte (by omega), toNat_ofNat_byte (by omega), beNat_beBytes_three seq, stamp]

theorem recordBytes_parseRecord {bytes : List Byte} {r : Record} (h : parseRecord bytes = some r) : recordBytes r = bytes := by
  unfold parseRecord at h
  split at h
  · rename_i o a b c cls s1 s2 s3 s4 payload
    cases h
    have seq : beBytes 3 (beNat [a, b, c]) = [a, b, c] := beBytes_beNat [a, b, c]
    have stamp : beBytes 4 (beNat [s1, s2, s3, s4]) = [s1, s2, s3, s4] := beBytes_beNat [s1, s2, s3, s4]
    have below : beNat [s1, s2, s3, s4] < 256 ^ 4 := beNat_lt [s1, s2, s3, s4]
    have whole : beNat [s1, s2, s3, s4] % 2 ^ 32 = beNat [s1, s2, s3, s4] := Nat.mod_eq_of_lt (by omega)
    rw [recordBytes, seq, BitVec.toNat_ofNat, whole, stamp]
    simp
  · cases h

theorem recordBytes_length (r : Record) : (recordBytes r).length = 9 + r.payload.length := by
  simp [recordBytes, beBytes_length]
  omega

/-! ### Bodies (R94, 11.1) -/

theorem recordInRange_iff {r : Record} : recordInRange r = true ↔ RecordAdmitted r := by
  simp only [recordInRange, keyInRange, RecordAdmitted, Bool.and_eq_true, decide_eq_true_eq, and_assoc]
  rfl

/-- The ranges of R94, as the model tests them and written out. -/
theorem frameInRange_iff (f : Frame) : frameInRange f = true ↔ FrameAdmitted f := by
  obtain ⟨sender, body⟩ := f
  simp only [frameInRange, FrameAdmitted, Bool.and_eq_true, decide_eq_true_eq, and_assoc]
  refine and_congr_right fun _ => and_congr_right fun _ => ?_
  cases body with
  | receipt keys =>
    simp only [bodyInRange, keyInRange, Bool.and_eq_true, List.all_eq_true, decide_eq_true_eq, and_assoc]
    rfl
  | request origin first span =>
    simp only [bodyInRange, Bool.and_eq_true, decide_eq_true_eq]
    simp only [Config.maxSeq, Config.requestSpan]
    omega
  | repairRecord r => exact recordInRange_iff
  | record r =>
    simp only [bodyInRange, Bool.and_eq_true, beq_iff_eq]
    exact and_congr_left' recordInRange_iff
  | roll st k tc top =>
    simp only [bodyInRange, Bool.and_eq_true, decide_eq_true_eq, and_assoc]
    rfl

/-- The bodies of an admitted frame have the lengths of R94. -/
theorem lengthAllowed_bodyBytes {f : Frame} (h : FrameAdmitted f) :
    lengthAllowed (frameKind f.body) (bodyBytes f.body).length = true := by
  obtain ⟨sender, body⟩ := f
  obtain ⟨-, -, fields⟩ := h
  cases body with
  | receipt keys =>
    have each : (keys.flatMap keyBytes).length = 4 * keys.length := by
      simp [List.length_flatMap, keyBytes, beBytes_length, Nat.mul_comm]
    obtain ⟨low, high, -⟩ := fields
    simp only [bodyBytes_receipt, List.length_cons, each, frameKind, lengthAllowed, Bool.and_eq_true, decide_eq_true_eq]
    omega
  | request origin first span => rfl
  | repairRecord r =>
    obtain ⟨-, -, -, -, -, low, high⟩ := fields
    simp only [frameKind, bodyBytes, recordBytes_length, lengthAllowed, Bool.and_eq_true, decide_eq_true_eq]
    omega
  | record r =>
    obtain ⟨⟨-, -, -, -, -, low, high⟩, -⟩ := fields
    simp only [frameKind, bodyBytes, recordBytes_length, lengthAllowed, Bool.and_eq_true, decide_eq_true_eq]
    omega
  | roll st k tc top => rfl

/-- No body is longer than R94's 249 bytes. -/
theorem lengthAllowed_le {kind n : Nat} (h : lengthAllowed kind n = true) : n ≤ 249 := by
  unfold lengthAllowed at h
  split at h <;> simp at h <;> omega

theorem frameKind_range (b : FrameBody) : 1 ≤ frameKind b ∧ frameKind b ≤ 5 := by
  cases b <;> simp [frameKind]

/-- The body of an admitted frame is read back from its bytes. -/
theorem parseBody_bodyBytes {f : Frame} (h : FrameAdmitted f) : parseBody (frameKind f.body) (bodyBytes f.body) = some f.body := by
  obtain ⟨sender, body⟩ := f
  obtain ⟨-, -, fields⟩ := h
  cases body with
  | receipt keys =>
    obtain ⟨low, high, each⟩ := fields
    have count : (BitVec.ofNat 8 keys.length).toNat = keys.length := toNat_ofNat_byte (by omega)
    have parsed := parseKeys_keyBytes fun k hk => ⟨(each k hk).2.1, (each k hk).2.2.2⟩
    rw [frameKind, bodyBytes_receipt, parseBody, parsed]
    simp [count]
  | request origin first span =>
    obtain ⟨-, originHigh, low, spanLow, spanHigh, last⟩ := fields
    have parsed : parseBody 2 (bodyBytes (.request origin first span)) = some (.request (BitVec.ofNat 8 origin).toNat
        (beNat (beBytes 3 first)) (BitVec.ofNat 8 span).toNat) := rfl
    rw [frameKind, parsed, toNat_ofNat_byte (by omega), toNat_ofNat_byte (by omega), beNat_beBytes_three (by omega)]
  | repairRecord r =>
    rw [frameKind, bodyBytes, parseBody, parseRecord_recordBytes fields]
    rfl
  | record r =>
    rw [frameKind, bodyBytes, parseBody, parseRecord_recordBytes fields.1]
    rfl
  | roll st k tc top =>
    obtain ⟨-, kHigh, tcHigh, topHigh⟩ := fields
    have parsed : parseBody 5 (bodyBytes (.roll st k tc top)) = some (.roll st (BitVec.ofNat 8 k).toNat
        (BitVec.ofNat 8 tc).toNat (beNat (beBytes 3 top))) := by
      cases st <;> rfl
    rw [frameKind, parsed, toNat_ofNat_byte (by omega), toNat_ofNat_byte (by omega), beNat_beBytes_three topHigh]

/-- A body read is one that is sent as those bytes. -/
theorem bodyBytes_parseBody {kind : Nat} {bytes : List Byte} {b : FrameBody} (h : parseBody kind bytes = some b) :
    frameKind b = kind ∧ bodyBytes b = bytes := by
  unfold parseBody at h
  split at h
  · rename_i count rest
    obtain ⟨keys, found, fits⟩ := Option.bind_eq_some_iff.mp h
    split at fits
    · rename_i length
      cases fits
      rw [bodyBytes_receipt, keyBytes_parseKeys found, length]
      simp [frameKind]
    · cases fits
  · rename_i o a b c span
    cases h
    have first : beBytes 3 (beNat [a, b, c]) = [a, b, c] := beBytes_beNat [a, b, c]
    simp [frameKind, bodyBytes, first]
  · obtain ⟨r, found, rfl⟩ := Option.map_eq_some_iff.mp h
    exact ⟨rfl, recordBytes_parseRecord found⟩
  · obtain ⟨r, found, rfl⟩ := Option.map_eq_some_iff.mp h
    exact ⟨rfl, recordBytes_parseRecord found⟩
  · rename_i st k tc a b c
    have top : beBytes 3 (beNat [a, b, c]) = [a, b, c] := beBytes_beNat [a, b, c]
    have roll (s : RollState) (code : BitVec.ofNat 8 (rollCode s) = st) :
        bodyBytes (.roll s k.toNat tc.toNat (beNat [a, b, c])) = [st, k, tc, a, b, c] := by
      simp [bodyBytes, code, top]
    dsimp only at h
    split at h
    · rename_i code
      cases h
      exact ⟨rfl, roll .joining code.symm⟩
    · split at h
      · rename_i code
        cases h
        exact ⟨rfl, roll .active code.symm⟩
      · split at h
        · rename_i code
          cases h
          exact ⟨rfl, roll .leaving code.symm⟩
        · cases h
  · cases h

/-! ### Judging (R96) -/

/-- What a receiver finds of a body that the first five tests of R96 pass. -/
def judgeFields (sender kind : Nat) (body : List Byte) : Judgement :=
  match parseBody kind body with
  | none => .rejected .field
  | some b => if bodyInRange sender b then .valid ⟨sender, b⟩ else .rejected .field

theorem judgeFields_valid {sender kind : Nat} {body : List Byte} {b : FrameBody} (parsed : parseBody kind body = some b)
    (fits : bodyInRange sender b = true) : judgeFields sender kind body = .valid ⟨sender, b⟩ := by
  simp [judgeFields, parsed, fits]

/-- A body passes the sixth test exactly as the fields of a frame in range, and fails it otherwise. -/
theorem judgeFields_cases (sender kind : Nat) (body : List Byte) : judgeFields sender kind body = .rejected .field ∨
    ∃ b, parseBody kind body = some b ∧ bodyInRange sender b = true ∧
      judgeFields sender kind body = .valid ⟨sender, b⟩ := by
  cases parsed : parseBody kind body with
  | none => simp [judgeFields, parsed]
  | some b => cases fits : bodyInRange sender b <;> simp [judgeFields, parsed, fits]

/-- Judging bytes that end where the length byte says: the tests of R96 in their order. -/
theorem judge_eq {arb len c1 c2 : Byte} {body : List Byte} (h : body.length = len.toNat) :
    judge (arb :: len :: (body ++ [c1, c2])) =
      if c1.toNat * 256 + c2.toNat ≠ (crc16 (arb :: len :: body)).toNat then .rejected .crc
      else if arb.toNat / 32 = 0 ∨ 6 ≤ arb.toNat / 32 then .rejected .kind
      else if arb.toNat % 32 = 0 ∨ arb.toNat % 32 = 31 then .rejected .sender
      else if lengthAllowed (arb.toNat / 32) len.toNat = false then .rejected .length
      else judgeFields (arb.toNat % 32) (arb.toNat / 32) body := by
  have ends : ¬ (body ++ [c1, c2]).length ≠ len.toNat + 2 := by simp [h]
  have front : (body ++ [c1, c2]).take len.toNat = body := by rw [← h, List.take_left]
  have back : (body ++ [c1, c2]).drop len.toNat = [c1, c2] := by rw [← h, List.drop_left]
  have crc : beNat [c1, c2] = c1.toNat * 256 + c2.toNat := by simp [beNat]
  simp only [judge, if_neg ends, front, back, crc]
  rfl

/-- The bytes end where the length byte says (R88). -/
def EndsAtLength (bytes : List Byte) : Prop :=
  ∃ (arb len : Byte) (rest : List Byte), bytes = arb :: len :: rest ∧ rest.length = len.toNat + 2

theorem EndsAtLength.split {bytes : List Byte} (h : EndsAtLength bytes) : ∃ (arb len c1 c2 : Byte) (body : List Byte),
    bytes = arb :: len :: (body ++ [c1, c2]) ∧ body.length = len.toNat := by
  obtain ⟨arb, len, rest, rfl, length⟩ := h
  have back : (rest.drop len.toNat).length = 2 := by rw [List.length_drop]; omega
  obtain ⟨c1, c2, tail⟩ := List.length_eq_two.mp back
  refine ⟨arb, len, c1, c2, rest.take len.toNat, ?_, ?_⟩
  · rw [← tail, List.take_append_drop]
  · rw [List.length_take]
    omega

theorem judge_framing_of_not_ends {bytes : List Byte} (h : ¬ EndsAtLength bytes) : judge bytes = .rejected .framing := by
  unfold judge
  split
  · rename_i arb len rest
    rw [if_pos fun length => h ⟨arb, len, rest, rfl, length⟩]
  · rfl

/-- A framing fault is found of bytes that end elsewhere, and of no others. -/
theorem judge_framing_iff (bytes : List Byte) : judge bytes = .rejected .framing ↔ ¬ EndsAtLength bytes := by
  refine ⟨fun found ends => ?_, judge_framing_of_not_ends⟩
  obtain ⟨arb, len, c1, c2, body, rfl, length⟩ := ends.split
  rw [judge_eq length] at found
  rcases judgeFields_cases (arb.toNat % 32) (arb.toNat / 32) body with field | ⟨b, -, -, valid⟩
  · rw [field] at found
    split_ifs at found <;> cases found
  · rw [valid] at found
    split_ifs at found <;> cases found

/-- The arbitration byte and its two fields (R90). -/
theorem arbitration_fields {kind sender : Nat} (hk : kind ≤ 5) (hs : sender ≤ 30) :
    (BitVec.ofNat 8 (kind * 32 + sender)).toNat / 32 = kind ∧ (BitVec.ofNat 8 (kind * 32 + sender)).toNat % 32 = sender := by
  rw [toNat_ofNat_byte (by omega)]
  omega

theorem arbitration_of_fields (arb : Byte) : BitVec.ofNat 8 (arb.toNat / 32 * 32 + arb.toNat % 32) = arb := by
  rw [Nat.div_add_mod', BitVec.ofNat_toNat, BitVec.setWidth_eq]

theorem crc_bytes (c : BitVec 16) : ∃ c1 c2 : Byte, beBytes 2 c.toNat = [c1, c2] ∧ c1.toNat * 256 + c2.toNat = c.toNat := by
  refine ⟨BitVec.ofNat 8 (c.toNat / 256), BitVec.ofNat 8 c.toNat, by simp [beBytes], ?_⟩
  have := c.isLt
  rw [BitVec.toNat_ofNat, BitVec.toNat_ofNat]
  omega

theorem bytes_of_crc {c : BitVec 16} {c1 c2 : Byte} (h : c1.toNat * 256 + c2.toNat = c.toNat) : beBytes 2 c.toNat = [c1, c2] := by
  have both : beBytes 2 (beNat [c1, c2]) = [c1, c2] := beBytes_beNat [c1, c2]
  rw [← h, ← both]
  simp [beNat]

/-- Every admitted frame is judged valid from the bytes it is sent as, with every field. -/
theorem judge_frameBytes {f : Frame} (h : FrameAdmitted f) : judge (frameBytes f) = .valid f := by
  obtain ⟨senderLow, senderHigh, -⟩ := id h
  obtain ⟨kindLow, kindHigh⟩ := frameKind_range f.body
  obtain ⟨kind, sender⟩ := arbitration_fields kindHigh senderHigh
  have allowed := lengthAllowed_bodyBytes h
  have length : (bodyBytes f.body).length < 256 := by
    have := lengthAllowed_le allowed
    omega
  obtain ⟨c1, c2, crc, fits⟩ := crc_bytes (crc16 (frameFront f))
  have inRange : bodyInRange f.sender f.body = true := by
    have all := (frameInRange_iff f).mpr h
    simp only [frameInRange, Bool.and_eq_true] at all
    exact all.2
  have checked : ¬ c1.toNat * 256 + c2.toNat ≠ (crc16 (BitVec.ofNat 8 (frameKind f.body * 32 + f.sender) ::
      BitVec.ofNat 8 (bodyBytes f.body).length :: bodyBytes f.body)).toNat := not_not.mpr fits
  rw [frameBytes, crc]
  show judge (_ :: _ :: (bodyBytes f.body ++ [c1, c2])) = _
  rw [judge_eq (toNat_ofNat_byte length).symm, kind, sender, toNat_ofNat_byte length, if_neg checked,
    if_neg (by omega), if_neg (by omega), if_neg (by simp [allowed]),
    judgeFields_valid (parseBody_bodyBytes h) inRange]

/-- Bytes judged valid are those an admitted frame is sent as. -/
theorem frameBytes_of_judge {bytes : List Byte} {f : Frame} (h : judge bytes = .valid f) :
    bytes = frameBytes f ∧ FrameAdmitted f := by
  have ends : EndsAtLength bytes := by
    by_contra short
    rw [judge_framing_of_not_ends short] at h
    cases h
  obtain ⟨arb, len, c1, c2, body, rfl, length⟩ := ends.split
  rw [judge_eq length] at h
  split_ifs at h with crc kind sender allowed
  rcases judgeFields_cases (arb.toNat % 32) (arb.toNat / 32) body with field | ⟨b, parsed, fits, valid⟩
  · rw [field] at h
    cases h
  · rw [valid] at h
    cases h
    obtain ⟨kind_, body_⟩ := bodyBytes_parseBody parsed
    have front : frameFront ⟨arb.toNat % 32, b⟩ = arb :: len :: body := by
      simp only [frameFront, kind_, body_, arbitration_of_fields, length, BitVec.ofNat_toNat, BitVec.setWidth_eq]
    refine ⟨?_, (frameInRange_iff _).mp ?_⟩
    · rw [frameBytes, front, bytes_of_crc (not_not.mp crc)]
      rfl
    · simp only [frameInRange, Bool.and_eq_true, decide_eq_true_eq]
      exact ⟨by omega, fits⟩

theorem lengthAllowed_iff {kind n : Nat} (low : 1 ≤ kind) (high : kind ≤ 5) :
    lengthAllowed kind n = true ↔ LengthAdmitted kind n := by
  interval_cases kind <;> simp [lengthAllowed, LengthAdmitted]

/-- Settles O60: the bytes of a frame are read back, bytes judged valid are built again, and the tests stand in their order. -/
theorem framesAreJudgedAsBuilt : Obligations.FramesAreJudgedAsBuilt := by
  unfold Obligations.FramesAreJudgedAsBuilt
  refine ⟨frameInRange_iff, fun f => judge_frameBytes, fun bytes f => frameBytes_of_judge, judge_framing_iff, ?_,
    codesAndNumbers, ?_⟩
  · intro arb len c1 c2 body length found crcFits kind sender kindFits senderFits
    have judged : found = _ := judge_eq length
    have allowed (fits : kindFits) : lengthAllowed kind len.toNat = true ↔ LengthAdmitted kind len.toNat :=
      lengthAllowed_iff fits.1 fits.2
    have kindPasses (fits : kindFits) : ¬ (kind = 0 ∨ 6 ≤ kind) := by
      obtain ⟨low, high⟩ := fits
      omega
    have senderPasses (fits : senderFits) : ¬ (sender = 0 ∨ sender = 31) := by
      obtain ⟨low, high⟩ := fits
      omega
    refine ⟨fun crc => ?_, fun crc other => ?_, fun crc fits other => ?_,
    fun crc fits fits' other => ?_, fun crc fits fits' admitted => ?_⟩
    · rw [judged, if_pos crc]
    · rw [judged, if_neg (not_not.mpr crc), if_pos (by omega)]
    · have below : sender < 32 := Nat.mod_lt _ (by decide)
      rw [judged, if_neg (not_not.mpr crc), if_neg (kindPasses fits), if_pos (by omega)]
    · rw [judged, if_neg (not_not.mpr crc), if_neg (kindPasses fits), if_neg (senderPasses fits'),
        if_pos (Bool.eq_false_iff.mpr (mt (allowed fits).mp other))]
    · rw [if_neg (not_not.mpr crc), if_neg (kindPasses fits), if_neg (senderPasses fits'),
        if_neg (Bool.not_eq_false _ ▸ (allowed fits).mpr admitted)] at judged
      rcases judgeFields_cases sender kind body with field | ⟨b, -, -, valid⟩
      · exact .inl (judged.trans field)
      · obtain ⟨bytes, inRange⟩ := frameBytes_of_judge (judged.trans valid)
        exact .inr ⟨_, inRange, bytes.symm, judged.trans valid⟩
  · intro f
    cases f with
    | mk sender body => cases body <;> rfl

end Sys2Proof.Machine
end


section
/-! PROOFS of the family of 06_station_states_and_the_roster.md. First the requests and timers of the station's state; then what a
frame heard does to the roster, said once, and what a REQUEST and a ROLL do behind it. -/

namespace Sys2Proof.Machine

/-! ### JOIN and LEAVE (R111, R114) -/

/-- A station is drained as R114 says: every tracker entry done, nothing LOCAL in the queue, nothing to be sent once. -/
theorem State.drained_iff (s : State) : s.drained = true ↔
    (∀ e ∈ s.tracker.entries, e.state = .secured ∨ e.state = .short) ∧
      (∀ e ∈ s.intake, e.source ≠ .localHost) ∧ s.transmit.sendOnce = [] := by
  simp [State.drained, State.localEntries, TrackerState.isDone_iff, and_assoc]

theorem State.drainTest_drained {s : State} (leaving : s.controller.state = .leaving) (drained : s.drained = true) :
    s.drainTest = { s with controller := { s.controller with rollDue := some .leaving, rollTimer := none } } :=
  if_pos ⟨leaving, drained⟩

theorem State.drainTest_undrained {s : State} (undrained : s.drained = false) : s.drainTest = s :=
  if_neg fun h => absurd h.2 (Bool.eq_false_iff.mp undrained)

theorem exec_join {s : State} (taking : Taking s) (mounted : s.controller.state ≠ .mounting) :
    exec (.join []) s = .next (if s.controller.state = .ready then s.joinBus else s.refuse .badState) :=
  taking.handled mounted (x := ()) rfl

theorem exec_leave {s : State} (taking : Taking s) (mounted : s.controller.state ≠ .mounting) :
    exec (.leave []) s = .next (if s.controller.state = .active then
      (State.drainTest { s with controller := { s.controller with state := .leaving } }).respond .done
      else s.refuse .badState) :=
  taking.handled mounted (x := ()) rfl

/-- Settles O17: each request by the station state, and LEAVE by the drain test. -/
theorem joinAndLeave : Obligations.JoinAndLeave := by
  unfold Obligations.JoinAndLeave
  intro s taking mounted
  rw [exec_join taking mounted, exec_leave taking mounted]
  generalize leaving : ({ s with controller := { s.controller with state := .leaving } } : State) = v
  refine ⟨fun ready => ?_, fun elsewhere => ?_, fun active undrained => ?_, fun active drained => ?_, fun elsewhere => ?_,
    s.drained_iff⟩
  · rw [if_pos ready]
    rfl
  · rw [if_neg elsewhere]
    rfl
  · rw [if_pos active, State.drainTest_undrained (by rw [← leaving]; exact undrained), ← leaving]
    rfl
  · rw [if_pos active, State.drainTest_drained (by rw [← leaving]) (by rw [← leaving]; exact drained), ← leaving]
    rfl
  · rw [if_neg elsewhere]
    rfl

/-! ### The roll timer, the silence deadlines and the answers' due times (R111, R113, R121, R166) -/

theorem exec_rollTimerExpiry {s : State} {t : Nat} (awake : s.held = false) (timer : s.controller.rollTimer = some t)
    (onBus : s.onBus = true) : exec .rollTimerExpiry s =
      .next { s.reach t with controller := { s.controller with rollTimer := none, rollDue := s.rollOnExpiry } } := by
  show execRollTimerExpiry s = _
  simp only [execRollTimerExpiry, State.awake_free awake, timer, onBus, if_true]

theorem exec_silenceDeadlineExpiry {s : State} {peer d : Nat} (awake : s.held = false)
    (deadline : (s.rosterRow peer).deadline = some d) : exec (.silenceDeadlineExpiry peer) s =
      .next (((s.reach d).setRosterRow peer .absent).post (.peerDown peer .silent)) := by
  show execSilenceDeadlineExpiry peer s = _
  rw [execSilenceDeadlineExpiry, State.awake_free awake, deadline]

theorem exec_answerDue {s : State} {k : Key} {a : AnswerEntry} (awake : s.held = false) (listed : s.answer k = some a) :
    exec (.answerDue k) s = .next (State.settle s
      { s.reach a.dueAt with gap := { s.gap with answers := s.gap.answers.map (markDue a.dueAt) } }) := by
  show execAnswerDue k s = _
  rw [execAnswerDue, State.awake_free awake, listed]
  rfl

/-- Settles O18: the roll that becomes due by `State.rollOnExpiry`, and each of the other two by its one effect. -/
theorem rollSilenceAndAnswerTimersExpire : Obligations.RollSilenceAndAnswerTimersExpire := by
  unfold Obligations.RollSilenceAndAnswerTimersExpire
  refine ⟨fun s t awake timer => ⟨fun joining => ?_, fun sends other => ?_, fun sends due => ?_⟩,
    fun s peer d last awake row => ?_, fun s k a awake listed => .of_settle (exec_answerDue awake listed)⟩
  · have roll : s.rollOnExpiry = some .joining := if_pos joining
    rw [exec_rollTimerExpiry awake timer (State.onBus_iff.mpr (.inl joining)), roll]
    rfl
  · have roll : s.rollOnExpiry = some .active := by
      rw [State.rollOnExpiry, if_neg (by rcases sends with h | h <;> simp [h]), if_neg other]
    rw [exec_rollTimerExpiry awake timer (State.onBus_iff.mpr (State.onBus_of_sends sends)), roll]
    rfl
  · have roll : s.rollOnExpiry = s.controller.rollDue := by
      rw [State.rollOnExpiry, if_neg (by rcases sends with h | h <;> simp [h]), if_pos due, due]
    rw [exec_rollTimerExpiry awake timer (State.onBus_iff.mpr (State.onBus_of_sends sends)), roll]
    rfl
  · have deadline : (s.rosterRow peer).deadline = some d := by rcases row with h | h <;> rw [h] <;> rfl
    rw [exec_silenceDeadlineExpiry awake deadline]
    rfl

end Sys2Proof.Machine
end


section
namespace Sys2Proof.Machine

/-! ### What a frame does to the roster (R119, R120) -/

/-- The station with this roster, after these events. -/
def State.told (s : State) (roster : Vector RosterRow 30) (events : List Event) : State :=
  events.foldl State.post { s with controller := { s.controller with roster := roster } }

/-- The roster once a valid ROLL of a peer is heard (R119, R120). -/
def State.rollTold (s : State) (id : Nat) (roll : LastRoll) : State :=
  if roll.state = .leaving then s.peerHeard id true else (s.peerHeard id false).rollHeard id roll

/-- What the row of a peer becomes by a ROLL that is not LEAVING (R120). -/
def RosterRow.rolled (deadline : Nat) (roll : LastRoll) (agrees : Bool) : RosterRow :=
  if agrees then .present deadline (some roll) else .discordant deadline (some roll)

/-- The events of a ROLL that is not LEAVING, by the row it finds (R120). -/
def RosterRow.rollEvents (row : RosterRow) (id : Nat) (roll : LastRoll) (agrees : Bool) : List Event :=
  match row with
  | .absent => if agrees then [.peerUp id false] else [.peerUp id false, .peerDiscord id roll.k roll.timingClass]
  | .present _ _ => if agrees then [] else [.peerDiscord id roll.k roll.timingClass]
  | .discordant _ _ => if agrees then [.peerUp id true] else []

section
variable {s : State} {id d : Nat} {last : Option LastRoll} {roll : LastRoll} {roster : Vector RosterRow 30} {events : List Event}

theorem State.told_eq (s : State) (roster : Vector RosterRow 30) (events : List Event) : s.told roster events = { s with
    controller := { s.controller with roster := roster }, port := (events.foldl State.post s).port } := by
  rw [State.told, foldl_post_eq, foldl_post_port_congr (s := s) events (by rfl)]

theorem State.told_post (e : Event) : (s.told roster events).post e = s.told roster (events ++ [e]) := by
  simp only [State.told, List.foldl_append, List.foldl_cons, List.foldl_nil]

theorem State.told_agrees (k timingClass : Nat) : (s.told roster events).agrees k timingClass = s.agrees k timingClass := by
  rw [State.told_eq]
  rfl

theorem State.told_rosterRow (low : 1 ≤ id) (high : id ≤ 30) (row : RosterRow) :
    (s.told (stationSet roster id row) events).rosterRow id = row := by
  rw [State.told_eq]
  exact (stationGet_stationSet ..).trans (if_pos ⟨rfl, low, high⟩)

theorem State.told_setRosterRow (before row : RosterRow) :
    (s.told (stationSet roster id before) events).setRosterRow id row = s.told (stationSet roster id row) events := by
  rw [State.told_eq, State.told_eq, ← stationSet_stationSet roster id before row]
  rfl

/-! A frame that is not a ROLL, by the row it finds (R119). -/

theorem State.peerHeard_absent (row : s.rosterRow id = .absent) : s.peerHeard id false =
    s.told (stationSet s.controller.roster id (.present s.silenceDeadline none)) [.peerUp id false] := by
  simp only [State.peerHeard, row]
  rfl

theorem State.peerHeard_present (row : s.rosterRow id = .present d last) : s.peerHeard id false =
    s.told (stationSet s.controller.roster id (.present s.silenceDeadline last)) [] := by
  simp only [State.peerHeard, row]
  rfl

theorem State.peerHeard_discordant (row : s.rosterRow id = .discordant d last) : s.peerHeard id false =
    s.told (stationSet s.controller.roster id (.discordant s.silenceDeadline last)) [] := by
  simp only [State.peerHeard, row]
  rfl

theorem State.peerHeard_told (s : State) (id : Nat) : ∃ roster events, s.peerHeard id false = s.told roster events := by
  cases row : s.rosterRow id with
  | absent => exact ⟨_, _, State.peerHeard_absent row⟩
  | present d last => exact ⟨_, _, State.peerHeard_present row⟩
  | discordant d last => exact ⟨_, _, State.peerHeard_discordant row⟩

/-! A ROLL: LEAVING, and any other, whose sender is known by then (R119, R120). -/

theorem State.rollTold_leaving_absent (leaving : roll.state = .leaving) (row : s.rosterRow id = .absent) :
    s.rollTold id roll = s.told s.controller.roster [] := by
  rw [State.rollTold, if_pos leaving]
  simp only [State.peerHeard, row]
  rfl

theorem State.rollTold_leaving (leaving : roll.state = .leaving) (row : s.rosterRow id ≠ .absent) :
    s.rollTold id roll = s.told (stationSet s.controller.roster id .absent) [.peerDown id .left] := by
  rw [State.rollTold, if_pos leaving]
  cases known : s.rosterRow id with
  | absent => exact absurd known row
  | present d last | discordant d last => simp only [State.peerHeard, known]; rfl

/-- A ROLL of a peer whose row stands by then. -/
theorem State.rollHeard_known (low : 1 ≤ id) (high : id ≤ 30) {row : RosterRow} (known : row.deadline = some d) :
    (s.told (stationSet roster id row) events).rollHeard id roll =
      s.told (stationSet roster id (.rolled d roll (s.agrees roll.k roll.timingClass)))
        (events ++ row.rollEvents id roll (s.agrees roll.k roll.timingClass)) := by
  cases row with
  | absent => cases known
  | present d' last | discordant d' last =>
    obtain rfl := Option.some.inj known
    simp only [State.rollHeard, State.told_rosterRow low high, State.told_agrees, State.told_setRosterRow, State.told_post,
      RosterRow.rolled, RosterRow.rollEvents]
    cases s.agrees roll.k roll.timingClass <;> simp

/-- A ROLL that is not LEAVING sets the row by what it carries, and posts by the row it finds. -/
theorem State.rollTold_staying (low : 1 ≤ id) (high : id ≤ 30) (staying : roll.state ≠ .leaving) : s.rollTold id roll =
    s.told (stationSet s.controller.roster id (.rolled s.silenceDeadline roll (s.agrees roll.k roll.timingClass)))
      ((s.rosterRow id).rollEvents id roll (s.agrees roll.k roll.timingClass)) := by
  rw [State.rollTold, if_neg staying]
  cases row : s.rosterRow id with
  | absent =>
    rw [State.peerHeard_absent row, State.rollHeard_known low high rfl]
    cases s.agrees roll.k roll.timingClass <;> rfl
  | present d last => rw [State.peerHeard_present row, State.rollHeard_known low high rfl]; rfl
  | discordant d last => rw [State.peerHeard_discordant row, State.rollHeard_known low high rfl]; rfl

end

/-! ### What follows the roster in the event of a frame (log 30) -/

/-- The line and the roster stay, and events are only added. -/
structure Sequel (s u : State) : Prop where
  line : u.line = s.line
  roster : u.controller.roster = s.controller.roster
  events : EventsFollow u s

theorem Sequel.refl (s : State) : Sequel s s := ⟨rfl, rfl, .refl s⟩

theorem Sequel.trans {s t u : State} (h : Sequel s t) (k : Sequel t u) : Sequel s u :=
  ⟨k.line.trans h.line, k.roster.trans h.roster, h.events.trans k.events⟩

theorem Sequel.foldl {α : Type} (f : State → α → State) (hf : ∀ s a, Sequel s (f s a)) (l : List α) (s : State) :
    Sequel s (l.foldl f s) := by
  induction l generalizing s with
  | nil => exact .refl s
  | cons a rest ih => exact (hf s a).trans (ih (f s a))

theorem Sequel.of_keep {s u : State} (h : WorkersKeep s u) : Sequel s u := ⟨h.line, h.roster, h.events⟩

theorem Sequel.of_port {s u : State} (line : u.line = s.line) (roster : u.controller.roster = s.controller.roster)
    (port : u.port = s.port) : Sequel s u := ⟨line, roster, .of_port port⟩

theorem State.applyRow_sequel (s : State) (origin : Nat) (c : RowChange) : Sequel s (s.applyRow origin c) := by
  have row : Sequel s (s.setOriginRow origin c.row) := .of_port rfl rfl rfl
  unfold State.applyRow
  dsimp only
  split
  · exact row
  · exact row.trans (.of_keep (State.post_keep _ _))

theorem countReceipt_sequel (sender : Nat) (s : State) (k : Key) : Sequel s (countReceipt sender s k) := by
  unfold countReceipt
  split
  · exact .refl s
  · split
    · have counted (held : List Nat) : Sequel s (s.updateEntry k fun e => { e with holders := held }) := .of_port rfl rfl rfl
      dsimp only
      split
      · exact (counted _).trans (.of_keep (State.finish_keep _ _ _ _))
      · exact counted _
    · exact .refl s

theorem State.countReceipts_sequel (s : State) (sender : Nat) (keys : List Key) : Sequel s (s.countReceipts sender keys) := by
  unfold State.countReceipts
  split
  · exact .refl s
  · exact .foldl _ (countReceipt_sequel sender) _ _

theorem State.takeRequest_sequel (s : State) (origin first span : Nat) : Sequel s (s.takeRequest origin first span) := by
  unfold State.takeRequest
  split
  · refine .foldl _ (fun t seq => ?_) _ _
    unfold answerSeq
    dsimp only
    split
    · exact .of_port rfl rfl rfl
    · exact .refl t
  · exact .refl s

theorem State.suppress_sequel (s : State) (k : Key) : Sequel s (s.suppress k) := by
  unfold State.suppress
  split
  · exact .refl s
  · exact .of_keep (s.removeAnswer_keep k)

theorem State.offerReceipt_sequel (s : State) (k : Key) : Sequel s (s.offerReceipt k) := by
  unfold State.offerReceipt
  split
  · exact .refl s
  · exact .of_port rfl rfl rfl

theorem State.arrival_sequel (s : State) (k : Key) : Sequel s (s.arrival k) :=
  (s.applyRow_sequel _ _).trans (.of_port rfl rfl rfl)

theorem State.classify_sequel (s : State) (r : Record) (repair : Bool) : Sequel s (s.classify r repair) := by
  unfold State.classify
  split
  · exact .refl s
  · split
    · exact .refl s
    · exact s.offerReceipt_sequel _
  · split
    · exact .refl s
    · exact .of_port rfl rfl rfl
  · exact .refl s
  · exact s.applyRow_sequel _ _
  · exact Sequel.trans (t := s.stage r (.bus true)) (.of_port rfl rfl rfl) (State.arrival_sequel _ _)

theorem State.takeTop_sequel (s : State) (id top : Nat) : Sequel s (s.takeTop id top) := by
  unfold State.takeTop
  split
  · dsimp only
    split
    · exact .of_port rfl rfl rfl
    · exact s.applyRow_sequel _ _
  · exact .refl s

/-! ### A frame of a peer heard -/

/-- What the roster makes of a frame of a peer (R119, R120). -/
def State.rosterHeard (s : State) (f : Frame) : State :=
  match f.body with
  | .roll st k timingClass top => s.rollTold f.sender ⟨st, k, timingClass, top⟩
  | _ => s.peerHeard f.sender false

section
variable {s : State} {sender : Nat}

theorem State.peerHeard_with_line (line : LineUnit) (id : Nat) (leaving : Bool) :
    State.peerHeard { s with line := line } id leaving = { s.peerHeard id leaving with line := line } := by
  have posted (row : RosterRow) (e : Event) := (State.post_with_line (s.setRosterRow id row) e line).symm
  have row : State.rosterRow { s with line := line } id = s.rosterRow id := rfl
  unfold State.peerHeard
  rw [row]
  cases s.rosterRow id with
  | absent => cases leaving; exacts [posted _ _, rfl]
  | present d last | discordant d last => cases leaving; exacts [rfl, posted _ _]

theorem State.rollHeard_with_line (line : LineUnit) (id : Nat) (roll : LastRoll) :
    State.rollHeard { s with line := line } id roll = { s.rollHeard id roll with line := line } := by
  have posted (row : RosterRow) (e : Event) := (State.post_with_line (s.setRosterRow id row) e line).symm
  have row : State.rosterRow { s with line := line } id = s.rosterRow id := rfl
  have same : State.agrees { s with line := line } = s.agrees := rfl
  unfold State.rollHeard
  rw [row, same]
  cases s.rosterRow id with
  | absent => rfl
  | present d last => cases s.agrees roll.k roll.timingClass; exacts [posted _ _, rfl]
  | discordant d last => cases s.agrees roll.k roll.timingClass; exacts [rfl, posted _ _]

theorem State.rollTold_with_line (line : LineUnit) (id : Nat) (roll : LastRoll) :
    State.rollTold { s with line := line } id roll = { s.rollTold id roll with line := line } := by
  unfold State.rollTold
  split
  · exact State.peerHeard_with_line line id true
  · rw [State.peerHeard_with_line, State.rollHeard_with_line]

/-- A valid frame of a peer is delivered with the line as the frame leaves it (R93, R96). -/
theorem Reading.delivers {f : Frame} (reading : Reading s) (valid : frameInRange f = true) (peer : f.sender ≠ s.ownId)
    (deliver : State → State → State) :
    s.awake (fun s => s.hear f (deliver s)) = .next (deliver s { s with line := afterHeard s.line f }) := by
  rw [State.awake_free reading.1, State.hear_valid reading.reads valid, if_neg peer]

theorem exec_requestReceived {origin first span : Nat} (reading : Reading s)
    (valid : frameInRange ⟨sender, .request origin first span⟩ = true) (peer : sender ≠ s.ownId) :
    exec (.requestReceived sender origin first span) s = .next
      (State.takeRequest { s.peerHeard sender false with line := afterHeard s.line ⟨sender, .request origin first span⟩ }
        origin first span) := by
  show execRequestReceived sender origin first span s = _
  rw [execRequestReceived, reading.delivers valid peer, State.peerHeard_with_line]

theorem exec_recordReceived {r : Record} (reading : Reading s) (valid : frameInRange ⟨sender, .record r⟩ = true)
    (peer : sender ≠ s.ownId) : exec (.recordReceived sender r) s = .next (State.settle s ((State.suppress
      { s.peerHeard sender false with line := afterHeard s.line ⟨sender, .record r⟩ } r.key).classify r false)) := by
  show execRecordReceived sender r s = _
  rw [execRecordReceived, reading.delivers valid peer, State.peerHeard_with_line]

theorem exec_repairRecordReceived {r : Record} (reading : Reading s) (valid : frameInRange ⟨sender, .repairRecord r⟩ = true)
    (peer : sender ≠ s.ownId) : exec (.repairRecordReceived sender r) s = .next (State.settle s ((State.suppress
      { s.peerHeard sender false with line := afterHeard s.line ⟨sender, .repairRecord r⟩ } r.key).classify r true)) := by
  show execRepairRecordReceived sender r s = _
  rw [execRepairRecordReceived, reading.delivers valid peer, State.peerHeard_with_line]

theorem exec_rollReceived {st : RollState} {k timingClass top : Nat} (reading : Reading s)
    (valid : frameInRange ⟨sender, .roll st k timingClass top⟩ = true) (peer : sender ≠ s.ownId) :
    exec (.rollReceived sender st k timingClass top) s = .next
      (State.takeTop { s.rollTold sender ⟨st, k, timingClass, top⟩ with
        line := afterHeard s.line ⟨sender, .roll st k timingClass top⟩ } sender top) := by
  show execRollReceived sender st k timingClass top s = _
  rw [execRollReceived, reading.delivers valid peer, ← State.rollTold_with_line]
  cases st <;> rfl

/-- The roster comes first in the event of a frame, and whatever follows leaves the line and the roster (log 30). -/
theorem exec_heard_sequel {f : Frame} (reading : Reading s) (valid : frameInRange f = true) (peer : f.sender ≠ s.ownId) :
    ∃ t, exec (heard f) s = .next t ∧ Sequel { s.rosterHeard f with line := afterHeard s.line f } t := by
  obtain ⟨sender, body⟩ := f
  cases body with
  | receipt keys =>
    refine ⟨_, exec_receiptReceived reading valid peer, ?_⟩
    rw [State.peerHeard_with_line]
    exact (State.countReceipts_sequel _ _ _).trans (.of_keep (State.settle_keep _ _))
  | request origin first span => exact ⟨_, exec_requestReceived reading valid peer, State.takeRequest_sequel _ _ _ _⟩
  | repairRecord r =>
    exact ⟨_, exec_repairRecordReceived reading valid peer,
      ((State.suppress_sequel _ _).trans (State.classify_sequel _ _ _)).trans (.of_keep (State.settle_keep _ _))⟩
  | record r =>
    exact ⟨_, exec_recordReceived reading valid peer,
      ((State.suppress_sequel _ _).trans (State.classify_sequel _ _ _)).trans (.of_keep (State.settle_keep _ _))⟩
  | roll st k timingClass top => exact ⟨_, exec_rollReceived reading valid peer, State.takeTop_sequel _ _ _⟩

/-- What is told by a frame stands in the state that the frame's event ends in. -/
theorem Sequel.of_told {v t : State} {line : LineUnit} {roster : Vector RosterRow 30} {events : List Event}
    (h : Sequel { v with line := line } t) (told : v = s.told roster events) :
    t.controller.roster = roster ∧ EventsFollow t (events.foldl State.post s) := by
  rw [told, State.told_eq] at h
  exact ⟨h.roster, h.events⟩

/-- The model's test of R120 is the one the statements write. -/
theorem State.agrees_eq {c : Configuration} (config : s.controller.config = some c) (k timingClass : Nat) :
    s.agrees k timingClass = decide (k = c.k ∧ timingClass = c.timingClass) := by
  simp [State.agrees, config, eq_comm, Bool.beq_eq_decide_eq]

end

theorem frameInRange_sender {f : Frame} (valid : frameInRange f = true) : 1 ≤ f.sender ∧ f.sender ≤ 30 :=
  have admitted := (frameInRange_iff f).mp valid
  ⟨admitted.1, admitted.2.1⟩

/-- Settles O23: what follows the roster leaves it by `exec_heard_sequel`, and what a frame does to it is said by the row. -/
theorem framesKeepTheRoster : Obligations.FramesKeepTheRoster := by
  unfold Obligations.FramesKeepTheRoster
  intro s f c reading valid config peer
  have own : s.ownId = c.stationId := by simp [State.ownId, config]
  obtain ⟨low, high⟩ := frameInRange_sender valid
  obtain ⟨t, exec_, sequel⟩ := exec_heard_sequel reading valid (own ▸ peer)
  generalize heard_ : s.rosterHeard f = v at sequel
  have roll {st : RollState} {k tc top : Nat} (body : f.body = .roll st k tc top) :
      v = s.rollTold f.sender ⟨st, k, tc, top⟩ := by
    rw [← heard_, State.rosterHeard, body]
  refine ⟨t, exec_, sequel.line, fun other => ?_, fun k tc top body => ?_, fun st k tc top body staying agrees => ?_,
    fun st k tc top body staying differs => ?_⟩
  · have plain : v = s.peerHeard f.sender false := by
      rw [← heard_, State.rosterHeard]
      split
      · rename_i body
        exact absurd body (other _ _ _ _)
      · rfl
    exact ⟨fun absent => sequel.of_told (plain.trans (State.peerHeard_absent absent)),
      fun d last present => sequel.of_told (plain.trans (State.peerHeard_present present)),
      fun d last discordant => sequel.of_told (plain.trans (State.peerHeard_discordant discordant))⟩
  · exact ⟨fun absent => sequel.of_told ((roll body).trans (State.rollTold_leaving_absent rfl absent)),
      fun known => sequel.of_told ((roll body).trans (State.rollTold_leaving rfl known))⟩
  · obtain ⟨roster, events⟩ := sequel.of_told ((roll body).trans (State.rollTold_staying low high staying))
    rw [State.agrees_eq config, decide_eq_true agrees] at roster events
    refine ⟨roster, fun absent => ?_, fun d last present => ?_, fun d last discordant => ?_⟩
    · rwa [absent] at events
    · rwa [present] at events
    · rwa [discordant] at events
  · obtain ⟨roster, events⟩ := sequel.of_told ((roll body).trans (State.rollTold_staying low high staying))
    rw [State.agrees_eq config, decide_eq_false (by tauto)] at roster events
    refine ⟨roster, fun absent => ?_, fun d last present => ?_, fun d last discordant => ?_⟩
    · rwa [absent] at events
    · rwa [present] at events
    · rwa [discordant] at events

end Sys2Proof.Machine
end


section
namespace Sys2Proof.Machine

/-! ### Where a frame of a peer acts (log 30) -/

/-- The station in which what a frame of a peer carries acts: the line, the roster and the port as the frame has left them. -/
def State.afterRoster (s : State) (line : LineUnit) (roster : Vector RosterRow 30) (port : Port) : State :=
  { s with line := line, controller := { s.controller with roster := roster }, port := port }

theorem State.told_with_line (s : State) (line : LineUnit) (roster : Vector RosterRow 30) (events : List Event) :
    { s.told roster events with line := line } = s.afterRoster line roster (events.foldl State.post s).port := by
  rw [State.told_eq]
  rfl

theorem State.afterRoster_onBus {s : State} {line : LineUnit} {roster : Vector RosterRow 30} {port : Port} :
    (s.afterRoster line roster port).onBus = true ↔
      s.controller.state = .joining ∨ s.controller.state = .active ∨ s.controller.state = .leaving :=
  State.onBus_iff (s := s)

theorem State.afterRoster_tracked {s : State} {line : LineUnit} {roster : Vector RosterRow 30} {port : Port} {id : Nat}
    {row : Option TrackedRow} (tracked : (s.originRow id).tracked = row) :
    ((s.afterRoster line roster port).originRow id).tracked = row :=
  tracked

theorem State.afterRoster_answerTime {s : State} {line : LineUnit} {roster : Vector RosterRow 30} {port : Port}
    {c : Configuration} (config : s.controller.config = some c) :
    (s.afterRoster line roster port).answerTime = s.now + c.stationId * s.scaled 500 := by
  have own : s.ownId = c.stationId := by simp [State.ownId, config]
  rw [← own]
  rfl

/-! ### A REQUEST heard (R165) -/

/-- A key that a REQUEST makes an answer entry for while there is room: it is held and not yet listed (R165). -/
def State.answerable (s : State) (k : Key) : Bool := (s.locate k).isSome && s.gap.answers.all fun a => a.key != k

/-- The station with more answer entries. -/
def State.addAnswers (s : State) (made : List AnswerEntry) : State :=
  { s with gap := { s.gap with answers := s.gap.answers ++ made } }

section
variable {s : State} {origin due seq : Nat}

theorem State.answerable_eq (s : State) (k : Key) : s.answerable k = ((s.locate k).isSome && (s.answer k).isNone) := by
  have listed : (s.answer k).isNone = s.gap.answers.all fun a => a.key != k := by
    rw [Bool.eq_iff_iff, State.answer, Option.isNone_iff_eq_none, List.find?_eq_none, List.all_eq_true]
    simp
  rw [listed, State.answerable]

/-- A seq of a REQUEST is answered while there is room. -/
theorem answerSeq_answered (answerable : s.answerable ⟨origin, seq⟩ = true) (room : s.gap.answers.length < 8) :
    answerSeq origin due s seq = s.addAnswers [⟨⟨origin, seq⟩, due, false, false⟩] := by
  rw [State.answerable_eq] at answerable
  refine if_pos ?_
  rw [answerable, Bool.true_and]
  exact decide_eq_true room

/-- Otherwise it is passed over. -/
theorem answerSeq_passed (h : s.answerable ⟨origin, seq⟩ = false ∨ 8 ≤ s.gap.answers.length) :
    answerSeq origin due s seq = s := by
  rw [State.answerable_eq] at h
  refine if_neg (Bool.not_eq_true _ ▸ Bool.and_eq_false_iff.mpr (h.imp id fun full => ?_))
  exact decide_eq_false (Nat.not_lt.mpr full)

/-- An entry made for one key leaves every other key as answerable as it was. -/
theorem State.answerable_addAnswers {a : AnswerEntry} {k : Key} (other : k ≠ a.key) :
    (s.addAnswers [a]).answerable k = s.answerable k := by
  have unlike : (a.key != k) = true := by simpa using other.symm
  simp only [State.answerable, State.addAnswers, List.all_append, List.all_cons, List.all_nil, unlike, Bool.and_true]
  rfl

/-- The seqs of a REQUEST in their order: entries for the answerable ones, as many as there is room for (R165). -/
theorem foldl_answerSeq (origin due : Nat) {seqs : List Nat} (once : seqs.Nodup) (s : State) :
    seqs.foldl (answerSeq origin due) s = s.addAnswers
      ((((seqs.map fun seq => (⟨origin, seq⟩ : Key)).filter s.answerable).take (8 - s.gap.answers.length)).map fun k =>
        ⟨k, due, false, false⟩) := by
  induction seqs generalizing s with
  | nil => simp [State.addAnswers]
  | cons seq rest ih =>
    obtain ⟨new, once⟩ := List.nodup_cons.mp once
    rw [List.foldl_cons, List.map_cons, List.filter_cons]
    cases answerable : s.answerable ⟨origin, seq⟩ with
    | false => rw [answerSeq_passed (.inl answerable), ih once, if_neg (by simp)]
    | true =>
      rw [if_pos rfl]
      rcases Nat.lt_or_ge s.gap.answers.length 8 with room | full
      · have same : (rest.map fun seq => (⟨origin, seq⟩ : Key)).filter
            (s.addAnswers [⟨⟨origin, seq⟩, due, false, false⟩]).answerable =
            (rest.map fun seq => (⟨origin, seq⟩ : Key)).filter s.answerable := by
          refine List.filter_congr fun k hk => State.answerable_addAnswers ?_
          obtain ⟨seq', hseq, rfl⟩ := List.mem_map.mp hk
          exact fun h => new ((Key.mk.inj h).2 ▸ hseq)
        obtain ⟨n, left⟩ : ∃ n, 8 - s.gap.answers.length = n + 1 := ⟨7 - s.gap.answers.length, by omega⟩
        have less : 8 - (s.addAnswers [⟨⟨origin, seq⟩, due, false, false⟩]).gap.answers.length = n := by
          simp only [State.addAnswers, List.length_append, List.length_cons, List.length_nil]
          omega
        rw [answerSeq_answered answerable room, ih once, same, less, left, List.take_succ_cons, List.map_cons]
        simp [State.addAnswers]
      · rw [answerSeq_passed (.inr full), ih once, Nat.sub_eq_zero_of_le full, List.take_zero, List.take_zero]

/-- A REQUEST that reaches the Gap Tracker on the bus. -/
theorem State.takeRequest_onBus (onBus : s.onBus = true) (origin first span : Nat) : s.takeRequest origin first span =
    s.addAnswers (((((List.range span).map fun i => (⟨origin, first + i⟩ : Key)).filter s.answerable).take
      (8 - s.gap.answers.length)).map fun k => ⟨k, s.answerTime, false, false⟩) := by
  have once : ((List.range span).map fun i => first + i).Nodup := List.nodup_range.map fun _ _ => Nat.add_left_cancel
  rw [State.takeRequest, if_pos onBus, foldl_answerSeq origin _ once, List.map_map]
  rfl

theorem State.takeRequest_offBus (offBus : ¬ s.onBus = true) (origin first span : Nat) :
    s.takeRequest origin first span = s := if_neg offBus

end

/-- Settles O25: the roster changes nothing that a REQUEST reads, and the entries are made as `State.takeRequest_onBus` says. -/
theorem requestsMakeAnswers : Obligations.RequestsMakeAnswers := by
  unfold Obligations.RequestsMakeAnswers
  intro s sender origin first span c reading valid config peer onBus wanted made
  have own : s.ownId = c.stationId := by simp [State.ownId, config]
  obtain ⟨roster, events, told⟩ := s.peerHeard_told sender
  have exec_ := exec_requestReceived reading valid (own ▸ peer)
  rw [told, State.told_with_line] at exec_
  by_cases bus : onBus
  · rw [State.takeRequest_onBus (State.afterRoster_onBus.mpr bus), State.afterRoster_answerTime config] at exec_
    exact ⟨_, exec_, rfl, rfl, rfl, rfl, rfl, rfl, rfl, rfl, fun _ => rfl, fun off => absurd bus off⟩
  · rw [State.takeRequest_offBus (mt State.afterRoster_onBus.mp bus)] at exec_
    exact ⟨_, exec_, rfl, rfl, rfl, rfl, rfl, rfl, rfl, rfl, fun on => absurd on bus, fun _ => rfl⟩

/-! ### A ROLL heard (R155, R158, R159) -/

section
variable {s : State} {id top : Nat}

theorem State.takeTop_offBus (offBus : ¬ s.onBus = true) : s.takeTop id top = s := if_neg offBus

/-- An untracked row is adopted at the top seq (R155). -/
theorem State.takeTop_untracked (onBus : s.onBus = true) (untracked : (s.originRow id).tracked = none) :
    s.takeTop id top = s.setOriginRow id ⟨some ⟨top, top, [], 0⟩, (s.originRow id).lost⟩ := by
  simp only [State.takeTop, onBus, untracked, if_true]

/-- A tracked row is extended to it (R158). -/
theorem State.takeTop_tracked (onBus : s.onBus = true) {row : TrackedRow} (tracked : (s.originRow id).tracked = some row) :
    s.takeTop id top = s.applyRow id (extendTo row (s.originRow id).lost top) := by
  simp only [State.takeTop, onBus, tracked, if_true]

/-- A row takes a change: nothing but the origin table and the events differs (R159). -/
theorem State.applyRow_eq (s : State) (origin : Nat) (change : RowChange) : s.applyRow origin change = { s with
    gap := { s.gap with rows := stationSet s.gap.rows origin change.row }, port := (s.applyRow origin change).port } := by
  obtain ⟨row, abandoned⟩ := change
  cases abandoned with
  | none => rfl
  | some g => exact State.post_eq _ _

theorem State.applyRow_port_kept {origin : Nat} {change : RowChange} (kept : change.abandoned = none) :
    (s.applyRow origin change).port = s.port := by
  simp only [State.applyRow, kept]
  rfl

theorem State.applyRow_port_abandoned {origin : Nat} {change : RowChange} {g : Nat × Nat}
    (abandoned : change.abandoned = some g) : (s.applyRow origin change).port = (s.post (.gapAbandoned origin g.1 g.2)).port := by
  simp only [State.applyRow, abandoned]
  exact State.post_port_congr (s := s) (u := s.setOriginRow origin change.row) rfl _

end

/-- Settles O27: the events of the roster by `State.rollTold`, and the row behind them by `State.takeTop`. -/
theorem rollsExtendTheRow : Obligations.RollsExtendTheRow := by
  unfold Obligations.RollsExtendTheRow
  intro s sender k tc top st c reading valid config peer onBus becomes agrees told known
  have own : s.ownId = c.stationId := by simp [State.ownId, config]
  obtain ⟨low, high⟩ := frameInRange_sender valid
  have staying_told (staying : st ≠ .leaving) :
      told = (s.rosterRow sender).rollEvents sender ⟨st, k, tc, top⟩ (s.agrees k tc) := by
    rw [State.agrees_eq config]
    cases st with
    | leaving => exact absurd rfl staying
    | joining | active =>
      simp only [told, agrees]
      cases s.rosterRow sender <;> simp [RosterRow.rollEvents]
  obtain ⟨roster, roll⟩ : ∃ roster, s.rollTold sender ⟨st, k, tc, top⟩ = s.told roster told := by
    by_cases leaving : st = .leaving
    · subst leaving
      cases row : s.rosterRow sender with
      | absent => exact ⟨s.controller.roster, by simp only [told, row]; exact State.rollTold_leaving_absent rfl row⟩
      | present d last | discordant d last =>
        have known_ : s.rosterRow sender ≠ .absent := by simp [row]
        exact ⟨stationSet s.controller.roster sender .absent,
          by simp only [told, row]; exact State.rollTold_leaving rfl known_⟩
    · exact ⟨_, staying_told leaving ▸ State.rollTold_staying low high leaving⟩
  have exec_ := exec_rollReceived reading valid (own ▸ peer)
  rw [roll, State.told_with_line] at exec_
  by_cases bus : onBus
  · cases tracked : (s.originRow sender).tracked with
    | none =>
      rw [State.takeTop_untracked (State.afterRoster_onBus.mpr bus) (State.afterRoster_tracked tracked)] at exec_
      exact ⟨_, exec_, rfl, rfl, rfl, rfl, rfl, rfl, rfl, rfl, fun off => absurd bus off, fun _ _ => ⟨rfl, rfl⟩,
        fun row _ other => absurd other.symm (Option.some_ne_none row)⟩
    | some row =>
      rw [State.takeTop_tracked (State.afterRoster_onBus.mpr bus) (State.afterRoster_tracked tracked), State.applyRow_eq] at exec_
      refine ⟨_, exec_, rfl, rfl, rfl, rfl, rfl, rfl, rfl, rfl, fun off => absurd bus off,
        fun _ other => absurd other (Option.some_ne_none row), fun row' _ same => ?_⟩
      obtain rfl := Option.some.inj same
      exact ⟨rfl, fun kept => State.applyRow_port_kept kept, fun g abandoned =>
        (State.applyRow_port_abandoned abandoned).trans (State.post_port_congr (s := known) (by rfl) _)⟩
  · rw [State.takeTop_offBus (mt State.afterRoster_onBus.mp bus)] at exec_
    exact ⟨_, exec_, rfl, rfl, rfl, rfl, rfl, rfl, rfl, rfl, fun _ => ⟨rfl, rfl⟩, fun on => absurd on bus,
      fun _ on => absurd on bus⟩

end Sys2Proof.Machine
end
